-- ==== Sys2Proof/Word.lean ====
section
/-! DEFINITION. The words of the EB-240: the byte of the serial records, the 16-bit check register, the
32-bit reference word, and the names given to plain counts. -/

namespace Sys2Proof

/-- One character of a link frame, a vessel record or a service record (R188). -/
abbrev Byte := BitVec 8

/-- The 16-bit check register (R193). -/
abbrev Check := BitVec 16

/-- A word of the reference port (R194). -/
abbrev RefWord := BitVec 32

/-- A station address, profile slot code or plug code, 0 to 15 (section 0.4). -/
abbrev Address := Fin 16

/-- The sixteen-place tables keyed by an address or a slot code. -/
abbrev Table (α : Type) := Vector α 16

end Sys2Proof
end

