-- ==== Sys2Proof/Syntax.lean ====
section
/-! DEFINITION. The commands of the EB-240, one constructor per row of spec/opcode_table.json, with the
operands each row's rule gives it. -/

namespace Sys2Proof

/-- Something kept for each of the fourteen input lines (R153). -/
structure PerLine (α : Type) where
  pilot   : α
  pcode0  : α
  pcode1  : α
  pcode2  : α
  pcode3  : α
  estop   : α
  bkaux   : α
  fdrwarn : α
  tadv    : α
  trst    : α
  tsel0   : α
  tsel1   : α
  tsel2   : α
  tsel3   : α
  deriving DecidableEq, Repr

/-- One line setting of LOAD_STATION as it is carried: a kind code and a delay in ms (R158, R191). -/
structure LineArg where
  kind  : Nat
  delay : Nat
  deriving DecidableEq, Repr

/-- The station record as LOAD_STATION carries it and the Service Port holds it (R181, R191). Every field is
the unsigned number on the wire; its range is judged by `stationInRange`. -/
structure StationRecord where
  address            : Nat
  margin             : Nat
  announceInterval   : Nat
  holdWindow         : Nat
  reserveBackoffUnit : Nat
  forgetInterval     : Nat
  breakerTime        : Nat
  vesselLinkTimeout  : Nat
  linkLossInterval   : Nat
  meterStaleInterval : Nat
  stuckBreakerClaim  : Nat
  pilot   : LineArg
  estop   : LineArg
  bkaux   : LineArg
  fdrwarn : LineArg
  tadv    : LineArg
  trst    : LineArg
  pcode   : LineArg
  tsel    : LineArg
  deriving DecidableEq, Repr

/-- The data fields of LOAD_PROFILE as they are carried (R149, R191). -/
structure ProfileArgs where
  slot              : Nat
  maxFirm           : Nat
  minFirm           : Nat
  maxFlex           : Nat
  quantum           : Nat
  raiseLimit        : Nat
  rampStep          : Nat
  rampInterval      : Nat
  downrampStep      : Nat
  inrushAllowance   : Nat
  inrushWindow      : Nat
  syncWindow        : Nat
  parallelLimit     : Nat
  overdrawTolerance : Nat
  overdrawDwell     : Nat
  stallLimit        : Nat
  idPresence        : Nat
  expectedId        : Nat
  deriving DecidableEq, Repr

/-- A run of characters assembled from a serial line up to its end: the characters, and whether one of them had a
stop bit at the wrong level (R130, R136). -/
structure Reception where
  bytes        : List Byte
  framingError : Bool
  deriving DecidableEq, Repr

/-- The level of the berth link's pair, or of a line of the vessel link, in one bit time: true for driven and false for
released (R120, R135). -/
abbrev Level := Bool

/-- The levels of the sixteen bit times of an objection slot, the first at index 0 (R121, R129). -/
abbrev SlotLevels := Vector Level 16

/-- The two edge lines (R153). -/
inductive EdgeLine where
  | tadv
  | trst
  deriving DecidableEq, Repr

/-- The commands: what the outside does to the part and what happens at its ports and timers, each whole and
indivisible (spec/opcode_table.json). -/
inductive Instr where
  /-- RESET (R178). -/
  | reset
  /-- LINE_INITIAL_SETTLE (R157): the first time-base boundary after reset, with the level of each line there. -/
  | lineInitialSettle (levels : PerLine Bool)
  /-- LOAD_STATION (R181). -/
  | loadStation (record : StationRecord)
  /-- LOAD_PROFILE (R149). -/
  | loadProfile (args : ProfileArgs)
  /-- LOAD_PERIOD (R109): index, capacity, executions. -/
  | loadPeriod (index capacity executions : Nat)
  /-- SET_SCHEDULE_MODE (R110): the mode code of R191. -/
  | setScheduleMode (code : Nat)
  /-- START (R182). -/
  | start
  /-- READ_STATUS (R186). -/
  | readStatus
  /-- LATCH (R184). -/
  | latch
  /-- READ_SNAPSHOT (R184). -/
  | readSnapshot
  /-- READ_PEER (R51). -/
  | readPeer (address : Nat)
  /-- CLEAR_TRIP (R176). -/
  | clearTrip
  /-- FORGET_PEER (R50). -/
  | forgetPeer (address : Nat)
  /-- BERTH_HOLD (R9): the setting code of R191. -/
  | berthHold (setting : Nat)
  /-- PROBE (R90): the want figure. -/
  | probe (want : Nat)
  /-- TRANSACTION_NOT_TAKEN (R179): the bytes shifted in. -/
  | transactionNotTaken (bytes : List Byte)
  /-- PILOT_PROVEN (R6). -/
  | pilotProven
  /-- PILOT_LOST (R7). -/
  | pilotLost
  /-- AUX_READS_CLOSED (R13). -/
  | auxReadsClosed
  /-- AUX_READS_OPEN (R18). -/
  | auxReadsOpen
  /-- ESTOP_CHANGE (R168): the new qualified state. -/
  | estopChange (active : Bool)
  /-- FEEDER_WARNING_CHANGE (R168): the new qualified state. -/
  | feederWarningChange (active : Bool)
  /-- PLUG_CODE_LINE_CHANGE (R155): the line PCODE0 to PCODE3 and its new qualified state. -/
  | plugCodeLineChange (line : Fin 4) (active : Bool)
  /-- TARIFF_ADVANCE (R113). -/
  | tariffAdvance
  /-- TARIFF_RESTART (R114). -/
  | tariffRestart
  /-- TARIFF_SELECT_CHANGE (R115): the line TSEL0 to TSEL3 and its new qualified state. -/
  | tariffSelectChange (line : Fin 4) (active : Bool)
  /-- EDGE_LINE_SETTLED (R156): the edge line whose non-matching change has qualified. -/
  | edgeLineSettled (line : EdgeLine)
  /-- SHIP_STATUS_RECORD (R142): the levels of the record on VRX, from its first driven bit time to its end. -/
  | shipStatusRecord (levels : List Level)
  /-- METER_SAMPLE (R159): the bits clocked in on MTRRX, first bit first. -/
  | meterSample (bits : List Bool)
  /-- RECEIVED_TRANSMISSION_END (R130): the levels of the transmission, from its first driven bit time to its end. -/
  | receivedTransmissionEnd (levels : List Level)
  /-- ANNOUNCE_RECEIVED (R38): the end of the objection slot after a valid ANNOUNCE. -/
  | announceReceived
  /-- RESERVE_RECEIVED (R40): the end of the objection slot after a valid RESERVE, with the slot's levels. -/
  | reserveReceived (levels : SlotLevels)
  /-- WITHDRAW_RECEIVED (R41): the end of the objection slot after a valid WITHDRAW. -/
  | withdrawReceived
  /-- ATTEMPT_START (R125). -/
  | attemptStart
  /-- COLLISION (R126): another station drives the pair in the bit time that is being sent. -/
  | collision
  /-- COLLIDED_TRANSMISSION_END (R127). -/
  | collidedTransmissionEnd
  /-- OWN_SLOT_END (R128), with the slot's levels. -/
  | ownSlotEnd (levels : SlotLevels)
  /-- ANNOUNCE_TIMER_EXPIRY (R133). -/
  | announceTimerExpiry
  /-- LISTEN_EXPIRY (R183). -/
  | listenExpiry
  /-- HOLD_EXPIRY (R58). -/
  | holdExpiry
  /-- RESERVE_BACKOFF_EXPIRY (R57). -/
  | reserveBackoffExpiry
  /-- BREAKER_TIMER_EXPIRY (R4). -/
  | breakerTimerExpiry
  /-- INRUSH_EXPIRY (R24). -/
  | inrushExpiry
  /-- SYNC_WINDOW_EXPIRY (R14). -/
  | syncWindowExpiry
  /-- PARALLEL_LIMIT_EXPIRY (R15). -/
  | parallelLimitExpiry
  /-- RAMP_TICK (R96). -/
  | rampTick
  /-- VESSEL_LINK_TIMEOUT (R139). -/
  | vesselLinkTimeout
  /-- LINK_LOSS_TRIP_EXPIRY (R173). -/
  | linkLossTripExpiry
  /-- OVERDRAW_EXPIRY (R172). -/
  | overdrawExpiry
  /-- METER_STALE_EXPIRY (R160). -/
  | meterStaleExpiry
  /-- SILENT_AGEING_STEP (R47) of the entry at an address. -/
  | silentAgeingStep (address : Address)
  /-- RESERVED_FIELD_AGE_STEP (R66) of the entry at an address. -/
  | reservedFieldAgeStep (address : Address)
  /-- COMPUTATION_COMPLETE (R73). -/
  | computationComplete
  /-- REFERENCE_WORD_END (R105). -/
  | referenceWordEnd
  /-- STATUS_INTERVAL_REACHED (R147). -/
  | statusIntervalReached
  /-- STATUS_RECORD_GAP_END (R147). -/
  | statusRecordGapEnd
  /-- LINE_SAMPLING (R154): a 1 ms boundary, with the level of each line there. -/
  | lineSampling (levels : PerLine Bool)
  /-- TRANSMISSION_BEGINS (R121). -/
  | transmissionBegins
  /-- BERTH_STATUS_RECORD_END (R147). -/
  | berthStatusRecordEnd
  deriving DecidableEq, Repr

end Sys2Proof
end

