-- ==== Sys2Proof/Decode.lean ====
section
/-! DEFINITION. The command that a word spells by the bits of spec/opcode_table.json: no row of the table has bits, so
no word spells a command. The byte records that do carry commands are read in Machine/Formats.lean. -/

namespace Sys2Proof

/-- No row of the table gives bits, so every word is rejected. -/
def decodeTableWord (_nbits _w : Nat) : Option Instr := none

end Sys2Proof
end

