-- ==== Sys2Proof/Config.lean ====
section
/-! DEFINITION. The fixed figures the data book states in words, and the one free value of the model. -/

namespace Sys2Proof.Config

/-- FREE VALUE (R32, R72, R43). A computation reads the fifteen peer entries one by one at moments between its
start and its completion that the data book does not fix. `readMoment k a` is the number of the view (0 the
one at the start) that computation number `k` reads at address `a`, before the engine's order of reading is
applied. No body is visible: every statement holds whatever it is. Log entry 2. -/
opaque readMoment : Nat → Nat → Nat

/-- The reset interval of the breaker timer, in ms (R3, R4). -/
def resetPulse : Nat := 2000
/-- The largest firm or flex figure and reserve amount, in kW (R21, R52). -/
def maxClaim : Nat := 16383
/-- The largest transient figure, in kW (R21). -/
def maxTransient : Nat := 4095
/-- The largest capacity, in kW (R108). -/
def maxCapacity : Nat := 60000
/-- The number of consecutive misses that turns an entry SILENT (R45). -/
def silenceMisses : Nat := 3
/-- The age at which a reserved field is folded in (R66). -/
def foldAge : Nat := 3
/-- The cut settle count after a cut (R83). -/
def cutSettle : Nat := 2
/-- The idle gap of the berth link in bit times (R125). -/
def idleGap : Nat := 48
/-- The bit times of backoff for each address step (R126). -/
def backoffStep : Nat := 64
/-- The number of collisions at which a frame is dropped (R127). -/
def maxCollisions : Nat := 16
/-- The length of an objection slot in bit times (R121). -/
def slotBits : Nat := 16
/-- The run of released bit times that ends a transmission (R121). -/
def endRun : Nat := 10
/-- The run of released bit times that ends a vessel link record (R135). -/
def recordRun : Nat := 20
/-- The released bit times of the gap after a berth status record (R147). -/
def gapBits : Nat := 20
/-- The length of the jam in bit times (R126). -/
def jamBits : Nat := 16
/-- The data bits of a character (R120, R135). -/
def dataBits : Nat := 8
/-- The bit time of a slot, counted from 1, in which its first sample is taken (R129). -/
def firstSample : Nat := 5
/-- The number of samples taken of a slot, one in each bit time (R129). -/
def slotSamples : Nat := 8
/-- The number of driven samples, of eight, at which a slot reads driven (R129). -/
def slotThreshold : Nat := 4
/-- The status interval in ms (R147). -/
def statusInterval : Nat := 50
/-- The milliseconds in a second of an interval stated in seconds (R166). -/
def second : Nat := 1000
/-- The clocks of a meter word (R159). -/
def meterClocks : Nat := 16
/-- The multiple of the announce interval that the listen timer runs (R178). -/
def listenMultiple : Nat := 3

end Sys2Proof.Config
end

