-- ==== Sys2Proof/Machine/State.lean ====
section
/-! DEFINITION. Everything the data book gives the EB-240 to hold, block by block, as plain data, and the
machine right after reset. Beside it stand the three model fields: the queue of waiting commands, the count
that the free value is applied to, and what the Trip Unit must remember of its two conditions. -/

namespace Sys2Proof

/-- The same thing for each of the fourteen lines. -/
def PerLine.replicate {α : Type} (x : α) : PerLine α :=
  { pilot := x, pcode0 := x, pcode1 := x, pcode2 := x, pcode3 := x, estop := x, bkaux := x, fdrwarn := x,
    tadv := x, trst := x, tsel0 := x, tsel1 := x, tsel2 := x, tsel3 := x }

end Sys2Proof

namespace Sys2Proof.Machine

/-! ### Berth Sequencer -/

/-- The berth phases of section 1.1 (R1). -/
inductive Phase where
  | vacant
  | plugged
  | queued
  | energising
  | awaitSync
  | parallel
  | onShore
  | transferBack
  | deEnergising
  | tripped
  deriving DecidableEq, Repr

/-- The breaker command the breaker timer is serving (R4). -/
inductive BreakerCommand where
  | resetPulse
  | close
  | openCmd
  deriving DecidableEq, Repr

/-- The Berth Sequencer (R1, R3, R4, R5, R21). -/
structure Bsq where
  phase           : Phase
  noProfile       : Bool
  vesselMismatch  : Bool
  syncAbort       : Bool
  parallelForced  : Bool
  /-- The code of the selected profile slot, or none (R1). -/
  profileCode     : Option Address
  hostHold        : Bool
  voltagePresent  : Bool
  firm            : Nat
  flex            : Nat
  transient       : Nat
  /-- The BKCLOSE output, true for asserted (R3). -/
  bkClose         : Bool
  /-- The BKOPEN output, true for asserted (R3). -/
  bkOpen          : Bool
  /-- Which command the breaker timer serves, none while it is stopped (R4). -/
  serving         : Option BreakerCommand
  deriving DecidableEq, Repr

/-! ### Peer View Table and Reservation Unit -/

/-- The standing of an entry (R32). -/
inductive Standing where
  | empty
  | live
  | silent
  | own
  deriving DecidableEq, Repr

/-- The class of a reserve (R52). -/
inductive ReserveClass where
  | firmEnergise
  | flexRaise
  deriving DecidableEq, Repr

/-- The reserved field of a peer entry (R31). `elapsed` is its age count: the boundaries passed since the field was
written or since its age last rose (R66). -/
structure Reserved where
  amount  : Nat
  cls     : ReserveClass
  age     : Nat
  elapsed : Nat
  deriving DecidableEq, Repr

/-- One entry of the Peer View Table (R31). `silentElapsed` counts the boundaries since the entry became SILENT or
since its last ageing step (R47). -/
structure PeerEntry where
  standing      : Standing
  phaseCode     : Option Nat
  firm          : Nat
  flex          : Nat
  transient     : Nat
  periodIndex   : Option Nat
  capacity      : Option Nat
  tripped       : Bool
  firmOverload  : Bool
  listening     : Bool
  reserved      : Option Reserved
  heard         : Bool
  changed       : Bool
  missed        : Nat
  silentAge     : Nat
  silentElapsed : Nat
  deriving DecidableEq, Repr

/-- An entry as reset leaves it (R33). -/
def PeerEntry.blank : PeerEntry :=
  { standing := .empty, phaseCode := none, firm := 0, flex := 0, transient := 0, periodIndex := none,
    capacity := none, tripped := false, firmOverload := false, listening := false, reserved := none,
    heard := false, changed := false, missed := 0, silentAge := 0, silentElapsed := 0 }

/-- The states of the own reserve (R52). -/
inductive ReserveState where
  | none
  | queued
  | sent
  | hold
  | backoff
  deriving DecidableEq, Repr

/-- The own reserve record (R52). `refusedOnLink` says that a wanted reserve was refused because an earlier RESERVE
frame is still on the link, so that its end requests a recompute (R53). -/
structure Rsu where
  state         : ReserveState
  amount        : Nat
  cls           : Option ReserveClass
  refusedOnLink : Bool
  deriving DecidableEq, Repr

/-! ### Headroom Engine -/

/-- The station mode (R178). -/
inductive Mode where
  | config
  | listen
  | run
  deriving DecidableEq, Repr

/-- The state of the vessel link (R134). -/
inductive VesselLink where
  | idle
  | up
  | lost
  deriving DecidableEq, Repr

/-- What an entry hands to the engine (R32): its counted claim, its part of the flexible sum, and its capacity
where that takes part in the period minimum. -/
structure PeerReading where
  counted  : Nat
  flex     : Nat
  capacity : Option Nat
  deriving DecidableEq, Repr

/-- The figures of the selected profile that a computation copies (R72). -/
structure ProfileFigures where
  maxFlex         : Nat
  quantum         : Nat
  raiseLimit      : Nat
  inrushAllowance : Nat
  deriving DecidableEq, Repr

/-- The own inputs that a computation copies at its start (R72). -/
structure OwnInputs where
  mode         : Mode
  phase        : Phase
  firm         : Nat
  flex         : Nat
  transient    : Nat
  reserveState : ReserveState
  reserveClass : Option ReserveClass
  amount       : Nat
  pc           : Nat
  margin       : Nat
  profile      : Option ProfileFigures
  clampedFirm  : Nat
  clampedFlex  : Nat
  link         : VesselLink
  cutSettle    : Nat
  deriving DecidableEq, Repr

/-- The working record of a computation in progress (R72). `seen` lists the views of the table that have stood since
the start, oldest first, from which the reads are taken; `stale` says that an event since the start has changed an
own input (R73). -/
structure Working where
  inputs : OwnInputs
  seen   : List (Table PeerReading)
  stale  : Bool
  deriving DecidableEq, Repr

/-- The last result of the engine (R70). -/
inductive LastResult where
  | none
  | release (amount : Nat)
  | cut (amount : Nat)
  | cutWithheld (amount : Nat)
  | reserveWanted (cls : ReserveClass) (amount : Nat)
  | energiseWait (amount : Nat)
  | deferred
  | discarded
  deriving DecidableEq, Repr

/-- The Headroom Engine (R70). The engine condition is IDLE where `computing` is none. -/
structure Hre where
  request      : Bool
  computing    : Option Working
  pmin         : Nat
  e            : Nat
  s            : Nat
  f            : Nat
  h            : Int
  last         : LastResult
  disagreement : Bool
  firmOverload : Bool
  cutSettle    : Nat
  deriving DecidableEq, Repr

/-! ### Grant Output Stage -/

/-- The reference port: idle, or sending a word with the grant and the count it started with (R105). -/
inductive RefPort where
  | idle
  | sending (grant count : Nat)
  deriving DecidableEq, Repr

/-- The Grant Output Stage (R92); its ramp timer stands in the Timer Bank. -/
structure Gos where
  target      : Nat
  pending     : Nat
  applied     : Nat
  stall       : Nat
  suspended   : Bool
  port        : RefPort
  updateCount : Nat
  deriving DecidableEq, Repr

/-! ### Capacity Schedule -/

/-- The schedule modes (R108). -/
inductive ScheduleMode where
  | stepped
  | selected
  | fixed
  deriving DecidableEq, Repr

/-- One period record (R108). -/
structure Period where
  capacity   : Nat
  executions : Nat
  deriving DecidableEq, Repr

/-- The Capacity Schedule (R108). The loaded count is the length of the list. -/
structure Csc where
  periods     : List Period
  mode        : ScheduleMode
  index       : Nat
  pc          : Nat
  remaining   : Nat
  selectRange : Bool
  deriving DecidableEq, Repr

/-! ### Berth Link Controller -/

/-- The fields of an ANNOUNCE after its address (R189). -/
structure AnnounceFields where
  phaseCode    : Nat
  periodIndex  : Nat
  firm         : Nat
  flex         : Nat
  transient    : Nat
  capacity     : Nat
  tripped      : Bool
  firmOverload : Bool
  listening    : Bool
  deriving DecidableEq, Repr

/-- A berth link frame (R189). -/
inductive Frame where
  | announce (address : Address) (fields : AnnounceFields)
  | reserve (address : Address) (amount : Nat) (cls : ReserveClass)
  | withdraw (address : Address)
  deriving DecidableEq, Repr

/-- What a queued frame fixes at joining (R123, R124). -/
inductive TxContent where
  | announce
  | reserve (amount : Nat) (cls : ReserveClass)
  | withdraw
  deriving DecidableEq, Repr

/-- One entry of the transmit queue (R122): the `abandoned` mark is that of R124. -/
structure TxEntry where
  content    : TxContent
  collisions : Nat
  refresh    : Bool
  abandoned  : Bool
  deriving DecidableEq, Repr

/-- What is on the pair as this station follows it, bit time by bit time (R121). -/
inductive LinkPhase where
  /-- Outside any transmission and slot. -/
  | idle
  /-- A transmission of another station. -/
  | foreign
  /-- The own frame is being sent, at this bit of it: 0 for its first start bit (R120, R125). -/
  | own (bit : Nat)
  /-- The own frame has been sent whole, and the pair has since been released for this many bit times, the released
  bits at the frame's own end counted (R121). -/
  | ending (released : Nat)
  /-- The objection slot of the own frame, with this many of its bit times left (R121, R128). -/
  | ownSlot (left : Nat)
  /-- The own jam, with this many of its bit times left (R126). -/
  | jam (left : Nat)
  /-- A collided transmission after the own jam, the pair released for this many bit times since the last driven one
  (R121, R126). -/
  | collided (released : Nat)
  /-- The objection slot of a transmission that this station has not sent whole: whether this station drives it, and
  how many of its bit times are left (R121, R129). -/
  | slot (driving : Bool) (left : Nat)
  deriving DecidableEq, Repr

/-- A valid frame in the receive buffer (R130), with whether it was received in CONFIG (R36, R131). -/
structure RxFrame where
  frame    : Frame
  inConfig : Bool
  deriving DecidableEq, Repr

/-- The Berth Link Controller (R121, R122, R125, R130, R132). `onWire` is the frame of the attempt in progress. -/
structure Blc where
  queue     : List TxEntry
  link      : LinkPhase
  idleCount : Nat
  onWire    : Option Frame
  rx        : Option RxFrame
  conflict  : Bool
  deriving DecidableEq, Repr

/-! ### Vessel Link Port -/

/-- The request field of a ship status record (R136). -/
inductive ShipRequest where
  | none
  | shore
  | back
  deriving DecidableEq, Repr

/-- The generators field of a ship status record (R136). -/
inductive Generators where
  | online
  | syncing
  | off
  deriving DecidableEq, Repr

/-- A ship status record as received (R136); `breakerClosed` is the ship shore-breaker field. -/
structure ShipRecord where
  vesselId      : Nat
  request       : ShipRequest
  breakerClosed : Bool
  generators    : Generators
  firmDemand    : Nat
  flexDemand    : Nat
  echo          : Nat
  deriving DecidableEq, Repr

/-- The trip causes, in the order of their codes (R168, R190). -/
inductive TripCause where
  | pilotLost
  | estop
  | feederLost
  | breakerFail
  | breakerUncommanded
  | overdraw
  | linkLost
  deriving DecidableEq, Repr

/-- The content of a berth status record (R146). -/
structure BerthStatus where
  phase          : Phase
  applied        : Nat
  voltagePresent : Bool
  cause          : Option TripCause
  suspended      : Bool
  firmOverload   : Bool
  deriving DecidableEq, Repr

/-- The state of the berth status record output (R147). -/
inductive SenderState where
  | idle
  | sending
  | gap
  deriving DecidableEq, Repr

/-- A loaded profile slot (R148). -/
structure Profile where
  maxFirm           : Nat
  minFirm           : Nat
  maxFlex           : Nat
  quantum           : Nat
  raiseLimit        : Nat
  rampStep          : Nat
  rampInterval      : Nat
  downrampStep      : Nat
  inrushAllowance   : Nat
  inrushWindow      : Nat
  syncWindow        : Nat
  parallelLimit     : Nat
  overdrawTolerance : Nat
  overdrawDwell     : Nat
  stallLimit        : Nat
  expectedId        : Option Nat
  deriving DecidableEq, Repr

/-- The Vessel Link Port (R134); its link timeout stands in the Timer Bank. -/
structure Vlp where
  link          : VesselLink
  held          : Option ShipRecord
  clampedFirm   : Nat
  clampedFlex   : Nat
  demandClamped : Bool
  sender        : SenderState
  statusCount   : Nat
  lastSent      : Option BerthStatus
  slots         : Table (Option Profile)
  deriving DecidableEq, Repr

/-! ### Meter Port, Trip Unit -/

/-- The Meter Port (R159); its meter-stale timer stands in the Timer Bank. -/
structure Mtp where
  draw  : Option Nat
  stale : Bool
  deriving DecidableEq, Repr

/-- A set of trip causes (R167). -/
structure CauseSet where
  pilotLost          : Bool
  estop              : Bool
  feederLost         : Bool
  breakerFail        : Bool
  breakerUncommanded : Bool
  overdraw           : Bool
  linkLost           : Bool
  deriving DecidableEq, Repr

/-- A held trip record (R167). -/
structure TripRecord where
  first         : TripCause
  phaseAtTrip   : Phase
  appliedAtTrip : Nat
  later         : CauseSet
  openConfirmed : Bool
  deriving DecidableEq, Repr

/-- The states of the overdraw monitor (R170). -/
inductive Monitor where
  | unarmed
  | suspended
  | within
  | excess
  deriving DecidableEq, Repr

/-- The Trip Unit (R167). `estopHeld` and `feederHeld` remember whether the ESTOP and FEEDER_LOST conditions stood at the
end of the last event, because a condition that stays true is not taken again (R168). -/
structure Tru where
  record     : Option TripRecord
  monitor    : Monitor
  estopHeld  : Bool
  feederHeld : Bool
  deriving DecidableEq, Repr

/-! ### Timer Bank -/

/-- A named timer (R163): the interval in force and, while running, the boundaries left to its expiry. A running
timer with none left is due. -/
structure Timer where
  interval : Nat
  left     : Option Nat
  deriving DecidableEq, Repr

/-- The Timer Bank (R162, R166): the number of boundaries since reset and the thirteen timers that count them. The
fourteenth, the collision backoff, is measured in bit times and read off the idle count (R126). -/
structure Tmb where
  boundary       : Nat
  announce       : Timer
  listen         : Timer
  hold           : Timer
  reserveBackoff : Timer
  breaker        : Timer
  inrush         : Timer
  sync           : Timer
  parallel       : Timer
  ramp           : Timer
  linkTimeout    : Timer
  linkLoss       : Timer
  overdraw       : Timer
  meterStale     : Timer
  deriving DecidableEq, Repr

/-! ### Line Input Block -/

/-- The kinds of a line (R153). -/
inductive LineKind where
  | levelHigh
  | levelLow
  | rising
  | falling
  | anyEdge
  deriving DecidableEq, Repr

/-- The configuration of a line (R153). -/
structure LineSetting where
  kind  : LineKind
  delay : Nat
  deriving DecidableEq, Repr

/-- A qualification in progress: the new level and the boundary at which it was first sampled (R153). -/
structure Qualification where
  level  : Bool
  marked : Nat
  deriving DecidableEq, Repr

/-- What the Line Input Block holds of a line (R153). `active` is the qualified state of a level line; an edge line has
none, and its `active` stays false. -/
structure LineState where
  sampled : Bool
  settled : Bool
  qual    : Option Qualification
  active  : Bool
  deriving DecidableEq, Repr

/-- The Line Input Block (R153). -/
structure Lib where
  settings : PerLine LineSetting
  lines    : PerLine LineState
  deriving DecidableEq, Repr

/-! ### Service Port -/

/-- The attention set (R185). -/
structure AttentionSet where
  trip                 : Bool
  firmOverload         : Bool
  scheduleDisagreement : Bool
  addressConflict      : Bool
  linkCongested        : Bool
  rampSuspended        : Bool
  demandClamped        : Bool
  meterStale           : Bool
  deriving DecidableEq, Repr

/-- The response codes, in the order of R191. -/
inductive ResponseCode where
  | accepted
  | wrongMode
  | outOfRange
  | incomplete
  | causePresent
  | notLatched
  | held
  deriving DecidableEq, Repr

/-- A response record (R179, R191): the code, the command count and kind of the command answered, and the data. -/
structure Response where
  code  : ResponseCode
  count : Nat
  kind  : Nat
  data  : List Byte
  deriving DecidableEq, Repr

/-- The remaining times of the fourteen named timers in the order of R166, none for stopped (R192). -/
structure TimerReadout where
  announce         : Option Nat
  listen           : Option Nat
  hold             : Option Nat
  reserveBackoff   : Option Nat
  collisionBackoff : Option Nat
  breaker          : Option Nat
  inrush           : Option Nat
  sync             : Option Nat
  parallel         : Option Nat
  ramp             : Option Nat
  linkTimeout      : Option Nat
  linkLoss         : Option Nat
  overdraw         : Option Nat
  meterStale       : Option Nat
  deriving DecidableEq, Repr

/-- The transmit queue as the snapshot shows it (R122): the kind codes, head first, the head's collision count and
whether the head is in transmission. -/
structure QueueReadout where
  kinds          : List Nat
  collisions     : Nat
  inTransmission : Bool
  deriving DecidableEq, Repr

/-- The snapshot (R184, R192), item by item. -/
structure Snapshot where
  mode           : Mode
  station        : Option StationRecord
  phase          : Phase
  noProfile      : Bool
  vesselMismatch : Bool
  syncAbort      : Bool
  parallelForced : Bool
  profileCode    : Option Address
  hostHold       : Bool
  firm           : Nat
  flex           : Nat
  transient      : Nat
  reserveState   : ReserveState
  reserveClass   : Option ReserveClass
  reserveAmount  : Nat
  pmin           : Nat
  e              : Nat
  s              : Nat
  f              : Nat
  h              : Int
  last           : LastResult
  disagreement   : Bool
  firmOverload   : Bool
  cutSettle      : Nat
  target         : Nat
  pending        : Nat
  applied        : Nat
  stall          : Nat
  suspended      : Bool
  scheduleMode   : ScheduleMode
  loadedCount    : Nat
  index          : Nat
  pc             : Nat
  remaining      : Nat
  selectRange    : Bool
  queue          : QueueReadout
  conflict       : Bool
  link           : VesselLink
  held           : Option ShipRecord
  clampedFirm    : Nat
  clampedFlex    : Nat
  demandClamped  : Bool
  lastSent       : Option BerthStatus
  slotsLoaded    : Table Bool
  draw           : Option Nat
  meterStale     : Bool
  timers         : TimerReadout
  record         : Option TripRecord
  monitor        : Monitor
  attention      : AttentionSet
  deriving DecidableEq, Repr

/-- The Service Port (R178, R187). -/
structure Svp where
  mode         : Mode
  station      : Option StationRecord
  response     : Option Response
  commandCount : Nat
  snapshot     : Option Snapshot
  attention    : AttentionSet
  /-- The ATTN output, true for asserted (R187). -/
  attn         : Bool
  deriving DecidableEq, Repr

/-- The whole part. `pending` is the queue of commands not yet taken, first in, first out; `freeCount` numbers the
computations completed, for the free value of `Config.readMoment`. Both are the model's own. -/
structure State where
  bsq : Bsq
  pvt : Table PeerEntry
  rsu : Rsu
  hre : Hre
  gos : Gos
  csc : Csc
  blc : Blc
  vlp : Vlp
  mtp : Mtp
  tru : Tru
  tmb : Tmb
  lib : Lib
  svp : Svp
  pending   : List Instr
  freeCount : Nat
  deriving DecidableEq, Repr

/-- Why a command could stop the part with a fault: the data book names no condition that stops it, so there is no
constructor and no meaning can fault. -/
inductive Fault where
  deriving DecidableEq, Repr

/-- Why a command is refused. -/
inductive Refusal where
  /-- Raised by `exec` for a command that has no meaning in the model yet; safe. No arm raises it. -/
  | notModelled (mnemonic : String)
  deriving DecidableEq, Repr

/-! ### Reset (R178) -/

/-- A stopped timer. -/
def Timer.blank : Timer := { interval := 0, left := none }

/-- A level line before its first sample. Log entry 5. -/
def LineState.blank : LineState := { sampled := false, settled := false, qual := none, active := false }

/-- The reset configuration of the lines (R157). -/
def LineSetting.resetAll : PerLine LineSetting :=
  { PerLine.replicate { kind := .levelHigh, delay := 0 } with
    tadv := { kind := .rising, delay := 0 }, trst := { kind := .rising, delay := 0 } }

/-- The empty set of causes. -/
def CauseSet.empty : CauseSet :=
  { pilotLost := false, estop := false, feederLost := false, breakerFail := false, breakerUncommanded := false,
    overdraw := false, linkLost := false }

/-- The empty attention set. -/
def AttentionSet.empty : AttentionSet :=
  { trip := false, firmOverload := false, scheduleDisagreement := false, addressConflict := false,
    linkCongested := false, rampSuspended := false, demandClamped := false, meterStale := false }

/-- The part right after reset: every block at the reset values of its chapter, the BKOPEN reset pulse running
(R3, R4) and the reference word of grant 0 and count 0 being sent (R106). -/
def State.reset : State where
  bsq := { phase := .vacant, noProfile := false, vesselMismatch := false, syncAbort := false, parallelForced := false,
           profileCode := none, hostHold := false, voltagePresent := false, firm := 0, flex := 0, transient := 0,
           bkClose := false, bkOpen := true, serving := some .resetPulse }
  pvt := Vector.replicate 16 PeerEntry.blank
  rsu := { state := .none, amount := 0, cls := none, refusedOnLink := false }
  hre := { request := false, computing := none, pmin := 0, e := 0, s := 0, f := 0, h := 0, last := .none,
           disagreement := false, firmOverload := false, cutSettle := 0 }
  gos := { target := 0, pending := 0, applied := 0, stall := 0, suspended := false, port := .sending 0 0,
           updateCount := 0 }
  csc := { periods := [], mode := .fixed, index := 0, pc := 0, remaining := 0, selectRange := false }
  blc := { queue := [], link := .idle, idleCount := 0, onWire := none, rx := none, conflict := false }
  vlp := { link := .idle, held := none, clampedFirm := 0, clampedFlex := 0, demandClamped := false, sender := .idle,
           statusCount := 0, lastSent := none, slots := Vector.replicate 16 none }
  mtp := { draw := none, stale := false }
  tru := { record := none, monitor := .unarmed, estopHeld := false, feederHeld := false }
  tmb := { boundary := 0, announce := .blank, listen := .blank, hold := .blank, reserveBackoff := .blank,
           breaker := { interval := Config.resetPulse, left := some Config.resetPulse }, inrush := .blank,
           sync := .blank, parallel := .blank, ramp := .blank, linkTimeout := .blank, linkLoss := .blank,
           overdraw := .blank, meterStale := .blank }
  lib := { settings := LineSetting.resetAll, lines := PerLine.replicate .blank }
  svp := { mode := .config, station := none, response := none, commandCount := 0, snapshot := none,
           attention := .empty, attn := false }
  pending := []
  freeCount := 0

end Sys2Proof.Machine
end

