-- ==== Sys2Proof/Machine/Ops.lean ====
section
/-! DEFINITION. The named operations every command is written over: changing one block, reading the station
record and the profile in use, the timers, the attention set and the recompute request. -/

namespace Sys2Proof.Machine

/-! ### Changing one block -/

/-- Changes the BSQ alone. -/
def State.mapBsq (s : State) (f : Bsq → Bsq) : State := { s with bsq := f s.bsq }
/-- Changes the PVT alone. -/
def State.mapPvt (s : State) (f : Table PeerEntry → Table PeerEntry) : State := { s with pvt := f s.pvt }
/-- Changes the RSU alone. -/
def State.mapRsu (s : State) (f : Rsu → Rsu) : State := { s with rsu := f s.rsu }
/-- Changes the HRE alone. -/
def State.mapHre (s : State) (f : Hre → Hre) : State := { s with hre := f s.hre }
/-- Changes the GOS alone. -/
def State.mapGos (s : State) (f : Gos → Gos) : State := { s with gos := f s.gos }
/-- Changes the CSC alone. -/
def State.mapCsc (s : State) (f : Csc → Csc) : State := { s with csc := f s.csc }
/-- Changes the BLC alone. -/
def State.mapBlc (s : State) (f : Blc → Blc) : State := { s with blc := f s.blc }
/-- Changes the VLP alone. -/
def State.mapVlp (s : State) (f : Vlp → Vlp) : State := { s with vlp := f s.vlp }
/-- Changes the MTP alone. -/
def State.mapMtp (s : State) (f : Mtp → Mtp) : State := { s with mtp := f s.mtp }
/-- Changes the TRU alone. -/
def State.mapTru (s : State) (f : Tru → Tru) : State := { s with tru := f s.tru }
/-- Changes the TMB alone. -/
def State.mapTmb (s : State) (f : Tmb → Tmb) : State := { s with tmb := f s.tmb }
/-- Changes the LIB alone. -/
def State.mapLib (s : State) (f : Lib → Lib) : State := { s with lib := f s.lib }
/-- Changes the SVP alone. -/
def State.mapSvp (s : State) (f : Svp → Svp) : State := { s with svp := f s.svp }

/-! ### Reading the configuration -/

/-- A station record with every figure 0, read where none is held (log entry 6). -/
def stationBlank : StationRecord :=
  let line : LineArg := { kind := 0, delay := 0 }
  { address := 0, margin := 0, announceInterval := 0, holdWindow := 0, reserveBackoffUnit := 0, forgetInterval := 0,
    breakerTime := 0, vesselLinkTimeout := 0, linkLossInterval := 0, meterStaleInterval := 0, stuckBreakerClaim := 0,
    pilot := line, estop := line, bkaux := line, fdrwarn := line, tadv := line, trst := line, pcode := line,
    tsel := line }

/-- The station record in force (R181). -/
def State.station (s : State) : StationRecord := s.svp.station.getD stationBlank

/-- The own station address (R181, R191). -/
def State.ownAddress (s : State) : Address := Fin.ofNat 16 s.station.address

/-- The own entry of the Peer View Table (R34). -/
def State.ownEntry (s : State) : PeerEntry := s.pvt[s.ownAddress]

/-- The station takes part: LISTEN or RUN (R178). -/
def State.started (s : State) : Bool := s.svp.mode != .config

/-- The profile in use: the selected slot, provided it is loaded (R150). -/
def State.profile (s : State) : Option Profile :=
  match s.bsq.profileCode with
  | some c => s.vlp.slots[c]
  | none   => none

/-- A profile with every figure 0, read where none is in use (log entry 6). -/
def profileBlank : Profile :=
  { maxFirm := 0, minFirm := 0, maxFlex := 0, quantum := 0, raiseLimit := 0, rampStep := 0, rampInterval := 0,
    downrampStep := 0, inrushAllowance := 0, inrushWindow := 0, syncWindow := 0, parallelLimit := 0,
    overdrawTolerance := 0, overdrawDwell := 0, stallLimit := 0, expectedId := none }

/-- The figures of the profile in use. -/
def State.figures (s : State) : Profile := s.profile.getD profileBlank

/-! ### Timers (R163, R164) -/

/-- Starts, restarts or retriggers a timer with an interval (R163). -/
def Timer.start (n : Nat) : Timer := { interval := n, left := some n }

/-- Stops or cancels a timer, with no expiry to follow (R163). -/
def Timer.stop (t : Timer) : Timer := { t with left := none }

/-- The timer is running. -/
def Timer.running (t : Timer) : Bool := t.left.isSome

/-- The timer runs and no boundary is left to its expiry (R162). -/
def Timer.due (t : Timer) : Bool := t.left == some 0

/-- One boundary of the time base passes (R162). -/
def Timer.tick (t : Timer) : Timer := { t with left := t.left.map (· - 1) }

/-- One boundary passes for every timer of the bank (R162). -/
def Tmb.tick (t : Tmb) : Tmb :=
  { boundary := t.boundary + 1, announce := t.announce.tick, listen := t.listen.tick, hold := t.hold.tick,
    reserveBackoff := t.reserveBackoff.tick, breaker := t.breaker.tick, inrush := t.inrush.tick, sync := t.sync.tick,
    parallel := t.parallel.tick, ramp := t.ramp.tick, linkTimeout := t.linkTimeout.tick, linkLoss := t.linkLoss.tick,
    overdraw := t.overdraw.tick, meterStale := t.meterStale.tick }

/-! ### Attention (R185, R187) -/

/-- The eight reasons (R185). -/
inductive Reason where
  | trip
  | firmOverload
  | scheduleDisagreement
  | addressConflict
  | linkCongested
  | rampSuspended
  | demandClamped
  | meterStale
  deriving DecidableEq, Repr

/-- The set with a reason added. -/
def AttentionSet.add (a : AttentionSet) : Reason → AttentionSet
  | .trip                 => { a with trip := true }
  | .firmOverload         => { a with firmOverload := true }
  | .scheduleDisagreement => { a with scheduleDisagreement := true }
  | .addressConflict      => { a with addressConflict := true }
  | .linkCongested        => { a with linkCongested := true }
  | .rampSuspended        => { a with rampSuspended := true }
  | .demandClamped        => { a with demandClamped := true }
  | .meterStale           => { a with meterStale := true }

/-- The set holds at least one reason. -/
def AttentionSet.nonempty (a : AttentionSet) : Bool :=
  a.trip || a.firmOverload || a.scheduleDisagreement || a.addressConflict || a.linkCongested || a.rampSuspended ||
    a.demandClamped || a.meterStale

/-- Raises an attention reason, which asserts ATTN (R185, R187). -/
def raiseAttention (r : Reason) (s : State) : State :=
  s.mapSvp fun v => { v with attention := v.attention.add r, attn := true }

/-! ### The recompute request (R71) -/

/-- Sets the recompute request; the computation it brings begins at the end of the event. -/
def requestRecompute (s : State) : State := s.mapHre fun h => { h with request := true }

end Sys2Proof.Machine
end

