-- ==== Sys2Proof/Machine/Grant.lean ====
section
/-! DEFINITION. The phases as codes and groups, and the Grant Output Stage. -/

namespace Sys2Proof.Machine

/-- The phase code of section 1.1 (R1). -/
def Phase.code : Phase → Nat
  | .vacant       => 0
  | .plugged      => 1
  | .queued       => 2
  | .energising   => 3
  | .awaitSync    => 4
  | .parallel     => 5
  | .onShore      => 6
  | .transferBack => 7
  | .deEnergising => 8
  | .tripped      => 9

/-- The pair PARALLEL and ON_SHORE (R25). -/
def Phase.pair (p : Phase) : Bool := p == .parallel || p == .onShore

/-- The three phases in which the ramp runs and the overdraw monitor is armed (R95, R170). -/
def Phase.connected (p : Phase) : Bool := p == .parallel || p == .onShore || p == .transferBack

/-- A new target is handed over; in a connected phase it makes a down-step or shortens the pending step
(R93, R94, R102). -/
def Gos.newTarget (connected : Bool) (t : Nat) (g : Gos) : Gos :=
  if connected then
    if t < g.applied then { g with target := t, pending := t, applied := t }
    else if t < g.pending then { g with target := t, pending := t }
    else { g with target := t }
  else { g with target := t }

/-- What entering a phase does to the stage (R100, R102, R103). -/
def Gos.enter (entered : Phase) (g : Gos) : Gos :=
  if entered.pair then g
  else if entered = .transferBack then { g with pending := g.applied, stall := 0, suspended := false }
  else { g with pending := 0, applied := 0, stall := 0, suspended := false }

/-- The step that an up-tick prepares (R96). -/
def Gos.nextStep (step : Nat) (g : Gos) : Nat := min g.target (g.applied + step)

/-- A ramp tick in PARALLEL or ON_SHORE (R96, R97, R98). `passes` says that the link is not LOST and the echo is at
least A. -/
def Gos.upTick (step limit : Nat) (passes : Bool) (g : Gos) : Gos :=
  if g.suspended then g
  else if g.target ≤ g.applied then { g with pending := g.applied }
  else if passes then { g with pending := g.nextStep step, applied := g.nextStep step, stall := 0 }
  else { g with pending := g.nextStep step, stall := g.stall + 1, suspended := g.stall + 1 == limit }

/-- A ramp tick in TRANSFER_BACK (R101). -/
def Gos.downTick (step : Nat) (g : Gos) : Gos :=
  { g with pending := g.applied - step, applied := g.applied - step }

/-- A valid ship record in PARALLEL or ON_SHORE releases a suspended ramp when its echo is at least A (R99). -/
def Gos.takeEcho (pair : Bool) (echo : Nat) (g : Gos) : Gos :=
  if g.suspended && pair && decide (g.applied ≤ echo) then { g with suspended := false, stall := 0 } else g

/-- A reference word starts with the grant and the count in force (R105). -/
def Gos.startWord (g : Gos) : Gos := { g with port := .sending g.applied g.updateCount }

end Sys2Proof.Machine
end

