-- ==== Sys2Proof/Machine/Link.lean ====
section
/-! DEFINITION. The Berth Link Controller's transmit queue and what it copies into a frame. -/

namespace Sys2Proof.Machine

/-- The kind code of a queued frame (R189). -/
def TxContent.code : TxContent → Nat
  | .announce    => 1
  | .reserve _ _ => 2
  | .withdraw    => 3

/-- The entry is a RESERVE. -/
def TxEntry.isReserve (e : TxEntry) : Bool := e.content.code == 2

/-- A frame as it joins the queue (R122). -/
def TxEntry.joining (c : TxContent) : TxEntry := { content := c, collisions := 0, refresh := false, abandoned := false }

/-- An own attempt that has not collided is under way: its frame, the run of released bit times after it, its slot. -/
def LinkPhase.attempting : LinkPhase → Bool
  | .own _     => true
  | .ending _  => true
  | .ownSlot _ => true
  | _          => false

/-- An own attempt has collided and its transmission has not ended: the jam and what follows it (R126). -/
def LinkPhase.colliding : LinkPhase → Bool
  | .jam _      => true
  | .collided _ => true
  | _           => false

/-- The head entry is in transmission (R122). -/
def Blc.inTransmission (b : Blc) : Bool := b.link.attempting || b.link.colliding

/-- The queue holds a frame of a kind. -/
def Blc.holds (b : Blc) (code : Nat) : Bool := b.queue.any fun e => e.content.code == code

/-- A frame joins the queue at the tail unless one of its kind is there (R122). -/
def Blc.join (c : TxContent) (b : Blc) : Blc :=
  if b.holds c.code then b else { b with queue := b.queue ++ [TxEntry.joining c] }

/-- The head entry changed. -/
def Blc.mapHead (f : TxEntry → TxEntry) (b : Blc) : Blc :=
  match b.queue with
  | []        => b
  | e :: rest => { b with queue := f e :: rest }

/-- The head entry removed. -/
def Blc.dropHead (b : Blc) : Blc := { b with queue := b.queue.tail }

/-- The head entry moved to the tail with its mark clear and its count 0 (R123, R127). -/
def Blc.requeueHead (b : Blc) : Blc :=
  match b.queue with
  | []        => b
  | e :: rest => { b with queue := rest ++ [{ e with collisions := 0, refresh := false }] }

/-- A request for an ANNOUNCE: it joins, keeps its place, or is marked for refresh (R123). -/
def Blc.requestAnnounce (b : Blc) : Blc :=
  if b.inTransmission && b.queue.head?.any (·.content.code == 1) then b.mapHead fun e => { e with refresh := true }
  else b.join .announce

/-- A RESERVE whose reserve is given up: marked abandoned in transmission, removed while it waits (R124). -/
def Blc.abandonReserve (b : Blc) : Blc :=
  if b.inTransmission && b.queue.head?.any TxEntry.isReserve then b.mapHead fun e => { e with abandoned := true }
  else { b with queue := b.queue.filter fun e => !e.isReserve }

/-- A RESERVE frame is still on the link or in its slot (R53). -/
def Blc.reserveOnLink (b : Blc) : Bool := b.inTransmission && b.queue.head?.any TxEntry.isReserve

/-- The collision backoff of an address in bit times (R126). -/
def backoffWait (a : Address) : Nat := (a.val + 1) * Config.backoffStep + Config.idleGap

/-- The access wait of a head entry (R125, R126). -/
def accessWait (a : Address) (e : TxEntry) : Nat := if e.collisions = 0 then Config.idleGap else backoffWait a

/-- The remaining time of the collision backoff timer: it runs from a collision that leaves the entry at the head until
its next attempt, and counts released bit times after each slot. The collision that brings the count to sixteen starts
none (R126, R166). Log entry 20. -/
def Blc.collisionBackoff (a : Address) (b : Blc) : Option Nat :=
  match b.queue with
  | e :: _ =>
    if e.collisions ≠ 0 ∧ e.collisions < Config.maxCollisions ∧ b.link.attempting = false then
      some (backoffWait a - b.idleCount)
    else none
  | []     => none

/-- Requests an ANNOUNCE (R123). -/
def requestAnnounce (s : State) : State := s.mapBlc Blc.requestAnnounce

/-- Queues a WITHDRAW unless one is there (R69, R124). -/
def requestWithdraw (s : State) : State := s.mapBlc (Blc.join .withdraw)

/-- The ANNOUNCE fields that the own entry gives (R123, R189). -/
def announceOf (e : PeerEntry) : AnnounceFields :=
  { phaseCode := e.phaseCode.getD 0, periodIndex := e.periodIndex.getD 0, firm := e.firm, flex := e.flex,
    transient := e.transient, capacity := e.capacity.getD 0, tripped := e.tripped, firmOverload := e.firmOverload,
    listening := e.listening }

/-- The frame that an attempt of an entry sends (R123, R124). -/
def State.frameOf (s : State) (e : TxEntry) : Frame :=
  match e.content with
  | .announce           => .announce s.ownAddress (announceOf s.ownEntry)
  | .reserve amount cls => .reserve s.ownAddress amount cls
  | .withdraw           => .withdraw s.ownAddress

/-- The head frame begins an attempt; a RESERVE takes the own reserve into SENT (R125, R55). -/
def beginAttempt (s : State) : State :=
  match s.blc.queue with
  | []     => s
  | e :: _ =>
    let t := s.mapBlc fun b => { b with link := .own 0, idleCount := 0, onWire := some (s.frameOf e) }
    if e.isReserve then t.mapRsu fun r => { r with state := .sent } else t

end Sys2Proof.Machine
end

