-- ==== Sys2Proof/Machine/Peers.lean ====
section
/-! DEFINITION. The Peer View Table entry by entry, the changed bits, and the Reservation Unit's own reserve. -/

namespace Sys2Proof.Machine

/-! ### One entry -/

/-- The entry belongs to a peer known to the station (R32). -/
def PeerEntry.known (e : PeerEntry) : Bool := e.standing == .live || e.standing == .silent

/-- An ANNOUNCE sets the changed bit of an entry (R37, R38, R39). -/
def PeerEntry.announceChanges (e : PeerEntry) (f : AnnounceFields) : Bool :=
  e.standing != .live || e.firm != f.firm || e.flex != f.flex || e.transient != f.transient ||
    e.capacity != some f.capacity || e.listening != f.listening || e.reserved.isSome

/-- The entry after a valid ANNOUNCE (R37, R38, R39, R48). -/
def PeerEntry.takeAnnounce (e : PeerEntry) (f : AnnounceFields) : PeerEntry :=
  { standing := .live, phaseCode := some f.phaseCode, firm := f.firm, flex := f.flex, transient := f.transient,
    periodIndex := some f.periodIndex, capacity := some f.capacity, tripped := f.tripped,
    firmOverload := f.firmOverload, listening := f.listening, reserved := none, heard := true,
    changed := e.changed || e.announceChanges f, missed := 0, silentAge := 0, silentElapsed := 0 }

/-- A reserved field is folded into the claim parts, each sum saturating (R67). -/
def PeerEntry.fold (e : PeerEntry) : PeerEntry :=
  match e.reserved with
  | none   => e
  | some r =>
    match r.cls with
    | .flexRaise    => { e with flex := min Config.maxClaim (e.flex + r.amount), reserved := none, changed := true }
    | .firmEnergise => { e with firm := min Config.maxClaim (e.firm + r.amount), reserved := none, changed := true }

/-- The entry after a valid RESERVE on a quiet slot (R40, R64, R48). -/
def PeerEntry.takeReserve (e : PeerEntry) (amount : Nat) (cls : ReserveClass) : PeerEntry :=
  let base : PeerEntry := if e.standing = .empty then PeerEntry.blank else e.fold
  { base with standing := .live, heard := true, missed := 0, silentAge := 0, silentElapsed := 0, changed := true,
              reserved := some { amount := amount, cls := cls, age := 0, elapsed := 0 } }

/-- The entry after a frame that is only heard (R40, R41). -/
def PeerEntry.hear (e : PeerEntry) : PeerEntry := if e.known then { e with heard := true } else e

/-- The entry after a valid WITHDRAW (R41, R68). -/
def PeerEntry.takeWithdraw (e : PeerEntry) : PeerEntry :=
  if e.known then
    { e with heard := true, reserved := none, changed := e.changed || e.reserved.isSome }
  else e

/-- The silence check turns the entry SILENT (R45, R46). -/
def PeerEntry.turnsSilent (e : PeerEntry) : Bool :=
  e.standing == .live && !e.heard && decide (Config.silenceMisses ≤ e.missed + 1)

/-- The entry after a silence check (R45, R46). -/
def PeerEntry.check (e : PeerEntry) : PeerEntry :=
  if e.standing = .live then
    if e.heard then { e with heard := false, missed := 0 }
    else if e.turnsSilent then
      { e with standing := .silent, missed := Config.silenceMisses, heard := false, silentAge := 0,
               silentElapsed := 0, changed := true }
    else { e with missed := e.missed + 1 }
  else e

/-- The entry emptied: every field as after reset but for the changed bit (R49). -/
def PeerEntry.emptied : PeerEntry := { PeerEntry.blank with changed := true }

/-- The ageing step empties the entry at the forget interval (R47). -/
def PeerEntry.forgotten (forget : Nat) (e : PeerEntry) : Bool := !e.heard && decide (forget ≤ e.silentAge + 1)

/-- A SILENT entry after an ageing step (R47). -/
def PeerEntry.ageStep (forget : Nat) (e : PeerEntry) : PeerEntry :=
  if e.heard then { e with heard := false, silentAge := 0, silentElapsed := 0 }
  else if e.forgotten forget then PeerEntry.emptied
  else { e with silentAge := e.silentAge + 1, silentElapsed := 0 }

/-- The age step folds the reserved field in (R66). -/
def Reserved.matures (r : Reserved) : Bool := decide (Config.foldAge ≤ r.age + 1)

/-- An entry with a reserved field after an age step of that field (R66, R67). -/
def PeerEntry.reservedStep (e : PeerEntry) (r : Reserved) : PeerEntry :=
  if r.matures then e.fold else { e with reserved := some { r with age := r.age + 1, elapsed := 0 } }

/-- One boundary of the time base for the counts an entry keeps (R47, R66, R162). -/
def PeerEntry.tick (e : PeerEntry) : PeerEntry :=
  { e with
    silentElapsed := if e.standing = .silent then e.silentElapsed + 1 else e.silentElapsed
    reserved := e.reserved.map fun r => { r with elapsed := r.elapsed + 1 } }

/-! ### The own reserve -/

/-- The own reserve returns to NONE (R52). -/
def clearReserve (s : State) : State :=
  s.mapRsu fun r => { r with state := .none, amount := 0, cls := none }

/-- What a set changed bit does to a QUEUED reserve: its RESERVE leaves the queue, the reserve returns to NONE and a
recompute is requested (R54). -/
def dropOnViewChange (s : State) : State :=
  if s.rsu.state = .queued then requestRecompute (clearReserve (s.mapBlc Blc.abandonReserve)) else s

/-- A changed bit has been set (R43, R54). -/
def tableChanged (s : State) : State := requestRecompute (dropOnViewChange s)

/-- An entry replaced, with the effects of a changed bit where one was set (R43). -/
def putEntry (a : Address) (e : PeerEntry) (changed : Bool) (s : State) : State :=
  let t := s.mapPvt fun v => v.set a e
  if changed then tableChanged t else t

/-- The own reserve is abandoned (R61). -/
def abandonReserve (s : State) : State :=
  match s.rsu.state with
  | .none    => s
  | .queued  => clearReserve (s.mapBlc Blc.abandonReserve)
  | .sent    => requestRecompute (requestWithdraw (clearReserve (s.mapBlc Blc.abandonReserve)))
  | .hold    => requestRecompute (requestWithdraw (clearReserve (s.mapTmb fun t => { t with hold := t.hold.stop })))
  | .backoff => clearReserve (s.mapTmb fun t => { t with reserveBackoff := t.reserveBackoff.stop })

/-- The Reservation Unit takes a wanted reserve, but for the RESERVE of an earlier one being on the link (R53). -/
def State.mayReserve (s : State) (cls : ReserveClass) : Bool :=
  s.rsu.state == .none && !s.blc.conflict && !(cls == .flexRaise && s.vlp.link == .lost)

/-- A wanted reserve is handed to the Reservation Unit, which takes it or drops it (R53). -/
def wantReserve (cls : ReserveClass) (amount : Nat) (s : State) : State :=
  if s.mayReserve cls then
    if s.blc.reserveOnLink then s.mapRsu fun r => { r with refusedOnLink := true }
    else
      (s.mapRsu fun r => { r with state := .queued, amount := amount, cls := some cls }).mapBlc
        (Blc.join (.reserve amount cls))
  else s

/-- The frame of an earlier RESERVE has left the link: a wanted reserve refused for it is asked for again (R53). -/
def releaseRefused (s : State) : State :=
  if s.rsu.refusedOnLink then requestRecompute (s.mapRsu fun r => { r with refusedOnLink := false }) else s

/-- ADDRESS_CONFLICT is found: a waiting RESERVE goes and its reserve returns to NONE (R62, R132). -/
def conflictFound (s : State) : State :=
  let t := raiseAttention .addressConflict (s.mapBlc fun b => { b with conflict := true })
  if t.rsu.state = .queued then clearReserve (t.mapBlc Blc.abandonReserve) else t

end Sys2Proof.Machine
end

