-- ==== Sys2Proof/Machine/Engine.lean ====
section
/-! DEFINITION. The arithmetic of the Headroom Engine: what it reads, its figures, its stages, its rounding, and the
start of a computation. -/

namespace Sys2Proof.Machine

/-- The sixteen station addresses in order. -/
def allAddresses : List Address := [0, 1, 2, 3, 4, 5, 6, 7, 8, 9, 10, 11, 12, 13, 14, 15]

/-- What an entry hands to the engine (R32, R76, R74, R77). -/
def PeerEntry.reading (e : PeerEntry) : PeerReading :=
  let counted := e.firm + e.flex + e.transient + (e.reserved.map (·.amount)).getD 0
  match e.standing with
  | .live   => { counted := counted, flex := e.flex, capacity := if e.listening then none else e.capacity }
  | .silent => { counted := counted, flex := 0, capacity := none }
  | _       => { counted := 0, flex := 0, capacity := none }

/-- What the whole table hands to the engine at this moment. -/
def State.readings (s : State) : Table PeerReading := s.pvt.map PeerEntry.reading

/-- The figures of a profile that the engine reads (R72). -/
def Profile.figures (p : Profile) : ProfileFigures :=
  { maxFlex := p.maxFlex, quantum := p.quantum, raiseLimit := p.raiseLimit, inrushAllowance := p.inrushAllowance }

/-- The own inputs as they stand (R72). -/
def State.ownInputs (s : State) : OwnInputs :=
  { mode := s.svp.mode, phase := s.bsq.phase, firm := s.bsq.firm, flex := s.bsq.flex, transient := s.bsq.transient,
    reserveState := s.rsu.state, reserveClass := s.rsu.cls, amount := s.rsu.amount, pc := s.csc.pc,
    margin := s.station.margin, profile := s.profile.map Profile.figures, clampedFirm := s.vlp.clampedFirm,
    clampedFlex := s.vlp.clampedFlex, link := s.vlp.link, cutSettle := s.hre.cutSettle }

/-- The readings of the peers of an own address, in order of address (R72). -/
def peersOf (own : Address) (v : Table PeerReading) : List PeerReading :=
  (allAddresses.filter fun a => a != own).map fun a => v[a]

/-- The moment of the view read at an address: the engine reads in order of address, so the moment never falls as the
address rises (R72). -/
def momentAt (k : Nat) (a : Address) : Nat := ((List.range (a.val + 1)).map (Config.readMoment k)).foldl max 0

/-- The readings that computation number `k` works on, each taken from one of the views that stood while it ran
(R32, R72). Where the view did not change there is only one. Log entry 2. -/
def readingsUsed (k : Nat) : List (Table PeerReading) → Table PeerReading
  | []      => Vector.replicate 16 { counted := 0, flex := 0, capacity := none }
  | [v]     => v
  | v :: vs => Vector.ofFn fun a : Address => ((v :: vs).getD (min (momentAt k a) vs.length) v)[a]

/-- The figures of a computation (R74 to R77). -/
structure Figures where
  pmin         : Nat
  e            : Nat
  s            : Nat
  f            : Nat
  h            : Int
  disagreement : Bool
  deriving DecidableEq, Repr

/-- The own counted claim (R76). -/
def OwnInputs.counted (w : OwnInputs) : Nat :=
  w.firm + w.flex + w.transient + if w.reserveState = .sent ∨ w.reserveState = .hold then w.amount else 0

/-- The capacities of the peers that take part in the period minimum (R74). -/
def capacitiesOf (rs : List PeerReading) : List Nat := rs.filterMap (·.capacity)

/-- The figures worked from the own inputs and the peers' readings (R74 to R77). -/
def figuresOf (w : OwnInputs) (rs : List PeerReading) : Figures :=
  let pmin := (capacitiesOf rs).foldl min w.pc
  let e := pmin - w.margin
  let s := w.counted + (rs.map (·.counted)).sum
  { pmin := pmin, e := e, s := s, f := w.flex + (rs.map (·.flex)).sum, h := (e : Int) - s,
    disagreement := (capacitiesOf rs).any fun c => c != w.pc }

/-- Rounded down to a multiple of the quantum (R89). -/
def floorTo (q n : Nat) : Nat := n / q * q

/-- Rounded up to a multiple of the quantum (R89). -/
def ceilTo (q n : Nat) : Nat := (n + q - 1) / q * q

/-- The wanted flex (R79). -/
def OwnInputs.wantFlex (w : OwnInputs) (p : ProfileFigures) : Nat :=
  min p.maxFlex (w.clampedFirm + w.clampedFlex - w.firm)

/-- The raise amount for a wanted flex at a headroom (R81). -/
def raiseAmount (p : ProfileFigures) (want flex : Nat) (h : Int) : Nat :=
  floorTo p.quantum (min (min (want - flex) h.toNat) p.raiseLimit)

/-- The quantised cut (R83). -/
def cutAmount (q excess flex f : Nat) : Nat := min flex (ceilTo q ((excess * flex + f - 1) / f))

/-- What a computation finds to do (R78). -/
inductive Action where
  | none
  | release (want : Nat)
  | cut (amount : Nat)
  | cutWithheld (amount : Nat)
  | raise (amount : Nat)
  | energise (amount : Nat)
  | energiseWait (amount : Nat)
  deriving DecidableEq, Repr

/-- The stages of a computation (R78 to R84). With no profile in use nothing is found (R150). -/
def actionOf (w : OwnInputs) (g : Figures) : Action :=
  match w.profile with
  | none   => .none
  | some p =>
    if w.mode ≠ .run then .none
    else if w.phase.pair then
      if w.wantFlex p < w.flex then .release (w.wantFlex p)
      else if g.h < 0 then
        if g.f = 0 ∨ w.flex = 0 then .none
        else
          let cq := cutAmount p.quantum (-g.h).toNat w.flex g.f
          if w.cutSettle = 0 then .cut cq else .cutWithheld cq
      else if 0 < g.h ∧ w.reserveState = .none ∧ w.flex < w.wantFlex p then
        let r := raiseAmount p (w.wantFlex p) w.flex g.h
        if p.quantum ≤ r then .raise r else .none
      else .none
    else if w.phase = .queued ∧ w.reserveState = .none then
      let need := w.clampedFirm + p.inrushAllowance
      if (need : Int) ≤ g.h then .energise need else .energiseWait need
    else .none

/-- The figures as they stand in one event, for a commit evaluation or a trial (R86, R90). -/
def State.figuresNow (s : State) : Figures := figuresOf s.ownInputs (peersOf s.ownAddress s.readings)

/-- The commit amount of a FLEX_RAISE (R87). -/
def flexCommit (q r : Nat) (h : Int) : Nat := if h + r ≤ 0 then 0 else min r (floorTo q (h + r).toNat)

/-- The commit amount of a FIRM_ENERGISE (R88). -/
def firmCommit (r : Nat) (h : Int) : Nat := if 0 ≤ h then r else 0

/-- The amount that the trial of PROBE returns (R90). -/
def State.probeAmount (s : State) (want : Nat) : Nat :=
  match s.profile with
  | none   => 0
  | some p =>
    let g := s.figuresNow
    let r := raiseAmount p.figures (min p.maxFlex want) s.bsq.flex g.h
    if 0 < g.h ∧ s.bsq.flex < want ∧ p.quantum ≤ r then r else 0

/-- A computation starts: the request and the changed bits are cleared and the own inputs copied (R72). -/
def startComputation (s : State) : State :=
  let t := s.mapPvt fun v => v.map fun e => { e with changed := false }
  t.mapHre fun h =>
    { h with request := false, computing := some { inputs := t.ownInputs, seen := [t.readings], stale := false } }

/-- What the end of an event is to a computation in progress: a change of an own input makes it stale, and a change of
the view is one more view that an entry may be read from (R32, R73). -/
def Working.observe (inputs : OwnInputs) (view : Table PeerReading) (w : Working) : Working :=
  { w with stale := w.stale || w.inputs != inputs
           seen := if w.seen.getLast? = some view then w.seen else w.seen ++ [view] }

/-- The engine at the end of an event: a computation in progress takes note of the event, and an idle engine with the
request set begins one (R71, R73). -/
def runEngine (s : State) : State :=
  match s.hre.computing with
  | some w => s.mapHre fun h => { h with computing := some (w.observe s.ownInputs s.readings) }
  | none   => if s.hre.request then startComputation s else s

end Sys2Proof.Machine
end

