-- ==== Sys2Proof/Machine/Lines.lean ====
section
/-! DEFINITION. The Line Input Block: reading and changing one line, sampling, qualification and the settings. -/

namespace Sys2Proof

/-- The fourteen lines (R153). -/
inductive Line where
  | pilot
  | pcode (n : Fin 4)
  | estop
  | bkaux
  | fdrwarn
  | tadv
  | trst
  | tsel (n : Fin 4)
  deriving DecidableEq, Repr

/-- What is kept for one line. -/
def PerLine.get {α : Type} (p : PerLine α) : Line → α
  | .pilot   => p.pilot
  | .pcode 0 => p.pcode0
  | .pcode 1 => p.pcode1
  | .pcode 2 => p.pcode2
  | .pcode 3 => p.pcode3
  | .estop   => p.estop
  | .bkaux   => p.bkaux
  | .fdrwarn => p.fdrwarn
  | .tadv    => p.tadv
  | .trst    => p.trst
  | .tsel 0  => p.tsel0
  | .tsel 1  => p.tsel1
  | .tsel 2  => p.tsel2
  | .tsel 3  => p.tsel3

/-- The same with one line's part replaced. -/
def PerLine.set {α : Type} (p : PerLine α) (l : Line) (x : α) : PerLine α :=
  match l with
  | .pilot   => { p with pilot := x }
  | .pcode 0 => { p with pcode0 := x }
  | .pcode 1 => { p with pcode1 := x }
  | .pcode 2 => { p with pcode2 := x }
  | .pcode 3 => { p with pcode3 := x }
  | .estop   => { p with estop := x }
  | .bkaux   => { p with bkaux := x }
  | .fdrwarn => { p with fdrwarn := x }
  | .tadv    => { p with tadv := x }
  | .trst    => { p with trst := x }
  | .tsel 0  => { p with tsel0 := x }
  | .tsel 1  => { p with tsel1 := x }
  | .tsel 2  => { p with tsel2 := x }
  | .tsel 3  => { p with tsel3 := x }

/-- Something worked out for each line from what is kept for it twice. -/
def PerLine.zipWith {α β γ : Type} (f : α → β → γ) (p : PerLine α) (q : PerLine β) : PerLine γ :=
  { pilot := f p.pilot q.pilot, pcode0 := f p.pcode0 q.pcode0, pcode1 := f p.pcode1 q.pcode1,
    pcode2 := f p.pcode2 q.pcode2, pcode3 := f p.pcode3 q.pcode3, estop := f p.estop q.estop,
    bkaux := f p.bkaux q.bkaux, fdrwarn := f p.fdrwarn q.fdrwarn, tadv := f p.tadv q.tadv, trst := f p.trst q.trst,
    tsel0 := f p.tsel0 q.tsel0, tsel1 := f p.tsel1 q.tsel1, tsel2 := f p.tsel2 q.tsel2, tsel3 := f p.tsel3 q.tsel3 }

end Sys2Proof

namespace Sys2Proof.Machine

/-- The qualified state that a settled level gives (R153); an edge line has none. -/
def LineKind.activeAt : LineKind → Bool → Bool
  | .levelHigh, level => level
  | .levelLow,  level => !level
  | _,          _     => false

/-- The level at which a level line has a given qualified state (R153). -/
def LineKind.levelFor : LineKind → Bool → Bool
  | .levelLow, active => !active
  | _,         active => active

/-- A change of settled level to `level` is an event of an edge line of this kind (R156). -/
def LineKind.isEvent : LineKind → Bool → Bool
  | .rising,  level => level
  | .falling, level => !level
  | .anyEdge, _     => true
  | _,        _     => false

/-- One line at a boundary (R154): the sample is taken, and the qualification abandoned, started or continued. -/
def LineState.sample (boundary : Nat) (l : LineState) (level : Bool) : LineState :=
  if level = l.settled then { l with sampled := level, qual := none }
  else
    match l.qual with
    | some q =>
      if q.level = level then { l with sampled := level }
      else { l with sampled := level, qual := some { level := level, marked := boundary } }
    | none => { l with sampled := level, qual := some { level := level, marked := boundary } }

/-- A line whose settled level is set with no change delivered (R157). -/
def LineState.settleTo (c : LineSetting) (l : LineState) (level : Bool) : LineState :=
  { l with settled := level, qual := none, active := c.kind.activeAt level }

/-- The qualification of `level` completes: the level has held from its marked boundary for the delay (R154). -/
def LineState.completes (c : LineSetting) (boundary : Nat) (l : LineState) (level : Bool) : Bool :=
  match l.qual with
  | some q => q.level == level && decide (q.marked + c.delay ≤ boundary)
  | none   => false

/-- The qualified state of a level line: the condition the line reports is present (R153). -/
def State.lineActive (s : State) (l : Line) : Bool := (s.lib.lines.get l).active

/-- The aux reads closed (R153). -/
def State.auxClosed (s : State) : Bool := s.lib.lines.bkaux.active
/-- The pilot is proven (R153). -/
def State.pilotActive (s : State) : Bool := s.lib.lines.pilot.active
/-- The e-stop is active (R153). -/
def State.estopActive (s : State) : Bool := s.lib.lines.estop.active
/-- The feeder warning is active (R153). -/
def State.warningActive (s : State) : Bool := s.lib.lines.fdrwarn.active

/-- A qualification of a line to a level completes at the latest boundary (R154). -/
def State.lineDue (s : State) (l : Line) (level : Bool) : Bool :=
  (s.lib.lines.get l).completes (s.lib.settings.get l) s.tmb.boundary level

/-- A change of a level line's qualified state to `active` completes at the latest boundary (R154, R155). -/
def State.changeDue (s : State) (l : Line) (active : Bool) : Bool :=
  s.lineDue l ((s.lib.settings.get l).kind.levelFor active)

/-- The completion of a qualification: the settled level becomes the new level, the qualification ends and the
qualified state follows (R154, R155). -/
def settleLine (l : Line) (level : Bool) (s : State) : State :=
  s.mapLib fun b => { b with lines := b.lines.set l ((b.lines.get l).settleTo (b.settings.get l) level) }

/-- The completion of a change of a level line's qualified state (R155). -/
def settleActive (l : Line) (active : Bool) (s : State) : State :=
  settleLine l ((s.lib.settings.get l).kind.levelFor active) s

/-- Four code lines read as a code, the first the least significant (R6, R115). -/
def codeOf (b0 b1 b2 b3 : Bool) : Address :=
  Fin.ofNat 16 (b0.toNat + 2 * b1.toNat + 4 * b2.toNat + 8 * b3.toNat)

/-- The profile code on the plug-coding lines (R6). -/
def State.plugCode (s : State) : Address :=
  codeOf s.lib.lines.pcode0.active s.lib.lines.pcode1.active s.lib.lines.pcode2.active s.lib.lines.pcode3.active

/-- The select code on the tariff select lines (R115). -/
def State.selectCode (s : State) : Address :=
  codeOf s.lib.lines.tsel0.active s.lib.lines.tsel1.active s.lib.lines.tsel2.active s.lib.lines.tsel3.active

/-- The kind of a level line from its code (R191). -/
def levelKindOf (code : Nat) : LineKind := if code = 1 then .levelLow else .levelHigh

/-- The kind of an edge line from its code (R191). -/
def edgeKindOf (code : Nat) : LineKind := if code = 1 then .falling else if code = 2 then .anyEdge else .rising

/-- The configuration of every line that a station record gives (R158). -/
def settingsOf (r : StationRecord) : PerLine LineSetting :=
  let level (a : LineArg) : LineSetting := { kind := levelKindOf a.kind, delay := a.delay }
  let edge (a : LineArg) : LineSetting := { kind := edgeKindOf a.kind, delay := a.delay }
  { pilot := level r.pilot, pcode0 := level r.pcode, pcode1 := level r.pcode, pcode2 := level r.pcode,
    pcode3 := level r.pcode, estop := level r.estop, bkaux := level r.bkaux, fdrwarn := level r.fdrwarn,
    tadv := edge r.tadv, trst := edge r.trst, tsel0 := level r.tsel, tsel1 := level r.tsel, tsel2 := level r.tsel,
    tsel3 := level r.tsel }

/-- New line settings take effect: every qualification is abandoned and every settled level set to the latest sample,
with nothing delivered (R157). -/
def applySettings (c : PerLine LineSetting) (s : State) : State :=
  s.mapLib fun b =>
    { settings := c, lines := PerLine.zipWith (fun k (l : LineState) => l.settleTo k l.sampled) c b.lines }

/-- A line at the first boundary after reset: sampled and settled at the level there (R157). -/
def LineState.firstSample (c : LineSetting) (level : Bool) : LineState :=
  { sampled := level, settled := level, qual := none, active := c.kind.activeAt level }

end Sys2Proof.Machine
end

