-- ==== Sys2Proof/Machine/Flags.lean ====
section
/-! DEFINITION. The conditions and indications that the blocks judge: queue entry, the conditions behind trips,
the current draw, the overdraw monitor, the clear of a trip, and the content of a berth status record. -/

namespace Sys2Proof.Machine

/-- The latest valid ship record carries a request (R10, R14). -/
def State.requests (s : State) (r : ShipRequest) : Bool := s.vlp.held.any (·.request == r)

/-- The conditions of R10 for moving from PLUGGED to QUEUED. -/
def State.mayQueue (s : State) : Bool :=
  s.bsq.phase == .plugged && s.svp.mode == .run && s.requests .shore && s.vlp.link != .lost &&
    s.bsq.profileCode.isSome && !s.bsq.noProfile && !s.bsq.vesselMismatch && !s.bsq.syncAbort &&
    !s.bsq.parallelForced && !s.bsq.hostHold && !s.warningActive

/-- The condition of cause ESTOP (R168). -/
def State.estopCondition (s : State) : Bool := s.estopActive && s.bsq.phase != .vacant

/-- The condition of cause FEEDER_LOST (R168). -/
def State.feederCondition (s : State) : Bool := s.warningActive && (s.bsq.phase == .energising || s.auxClosed)

/-- The phases in which a lost pilot is a trip cause (R7, R168). -/
def Phase.energised (p : Phase) : Bool :=
  p == .energising || p == .awaitSync || p.connected || p == .deEnergising

/-- The current draw that the Meter Port offers (R161). -/
def State.currentDraw (s : State) : Option Nat := if s.mtp.stale then none else s.mtp.draw

/-- The threshold of an armed monitor (R170). -/
def State.threshold (s : State) : Nat := s.gos.applied + s.figures.overdrawTolerance

/-- The state the overdraw monitor takes in an event (R170). -/
def State.monitorNow (s : State) : Monitor :=
  if s.bsq.phase.connected then
    match s.currentDraw with
    | none   => .suspended
    | some d => if d ≤ s.threshold then .within else .excess
  else .unarmed

/-- The voltage-present indication (R5). -/
def State.voltageNow (s : State) : Bool := s.started && s.auxClosed

/-- The grant echo as the Grant Output Stage reads it (R134, R145). -/
def State.echo (s : State) : Nat := if s.vlp.link = .idle then 0 else (s.vlp.held.map (·.echo)).getD 0

/-- An up-step passes its test: the link is not LOST and the echo is at least A (R96). -/
def State.echoPasses (s : State) : Bool := s.vlp.link != .lost && decide (s.gos.applied ≤ s.echo)

/-- The trip record is held with its open confirmed (R167). -/
def State.openConfirmed (s : State) : Bool := s.tru.record.any (·.openConfirmed)

/-- The draw condition for clearing a trip (R176). -/
def State.drawAllowsClear (s : State) : Bool :=
  match s.currentDraw with
  | none   => true
  | some d => decide (d ≤ s.figures.overdrawTolerance)

/-- The conditions for an accepted CLEAR_TRIP with a record held (R176). -/
def State.mayClear (s : State) : Bool :=
  !s.auxClosed && s.openConfirmed && !s.estopActive && !s.warningActive && s.drawAllowsClear

/-- The trip cause shown to the ship: the first cause while the phase is TRIPPED (R30, R146). -/
def State.shownCause (s : State) : Option TripCause :=
  if s.bsq.phase = .tripped then s.tru.record.map (·.first) else none

/-- The fields of the berth status record as they stand (R146). -/
def State.statusNow (s : State) : BerthStatus :=
  { phase := s.bsq.phase, applied := s.gos.applied, voltagePresent := s.bsq.voltagePresent, cause := s.shownCause,
    suspended := s.gos.suspended, firmOverload := s.hre.firmOverload }

/-- The samples of a slot: its levels at the middle of bit times 5 to 12 (R129). -/
def slotSamples (levels : SlotLevels) : List Level :=
  (levels.toList.drop (Config.firstSample - 1)).take Config.slotSamples

/-- The slot is read as driven: at least four of the eight samples are driven (R129). -/
def slotDriven (levels : SlotLevels) : Bool :=
  decide (Config.slotThreshold ≤ ((slotSamples levels).filter id).length)

/-- The own entry with the values the station announces of itself (R35). -/
def State.mirrored (s : State) (e : PeerEntry) : PeerEntry :=
  { e with
    phaseCode := some s.bsq.phase.code, firm := s.bsq.firm, flex := s.bsq.flex, transient := s.bsq.transient
    periodIndex := some s.csc.index, capacity := some s.csc.pc, tripped := s.bsq.phase == .tripped
    firmOverload := s.hre.firmOverload, listening := s.svp.mode == .listen }

end Sys2Proof.Machine
end

