-- ==== Sys2Proof/Machine/Schedule.lean ====
section
/-! DEFINITION. The Capacity Schedule's operations. -/

namespace Sys2Proof.Machine

/-- The capacity of a record, 0 where it is not loaded (R109, R111). -/
def Csc.capacityAt (c : Csc) (i : Nat) : Nat := (c.periods[i]?.map (·.capacity)).getD 0

/-- The executions of a record. -/
def Csc.executionsAt (c : Csc) (i : Nat) : Nat := (c.periods[i]?.map (·.executions)).getD 0

/-- The lowest capacity of all loaded records (R111, R115). -/
def Csc.lowest (c : Csc) : Nat :=
  match c.periods with
  | []      => 0
  | p :: ps => (ps.map (·.capacity)).foldl min p.capacity

/-- A record is added at the loaded count or replaces the one at its index; in CONFIG Pc is that of record 0 (R109). -/
def Csc.load (index : Nat) (p : Period) (c : Csc) : Csc :=
  let periods := if index < c.periods.length then c.periods.set index p else c.periods ++ [p]
  { c with periods := periods, pc := if index = 0 then p.capacity else c.pc }

/-- The schedule goes to a record of the list (R113, R114). -/
def Csc.goTo (i : Nat) (c : Csc) : Csc := { c with index := i, remaining := c.executionsAt i, pc := c.capacityAt i }

/-- A tariff advance in STEPPED mode (R113). -/
def Csc.advance (c : Csc) : Csc :=
  if c.remaining ≤ 1 then c.goTo (if c.index + 1 < c.periods.length then c.index + 1 else 0)
  else { c with remaining := c.remaining - 1 }

/-- The select code names the period in SELECTED mode (R115). -/
def Csc.select (code : Address) (c : Csc) : Csc :=
  if code.val < c.periods.length then { c with index := code.val, pc := c.capacityAt code.val, selectRange := false }
  else { c with index := code.val, pc := c.lowest, selectRange := true }

/-- The current period at START (R112). -/
def Csc.begin (code : Address) (c : Csc) : Csc :=
  match c.mode with
  | .stepped  => c.goTo 0
  | .selected => c.select code
  | .fixed    => { c with index := 0, pc := c.capacityAt 0 }

/-- A change of the schedule in LISTEN or RUN, handed on where the index or Pc has changed (R111). -/
def changeSchedule (f : Csc → Csc) (s : State) : State :=
  let t := s.mapCsc f
  if t.csc.index = s.csc.index ∧ t.csc.pc = s.csc.pc then t else requestAnnounce (requestRecompute t)

end Sys2Proof.Machine
end

