-- ==== Sys2Proof/Machine/Sequencer.lean ====
section
/-! DEFINITION. The Berth Sequencer's and the Trip Unit's shared operations: a change of the own claim, a change of
phase, the breaker commands, taking a trip, and the passages from phase to phase. -/

namespace Sys2Proof.Machine

/-! ### The own claim and the phase -/

/-- A change of the own claim with the effects of R21; claim parts that are as they were change nothing. -/
def setClaim (firm flex transient : Nat) (s : State) : State :=
  if firm = s.bsq.firm ∧ flex = s.bsq.flex ∧ transient = s.bsq.transient then s
  else
    let t := s.mapBsq fun b => { b with firm := firm, flex := flex, transient := transient }
    let u := if firm = s.bsq.firm ∧ flex = s.bsq.flex then t
             else t.mapGos (Gos.newTarget s.bsq.phase.connected (firm + flex))
    requestAnnounce (requestRecompute u)

/-- The whole claim becomes 0 and the inrush timer stops (R22, R23, R24). -/
def zeroClaim (s : State) : State := setClaim 0 0 0 (s.mapTmb fun t => { t with inrush := t.inrush.stop })

/-- The phase-left notice to the Reservation Unit (R25, R61). -/
def phaseLeft (next : Phase) (s : State) : State :=
  if next = .tripped then abandonReserve s
  else if s.bsq.phase = .queued ∧ next ≠ .energising ∧ s.rsu.cls = some .firmEnergise then abandonReserve s
  else if s.bsq.phase.pair ∧ !next.pair ∧ s.rsu.cls = some .flexRaise then abandonReserve s
  else s

/-- The timers that a change of phase starts and stops (R14, R15, R95, R150). -/
def phaseTimers (next : Phase) (s : State) : State :=
  s.mapTmb fun t =>
    { t with
      ramp := if !next.connected then t.ramp.stop
              else if s.bsq.phase.connected || s.profile.isNone then t.ramp
              else Timer.start s.figures.rampInterval
      sync := if next = .awaitSync ∧ s.profile.isSome then Timer.start (s.figures.syncWindow * Config.second)
              else t.sync.stop
      parallel := if next = .parallel ∧ s.profile.isSome then Timer.start (s.figures.parallelLimit * Config.second)
                  else t.parallel.stop }

/-- The phases whose entry requests a recompute (R10, R15, R16, R71). -/
def Phase.recomputes (p : Phase) : Bool := p == .queued || p == .parallel || p == .onShore

/-- A change of phase with what it brings in every block: the notice to the Reservation Unit, the grant and the
timers, the cut settle count, the recompute request and the ANNOUNCE (R1, R25, R84, R95, R100, R102). The notice comes
before the ANNOUNCE, so that its WITHDRAW joins the queue first, as R26 says of a trip and the model of every other
departure: log entry 31. -/
def setPhase (next : Phase) (s : State) : State :=
  if next = s.bsq.phase then s
  else
    let t := phaseTimers next (phaseLeft next s)
    let u := (t.mapBsq fun b => { b with phase := next }).mapGos (Gos.enter next)
    let v := if s.bsq.phase.pair && !next.pair then u.mapHre fun h => { h with cutSettle := 0 } else u
    requestAnnounce (if next.recomputes then requestRecompute v else v)

/-! ### The breaker -/

/-- BKCLOSE is asserted and the breaker timer serves a close (R3, R4, R12). Log entry 7. -/
def commandClose (s : State) : State :=
  (s.mapBsq fun b => { b with bkClose := true, bkOpen := false, serving := some .close }).mapTmb
    fun t => { t with breaker := Timer.start s.station.breakerTime }

/-- BKOPEN is asserted, which deasserts BKCLOSE, and the breaker timer serves an open (R3, R4). -/
def commandOpen (s : State) : State :=
  (s.mapBsq fun b => { b with bkClose := false, bkOpen := true, serving := some .openCmd }).mapTmb
    fun t => { t with breaker := Timer.start s.station.breakerTime }

/-- The breaker timer stops without expiry (R4). -/
def stopBreaker (s : State) : State :=
  (s.mapBsq fun b => { b with serving := none }).mapTmb fun t => { t with breaker := t.breaker.stop }

/-- BKOPEN is deasserted and the breaker timer stopped, as an open or the reset pulse is complete (R3, R4). -/
def releaseOpen (s : State) : State := stopBreaker (s.mapBsq fun b => { b with bkOpen := false })

/-! ### Taking a trip (R169, R26) -/

/-- A cause is in a set. -/
def CauseSet.has (c : CauseSet) : TripCause → Bool
  | .pilotLost          => c.pilotLost
  | .estop              => c.estop
  | .feederLost         => c.feederLost
  | .breakerFail        => c.breakerFail
  | .breakerUncommanded => c.breakerUncommanded
  | .overdraw           => c.overdraw
  | .linkLost           => c.linkLost

/-- A set with a cause added. -/
def CauseSet.add (c : CauseSet) : TripCause → CauseSet
  | .pilotLost          => { c with pilotLost := true }
  | .estop              => { c with estop := true }
  | .feederLost         => { c with feederLost := true }
  | .breakerFail        => { c with breakerFail := true }
  | .breakerUncommanded => { c with breakerUncommanded := true }
  | .overdraw           => { c with overdraw := true }
  | .linkLost           => { c with linkLost := true }

/-- A cause taken while the phase is TRIPPED joins the later causes, which raises the trip reason (R169, R174). -/
def addLater (c : TripCause) (s : State) : State :=
  match s.tru.record with
  | none   => s
  | some r =>
    if r.later.has c then s
    else raiseAttention .trip (s.mapTru fun t => { t with record := some { r with later := r.later.add c } })

/-- The open of a trip is confirmed or no longer confirmed (R175). -/
def setConfirmed (b : Bool) (s : State) : State :=
  s.mapTru fun t => { t with record := t.record.map fun r => { r with openConfirmed := b } }

/-- The open is reported as confirmed and the claim zeroed (R26, R27, R175). -/
def confirmOpen (s : State) : State := zeroClaim (setConfirmed true s)

/-- The Berth Sequencer carries out a trip (R26). `failedOpen` says that the trip is brought by the expiry of the timer
serving an open in DE_ENERGISING. -/
def carryOutTrip (failedOpen : Bool) (s : State) : State :=
  let t := (setPhase .tripped s).mapBsq fun b => { b with bkClose := false }
  let u := if t.bsq.serving = some .close then stopBreaker t else t
  if u.auxClosed then
    if failedOpen then u
    else if u.bsq.serving.isSome then u.mapBsq fun b => { b with bkOpen := true }
    else commandOpen u
  else confirmOpen u

/-- The trip record as a cause fills it (R169). -/
def State.newRecord (s : State) (c : TripCause) : TripRecord :=
  { first := c, phaseAtTrip := s.bsq.phase, appliedAtTrip := s.gos.applied, later := .empty, openConfirmed := false }

/-- A cause starts a trip: the record is filled, the reason raised and the trip carried out (R169, R174). -/
def startTrip (failedOpen : Bool) (c : TripCause) (s : State) : State :=
  carryOutTrip failedOpen
    (raiseAttention .trip (s.mapTru fun t => { t with record := some (s.newRecord c) }))

/-- A cause is taken (R169). -/
def takeCause (c : TripCause) (s : State) : State :=
  if s.bsq.phase = .tripped then addLater c s else startTrip false c s

/-- The ESTOP condition is taken in the event in which it becomes true (R168). -/
def checkEstop (s : State) : State :=
  if s.estopCondition && !s.tru.estopHeld then takeCause .estop (s.mapTru fun t => { t with estopHeld := true }) else s

/-- The FEEDER_LOST condition is taken in the event in which it becomes true (R168). -/
def checkFeeder (s : State) : State :=
  if s.feederCondition && !s.tru.feederHeld then
    takeCause .feederLost (s.mapTru fun t => { t with feederHeld := true })
  else s

/-- The two conditions are judged, and whether each stands is remembered (R168). Log entry 8. One that the first boundary
makes true after a START taken before it is taken at the end of the next event: log entry 5. -/
def checkConditions (s : State) : State :=
  let t := checkEstop (checkFeeder (checkEstop s))
  t.mapTru fun u => { u with estopHeld := t.estopCondition, feederHeld := t.feederCondition }

/-- An uncommanded close (R28). -/
def uncommandedClose (s : State) : State :=
  let t := setClaim s.station.stuckBreakerClaim 0 0 s
  if t.bsq.phase = .tripped then commandOpen (setConfirmed false (addLater .breakerUncommanded t))
  else startTrip false .breakerUncommanded t

/-! ### Passages between phases -/

/-- The entry conditions of R10 are evaluated, and the berth queues if they hold. -/
def evaluateEntry (s : State) : State := if s.mayQueue then setPhase .queued s else s

/-- The phase becomes PLUGGED: the conditions behind trips are judged first, then those of R10 (R10, R11, R168). -/
def enterPlugged (s : State) : State := evaluateEntry (checkConditions (setPhase .plugged s))

/-- A de-energise is complete (R18). -/
def completeDeEnergise (s : State) : State := enterPlugged (zeroClaim (releaseOpen s))

/-- The phase becomes DE_ENERGISING: the open is commanded, or complete at once (R18, R19). -/
def enterDeEnergising (s : State) : State :=
  let t := setPhase .deEnergising s
  if t.auxClosed then commandOpen t else completeDeEnergise t

/-- The phase becomes PARALLEL, and ON_SHORE at once if the latest record shows the generators OFF (R15). -/
def enterParallel (s : State) : State :=
  let t := setPhase .parallel s
  if t.vlp.held.any (·.generators == .off) then setPhase .onShore t else t

/-- The inrush timer starts; a window of 0 expires at once, after the start has put that interval in force (R24, R162,
R164). -/
def startInrush (s : State) : State :=
  match s.profile with
  | none   => s
  | some p =>
    let t := s.mapTmb fun t => { t with inrush := Timer.start p.inrushWindow }
    if p.inrushWindow = 0 then setClaim s.bsq.firm s.bsq.flex 0 (t.mapTmb fun b => { b with inrush := b.inrush.stop })
    else t

/-- The breaker has closed in ENERGISING: AWAIT_SYNC is entered and the latest record evaluated (R13, R14). -/
def enterAwaitSync (s : State) : State :=
  let t := stopBreaker (s.mapBsq fun b => { b with bkClose := false })
  let u := setPhase .awaitSync (startInrush t)
  if u.vlp.link = .lost ∨ !u.requests .shore then enterDeEnergising u
  else if u.vlp.held.any (·.breakerClosed) then enterParallel u
  else u

/-- The plug-coding lines are read and the slot they name is selected (R6). -/
def selectProfile (s : State) : State :=
  s.mapBsq fun b => { b with profileCode := some s.plugCode, noProfile := s.vlp.slots[s.plugCode].isNone }

/-- No profile is selected, and the flags that belong to a plug are clear (R7, R29). Log entry 9. -/
def dropProfile (s : State) : State :=
  s.mapBsq fun b =>
    { b with profileCode := none, noProfile := false, vesselMismatch := false, syncAbort := false,
             parallelForced := false }

/-- The vessel id of a record is compared with the expected id of the profile in use (R8, R151). -/
def compareVessel (r : ShipRecord) (s : State) : State :=
  match s.figures.expectedId with
  | some id => s.mapBsq fun b => { b with vesselMismatch := r.vesselId != id }
  | none    => s

end Sys2Proof.Machine
end

