-- ==== Sys2Proof/Machine/Vessel.lean ====
section
/-! DEFINITION. The Vessel Link Port's shared operations: the clamps, what a valid record does, the effect of a plug
being proven, and the berth status record. -/

namespace Sys2Proof.Machine

/-- The clamped firm demand (R143). -/
def clampFirm (p : Option Profile) (d : Nat) : Nat :=
  let c := min Config.maxClaim d
  match p with
  | none   => c
  | some q => min q.maxFirm (max q.minFirm c)

/-- The clamped flex demand (R143). -/
def clampFlex (p : Option Profile) (d : Nat) : Nat :=
  let c := min Config.maxClaim d
  match p with
  | none   => c
  | some q => min q.maxFlex c

/-- The clamped demands and DEMAND_CLAMPED are formed from the held record and the profile in use (R143, R144). With no
record held they are 0 and clear (R134, R140). -/
def formClamps (s : State) : State :=
  let firm := (s.vlp.held.map fun r => clampFirm s.profile r.firmDemand).getD 0
  let flex := (s.vlp.held.map fun r => clampFlex s.profile r.flexDemand).getD 0
  let clamped := s.vlp.held.any fun r => r.firmDemand != firm || r.flexDemand != flex
  let t := s.mapVlp fun v => { v with clampedFirm := firm, clampedFlex := flex, demandClamped := clamped }
  let u := if firm = s.vlp.clampedFirm ∧ flex = s.vlp.clampedFlex then t else requestRecompute t
  if clamped && !s.vlp.demandClamped then raiseAttention .demandClamped u else u

/-- The fields of a valid record that are marked changed (R142). -/
structure Marks where
  request    : Bool
  breaker    : Bool
  generators : Bool
  deriving DecidableEq, Repr

/-- The change marks of a record against the held one (R142). -/
def marksOf (held : Option ShipRecord) (r : ShipRecord) : Marks :=
  match held with
  | none   => { request := true, breaker := true, generators := true }
  | some h =>
    { request := h.request != r.request, breaker := h.breakerClosed != r.breakerClosed,
      generators := h.generators != r.generators }

/-- SYNC_ABORT and PARALLEL_FORCED are cleared by a record whose request is NONE (R20). -/
def clearAbortFlags (r : ShipRecord) (s : State) : State :=
  if r.request = .none then s.mapBsq fun b => { b with syncAbort := false, parallelForced := false } else s

/-- The request field is taken (R14, R15, R16). -/
def takeRequest (m : Marks) (r : ShipRecord) (s : State) : State :=
  if m.request && r.request != .shore then
    if s.bsq.phase = .awaitSync then enterDeEnergising s
    else if s.bsq.phase.pair then setPhase .transferBack s
    else s
  else s

/-- The ship shore-breaker field is taken (R14 to R17). -/
def takeBreaker (m : Marks) (r : ShipRecord) (s : State) : State :=
  if m.breaker then
    if s.bsq.phase = .awaitSync ∧ r.breakerClosed then enterParallel s
    else if s.bsq.phase.connected ∧ !r.breakerClosed then enterDeEnergising s
    else s
  else s

/-- The generators field is taken: SYNCING retriggers the sync window, a change to OFF ends PARALLEL (R14, R15). -/
def takeGenerators (m : Marks) (r : ShipRecord) (s : State) : State :=
  if s.bsq.phase = .awaitSync ∧ r.generators = .syncing ∧ s.profile.isSome then
    s.mapTmb fun t => { t with sync := Timer.start (s.figures.syncWindow * Config.second) }
  else if s.bsq.phase = .parallel ∧ m.generators ∧ r.generators = .off then setPhase .onShore s
  else s

/-- The Berth Sequencer takes a delivered record according to its phase (R142, R8, R10, R11, R14, R20). -/
def deliverRecord (m : Marks) (r : ShipRecord) (s : State) : State :=
  let t := clearAbortFlags r s
  match t.bsq.phase with
  | .plugged => evaluateEntry (compareVessel r t)
  | .queued  =>
    let u := compareVessel r t
    if r.request ≠ .shore ∨ u.bsq.vesselMismatch then enterPlugged u else u
  | .awaitSync | .parallel | .onShore | .transferBack =>
    takeGenerators m r (takeBreaker m r (takeRequest m r t))
  | _ => t

/-- The link state and the link timeout at a valid record (R139, R141). -/
def linkHeard (s : State) : State :=
  let t := (s.mapVlp fun v => { v with link := .up }).mapTmb
    fun b => { b with linkTimeout := Timer.start s.station.vesselLinkTimeout }
  if s.vlp.link = .lost then requestRecompute t else t

/-- A valid ship status record is taken (R142). -/
def takeRecord (r : ShipRecord) (s : State) : State :=
  let m := marksOf s.vlp.held r
  let t := formClamps ((linkHeard s).mapVlp fun v => { v with held := some r })
  let u := t.mapGos (Gos.takeEcho t.bsq.phase.pair r.echo)
  deliverRecord m r u

/-- The link becomes LOST (R139, R141, R173): by phase the berth returns from QUEUED, de-energises, or gives up its flex
and starts the link-loss trip timer. -/
def linkLost (s : State) : State :=
  let t := (s.mapVlp fun v => { v with link := .lost }).mapTmb fun b => { b with linkTimeout := b.linkTimeout.stop }
  if t.bsq.phase = .queued then enterPlugged t
  else if t.bsq.phase = .awaitSync then enterDeEnergising t
  else if t.bsq.phase.connected then
    (requestAnnounce (setClaim t.bsq.firm 0 t.bsq.transient t)).mapTmb
      fun b => { b with linkLoss := Timer.start (s.station.linkLossInterval * Config.second) }
  else t

/-- The plug leaves the ship: the held record goes and the link becomes IDLE (R140). -/
def linkIdle (s : State) : State :=
  formClamps ((s.mapVlp fun v => { v with link := .idle, held := none }).mapTmb
    fun b => { b with linkTimeout := b.linkTimeout.stop })

/-- The pilot is proven in VACANT: the profile is selected, the held record clamped again and PLUGGED entered
(R6, R144). -/
def plugProven (s : State) : State := enterPlugged (formClamps (selectProfile s))

/-- A berth status record starts with the fields as they stand (R147). -/
def startStatusRecord (s : State) : State :=
  s.mapVlp fun v => { v with sender := .sending, statusCount := 0, lastSent := some s.statusNow }

/-- The content differs from the last sent, or the status interval has passed (R147). -/
def State.statusDue (s : State) : Bool :=
  s.vlp.lastSent != some s.statusNow || decide (Config.statusInterval ≤ s.vlp.statusCount)

end Sys2Proof.Machine
end

