-- ==== Sys2Proof/Machine/Settle.lean ====
section
/-! DEFINITION. The end of an event: what every block does in the same event with what the event has changed. -/

namespace Sys2Proof.Machine

/-- The voltage-present indication follows the aux (R5). -/
def followVoltage (s : State) : State := s.mapBsq fun b => { b with voltagePresent := s.voltageNow }

/-- The overdraw monitor sets its state anew, and its timer is started on entry to EXCESS and cancelled on leaving it
(R170, R171). -/
def followMonitor (s : State) : State :=
  let t := s.mapTru fun u => { u with monitor := s.monitorNow }
  if s.monitorNow = .excess then
    if s.tru.monitor = .excess then t else t.mapTmb fun b => { b with overdraw := Timer.start s.figures.overdrawDwell }
  else if s.tru.monitor = .excess then t.mapTmb fun b => { b with overdraw := b.overdraw.stop }
  else t

/-- The link-loss trip timer stops when the link leaves LOST or the phase leaves the three (R173). -/
def followLinkLoss (s : State) : State :=
  if s.vlp.link = .lost ∧ s.bsq.phase.connected then s else s.mapTmb fun b => { b with linkLoss := b.linkLoss.stop }

/-- The own entry mirrors the values that the next ANNOUNCE carries (R35). -/
def mirrorOwn (s : State) : State :=
  if s.ownEntry.standing = .own then s.mapPvt fun v => v.set s.ownAddress (s.mirrored s.ownEntry) else s

/-- A reference word starts if the event has changed A and the port is idle (R104, R105). -/
def sendReference (before s : State) : State :=
  if s.gos.applied ≠ before.gos.applied ∧ s.gos.port = .idle then s.mapGos Gos.startWord else s

/-- A berth status record starts if its content has changed and the sender is idle (R104, R147). -/
def sendStatus (s : State) : State :=
  if s.vlp.sender = .idle ∧ s.vlp.lastSent ≠ some s.statusNow then startStatusRecord s else s

/-- The kind of the frame at the head of the queue. -/
def Blc.headCode (b : Blc) : Option Nat := b.queue.head?.map (·.content.code)

/-- The idle count stands at or above the access wait of the head entry (R125). -/
def State.waitReached (s : State) : Bool :=
  s.blc.queue.head?.any fun e => decide (accessWait s.ownAddress e ≤ s.blc.idleCount)

/-- A frame that the event has made head begins its attempt in the event if the idle count stands at or above its wait
(R125). -/
def beginIfReached (before s : State) : State :=
  if s.blc.link = .idle ∧ s.blc.headCode ≠ before.blc.headCode ∧ s.waitReached then beginAttempt s else s

/-- The end of an event in LISTEN or RUN; in CONFIG no block acts on what an event has changed (R2, R71, R122, R147,
R167). -/
def settle (before s : State) : State :=
  if s.started then
    sendStatus (sendReference before (runEngine (beginIfReached before (mirrorOwn (followLinkLoss (followMonitor
      (followVoltage (checkConditions s))))))))
  else s

/-- An event: what it does, and what the blocks do with it in the same event. -/
def event (f : State → State) (s : State) : Host.Outcome State Fault Refusal := .next (settle s (f s))

/-- An event that happens only where its condition stands; where it does not stand nothing happens. -/
def eventIf (c : Bool) (f : State → State) (s : State) : Host.Outcome State Fault Refusal :=
  if c then event f s else .next s

end Sys2Proof.Machine
end

