-- ==== Sys2Proof/Machine/LineEvents.lean ====
section
/-! DEFINITION. The meanings of the time-base boundaries and of the qualified line changes (chapter 9). -/

namespace Sys2Proof.Machine

/-- A boundary of the 1 ms time base for everything that counts it (R162, R47, R66, R147). -/
def countBoundary (s : State) : State :=
  ((s.mapTmb Tmb.tick).mapPvt fun v => v.map PeerEntry.tick).mapVlp
    fun v => { v with statusCount := if v.lastSent.isSome then min Config.statusInterval (v.statusCount + 1)
                                     else v.statusCount }

/-- LINE_INITIAL_SETTLE (R157): the first boundary after reset. It delivers no change, so that after a START taken
before it whatever the end of an event judges by the lines (voltage present, the conditions of ESTOP and FEEDER_LOST)
follows with the next event only, the model's choice: log entry 5. -/
def execLineInitialSettle (levels : PerLine Bool) (s : State) : Host.Outcome State Fault Refusal :=
  if s.tmb.boundary = 0 then
    .next ((countBoundary s).mapLib fun b =>
      { b with lines := PerLine.zipWith LineState.firstSample b.settings levels })
  else .next s

/-- LINE_SAMPLING (R154, R162): every later boundary. Log entry 3. -/
def execLineSampling (levels : PerLine Bool) (s : State) : Host.Outcome State Fault Refusal :=
  if s.tmb.boundary = 0 then .next s
  else
    .next ((countBoundary s).mapLib fun b =>
      { b with lines := PerLine.zipWith (LineState.sample (s.tmb.boundary + 1)) b.lines levels })

/-- PILOT_PROVEN (R6, R155). -/
def execPilotProven (s : State) : Host.Outcome State Fault Refusal :=
  eventIf (s.changeDue .pilot true)
    (fun s =>
      let t := settleActive .pilot true s
      if t.started && t.bsq.phase == .vacant then plugProven t else t) s

/-- The Berth Sequencer and the Trip Unit take a lost pilot (R7, R168). -/
def pilotGone (s : State) : State :=
  if s.bsq.phase = .plugged ∨ s.bsq.phase = .queued then dropProfile (setPhase .vacant s)
  else if s.bsq.phase.energised then takeCause .pilotLost s
  else if s.bsq.phase = .tripped ∧ !s.openConfirmed then addLater .pilotLost s
  else s

/-- PILOT_LOST (R7, R140, R155). -/
def execPilotLost (s : State) : Host.Outcome State Fault Refusal :=
  eventIf (s.changeDue .pilot false)
    (fun s =>
      let t := settleActive .pilot false s
      if t.started then pilotGone (linkIdle t) else t) s

/-- The Berth Sequencer takes the aux reading closed (R13, R28). -/
def auxClosure (s : State) : State :=
  match s.bsq.phase with
  | .energising => enterAwaitSync s
  | .vacant | .plugged | .queued => uncommandedClose s
  | .tripped => if s.openConfirmed then uncommandedClose s else s
  | _ => s

/-- AUX_READS_CLOSED (R13, R28, R155). -/
def execAuxReadsClosed (s : State) : Host.Outcome State Fault Refusal :=
  eventIf (s.changeDue .bkaux true)
    (fun s =>
      let t := settleActive .bkaux true s
      if t.started then auxClosure t else t) s

/-- The Berth Sequencer takes the aux reading open (R3, R4, R18, R19, R27). -/
def auxOpening (s : State) : State :=
  let t := if s.bsq.serving = some .resetPulse then releaseOpen s else s
  match t.bsq.phase with
  | .awaitSync | .parallel | .onShore | .transferBack => enterDeEnergising t
  | .deEnergising => completeDeEnergise t
  | .tripped => confirmOpen (releaseOpen t)
  | _ => t

/-- AUX_READS_OPEN (R18, R19, R27, R155). -/
def execAuxReadsOpen (s : State) : Host.Outcome State Fault Refusal :=
  eventIf (s.changeDue .bkaux false)
    (fun s =>
      let t := settleActive .bkaux false s
      if t.started then auxOpening t else t) s

/-- ESTOP_CHANGE (R155, R168): the cause is judged at the end of the event. -/
def execEstopChange (active : Bool) (s : State) : Host.Outcome State Fault Refusal :=
  eventIf (s.changeDue .estop active) (settleActive .estop active) s

/-- The Berth Sequencer takes a change of the feeder warning (R10, R11). -/
def warningChange (active : Bool) (s : State) : State :=
  if active then if s.bsq.phase = .queued then enterPlugged s else s
  else evaluateEntry s

/-- FEEDER_WARNING_CHANGE (R10, R11, R155, R168). -/
def execFeederWarningChange (active : Bool) (s : State) : Host.Outcome State Fault Refusal :=
  eventIf (s.changeDue .fdrwarn active)
    (fun s =>
      let t := settleActive .fdrwarn active s
      if t.started then warningChange active t else t) s

/-- PLUG_CODE_LINE_CHANGE (R155): delivered to no block. -/
def execPlugCodeLineChange (line : Fin 4) (active : Bool) (s : State) : Host.Outcome State Fault Refusal :=
  if s.changeDue (.pcode line) active then .next (settleActive (.pcode line) active s) else .next s

/-- The level that an edge line is moving to (R154). -/
def State.nextLevel (s : State) (l : Line) : Bool := !(s.lib.lines.get l).settled

/-- A qualified event of an edge line completes (R156). -/
def State.edgeDue (s : State) (l : Line) : Bool :=
  s.lineDue l (s.nextLevel l) && (s.lib.settings.get l).kind.isEvent (s.nextLevel l)

/-- The schedule takes tariff events of its mode in LISTEN and RUN (R118). -/
def State.takesTariff (s : State) (m : ScheduleMode) : Bool := s.started && s.csc.mode == m

/-- TARIFF_ADVANCE (R113, R118, R156). -/
def execTariffAdvance (s : State) : Host.Outcome State Fault Refusal :=
  eventIf (s.edgeDue .tadv)
    (fun s =>
      let t := settleLine .tadv (s.nextLevel .tadv) s
      if t.takesTariff .stepped then changeSchedule Csc.advance t else t) s

/-- TARIFF_RESTART (R114, R118, R156). -/
def execTariffRestart (s : State) : Host.Outcome State Fault Refusal :=
  eventIf (s.edgeDue .trst)
    (fun s =>
      let t := settleLine .trst (s.nextLevel .trst) s
      if t.takesTariff .stepped then changeSchedule (Csc.goTo 0) t else t) s

/-- A select line settles where its qualification has completed at the latest boundary (R154). -/
def qualifySelect (n : Fin 4) (s : State) : State :=
  if s.lineDue (.tsel n) (s.nextLevel (.tsel n)) then settleLine (.tsel n) (s.nextLevel (.tsel n)) s else s

/-- The select lines whose qualifications complete at one boundary are qualified together, so that no code between the
old and the new one is read (R116). Log entry 30. -/
def qualifySelects (s : State) : State :=
  qualifySelect 3 (qualifySelect 2 (qualifySelect 1 (qualifySelect 0 s)))

/-- TARIFF_SELECT_CHANGE (R115, R116, R118, R155). -/
def execTariffSelectChange (line : Fin 4) (active : Bool) (s : State) : Host.Outcome State Fault Refusal :=
  eventIf (s.changeDue (.tsel line) active)
    (fun s =>
      let t := qualifySelects (settleActive (.tsel line) active s)
      if t.takesTariff .selected then changeSchedule (Csc.select t.selectCode) t else t) s

/-- The line of an edge line's name. -/
def edgeLineOf : EdgeLine → Line
  | .tadv => .tadv
  | .trst => .trst

/-- EDGE_LINE_SETTLED (R156): a completion that does not match the kind changes the settled level alone. -/
def execEdgeLineSettled (line : EdgeLine) (s : State) : Host.Outcome State Fault Refusal :=
  let l := edgeLineOf line
  if s.lineDue l (s.nextLevel l) && !(s.lib.settings.get l).kind.isEvent (s.nextLevel l) then
    .next (settleLine l (s.nextLevel l) s)
  else .next s

end Sys2Proof.Machine
end

