-- ==== Sys2Proof/Machine/Formats.lean ====
section
/-! DEFINITION. The layouts of chapter 12: bytes, the check value, berth link frames, vessel link records, command
and response records, the snapshot, and the port words; and the characters of the two links as levels (R120, R135). -/

namespace Sys2Proof.Machine

/-! ### Bytes and the check value (R188, R193) -/

/-- A figure in one byte. -/
def byte (n : Nat) : Byte := BitVec.ofNat 8 n

/-- A figure in two bytes, least significant first (R188). -/
def le16 (n : Nat) : List Byte := [byte n, byte (n / 256)]

/-- A figure in four bytes, least significant first (R191). -/
def le32 (n : Nat) : List Byte := [byte n, byte (n / 256), byte (n / 65536), byte (n / 16777216)]

/-- The number that two bytes carry, least significant first (R188). -/
def of16 (lo hi : Byte) : Nat := lo.toNat + 256 * hi.toNat

/-- One data bit into the check register (R193). -/
def checkBit (r : Check) (bit : Bool) : Check :=
  if r.getLsbD 0 ^^ bit then (r >>> 1) ^^^ 0x8408#16 else r >>> 1

/-- One byte into the check register, least significant bit first (R193). -/
def checkByte (r : Check) (b : Byte) : Check :=
  [0, 1, 2, 3, 4, 5, 6, 7].foldl (fun r i => checkBit r (b.getLsbD i)) r

/-- The check value of a run of bytes (R193). -/
def checkOf (bs : List Byte) : Check := bs.foldl checkByte 0xFFFF#16

/-- A record with its check after it, low byte first (R188, R193). -/
def withCheck (bs : List Byte) : List Byte := bs ++ le16 (checkOf bs).toNat

/-- The bytes before the check (R188). -/
def payload (bs : List Byte) : List Byte := bs.take (bs.length - 2)

/-- The last two bytes are the check of the ones before them (R193). -/
def checkGood (bs : List Byte) : Bool := decide (2 ≤ bs.length) && withCheck (payload bs) == bs

/-- A flag as a number. -/
def flag (b : Bool) : Nat := b.toNat

/-! ### Berth link frames (R189) -/

/-- The class code of a reserve. -/
def ReserveClass.code : ReserveClass → Nat
  | .firmEnergise => 1
  | .flexRaise    => 2

/-- The bytes of a frame before its check. -/
def Frame.body : Frame → List Byte
  | .announce a f =>
    [byte (a.val + 16), byte (f.phaseCode + 16 * f.periodIndex)] ++ le16 f.firm ++ le16 f.flex ++ le16 f.transient ++
      le16 f.capacity ++ [byte (flag f.tripped + 2 * flag f.firmOverload + 4 * flag f.listening)]
  | .reserve a amount cls => [byte (a.val + 32)] ++ le16 amount ++ [byte cls.code]
  | .withdraw a => [byte (a.val + 48)]

/-- The frame as it is sent. -/
def Frame.bytes (f : Frame) : List Byte := withCheck f.body

/-- The sender's address of a frame. -/
def Frame.sender : Frame → Address
  | .announce a _  => a
  | .reserve a _ _ => a
  | .withdraw a    => a

/-- The address in a frame's first byte. -/
def addressOf (b : Byte) : Address := Fin.ofNat 16 b.toNat

/-- The frame that the bytes before a good check carry, none where they are discarded (R130, R189). -/
def parseBody : List Byte → Option Frame
  | [b0] => if b0.toNat / 16 = 3 then some (.withdraw (addressOf b0)) else none
  | [b0, lo, hi, c] =>
    if b0.toNat / 16 = 2 ∧ of16 lo hi ≤ Config.maxClaim then
      if c.toNat = 1 then some (.reserve (addressOf b0) (of16 lo hi) .firmEnergise)
      else if c.toNat = 2 then some (.reserve (addressOf b0) (of16 lo hi) .flexRaise)
      else none
    else none
  | [b0, p, f0, f1, x0, x1, t0, t1, c0, c1, g] =>
    if b0.toNat / 16 = 1 ∧ p.toNat % 16 ≤ 9 ∧ of16 f0 f1 ≤ Config.maxClaim ∧ of16 x0 x1 ≤ Config.maxClaim ∧
        of16 t0 t1 ≤ Config.maxTransient ∧ of16 c0 c1 ≤ Config.maxCapacity then
      some (.announce (addressOf b0)
        { phaseCode := p.toNat % 16, periodIndex := p.toNat / 16, firm := of16 f0 f1, flex := of16 x0 x1,
          transient := of16 t0 t1, capacity := of16 c0 c1, tripped := g.getLsbD 0, firmOverload := g.getLsbD 1,
          listening := g.getLsbD 2 })
    else none
  | _ => none

/-- How a received transmission is judged, but for its address (R130). -/
inductive Judged where
  | failed
  | discarded
  | good (f : Frame)
  deriving DecidableEq, Repr

/-- The judgement of a transmission at its end (R130). -/
def judge (rx : Reception) : Judged :=
  if rx.framingError ∨ rx.bytes.length < 3 ∨ !checkGood rx.bytes then .failed
  else
    match parseBody (payload rx.bytes) with
    | some f => .good f
    | none   => .discarded

/-! ### Characters and levels (R120, R121, R135) -/

/-- The ten levels of a character: the start bit driven, the data bits least significant first with a 0 driven and a 1
released, and the stop bit released (R120). The vessel link's are the same (R135, log entry 32). -/
def charLevels (b : Byte) : List Level :=
  true :: (List.range Config.dataBits).map (fun i => !b.getLsbD i) ++ [false]

/-- The levels of a frame, its characters back to back (R120). -/
def Frame.levels (f : Frame) : List Level := f.bytes.flatMap charLevels

/-- The run of released bit times after some levels that followed a run of `run` released ones (R121). -/
def releasedRun (run : Nat) (levels : List Level) : Nat := levels.foldl (fun n l => if l then 0 else n + 1) run

/-- Levels that follow a run of `run` released bit times reach a run of `limit` released ones, and go no further. -/
def endsAfter (limit run : Nat) : List Level → Bool
  | []        => false
  | l :: rest =>
    let n := if l then 0 else run + 1
    if n = limit then rest.isEmpty else endsAfter limit n rest

/-- The levels of a whole transmission, from its first driven bit time to its end (R121). -/
def wholeTransmission (levels : List Level) : Bool :=
  levels.head? == some true && endsAfter Config.endRun 0 levels

/-- The levels of a whole vessel link record, from its first driven bit time to its end (R135). -/
def wholeRecord (levels : List Level) : Bool := levels.head? == some true && endsAfter Config.recordRun 0 levels

/-- The byte that the data bits of a character carry, least significant first, a driven one a 0 (R120). -/
def byteOf (data : List Level) : Byte := byte (data.foldr (fun l n => (!l).toNat + 2 * n) 0)

/-- A receiver while a transmission or record is assembled (R130, R135): the characters held, and the data bits of the
character that is coming in, none between characters. -/
structure Assembly where
  held : Reception
  data : Option (List Level)
  deriving DecidableEq, Repr

/-- One more bit time of a transmission or record (R120, R130, R135): a driven one between characters is the next start
bit, and a character is held from its stop bit on, which is a framing error where it reads driven. Log entry 32. -/
def Assembly.take (x : Assembly) (l : Level) : Assembly :=
  match x.data with
  | none   => { x with data := if l then some [] else none }
  | some d =>
    if d.length < Config.dataBits then { x with data := some (d ++ [l]) }
    else
      { held := { bytes := x.held.bytes ++ [byteOf d], framingError := x.held.framingError || l }, data := none }

/-- What a receiver holds of the levels of a transmission or record (R130, R135). -/
def assemble (levels : List Level) : Reception :=
  (levels.foldl Assembly.take { held := { bytes := [], framingError := false }, data := none }).held

/-! ### Vessel link records (R190) -/

/-- The code of a trip cause (R190). -/
def TripCause.code : TripCause → Nat
  | .pilotLost          => 1
  | .estop              => 2
  | .feederLost         => 3
  | .breakerFail        => 4
  | .breakerUncommanded => 5
  | .overdraw           => 6
  | .linkLost           => 7

/-- The request of a code (R190). -/
def requestOf : Nat → Option ShipRequest
  | 0 => some .none
  | 1 => some .shore
  | 2 => some .back
  | _ => none

/-- The code of a request (R190). -/
def ShipRequest.code : ShipRequest → Nat
  | .none  => 0
  | .shore => 1
  | .back  => 2

/-- The generators state of a code (R190). -/
def generatorsOf : Nat → Option Generators
  | 0 => some .online
  | 1 => some .syncing
  | 2 => some .off
  | _ => none

/-- The code of a generators state (R190). -/
def Generators.code : Generators → Nat
  | .online  => 0
  | .syncing => 1
  | .off     => 2

/-- The ten data bytes of a ship status record (R190). -/
def ShipRecord.body (r : ShipRecord) : List Byte :=
  le16 r.vesselId ++ [byte r.request.code, byte (flag r.breakerClosed + 16 * r.generators.code)] ++
    le16 r.firmDemand ++ le16 r.flexDemand ++ le16 r.echo

/-- The ship status record that the bytes before a good check carry, none where they are discarded (R136, R190). -/
def parseShip : List Byte → Option ShipRecord
  | [v0, v1, rq, bg, f0, f1, x0, x1, e0, e1] =>
    match requestOf rq.toNat, generatorsOf (bg.toNat / 16 % 4) with
    | some request, some generators =>
      if of16 v0 v1 ≠ 0 ∧ bg.toNat % 4 ≤ 1 then
        some { vesselId := of16 v0 v1, request := request, breakerClosed := bg.toNat % 4 == 1,
               generators := generators, firmDemand := of16 f0 f1, flexDemand := of16 x0 x1, echo := of16 e0 e1 }
      else none
    | _, _ => none
  | _ => none

/-- The record that a reception on VRX holds, none where it fails or is discarded; the combination of R137 is judged
apart (R136). -/
def shipRecordOf (rx : Reception) : Option ShipRecord :=
  if rx.framingError ∨ rx.bytes.length ≠ 12 ∨ !checkGood rx.bytes then none else parseShip (payload rx.bytes)

/-- The record that a run of levels on VRX carries, none where it does not reach its end there (R135, R136). -/
def shipRecordIn (levels : List Level) : Option ShipRecord :=
  if wholeRecord levels then shipRecordOf (assemble levels) else none

/-- The invalid combination of R137. -/
def State.invalidCombination (s : State) (r : ShipRecord) : Bool :=
  s.bsq.phase == .queued && r.breakerClosed && r.generators == .syncing

/-- The six data bytes of a berth status record (R190). -/
def BerthStatus.body (b : BerthStatus) : List Byte :=
  [byte b.phase.code, byte (flag b.voltagePresent), byte (flag b.suspended + 2 * flag b.firmOverload)] ++
    le16 b.applied ++ [byte ((b.cause.map TripCause.code).getD 0)]

/-- The berth status record as it is sent on VTX. -/
def BerthStatus.bytes (b : BerthStatus) : List Byte := withCheck b.body

/-- The levels of a berth status record on VTX, its characters back to back (R135). -/
def BerthStatus.levels (b : BerthStatus) : List Level := b.bytes.flatMap charLevels

/-- The levels that VTX runs through in the sender's present state: the record last started, or the released bit times of
the gap after it, and none to run through with the sender idle (R134, R135, R147). -/
def Vlp.vtxRun (v : Vlp) : List Level :=
  match v.sender with
  | .idle    => []
  | .sending => (v.lastSent.map BerthStatus.levels).getD []
  | .gap     => List.replicate Config.gapBits false

/-- The level on VTX in a bit time counted from the start of the sender's present state: that of the record in progress,
and released at every other time (R134, R147). -/
def Vlp.vtx (v : Vlp) (bit : Nat) : Level := v.vtxRun.getD bit false

/-! ### Port words (R194) -/

/-- The reference word that carries a grant and an update count. -/
def refWord (grant count : Nat) : RefWord := BitVec.ofNat 32 (count % 256 * 16777216 + grant % 32768)

/-- The bits of a reference word in the order sent on REFTX, bit 31 first. -/
def refBits (w : RefWord) : List Bool := (List.range 32).map fun i => w.getLsbD (31 - i)

/-- The bits of the word that the reference port is sending, in the order sent on REFTX (R105). -/
def RefPort.bits : RefPort → List Bool
  | .idle                => []
  | .sending grant count => refBits (refWord grant count)

/-- The draw that a meter word carries, bit 15 first. -/
def drawOf (bits : List Bool) : Nat := bits.foldl (fun n b => 2 * n + b.toNat) 0

/-! ### Response records (R191) -/

/-- The code of a response. -/
def ResponseCode.code : ResponseCode → Nat
  | .accepted     => 0
  | .wrongMode    => 1
  | .outOfRange   => 2
  | .incomplete   => 3
  | .causePresent => 4
  | .notLatched   => 5
  | .held         => 6

/-- A response record as it is shifted out on SDO. -/
def Response.bytes (r : Response) : List Byte :=
  withCheck ([byte r.code.code, byte r.count, byte r.kind] ++ le16 r.data.length ++ r.data)

/-- What a transaction of `n` bytes shifts out on SDO: the response record as far as it goes, and none for the idle
level after it or with the buffer empty (R179). -/
def sdoBytes (s : State) (n : Nat) : List (Option Byte) :=
  let record := (s.svp.response.map Response.bytes).getD []
  (List.range n).map fun i => record[i]?

/-- The code of a station mode. -/
def Mode.code : Mode → Nat
  | .config => 0
  | .listen => 1
  | .run    => 2

/-- The attention set as a byte (R191, R185). -/
def AttentionSet.code (a : AttentionSet) : Nat :=
  flag a.trip + 2 * flag a.firmOverload + 4 * flag a.scheduleDisagreement + 8 * flag a.addressConflict +
    16 * flag a.linkCongested + 32 * flag a.rampSuspended + 64 * flag a.demandClamped + 128 * flag a.meterStale

/-- The data of READ_STATUS (R191). -/
def statusData (s : State) : List Byte :=
  [byte s.svp.mode.code, byte s.bsq.phase.code, byte s.svp.attention.code]

/-- The code of a standing. -/
def Standing.code : Standing → Nat
  | .empty  => 0
  | .live   => 1
  | .silent => 2
  | .own    => 3

/-- The data of READ_PEER (R191): 21 bytes. -/
def peerData (a : Nat) (e : PeerEntry) : List Byte :=
  [byte a, byte e.standing.code, byte (e.phaseCode.getD 255)] ++ le16 e.firm ++ le16 e.flex ++ le16 e.transient ++
    [byte (e.periodIndex.getD 255)] ++ le16 (e.capacity.getD 65535) ++
    [byte (flag e.tripped + 2 * flag e.firmOverload + 4 * flag e.listening + 8 * flag e.heard + 16 * flag e.changed),
     byte (flag e.reserved.isSome)] ++
    le16 ((e.reserved.map (·.amount)).getD 0) ++
    [byte ((e.reserved.map (·.cls.code)).getD 0), byte ((e.reserved.map (·.age)).getD 0), byte e.missed] ++
    le16 e.silentAge

/-! ### The snapshot (R184, R192) -/

/-- The remaining time of every named timer (R166). -/
def State.timerReadout (s : State) : TimerReadout :=
  { announce := s.tmb.announce.left, listen := s.tmb.listen.left, hold := s.tmb.hold.left,
    reserveBackoff := s.tmb.reserveBackoff.left, collisionBackoff := s.blc.collisionBackoff s.ownAddress,
    breaker := s.tmb.breaker.left, inrush := s.tmb.inrush.left, sync := s.tmb.sync.left,
    parallel := s.tmb.parallel.left, ramp := s.tmb.ramp.left, linkTimeout := s.tmb.linkTimeout.left,
    linkLoss := s.tmb.linkLoss.left, overdraw := s.tmb.overdraw.left, meterStale := s.tmb.meterStale.left }

/-- The transmit queue as the snapshot shows it; a count of 16 is never shown (R122, R127). Log entry 10. With the
queue empty, so that there is no head, the count is shown as 0, the model's choice: log entry 29. -/
def State.queueReadout (s : State) : QueueReadout :=
  { kinds := s.blc.queue.map (·.content.code)
    collisions := min (Config.maxCollisions - 1) ((s.blc.queue.head?.map (·.collisions)).getD 0)
    inTransmission := s.blc.inTransmission && !s.blc.queue.isEmpty }

/-- The copy that LATCH makes (R184). -/
def State.snapshotNow (s : State) : Snapshot :=
  { mode := s.svp.mode, station := s.svp.station, phase := s.bsq.phase, noProfile := s.bsq.noProfile,
    vesselMismatch := s.bsq.vesselMismatch, syncAbort := s.bsq.syncAbort, parallelForced := s.bsq.parallelForced,
    profileCode := s.bsq.profileCode, hostHold := s.bsq.hostHold, firm := s.bsq.firm, flex := s.bsq.flex,
    transient := s.bsq.transient, reserveState := s.rsu.state, reserveClass := s.rsu.cls,
    reserveAmount := s.rsu.amount, pmin := s.hre.pmin, e := s.hre.e, s := s.hre.s, f := s.hre.f, h := s.hre.h,
    last := s.hre.last, disagreement := s.hre.disagreement, firmOverload := s.hre.firmOverload,
    cutSettle := s.hre.cutSettle, target := s.gos.target, pending := s.gos.pending, applied := s.gos.applied,
    stall := s.gos.stall, suspended := s.gos.suspended, scheduleMode := s.csc.mode,
    loadedCount := s.csc.periods.length, index := s.csc.index, pc := s.csc.pc, remaining := s.csc.remaining,
    selectRange := s.csc.selectRange, queue := s.queueReadout, conflict := s.blc.conflict, link := s.vlp.link,
    held := s.vlp.held, clampedFirm := s.vlp.clampedFirm, clampedFlex := s.vlp.clampedFlex,
    demandClamped := s.vlp.demandClamped, lastSent := s.vlp.lastSent,
    slotsLoaded := s.vlp.slots.map (·.isSome), draw := s.mtp.draw, meterStale := s.mtp.stale,
    timers := s.timerReadout, record := s.tru.record, monitor := s.tru.monitor, attention := s.svp.attention }

/-- `n` bytes at 255, for something absent or stopped (R191). -/
def absent (n : Nat) : List Byte := List.replicate n (byte 255)

/-- The 44 data bytes of a station record (R191). -/
def stationData (r : StationRecord) : List Byte :=
  let line (a : LineArg) : List Byte := byte a.kind :: le16 a.delay
  [byte r.address] ++ le16 r.margin ++ le16 r.announceInterval ++ le16 r.holdWindow ++ le16 r.reserveBackoffUnit ++
    le16 r.forgetInterval ++ le16 r.breakerTime ++ le16 r.vesselLinkTimeout ++ [byte r.linkLossInterval] ++
    le16 r.meterStaleInterval ++ le16 r.stuckBreakerClaim ++ line r.pilot ++ line r.estop ++ line r.bkaux ++
    line r.fdrwarn ++ line r.tadv ++ line r.trst ++ line r.pcode ++ line r.tsel

/-- The code of a reserve state (R192). -/
def ReserveState.code : ReserveState → Nat
  | .none    => 0
  | .queued  => 1
  | .sent    => 2
  | .hold    => 3
  | .backoff => 4

/-- The code, class and amount of a last result (R192). -/
def LastResult.codes : LastResult → Nat × Nat × Nat
  | .none              => (0, 0, 0)
  | .release n         => (1, 0, n)
  | .cut n             => (2, 0, n)
  | .cutWithheld n     => (3, 0, n)
  | .reserveWanted c n => (4, c.code, n)
  | .energiseWait n    => (5, 0, n)
  | .deferred          => (6, 0, 0)
  | .discarded         => (7, 0, 0)

/-- The code of a schedule mode (R191). -/
def ScheduleMode.code : ScheduleMode → Nat
  | .stepped  => 0
  | .selected => 1
  | .fixed    => 2

/-- The code of a vessel link state (R192). -/
def VesselLink.code : VesselLink → Nat
  | .idle => 0
  | .up   => 1
  | .lost => 2

/-- The code of an overdraw monitor state (R192). -/
def Monitor.code : Monitor → Nat
  | .unarmed   => 0
  | .suspended => 1
  | .within    => 2
  | .excess    => 3

/-- A set of causes as a byte, bit n - 1 for the cause of code n (R192). -/
def CauseSet.code (c : CauseSet) : Nat :=
  flag c.pilotLost + 2 * flag c.estop + 4 * flag c.feederLost + 8 * flag c.breakerFail +
    16 * flag c.breakerUncommanded + 32 * flag c.overdraw + 64 * flag c.linkLost

/-- A remaining time in four bytes, all at 255 for stopped (R191). -/
def timeData : Option Nat → List Byte
  | some n => le32 n
  | none   => absent 4

/-- H in four bytes of two's complement (R191). -/
def signedData (h : Int) : List Byte := le32 (BitVec.ofInt 32 h).toNat

/-- The transmit queue in five bytes (R191). -/
def queueData (q : QueueReadout) : List Byte :=
  [byte (q.kinds.getD 0 0), byte (q.kinds.getD 1 0), byte (q.kinds.getD 2 0), byte q.collisions,
   byte (flag q.inTransmission)]

/-- The loaded slots in two bytes, bit n for slot n (R192). -/
def slotsData (t : Table Bool) : List Byte := le16 ((allAddresses.map fun a => if t[a] then 2 ^ a.val else 0).sum)

/-- The trip record in seven bytes (R192). -/
def recordData : Option TripRecord → List Byte
  | none   => byte 0 :: absent 6
  | some r => [byte 1, byte r.first.code, byte r.phaseAtTrip.code] ++ le16 r.appliedAtTrip ++
                [byte r.later.code, byte (flag r.openConfirmed)]

/-- The fourteen remaining times in the order of R166 (R192). -/
def timersData (t : TimerReadout) : List Byte :=
  [t.announce, t.listen, t.hold, t.reserveBackoff, t.collisionBackoff, t.breaker, t.inrush, t.sync, t.parallel, t.ramp,
   t.linkTimeout, t.linkLoss, t.overdraw, t.meterStale].flatMap timeData

/-- The data of READ_SNAPSHOT, item by item in the order of R192. -/
def snapshotData (n : Snapshot) : List Byte :=
  [byte n.mode.code] ++ (n.station.map stationData).getD (absent 44) ++
  [byte n.phase.code,
   byte (flag n.noProfile + 2 * flag n.vesselMismatch + 4 * flag n.syncAbort + 8 * flag n.parallelForced),
   byte ((n.profileCode.map (·.val)).getD 255), byte (flag n.hostHold)] ++
  le16 n.firm ++ le16 n.flex ++ le16 n.transient ++
  [byte n.reserveState.code, byte ((n.reserveClass.map (·.code)).getD 0)] ++ le16 n.reserveAmount ++
  le32 n.pmin ++ le32 n.e ++ le32 n.s ++ le32 n.f ++ signedData n.h ++
  [byte n.last.codes.1, byte n.last.codes.2.1] ++ le16 n.last.codes.2.2 ++
  [byte (flag n.disagreement + 2 * flag n.firmOverload), byte n.cutSettle] ++
  le16 n.target ++ le16 n.pending ++ le16 n.applied ++ [byte n.stall, byte (flag n.suspended)] ++
  [byte n.scheduleMode.code, byte n.loadedCount, byte n.index] ++ le16 n.pc ++
  [byte n.remaining, byte (flag n.selectRange)] ++
  queueData n.queue ++ [byte (flag n.conflict)] ++
  [byte n.link.code] ++ (n.held.map (·.body)).getD (absent 10) ++ le16 n.clampedFirm ++ le16 n.clampedFlex ++
  [byte (flag n.demandClamped)] ++ (n.lastSent.map (·.body)).getD (absent 6) ++ slotsData n.slotsLoaded ++
  [byte (flag n.draw.isSome)] ++ (n.draw.map le16).getD (absent 2) ++ [byte (flag n.meterStale)] ++
  timersData n.timers ++ recordData n.record ++ [byte n.monitor.code] ++ [byte n.attention.code]

/-! ### Command records (R191) -/

/-- The kind byte of a command, for the thirteen commands of the service port. -/
def commandKind : Instr → Option Nat
  | .loadStation _     => some 1
  | .loadProfile _     => some 2
  | .loadPeriod _ _ _  => some 3
  | .setScheduleMode _ => some 4
  | .start             => some 5
  | .readStatus        => some 6
  | .latch             => some 7
  | .readSnapshot      => some 8
  | .readPeer _        => some 9
  | .clearTrip         => some 10
  | .forgetPeer _      => some 11
  | .berthHold _       => some 12
  | .probe _           => some 13
  | _                  => none

/-- The data fields of LOAD_PROFILE (R191). -/
def profileData (p : ProfileArgs) : List Byte :=
  [byte p.slot] ++ le16 p.maxFirm ++ le16 p.minFirm ++ le16 p.maxFlex ++ le16 p.quantum ++ le16 p.raiseLimit ++
    le16 p.rampStep ++ le16 p.rampInterval ++ le16 p.downrampStep ++ le16 p.inrushAllowance ++ le16 p.inrushWindow ++
    le16 p.syncWindow ++ le16 p.parallelLimit ++ le16 p.overdrawTolerance ++ le16 p.overdrawDwell ++
    [byte p.stallLimit, byte p.idPresence] ++ le16 p.expectedId

/-- The data fields after the kind byte of a command (R191). -/
def commandData : Instr → List Byte
  | .loadStation r     => stationData r
  | .loadProfile p     => profileData p
  | .loadPeriod i c x  => [byte i] ++ le16 c ++ [byte x]
  | .setScheduleMode c => [byte c]
  | .readPeer a        => [byte a]
  | .forgetPeer a      => [byte a]
  | .berthHold c       => [byte c]
  | .probe w           => le16 w
  | _                  => []

/-- The command record of a service command, none for a row that is no service command (R191). -/
def commandBytes (i : Instr) : Option (List Byte) :=
  (commandKind i).map fun k => withCheck (byte k :: commandData i)

/-- The one-byte field at a place of the data. -/
def field8 (d : List Byte) (i : Nat) : Nat := (d.getD i 0).toNat

/-- The two-byte field at a place of the data (R188). -/
def field16 (d : List Byte) (i : Nat) : Nat := of16 (d.getD i 0) (d.getD (i + 1) 0)

/-- The line setting at a place of the data (R191). -/
def lineField (d : List Byte) (i : Nat) : LineArg := { kind := field8 d i, delay := field16 d (i + 1) }

/-- The station record in 44 data bytes (R191). -/
def stationOf (d : List Byte) : Option StationRecord :=
  if d.length = 44 then
    some
      { address := field8 d 0, margin := field16 d 1, announceInterval := field16 d 3, holdWindow := field16 d 5,
        reserveBackoffUnit := field16 d 7, forgetInterval := field16 d 9, breakerTime := field16 d 11,
        vesselLinkTimeout := field16 d 13, linkLossInterval := field8 d 15, meterStaleInterval := field16 d 16,
        stuckBreakerClaim := field16 d 18, pilot := lineField d 20, estop := lineField d 23, bkaux := lineField d 26,
        fdrwarn := lineField d 29, tadv := lineField d 32, trst := lineField d 35, pcode := lineField d 38,
        tsel := lineField d 41 }
  else none

/-- The LOAD_PROFILE fields in 33 data bytes (R191). -/
def profileOf (d : List Byte) : Option ProfileArgs :=
  if d.length = 33 then
    some
      { slot := field8 d 0, maxFirm := field16 d 1, minFirm := field16 d 3, maxFlex := field16 d 5,
        quantum := field16 d 7, raiseLimit := field16 d 9, rampStep := field16 d 11, rampInterval := field16 d 13,
        downrampStep := field16 d 15, inrushAllowance := field16 d 17, inrushWindow := field16 d 19,
        syncWindow := field16 d 21, parallelLimit := field16 d 23, overdrawTolerance := field16 d 25,
        overdrawDwell := field16 d 27, stallLimit := field8 d 29, idPresence := field8 d 30,
        expectedId := field16 d 31 }
  else none

/-- The command of a kind byte and the data fields after it, none where the kind is unknown or the length is not its
kind's (R179, R191). -/
def commandOf (kind : Nat) (d : List Byte) : Option Instr :=
  match kind with
  | 1  => (stationOf d).map .loadStation
  | 2  => (profileOf d).map .loadProfile
  | 3  => match d with | [i, c0, c1, x] => some (.loadPeriod i.toNat (of16 c0 c1) x.toNat) | _ => none
  | 4  => match d with | [c] => some (.setScheduleMode c.toNat) | _ => none
  | 5  => if d = [] then some .start else none
  | 6  => if d = [] then some .readStatus else none
  | 7  => if d = [] then some .latch else none
  | 8  => if d = [] then some .readSnapshot else none
  | 9  => match d with | [a] => some (.readPeer a.toNat) | _ => none
  | 10 => if d = [] then some .clearTrip else none
  | 11 => match d with | [a] => some (.forgetPeer a.toNat) | _ => none
  | 12 => match d with | [c] => some (.berthHold c.toNat) | _ => none
  | 13 => match d with | [w0, w1] => some (.probe (of16 w0 w1)) | _ => none
  | _  => none

/-- What a service transaction of these bytes is: the command it carries, none where it is not taken (R179). -/
def decodeTransaction (bs : List Byte) : Option Instr :=
  if checkGood bs then
    match payload bs with
    | k :: d => commandOf k.toNat d
    | []     => none
  else none

end Sys2Proof.Machine
end

