-- ==== Sys2Proof/Machine/LinkEvents.lean ====
section
/-! DEFINITION. The meanings of the berth link's events (chapters 2, 3 and 7). -/

namespace Sys2Proof.Machine

/-- A station whose reserve is in HOLD in RUN objects (R63, R129). -/
def State.objects (s : State) : Bool := s.svp.mode == .run && s.rsu.state == .hold

/-- The frame is a RESERVE. -/
def Frame.isReserve : Frame → Bool
  | .reserve _ _ _ => true
  | _              => false

/-- The objection slot of a transmission begins, driven by this station or not (R121, R129). -/
def openSlot (driving : Bool) (rx : Option RxFrame) (s : State) : State :=
  s.mapBlc fun b => { b with link := .slot driving Config.slotBits, idleCount := 0, rx := rx }

/-- The end of a transmission of another station, judged (R130, R131, R132, R63). -/
def takeTransmission (j : Judged) (s : State) : State :=
  match j with
  | .failed    => openSlot s.objects none s
  | .discarded => openSlot false none s
  | .good f    =>
    if s.started && f.sender == s.ownAddress then
      let t := openSlot false none s
      if t.blc.conflict then t else conflictFound t
    else openSlot (s.objects && f.isReserve) (some { frame := f, inConfig := !s.started }) s

/-- RECEIVED_TRANSMISSION_END (R121, R130): the transmission of another station that is on the pair ends with the last
of these levels, and what they assemble to is judged. Log entry 4. -/
def execReceivedTransmissionEnd (levels : List Level) (s : State) : Host.Outcome State Fault Refusal :=
  eventIf (s.blc.link == .foreign && wholeTransmission levels) (takeTransmission (judge (assemble levels))) s

/-- The objection slot of a received frame ends: the frame leaves the buffer and the idle count starts (R121, R130). -/
def closeSlot (s : State) : State := s.mapBlc fun b => { b with link := .idle, idleCount := 0, rx := none }

/-- The frame whose objection slot has run through all its bit times and ends (R121, R130): none before the sixteenth
has passed. -/
def Blc.slotFrame (b : Blc) : Option RxFrame :=
  match b.link with
  | .slot _ 0 => b.rx
  | _         => none

/-- A buffered frame is handed on at the end of its slot (R36, R42, R131). Log entry 11. -/
def State.handsOn (s : State) (r : RxFrame) : Bool := s.started && !r.inConfig && r.frame.sender != s.ownAddress

/-- The table takes an ANNOUNCE (R37, R38, R39). -/
def takeAnnounce (a : Address) (f : AnnounceFields) (s : State) : State :=
  putEntry a (s.pvt[a].takeAnnounce f) (s.pvt[a].announceChanges f) s

/-- The table and the Reservation Unit take a RESERVE with its slot outcome (R40, R64, R65). -/
def takeReserve (a : Address) (amount : Nat) (cls : ReserveClass) (driven : Bool) (s : State) : State :=
  if driven then putEntry a s.pvt[a].hear false s
  else putEntry a (s.pvt[a].takeReserve amount cls) true s

/-- The table and the Reservation Unit take a WITHDRAW (R41, R68). -/
def takeWithdraw (a : Address) (s : State) : State :=
  putEntry a s.pvt[a].takeWithdraw (s.pvt[a].known && s.pvt[a].reserved.isSome) s

/-- ANNOUNCE_RECEIVED (R36 to R39). -/
def execAnnounceReceived (s : State) : Host.Outcome State Fault Refusal :=
  match s.blc.slotFrame with
  | some { frame := .announce a f, inConfig := c } =>
    event (fun s =>
      if s.handsOn { frame := .announce a f, inConfig := c } then takeAnnounce a f (closeSlot s) else closeSlot s) s
  | _ => .next s

/-- This station drives the slot in progress (R129). -/
def Blc.driving (b : Blc) : Bool :=
  match b.link with
  | .slot d _ => d
  | _         => false

/-- RESERVE_RECEIVED (R36, R40, R64, R65, R129). -/
def execReserveReceived (levels : SlotLevels) (s : State) : Host.Outcome State Fault Refusal :=
  match s.blc.slotFrame with
  | some { frame := .reserve a n cls, inConfig := c } =>
    event (fun s =>
      if s.handsOn { frame := .reserve a n cls, inConfig := c } then
        takeReserve a n cls (s.blc.driving || slotDriven levels) (closeSlot s)
      else closeSlot s) s
  | _ => .next s

/-- WITHDRAW_RECEIVED (R36, R41, R68). -/
def execWithdrawReceived (s : State) : Host.Outcome State Fault Refusal :=
  match s.blc.slotFrame with
  | some { frame := .withdraw a, inConfig := c } =>
    event (fun s =>
      if s.handsOn { frame := .withdraw a, inConfig := c } then takeWithdraw a (closeSlot s) else closeSlot s) s
  | _ => .next s

/-- ATTEMPT_START (R125, R126, R123, R55): on a pair outside any transmission and slot, with the idle count at the
access wait of the head. -/
def execAttemptStart (s : State) : Host.Outcome State Fault Refusal :=
  eventIf (s.started && s.blc.link == .idle && s.waitReached) beginAttempt s

/-- The head entry counts a collision; a mark is cleared where the frame stays for a retry (R123, R126). -/
def TxEntry.collide (e : TxEntry) : TxEntry :=
  { e with collisions := e.collisions + 1
           refresh := e.refresh && decide (Config.maxCollisions ≤ e.collisions + 1) }

/-- The level that the station itself puts on the pair in the present bit time: the bit of its frame, the jam, or the
slot it objects in (R120, R126, R129). -/
def Blc.drives (b : Blc) : Level :=
  match b.link with
  | .own bit           => ((b.onWire.map Frame.levels).getD []).getD bit false
  | .jam _             => true
  | .slot driving left => driving && decide (left ≠ 0)
  | _                  => false

/-- The level on the pair: driven where at least one station drives it, this one or another (R120). -/
def Blc.pair (others : Level) (b : Blc) : Level := b.drives || others

/-- The level read back differs from the bit of the own frame that is being sent (R120, R126). -/
def Blc.mismatch (others : Level) (b : Blc) : Bool :=
  match b.link with
  | .own _ => b.pair others != b.drives
  | _      => false

/-- The own attempt collides: the frame stops and the jam begins (R126, R55). COLLISION passes no bit time, so the bit time
of the mismatch is the first of the jam's sixteen, which R126 leaves open: the model's choice, log entry 33. -/
def collide (s : State) : State :=
  let t := s.mapBlc fun b => { b.mapHead TxEntry.collide with link := .jam Config.jamBits, onWire := none }
  if s.rsu.state = .sent ∧ s.blc.queue.head?.any TxEntry.isReserve then
    t.mapRsu fun r => { r with state := .queued }
  else t

/-- COLLISION (R120, R126): another station drives the pair in the bit time being sent. What is read back is compared with
the bit, and a mismatch is a collision. -/
def execCollision (s : State) : Host.Outcome State Fault Refusal :=
  eventIf (s.blc.mismatch true && !s.blc.queue.isEmpty) collide s

/-- The head frame has reached sixteen collisions and is dropped (R127). -/
def dropFrame (e : TxEntry) (s : State) : State :=
  let t := raiseAttention .linkCongested s
  match e.content with
  | .announce    => t.mapBlc fun b => if e.refresh then b.requeueHead else b.dropHead
  | .reserve _ _ => releaseRefused (requestRecompute (clearReserve (t.mapBlc Blc.dropHead)))
  | .withdraw    => t.mapBlc Blc.dropHead

/-- A collided transmission ends (R126, R127, R124, R53). -/
def collidedEnd (e : TxEntry) (s : State) : State :=
  let t := openSlot false s.blc.rx s
  if e.isReserve && e.abandoned then releaseRefused (t.mapBlc Blc.dropHead)
  else if Config.maxCollisions ≤ e.collisions then dropFrame e t
  else t.mapBlc (Blc.mapHead fun e => { e with refresh := false })

/-- COLLIDED_TRANSMISSION_END (R121, R126, R127): once the pair has been released for ten bit times after the jam. -/
def execCollidedTransmissionEnd (s : State) : Host.Outcome State Fault Refusal :=
  match s.blc.link, s.blc.queue with
  | .collided released, e :: _ => eventIf (decide (Config.endRun ≤ released)) (collidedEnd e) s
  | _, _                       => .next s

/-- The own reserve leaves SENT by the slot outcome (R56). -/
def reserveOutcome (driven : Bool) (s : State) : State :=
  if driven then
    (s.mapRsu fun r => { r with state := .backoff }).mapTmb fun t =>
      { t with reserveBackoff := Timer.start ((s.ownAddress.val + 1) * s.station.reserveBackoffUnit) }
  else
    (s.mapRsu fun r => { r with state := .hold }).mapTmb fun t => { t with hold := Timer.start s.station.holdWindow }

/-- The objection slot after an own frame sent whole ends (R128, R123, R124). -/
def ownSlotEnd (driven : Bool) (e : TxEntry) (s : State) : State :=
  let t := s.mapBlc fun b => { b with link := .idle, idleCount := 0, onWire := none }
  match e.content with
  | .announce    => t.mapBlc fun b => if e.refresh then b.requeueHead else b.dropHead
  | .reserve _ _ =>
    let u := t.mapBlc Blc.dropHead
    releaseRefused (if !e.abandoned && u.rsu.state == .sent then reserveOutcome driven u else u)
  | .withdraw    => t.mapBlc Blc.dropHead

/-- OWN_SLOT_END (R128, R129, R56): once the slot's sixteen bit times have passed. -/
def execOwnSlotEnd (levels : SlotLevels) (s : State) : Host.Outcome State Fault Refusal :=
  match s.blc.link, s.blc.queue with
  | .ownSlot 0, e :: _ => event (ownSlotEnd (slotDriven levels) e) s
  | _, _               => .next s

/-- A bit time driven by another station (R121): outside any transmission and slot it begins a transmission. After the own
frame or the own jam the run of released bit times that ends the transmission starts again. Anywhere else it belongs to
the transmission or slot that it falls in. -/
def Blc.driven (b : Blc) : Blc :=
  match b.link with
  | .idle              => { b with link := .foreign, idleCount := 0 }
  | .ending _          => { b with link := .ending 0 }
  | .collided released => { b with link := .collided (if released < Config.endRun then 0 else released) }
  | _                  => b

/-- TRANSMISSION_BEGINS (R121). -/
def execTransmissionBegins (s : State) : Host.Outcome State Fault Refusal := .next (s.mapBlc Blc.driven)

/-- What the own frame is followed by after the bit that is being sent: its next bit, and after its last one the run of
released bit times that ends its transmission (R120, R121, R125). -/
def Blc.nextBit (bit : Nat) (b : Blc) : LinkPhase :=
  let levels := (b.onWire.map Frame.levels).getD []
  if bit + 1 < levels.length then .own (bit + 1) else .ending (releasedRun 0 levels)

/-- One bit time of the berth link passes in which no other station drives the pair (R121, R125, R126). Released bit
times are counted outside transmissions and slots; the own frame goes on by one bit, and ten released bit times end its
transmission and bring its slot; the jam runs down, and ten released bit times after it end the collided transmission;
the slots run down. A slot that holds no frame ends with its last bit time; the slot of a frame ends with the command
that hands the frame on, the own slot with OWN_SLOT_END and a collided transmission with COLLIDED_TRANSMISSION_END. The
levels of another station's transmission come with the command that ends it. Log entry 1. -/
def Blc.bitTime (b : Blc) : Blc :=
  match b.link with
  | .idle              => { b with idleCount := b.idleCount + 1 }
  | .own bit           => { b with link := b.nextBit bit }
  | .ending released   =>
    { b with link := if released + 1 < Config.endRun then .ending (released + 1) else .ownSlot Config.slotBits }
  | .ownSlot left      => { b with link := .ownSlot (left - 1) }
  | .jam left          => { b with link := if left ≤ 1 then .collided 0 else .jam (left - 1) }
  | .slot driving left =>
    if left ≤ 1 ∧ b.rx = none then { b with link := .idle, idleCount := 0 }
    else { b with link := .slot driving (left - 1) }
  | .foreign           => b
  | .collided released => { b with link := .collided (min Config.endRun (released + 1)) }

/-- What a step does where no command waits: one bit time of the berth link passes. Log entry 1. -/
def bitTime (s : State) : State := s.mapBlc Blc.bitTime

end Sys2Proof.Machine
end

