-- ==== Sys2Proof/Machine/PortEvents.lean ====
section
/-! DEFINITION. The meanings of the vessel link's, the meter port's and the reference port's events (chapters 5, 8, 9). -/

namespace Sys2Proof.Machine

/-- SHIP_STATUS_RECORD (R135 to R138, R142). -/
def execShipStatusRecord (levels : List Level) (s : State) : Host.Outcome State Fault Refusal :=
  match shipRecordIn levels with
  | some r => eventIf (s.started && !s.invalidCombination r) (takeRecord r) s
  | none   => .next s

/-- The Meter Port takes a sample (R159, R160). -/
def takeSample (d : Nat) (s : State) : State :=
  let t := s.mapMtp fun m => { m with draw := some d }
  if t.started then
    (t.mapMtp fun m => { m with stale := false }).mapTmb fun b =>
      { b with meterStale := Timer.start s.station.meterStaleInterval }
  else t

/-- METER_SAMPLE (R159). -/
def execMeterSample (bits : List Bool) (s : State) : Host.Outcome State Fault Refusal :=
  eventIf (bits.length == Config.meterClocks) (takeSample (drawOf bits)) s

/-- REFERENCE_WORD_END (R105). -/
def execReferenceWordEnd (s : State) : Host.Outcome State Fault Refusal :=
  match s.gos.port with
  | .idle           => .next s
  | .sending sent _ =>
    let t := s.mapGos fun g => { g with updateCount := (g.updateCount + 1) % 256, port := .idle }
    .next (if s.gos.applied = sent then t else t.mapGos Gos.startWord)

/-- STATUS_INTERVAL_REACHED (R147). -/
def execStatusIntervalReached (s : State) : Host.Outcome State Fault Refusal :=
  if s.started && s.vlp.sender == .idle && decide (Config.statusInterval ≤ s.vlp.statusCount) then
    .next (startStatusRecord s)
  else .next s

/-- BERTH_STATUS_RECORD_END (R147). -/
def execBerthStatusRecordEnd (s : State) : Host.Outcome State Fault Refusal :=
  if s.vlp.sender = .sending then .next (s.mapVlp fun v => { v with sender := .gap }) else .next s

/-- STATUS_RECORD_GAP_END (R147). -/
def execStatusRecordGapEnd (s : State) : Host.Outcome State Fault Refusal :=
  if s.vlp.sender = .gap then
    .next (if s.statusDue then startStatusRecord s else s.mapVlp fun v => { v with sender := .idle })
  else .next s

end Sys2Proof.Machine
end

