-- ==== Sys2Proof/Machine/Operands.lean ====
section
/-! DEFINITION. The ranges of the service commands' operands and what they load. -/

namespace Sys2Proof.Machine

/-- A figure lies in a range, both ends included. -/
def inRange (lo hi n : Nat) : Bool := decide (lo ≤ n) && decide (n ≤ hi)

/-- A level line's setting is allowed (R158, R191). -/
def levelArgOk (a : LineArg) : Bool := inRange 0 1 a.kind && inRange 0 1000 a.delay

/-- An edge line's setting is allowed (R158, R191). -/
def edgeArgOk (a : LineArg) : Bool := inRange 0 2 a.kind && inRange 0 1000 a.delay

/-- Every line setting of a station record is allowed (R158). -/
def lineArgsOk (r : StationRecord) : Bool :=
  levelArgOk r.pilot && levelArgOk r.estop && levelArgOk r.bkaux && levelArgOk r.fdrwarn && edgeArgOk r.tadv &&
    edgeArgOk r.trst && levelArgOk r.pcode && levelArgOk r.tsel

/-- Every field of a station record lies within its range (R181). -/
def stationInRange (r : StationRecord) : Bool :=
  inRange 0 15 r.address && inRange 0 5000 r.margin && inRange 100 2000 r.announceInterval &&
    inRange 50 5000 r.holdWindow && inRange 10 500 r.reserveBackoffUnit && inRange 10 3600 r.forgetInterval &&
    inRange 20 2000 r.breakerTime && inRange 100 2000 r.vesselLinkTimeout && inRange 1 120 r.linkLossInterval &&
    inRange 20 1000 r.meterStaleInterval && inRange 10 Config.maxClaim r.stuckBreakerClaim && lineArgsOk r

/-- Every field of a LOAD_PROFILE lies within its range and the fields fit together (R148, R149). -/
def profileInRange (p : ProfileArgs) : Bool :=
  inRange 0 15 p.slot && inRange 10 Config.maxClaim p.maxFirm && inRange 10 p.maxFirm p.minFirm &&
    inRange 0 Config.maxClaim p.maxFlex && inRange 10 1000 p.quantum &&
    inRange p.quantum Config.maxClaim p.raiseLimit && inRange 10 4095 p.rampStep &&
    inRange 100 10000 p.rampInterval && inRange 10 4095 p.downrampStep && inRange 0 4095 p.inrushAllowance &&
    inRange 0 30000 p.inrushWindow && inRange 1 600 p.syncWindow && inRange 10 1800 p.parallelLimit &&
    inRange 0 2000 p.overdrawTolerance && inRange 100 10000 p.overdrawDwell && inRange 1 255 p.stallLimit &&
    inRange 0 1 p.idPresence && (p.idPresence == 0 || inRange 1 65535 p.expectedId) &&
    decide (p.maxFirm + p.inrushAllowance ≤ Config.maxClaim)

/-- The slot that an accepted LOAD_PROFILE leaves (R148, R191). -/
def profileOfArgs (p : ProfileArgs) : Profile :=
  { maxFirm := p.maxFirm, minFirm := p.minFirm, maxFlex := p.maxFlex, quantum := p.quantum,
    raiseLimit := p.raiseLimit, rampStep := p.rampStep, rampInterval := p.rampInterval, downrampStep := p.downrampStep,
    inrushAllowance := p.inrushAllowance, inrushWindow := p.inrushWindow, syncWindow := p.syncWindow,
    parallelLimit := p.parallelLimit, overdrawTolerance := p.overdrawTolerance, overdrawDwell := p.overdrawDwell,
    stallLimit := p.stallLimit, expectedId := if p.idPresence = 1 then some p.expectedId else none }

/-- The fields of a LOAD_PERIOD lie within their ranges and leave no gap (R109). -/
def periodInRange (c : Csc) (index capacity executions : Nat) : Bool :=
  inRange 0 15 index && decide (index ≤ c.periods.length) && inRange 0 Config.maxCapacity capacity &&
    inRange 1 255 executions

/-- The schedule mode of a code (R191). -/
def scheduleModeOf : Nat → Option ScheduleMode
  | 0 => some .stepped
  | 1 => some .selected
  | 2 => some .fixed
  | _ => none

/-- The host hold that a BERTH_HOLD setting code asks for (R180, R191). -/
def holdSettingOf : Nat → Option Bool
  | 0 => some false
  | 1 => some true
  | _ => none

/-- The station address a command names, none outside 0 to 15 (R50, R51). -/
def addressOperand (a : Nat) : Option Address := if h : a < 16 then some ⟨a, h⟩ else none

end Sys2Proof.Machine
end

