-- ==== Sys2Proof/Machine/ServiceCommands.lean ====
section
/-! DEFINITION. The meanings of reset and of the service port's commands (chapter 11). -/

namespace Sys2Proof.Machine

/-- The command count and the response buffer of a taken command (R179). -/
def answer (kind : Nat) (code : ResponseCode) (data : List Byte) (s : State) : State :=
  s.mapSvp fun v =>
    { v with commandCount := (v.commandCount + 1) % 256
             response := some { code := code, count := (v.commandCount + 1) % 256, kind := kind, data := data } }

/-- A command whose response carries no data and which changes nothing but the response. -/
def refuse (kind : Nat) (code : ResponseCode) (s : State) : Host.Outcome State Fault Refusal :=
  .next (answer kind code [] s)

/-- RESET (R178): every block at its reset values; the queue of commands and the free count are the model's own. -/
def execReset (s : State) : Host.Outcome State Fault Refusal :=
  .next { State.reset with pending := s.pending, freeCount := s.freeCount }

/-- LOAD_STATION (R180, R181, R157). -/
def execLoadStation (r : StationRecord) (s : State) : Host.Outcome State Fault Refusal :=
  if s.started then refuse 1 .wrongMode s
  else if stationInRange r then
    .next (answer 1 .accepted [] (applySettings (settingsOf r) (s.mapSvp fun v => { v with station := some r })))
  else refuse 1 .outOfRange s

/-- LOAD_PROFILE (R149, R180). -/
def execLoadProfile (p : ProfileArgs) (s : State) : Host.Outcome State Fault Refusal :=
  if s.started then refuse 2 .wrongMode s
  else if profileInRange p then
    .next (answer 2 .accepted []
      (s.mapVlp fun v => { v with slots := v.slots.set (Fin.ofNat 16 p.slot) (some (profileOfArgs p)) }))
  else refuse 2 .outOfRange s

/-- LOAD_PERIOD (R109, R180). -/
def execLoadPeriod (index capacity executions : Nat) (s : State) : Host.Outcome State Fault Refusal :=
  if s.started then refuse 3 .wrongMode s
  else if periodInRange s.csc index capacity executions then
    let t := s.mapCsc (Csc.load index { capacity := capacity, executions := executions })
    .next (answer 3 .accepted [] (if t.csc.pc = s.csc.pc then t else requestRecompute t))
  else refuse 3 .outOfRange s

/-- SET_SCHEDULE_MODE (R110, R180). -/
def execSetScheduleMode (code : Nat) (s : State) : Host.Outcome State Fault Refusal :=
  if s.started then refuse 4 .wrongMode s
  else
    match scheduleModeOf code with
    | some m => .next (answer 4 .accepted [] (s.mapCsc fun c => { c with mode := m }))
    | none   => refuse 4 .outOfRange s

/-- The Berth Sequencer's START event: the aux and then the pilot (R2). -/
def sequencerStart (s : State) : State :=
  if s.auxClosed then uncommandedClose s else if s.pilotActive then plugProven s else s

/-- What an accepted START does in every block (R182). -/
def startStation (s : State) : State :=
  let t := s.mapSvp fun v => { v with mode := .listen }
  let u := t.mapTmb fun b =>
    { b with listen := Timer.start (Config.listenMultiple * s.station.announceInterval)
             announce := Timer.start s.station.announceInterval
             meterStale := Timer.start s.station.meterStaleInterval }
  let v := (u.mapCsc (Csc.begin s.selectCode)).mapPvt fun p => p.set s.ownAddress { s.ownEntry with standing := .own }
  sequencerStart (requestAnnounce (requestRecompute v))

/-- START (R182, R180). -/
def execStart (s : State) : Host.Outcome State Fault Refusal :=
  if s.started then refuse 5 .wrongMode s
  else if s.svp.station.isNone || s.csc.periods.isEmpty then refuse 5 .incomplete s
  else event (fun s => answer 5 .accepted [] (startStation s)) s

/-- READ_STATUS (R186, R187). -/
def execReadStatus (s : State) : Host.Outcome State Fault Refusal :=
  .next ((answer 6 .accepted (statusData s) s).mapSvp fun v => { v with attention := .empty, attn := false })

/-- LATCH (R184). -/
def execLatch (s : State) : Host.Outcome State Fault Refusal :=
  match s.svp.snapshot with
  | some _ => refuse 7 .held s
  | none   => .next (answer 7 .accepted [] (s.mapSvp fun v => { v with snapshot := some s.snapshotNow }))

/-- READ_SNAPSHOT (R184, R192). -/
def execReadSnapshot (s : State) : Host.Outcome State Fault Refusal :=
  match s.svp.snapshot with
  | some n => .next (answer 8 .accepted (snapshotData n) (s.mapSvp fun v => { v with snapshot := none }))
  | none   => refuse 8 .notLatched s

/-- READ_PEER (R51). -/
def execReadPeer (address : Nat) (s : State) : Host.Outcome State Fault Refusal :=
  match addressOperand address with
  | some a => .next (answer 9 .accepted (peerData address s.pvt[a]) s)
  | none   => refuse 9 .outOfRange s

/-- The Berth Sequencer leaves TRIPPED on an accepted clear (R29, R144). -/
def leaveTripped (s : State) : State :=
  let t := dropProfile (s.mapTru fun u => { u with record := none })
  if s.pilotActive then
    let u := selectProfile t
    let v := match u.vlp.held with
      | some r => compareVessel r u
      | none   => u
    enterPlugged (formClamps v)
  else setPhase .vacant (formClamps t)

/-- CLEAR_TRIP (R176, R180). -/
def execClearTrip (s : State) : Host.Outcome State Fault Refusal :=
  if !s.started then refuse 10 .wrongMode s
  else if s.tru.record.isNone then refuse 10 .outOfRange s
  else if s.mayClear then event (fun s => answer 10 .accepted [] (leaveTripped s)) s
  else refuse 10 .causePresent s

/-- FORGET_PEER (R50, R49). -/
def execForgetPeer (address : Nat) (s : State) : Host.Outcome State Fault Refusal :=
  if !s.started then refuse 11 .wrongMode s
  else
    match addressOperand address with
    | some a =>
      if s.pvt[a].known then event (fun s => answer 11 .accepted [] (putEntry a PeerEntry.emptied true s)) s
      else refuse 11 .outOfRange s
    | none => refuse 11 .outOfRange s

/-- BERTH_HOLD (R9, R180). -/
def execBerthHold (setting : Nat) (s : State) : Host.Outcome State Fault Refusal :=
  if !s.started then refuse 12 .wrongMode s
  else
    match holdSettingOf setting with
    | some b =>
      if b = s.bsq.hostHold then refuse 12 .accepted s
      else
        event (fun s => answer 12 .accepted [] (evaluateEntry (s.mapBsq fun q => { q with hostHold := b }))) s
    | none => refuse 12 .outOfRange s

/-- PROBE (R90, R180). -/
def execProbe (want : Nat) (s : State) : Host.Outcome State Fault Refusal :=
  if !s.started then refuse 13 .wrongMode s
  else if want ≤ Config.maxClaim then .next (answer 13 .accepted (le16 (s.probeAmount want)) s)
  else refuse 13 .outOfRange s

/-- TRANSACTION_NOT_TAKEN (R179): the response buffer, the command count and every block are left as they were. -/
def execTransactionNotTaken (_bytes : List Byte) (s : State) : Host.Outcome State Fault Refusal := .next s

end Sys2Proof.Machine
end

