-- ==== Sys2Proof/Machine/TimerEvents.lean ====
section
/-! DEFINITION. The meanings of the timer expiries, of the ageing steps and of the end of a computation (chapters 1
to 5, 8 to 11). -/

namespace Sys2Proof.Machine

/-- The silence check of every LIVE entry (R45, R46). -/
def silenceCheck (s : State) : State :=
  let t := s.mapPvt fun v => v.map PeerEntry.check
  if s.pvt.toList.any PeerEntry.turnsSilent then tableChanged t else t

/-- The cut settle count is lowered while above 0, and asks for a recompute on reaching 0 (R84). -/
def lowerSettleCount (s : State) : State :=
  if s.hre.cutSettle = 0 then s
  else
    let t := s.mapHre fun h => { h with cutSettle := h.cutSettle - 1 }
    if t.hre.cutSettle = 0 then requestRecompute t else t

/-- ANNOUNCE_TIMER_EXPIRY (R133). -/
def execAnnounceTimerExpiry (s : State) : Host.Outcome State Fault Refusal :=
  eventIf s.tmb.announce.due
    (fun s =>
      lowerSettleCount (silenceCheck (requestAnnounce
        (s.mapTmb fun t => { t with announce := Timer.start s.station.announceInterval })))) s

/-- LISTEN_EXPIRY (R183). -/
def execListenExpiry (s : State) : Host.Outcome State Fault Refusal :=
  eventIf s.tmb.listen.due
    (fun s =>
      let t := (s.mapTmb fun t => { t with listen := t.listen.stop }).mapSvp fun v => { v with mode := .run }
      evaluateEntry (requestRecompute (requestAnnounce t))) s

/-- An accepted FIRM_ENERGISE commit (R12, R59). -/
def commitEnergise (amount : Nat) (s : State) : State :=
  let t := setPhase .energising (clearReserve s)
  commandClose (setClaim (amount - s.figures.inrushAllowance) 0 s.figures.inrushAllowance t)

/-- A refused FIRM_ENERGISE commit (R12, R59). -/
def refuseEnergise (s : State) : State := requestRecompute (requestWithdraw (clearReserve s))

/-- The commit amount of a FLEX_RAISE at hold expiry: 0 while the link is LOST (R60, R87). -/
def State.flexCommitNow (s : State) : Nat :=
  if s.vlp.link = .lost ∨ !s.bsq.phase.pair then 0
  else flexCommit s.figures.quantum s.rsu.amount s.figuresNow.h

/-- A FLEX_RAISE commit (R58). -/
def commitFlex (c : Nat) (s : State) : State :=
  requestRecompute (requestAnnounce (setClaim s.bsq.firm (s.bsq.flex + c) s.bsq.transient (clearReserve s)))

/-- The own reserve at hold expiry (R58, R59, R86). -/
def settleHold (s : State) : State :=
  match s.rsu.cls with
  | some .flexRaise    => commitFlex s.flexCommitNow s
  | some .firmEnergise =>
    if firmCommit s.rsu.amount s.figuresNow.h = s.rsu.amount ∧ s.bsq.phase = .queued then
      commitEnergise s.rsu.amount s
    else refuseEnergise s
  | none => s

/-- HOLD_EXPIRY (R58, R59). -/
def execHoldExpiry (s : State) : Host.Outcome State Fault Refusal :=
  eventIf s.tmb.hold.due (fun s => settleHold (s.mapTmb fun t => { t with hold := t.hold.stop })) s

/-- RESERVE_BACKOFF_EXPIRY (R57). -/
def execReserveBackoffExpiry (s : State) : Host.Outcome State Fault Refusal :=
  eventIf s.tmb.reserveBackoff.due
    (fun s =>
      requestRecompute (clearReserve (s.mapTmb fun t => { t with reserveBackoff := t.reserveBackoff.stop }))) s

/-- The breaker timer has expired for a command (R4, R26, R27). -/
def breakerExpired (c : Option BreakerCommand) (s : State) : State :=
  match c with
  | some .close => takeCause .breakerFail s
  | some .resetPulse =>
    let t := s.mapBsq fun b => { b with bkOpen := false }
    if t.started && t.bsq.phase == .tripped && t.auxClosed then addLater .breakerFail t else t
  | some .openCmd =>
    let t := s.mapBsq fun b => { b with bkOpen := false }
    if t.bsq.phase = .deEnergising then startTrip true .breakerFail t
    else if t.bsq.phase = .tripped ∧ t.auxClosed then addLater .breakerFail t
    else t
  | none => s

/-- BREAKER_TIMER_EXPIRY (R4). -/
def execBreakerTimerExpiry (s : State) : Host.Outcome State Fault Refusal :=
  eventIf s.tmb.breaker.due (fun s => breakerExpired s.bsq.serving (stopBreaker s)) s

/-- INRUSH_EXPIRY (R24). Where transient is 0 already nothing of the claim changes and no ANNOUNCE is requested, the
model's choice: log entry 27. -/
def execInrushExpiry (s : State) : Host.Outcome State Fault Refusal :=
  eventIf s.tmb.inrush.due
    (fun s => setClaim s.bsq.firm s.bsq.flex 0 (s.mapTmb fun t => { t with inrush := t.inrush.stop })) s

/-- SYNC_WINDOW_EXPIRY (R14). -/
def execSyncWindowExpiry (s : State) : Host.Outcome State Fault Refusal :=
  eventIf s.tmb.sync.due
    (fun s =>
      let t := s.mapTmb fun t => { t with sync := t.sync.stop }
      if t.bsq.phase = .awaitSync then enterDeEnergising (t.mapBsq fun b => { b with syncAbort := true }) else t) s

/-- PARALLEL_LIMIT_EXPIRY (R15). -/
def execParallelLimitExpiry (s : State) : Host.Outcome State Fault Refusal :=
  eventIf s.tmb.parallel.due
    (fun s =>
      let t := s.mapTmb fun t => { t with parallel := t.parallel.stop }
      if t.bsq.phase = .parallel then setPhase .transferBack (t.mapBsq fun b => { b with parallelForced := true })
      else t) s

/-- A ramp tick in PARALLEL or ON_SHORE, with the attention reason of a suspension (R96, R97, R98). -/
def rampUp (s : State) : State :=
  let t := s.mapGos (Gos.upTick s.figures.rampStep s.figures.stallLimit s.echoPasses)
  if t.gos.suspended && !s.gos.suspended then raiseAttention .rampSuspended t else t

/-- A ramp tick in TRANSFER_BACK: A falls and flex follows it; a tick that finds A at 0 leaves A, P and the claim
(R17, R101). That R101 decides there, and that the ANNOUNCE is requested all the same, is the model's reading: log
entries 13 and 26. So is that flex follows the formula where A was below T, and the claim then falls by more than the
downramp step, against R101's closing sentence: log entry 34. -/
def rampDown (s : State) : State :=
  if s.gos.applied = 0 then requestAnnounce s
  else
    let t := s.mapGos (Gos.downTick s.figures.downrampStep)
    requestAnnounce (setClaim t.bsq.firm (t.gos.applied - t.bsq.firm) t.bsq.transient t)

/-- RAMP_TICK (R95, R96, R101). -/
def execRampTick (s : State) : Host.Outcome State Fault Refusal :=
  eventIf s.tmb.ramp.due
    (fun s =>
      let t := s.mapTmb fun t => { t with ramp := Timer.start s.figures.rampInterval }
      if t.bsq.phase.pair then rampUp t else if t.bsq.phase = .transferBack then rampDown t else t) s

/-- VESSEL_LINK_TIMEOUT (R139, R141). -/
def execVesselLinkTimeout (s : State) : Host.Outcome State Fault Refusal :=
  eventIf (s.tmb.linkTimeout.due && s.vlp.link == .up) linkLost s

/-- LINK_LOSS_TRIP_EXPIRY (R173). -/
def execLinkLossTripExpiry (s : State) : Host.Outcome State Fault Refusal :=
  eventIf s.tmb.linkLoss.due
    (fun s => takeCause .linkLost (s.mapTmb fun t => { t with linkLoss := t.linkLoss.stop })) s

/-- OVERDRAW_EXPIRY (R172). -/
def execOverdrawExpiry (s : State) : Host.Outcome State Fault Refusal :=
  eventIf s.tmb.overdraw.due
    (fun s => takeCause .overdraw (s.mapTmb fun t => { t with overdraw := t.overdraw.stop })) s

/-- METER_STALE_EXPIRY (R160). -/
def execMeterStaleExpiry (s : State) : Host.Outcome State Fault Refusal :=
  eventIf s.tmb.meterStale.due
    (fun s =>
      raiseAttention .meterStale
        ((s.mapTmb fun t => { t with meterStale := t.meterStale.stop }).mapMtp fun m => { m with stale := true })) s

/-- SILENT_AGEING_STEP (R47). -/
def execSilentAgeingStep (a : Address) (s : State) : Host.Outcome State Fault Refusal :=
  eventIf (s.pvt[a].standing == .silent && decide (Config.second ≤ s.pvt[a].silentElapsed))
    (fun s =>
      putEntry a (s.pvt[a].ageStep s.station.forgetInterval) (s.pvt[a].forgotten s.station.forgetInterval) s) s

/-- RESERVED_FIELD_AGE_STEP (R66, R67). -/
def execReservedFieldAgeStep (a : Address) (s : State) : Host.Outcome State Fault Refusal :=
  match s.pvt[a].reserved with
  | some r =>
    eventIf (s.pvt[a].known && decide (s.station.holdWindow ≤ r.elapsed))
      (fun s => putEntry a (s.pvt[a].reservedStep r) r.matures s) s
  | none => .next s

/-- The figures and the schedule-disagreement flag of a computation are stored (R74, R91). -/
def storeFigures (g : Figures) (s : State) : State :=
  let t := s.mapHre fun h =>
    { h with pmin := g.pmin, e := g.e, s := g.s, f := g.f, h := g.h, disagreement := g.disagreement }
  if g.disagreement && !s.hre.disagreement then raiseAttention .scheduleDisagreement t else t

/-- The firm-overload flag is evaluated (R85). -/
def storeOverload (g : Figures) (s : State) : State :=
  let o := s.svp.mode == .run && decide (g.h < 0) && g.f == 0
  if o = s.hre.firmOverload then s
  else
    let t := requestAnnounce (s.mapHre fun h => { h with firmOverload := o })
    if o then raiseAttention .firmOverload t else t

/-- The last result is stored (R70). -/
def setLast (r : LastResult) (s : State) : State := s.mapHre fun h => { h with last := r }

/-- The action of a computation is handed on; a raise or admission is deferred where the view has changed
(R73, R80 to R84, R91). -/
def handOn (viewChanged : Bool) (a : Action) (s : State) : State :=
  match a with
  | .none          => setLast .none s
  | .release want  => setLast (.release (s.bsq.flex - want)) (setClaim s.bsq.firm want s.bsq.transient s)
  | .cut n         =>
    setLast (.cut n) ((setClaim s.bsq.firm (s.bsq.flex - n) s.bsq.transient s).mapHre
      fun h => { h with cutSettle := Config.cutSettle })
  | .cutWithheld n => setLast (.cutWithheld n) s
  | .raise n       =>
    if viewChanged then setLast .deferred s else setLast (.reserveWanted .flexRaise n) (wantReserve .flexRaise n s)
  | .energise n    =>
    if viewChanged then setLast .deferred s
    else setLast (.reserveWanted .firmEnergise n) (wantReserve .firmEnergise n s)
  | .energiseWait n => setLast (.energiseWait n) s

/-- A computation completes (R73, R91). Where it changes the firm-overload flag and hands on a wanted reserve, the
ANNOUNCE joins the transmit queue before the RESERVE, the model's choice: log entry 28. -/
def completeComputation (w : Working) (s : State) : State :=
  let t := { s with freeCount := s.freeCount + 1 }.mapHre fun h => { h with computing := none }
  if w.stale then requestRecompute (setLast .discarded t)
  else
    let g := figuresOf w.inputs (peersOf s.ownAddress (readingsUsed s.freeCount w.seen))
    handOn s.hre.request (actionOf w.inputs g) (storeOverload g (storeFigures g t))

/-- COMPUTATION_COMPLETE (R73). -/
def execComputationComplete (s : State) : Host.Outcome State Fault Refusal :=
  match s.hre.computing with
  | some w => event (completeComputation w) s
  | none   => .next s

end Sys2Proof.Machine
end

