-- ==== Sys2Proof/Machine/Dispatch.lean ====
section
/-! DEFINITION. One arm for each command, each one direct call of its meaning. -/

namespace Sys2Proof.Machine

/-- What a command does to everything but the queue of waiting commands. -/
def exec (i : Instr) (s : State) : Host.Outcome State Fault Refusal :=
  match i with
  | .reset => Sys2Proof.Machine.execReset s
  | .lineInitialSettle levels => Sys2Proof.Machine.execLineInitialSettle levels s
  | .loadStation record => Sys2Proof.Machine.execLoadStation record s
  | .loadProfile args => Sys2Proof.Machine.execLoadProfile args s
  | .loadPeriod index capacity executions => Sys2Proof.Machine.execLoadPeriod index capacity executions s
  | .setScheduleMode code => Sys2Proof.Machine.execSetScheduleMode code s
  | .start => Sys2Proof.Machine.execStart s
  | .readStatus => Sys2Proof.Machine.execReadStatus s
  | .latch => Sys2Proof.Machine.execLatch s
  | .readSnapshot => Sys2Proof.Machine.execReadSnapshot s
  | .readPeer address => Sys2Proof.Machine.execReadPeer address s
  | .clearTrip => Sys2Proof.Machine.execClearTrip s
  | .forgetPeer address => Sys2Proof.Machine.execForgetPeer address s
  | .berthHold setting => Sys2Proof.Machine.execBerthHold setting s
  | .probe want => Sys2Proof.Machine.execProbe want s
  | .transactionNotTaken bytes => Sys2Proof.Machine.execTransactionNotTaken bytes s
  | .pilotProven => Sys2Proof.Machine.execPilotProven s
  | .pilotLost => Sys2Proof.Machine.execPilotLost s
  | .auxReadsClosed => Sys2Proof.Machine.execAuxReadsClosed s
  | .auxReadsOpen => Sys2Proof.Machine.execAuxReadsOpen s
  | .estopChange active => Sys2Proof.Machine.execEstopChange active s
  | .feederWarningChange active => Sys2Proof.Machine.execFeederWarningChange active s
  | .plugCodeLineChange line active => Sys2Proof.Machine.execPlugCodeLineChange line active s
  | .tariffAdvance => Sys2Proof.Machine.execTariffAdvance s
  | .tariffRestart => Sys2Proof.Machine.execTariffRestart s
  | .tariffSelectChange line active => Sys2Proof.Machine.execTariffSelectChange line active s
  | .edgeLineSettled line => Sys2Proof.Machine.execEdgeLineSettled line s
  | .shipStatusRecord levels => Sys2Proof.Machine.execShipStatusRecord levels s
  | .meterSample bits => Sys2Proof.Machine.execMeterSample bits s
  | .receivedTransmissionEnd levels => Sys2Proof.Machine.execReceivedTransmissionEnd levels s
  | .announceReceived => Sys2Proof.Machine.execAnnounceReceived s
  | .reserveReceived levels => Sys2Proof.Machine.execReserveReceived levels s
  | .withdrawReceived => Sys2Proof.Machine.execWithdrawReceived s
  | .attemptStart => Sys2Proof.Machine.execAttemptStart s
  | .collision => Sys2Proof.Machine.execCollision s
  | .collidedTransmissionEnd => Sys2Proof.Machine.execCollidedTransmissionEnd s
  | .ownSlotEnd levels => Sys2Proof.Machine.execOwnSlotEnd levels s
  | .announceTimerExpiry => Sys2Proof.Machine.execAnnounceTimerExpiry s
  | .listenExpiry => Sys2Proof.Machine.execListenExpiry s
  | .holdExpiry => Sys2Proof.Machine.execHoldExpiry s
  | .reserveBackoffExpiry => Sys2Proof.Machine.execReserveBackoffExpiry s
  | .breakerTimerExpiry => Sys2Proof.Machine.execBreakerTimerExpiry s
  | .inrushExpiry => Sys2Proof.Machine.execInrushExpiry s
  | .syncWindowExpiry => Sys2Proof.Machine.execSyncWindowExpiry s
  | .parallelLimitExpiry => Sys2Proof.Machine.execParallelLimitExpiry s
  | .rampTick => Sys2Proof.Machine.execRampTick s
  | .vesselLinkTimeout => Sys2Proof.Machine.execVesselLinkTimeout s
  | .linkLossTripExpiry => Sys2Proof.Machine.execLinkLossTripExpiry s
  | .overdrawExpiry => Sys2Proof.Machine.execOverdrawExpiry s
  | .meterStaleExpiry => Sys2Proof.Machine.execMeterStaleExpiry s
  | .silentAgeingStep address => Sys2Proof.Machine.execSilentAgeingStep address s
  | .reservedFieldAgeStep address => Sys2Proof.Machine.execReservedFieldAgeStep address s
  | .computationComplete => Sys2Proof.Machine.execComputationComplete s
  | .referenceWordEnd => Sys2Proof.Machine.execReferenceWordEnd s
  | .statusIntervalReached => Sys2Proof.Machine.execStatusIntervalReached s
  | .statusRecordGapEnd => Sys2Proof.Machine.execStatusRecordGapEnd s
  | .lineSampling levels => Sys2Proof.Machine.execLineSampling levels s
  | .transmissionBegins => Sys2Proof.Machine.execTransmissionBegins s
  | .berthStatusRecordEnd => Sys2Proof.Machine.execBerthStatusRecordEnd s

end Sys2Proof.Machine
end

