-- ==== Sys2Proof/WellFormed.lean ====
section
/-! DEFINITION. Which commands are well formed: every carried field fits the bytes the command record gives it, and a
transaction named as not taken is one that no command record is. -/

namespace Sys2Proof

/-- A number fits one byte (R191). -/
def fits8 (n : Nat) : Bool := decide (n < 256)

/-- A number fits two bytes (R188, R191). -/
def fits16 (n : Nat) : Bool := decide (n < 65536)

/-- A line setting fits its three bytes (R191). -/
def LineArg.wf (a : LineArg) : Bool := fits8 a.kind && fits16 a.delay

/-- A station record fits its 44 bytes (R191). -/
def StationRecord.wf (r : StationRecord) : Bool :=
  fits8 r.address && fits16 r.margin && fits16 r.announceInterval && fits16 r.holdWindow &&
    fits16 r.reserveBackoffUnit && fits16 r.forgetInterval && fits16 r.breakerTime && fits16 r.vesselLinkTimeout &&
    fits8 r.linkLossInterval && fits16 r.meterStaleInterval && fits16 r.stuckBreakerClaim && r.pilot.wf && r.estop.wf &&
    r.bkaux.wf && r.fdrwarn.wf && r.tadv.wf && r.trst.wf && r.pcode.wf && r.tsel.wf

/-- The fields of LOAD_PROFILE fit their 33 bytes (R191). -/
def ProfileArgs.wf (p : ProfileArgs) : Bool :=
  fits8 p.slot && fits16 p.maxFirm && fits16 p.minFirm && fits16 p.maxFlex && fits16 p.quantum &&
    fits16 p.raiseLimit && fits16 p.rampStep && fits16 p.rampInterval && fits16 p.downrampStep &&
    fits16 p.inrushAllowance && fits16 p.inrushWindow && fits16 p.syncWindow && fits16 p.parallelLimit &&
    fits16 p.overdrawTolerance && fits16 p.overdrawDwell && fits8 p.stallLimit && fits8 p.idPresence &&
    fits16 p.expectedId

/-- A command is well formed. -/
def Instr.wf : Instr → Bool
  | .loadStation r                       => r.wf
  | .loadProfile p                       => p.wf
  | .loadPeriod index capacity execs     => fits8 index && fits16 capacity && fits8 execs
  | .setScheduleMode code                => fits8 code
  | .readPeer a                          => fits8 a
  | .forgetPeer a                        => fits8 a
  | .berthHold setting                   => fits8 setting
  | .probe want                          => fits16 want
  | .transactionNotTaken bytes           => Machine.decodeTransaction bytes == none
  | .reset                               => true
  | .lineInitialSettle _                 => true
  | .start                               => true
  | .readStatus                          => true
  | .latch                               => true
  | .readSnapshot                        => true
  | .clearTrip                           => true
  | .pilotProven                         => true
  | .pilotLost                           => true
  | .auxReadsClosed                      => true
  | .auxReadsOpen                        => true
  | .estopChange _                       => true
  | .feederWarningChange _               => true
  | .plugCodeLineChange _ _              => true
  | .tariffAdvance                       => true
  | .tariffRestart                       => true
  | .tariffSelectChange _ _              => true
  | .edgeLineSettled _                   => true
  | .shipStatusRecord _                  => true
  | .meterSample _                       => true
  | .receivedTransmissionEnd _           => true
  | .announceReceived                    => true
  | .reserveReceived _                   => true
  | .withdrawReceived                    => true
  | .attemptStart                        => true
  | .collision                           => true
  | .collidedTransmissionEnd             => true
  | .ownSlotEnd _                        => true
  | .announceTimerExpiry                 => true
  | .listenExpiry                        => true
  | .holdExpiry                          => true
  | .reserveBackoffExpiry                => true
  | .breakerTimerExpiry                  => true
  | .inrushExpiry                        => true
  | .syncWindowExpiry                    => true
  | .parallelLimitExpiry                 => true
  | .rampTick                            => true
  | .vesselLinkTimeout                   => true
  | .linkLossTripExpiry                  => true
  | .overdrawExpiry                      => true
  | .meterStaleExpiry                    => true
  | .silentAgeingStep _                  => true
  | .reservedFieldAgeStep _              => true
  | .computationComplete                 => true
  | .referenceWordEnd                    => true
  | .statusIntervalReached               => true
  | .statusRecordGapEnd                  => true
  | .lineSampling _                      => true
  | .transmissionBegins                  => true
  | .berthStatusRecordEnd                => true

end Sys2Proof
end

