-- ==== Sys2Proof/Safety.lean ====
section
/-! DEFINITION. What counts as a safe part, in the terms that the statements use: the invariants of the blocks, and
what the end of an event may touch. Every invariant is decidable. -/

namespace Sys2Proof.Machine

/-! ### Plain statements of ranges -/

/-- A level line's setting within R158 and R191. -/
abbrev LevelSetting (a : LineArg) : Prop := a.kind ≤ 1 ∧ a.delay ≤ 1000

/-- An edge line's setting within R158 and R191. -/
abbrev EdgeSetting (a : LineArg) : Prop := a.kind ≤ 2 ∧ a.delay ≤ 1000

/-- Every field of a station record within its range of R181. -/
abbrev StationRanges (r : StationRecord) : Prop :=
  r.address ≤ 15 ∧ r.margin ≤ 5000 ∧ (100 ≤ r.announceInterval ∧ r.announceInterval ≤ 2000) ∧
  (50 ≤ r.holdWindow ∧ r.holdWindow ≤ 5000) ∧ (10 ≤ r.reserveBackoffUnit ∧ r.reserveBackoffUnit ≤ 500) ∧
  (10 ≤ r.forgetInterval ∧ r.forgetInterval ≤ 3600) ∧ (20 ≤ r.breakerTime ∧ r.breakerTime ≤ 2000) ∧
  (100 ≤ r.vesselLinkTimeout ∧ r.vesselLinkTimeout ≤ 2000) ∧ (1 ≤ r.linkLossInterval ∧ r.linkLossInterval ≤ 120) ∧
  (20 ≤ r.meterStaleInterval ∧ r.meterStaleInterval ≤ 1000) ∧
  (10 ≤ r.stuckBreakerClaim ∧ r.stuckBreakerClaim ≤ 16383) ∧
  LevelSetting r.pilot ∧ LevelSetting r.estop ∧ LevelSetting r.bkaux ∧ LevelSetting r.fdrwarn ∧
  EdgeSetting r.tadv ∧ EdgeSetting r.trst ∧ LevelSetting r.pcode ∧ LevelSetting r.tsel

/-- The conditions under which R149 accepts a LOAD_PROFILE, with the ranges of R148. -/
abbrev ProfileRanges (p : ProfileArgs) : Prop :=
  p.slot ≤ 15 ∧ (10 ≤ p.maxFirm ∧ p.maxFirm ≤ 16383) ∧ (10 ≤ p.minFirm ∧ p.minFirm ≤ p.maxFirm) ∧
  p.maxFlex ≤ 16383 ∧ (10 ≤ p.quantum ∧ p.quantum ≤ 1000) ∧ (p.quantum ≤ p.raiseLimit ∧ p.raiseLimit ≤ 16383) ∧
  (10 ≤ p.rampStep ∧ p.rampStep ≤ 4095) ∧ (100 ≤ p.rampInterval ∧ p.rampInterval ≤ 10000) ∧
  (10 ≤ p.downrampStep ∧ p.downrampStep ≤ 4095) ∧ p.inrushAllowance ≤ 4095 ∧ p.inrushWindow ≤ 30000 ∧
  (1 ≤ p.syncWindow ∧ p.syncWindow ≤ 600) ∧ (10 ≤ p.parallelLimit ∧ p.parallelLimit ≤ 1800) ∧
  p.overdrawTolerance ≤ 2000 ∧ (100 ≤ p.overdrawDwell ∧ p.overdrawDwell ≤ 10000) ∧
  (1 ≤ p.stallLimit ∧ p.stallLimit ≤ 255) ∧ p.idPresence ≤ 1 ∧
  (p.idPresence = 1 → 1 ≤ p.expectedId ∧ p.expectedId ≤ 65535) ∧ p.maxFirm + p.inrushAllowance ≤ 16383

/-! ### Invariants -/

/-- In CONFIG the part takes nothing: every block but the loaded configuration, the lines, the meter's draw and the
reset pulse stands as reset left it (R2, R33, R52, R70, R92, R122, R138, R147, R167, R185). -/
abbrev ConfigQuiet (s : State) : Prop :=
  s.svp.mode = .config →
    s.bsq = { State.reset.bsq with bkOpen := s.bsq.bkOpen, serving := s.bsq.serving } ∧
    (s.bsq.serving = none ∨ s.bsq.serving = some .resetPulse) ∧
    s.pvt = State.reset.pvt ∧ s.rsu = State.reset.rsu ∧
    s.hre = { State.reset.hre with request := s.hre.request } ∧
    s.gos.target = 0 ∧ s.gos.pending = 0 ∧ s.gos.applied = 0 ∧ s.gos.stall = 0 ∧ s.gos.suspended = false ∧
    s.blc.queue = [] ∧ s.blc.inTransmission = false ∧ s.blc.conflict = false ∧
    s.vlp = { State.reset.vlp with slots := s.vlp.slots } ∧ s.mtp.stale = false ∧ s.tru = State.reset.tru ∧
    s.tmb = { State.reset.tmb with boundary := s.tmb.boundary, breaker := s.tmb.breaker } ∧
    s.svp.attention = .empty ∧ s.svp.attn = false

/-- The interlock of the two breaker outputs (R3), the command that the breaker timer serves (R4), and the trip record
held exactly in TRIPPED (R26, R29, R169). -/
abbrev Outputs (s : State) : Prop :=
  ¬(s.bsq.bkClose = true ∧ s.bsq.bkOpen = true) ∧
  (s.bsq.bkClose = true ↔ s.bsq.phase = .energising) ∧
  (s.bsq.bkOpen = true → s.bsq.serving = some .resetPulse ∨ s.bsq.serving = some .openCmd) ∧
  (s.bsq.serving.isSome = s.tmb.breaker.running) ∧
  (s.tru.record.isSome = true ↔ s.bsq.phase = .tripped)

/-- The bounds of the grant at every event boundary (R92, R94, R102): T is firm plus flex, A is at most P and P at most
T, both are 0 outside the three connected phases and equal in TRANSFER_BACK, and nothing stalls outside the pair. -/
abbrev GrantBounds (s : State) : Prop :=
  s.gos.target = s.bsq.firm + s.bsq.flex ∧ s.gos.applied ≤ s.gos.pending ∧ s.gos.pending ≤ s.gos.target ∧
  (s.bsq.phase.connected = false → s.gos.pending = 0) ∧
  (s.bsq.phase = .transferBack → s.gos.pending = s.gos.applied) ∧
  (s.bsq.phase.pair = false → s.gos.stall = 0 ∧ s.gos.suspended = false)

/-- An objection slot is in progress (R121). -/
def Blc.inSlot (b : Blc) : Bool :=
  match b.link with
  | .slot _ _ => true
  | _         => false

/-- The place in the bit times of the link (R120, R121, R126, R129): a bit of the frame on the wire, a run of fewer than
ten released bit times after it and of at most ten after a jam, and at most sixteen bit times left of a jam or a slot; a
slot runs out only where it waits for the command that ends it. A frame is on the wire exactly in an own attempt that has
not collided. -/
def Blc.placed (b : Blc) : Bool :=
  b.onWire.isSome == b.link.attempting &&
    match b.link with
    | .idle        => true
    | .foreign     => true
    | .own bit     => b.onWire.any fun f => decide (bit < f.levels.length)
    | .ending r    => decide (r < 10)
    | .ownSlot n   => decide (n ≤ 16)
    | .jam n       => decide (1 ≤ n) && decide (n ≤ 16)
    | .collided r  => decide (r ≤ 10)
    | .slot _ n    => decide (n ≤ 16) && (decide (1 ≤ n) || b.rx.isSome)

/-- The form of the transmit queue (R122, R126, R127): at most three frames, never two of a kind, a head wherever one is
in transmission, and a collision count of 16 only on the head of a collided transmission. A frame stays in the receive
buffer through its slot only (R130), and the link stands at a place of its bit times. -/
abbrev QueueForm (s : State) : Prop :=
  s.blc.queue.length ≤ 3 ∧ (s.blc.queue.map (·.content.code)).Nodup ∧
  (s.blc.inTransmission = true → s.blc.queue ≠ []) ∧
  (∀ e ∈ s.blc.queue.tail, e.collisions = 0) ∧
  (∀ e ∈ s.blc.queue.head?, e.collisions ≤ 16 ∧ (e.collisions = 16 → s.blc.link.colliding = true)) ∧
  (s.blc.rx.isSome = true → s.blc.inSlot = true) ∧ s.blc.placed = true

/-- ATTN is asserted exactly while the attention set holds a reason (R187). -/
abbrev AttnFollows (s : State) : Prop := s.svp.attn = s.svp.attention.nonempty

/-- The fields of a received frame lie in the ranges of R189. -/
def Frame.inRange : Frame → Bool
  | .announce _ f  =>
    decide (f.phaseCode ≤ 9) && decide (f.periodIndex ≤ 15) && decide (f.firm ≤ 16383) && decide (f.flex ≤ 16383) &&
      decide (f.transient ≤ 4095) && decide (f.capacity ≤ 60000)
  | .reserve _ n _ => decide (n ≤ 16383)
  | .withdraw _    => true

/-- An entry of the Peer View Table in the form its state gives it (R31, R33, R34, R46, R48, R66). -/
abbrev EntryForm (e : PeerEntry) : Prop :=
  (e.standing = .empty → e = { PeerEntry.blank with changed := e.changed }) ∧
  (e.standing = .own →
    e.heard = false ∧ e.changed = false ∧ e.missed = 0 ∧ e.silentAge = 0 ∧ e.reserved = none) ∧
  (e.standing = .live → e.missed ≤ 2 ∧ e.silentAge = 0) ∧
  (e.standing = .silent → e.missed = 3) ∧
  (e.standing = .live ∨ e.standing = .silent →
    e.firm ≤ 16383 ∧ e.flex ≤ 16383 ∧ e.transient ≤ 4095 ∧ (∀ c ∈ e.capacity, c ≤ 60000) ∧
    (∀ p ∈ e.phaseCode, p ≤ 9) ∧ (∀ i ∈ e.periodIndex, i ≤ 15) ∧
    ∀ r ∈ e.reserved, r.age ≤ 2 ∧ r.amount ≤ 16383)

/-- The Peer View Table in its form: exactly the entry at the own address is OWN, from START on (R34), every entry in
its own form, and the frame in the receive buffer within its ranges (R130). -/
abbrev TableForm (s : State) : Prop :=
  (∀ a : Address, s.pvt[a].standing = .own ↔ s.started = true ∧ a = s.ownAddress) ∧
  (∀ a : Address, EntryForm s.pvt[a]) ∧ (∀ r ∈ s.blc.rx, r.frame.inRange = true)

/-- What the end of every event leaves true in LISTEN and RUN: the indication follows the aux (R5), the monitor its
inputs (R170), the own entry the announced values (R35), a set request finds the engine computing (R71), a computation
that is not stale holds the own inputs as they stand (R73), a status record with the present content is out or follows
(R147), and the trip conditions have been taken (R168). -/
abbrev Settled (s : State) : Prop :=
  s.started = true →
    s.bsq.voltagePresent = s.auxClosed ∧ s.tru.monitor = s.monitorNow ∧
    s.ownEntry = s.mirrored s.ownEntry ∧
    (s.hre.request = true → s.hre.computing.isSome = true) ∧
    (∀ w ∈ s.hre.computing, w.stale = false → w.inputs = s.ownInputs) ∧
    (s.vlp.sender = .idle → s.vlp.lastSent = some s.statusNow) ∧
    s.tru.estopHeld = s.estopCondition ∧ s.tru.feederHeld = s.feederCondition ∧
    (s.tmb.linkLoss.running = true → s.vlp.link = .lost ∧ s.bsq.phase.connected = true) ∧
    (s.tmb.overdraw.running = true → s.tru.monitor = .excess)

/-- The level lines have level kinds, from reset on and with every LOAD_STATION (R153, R157, R158). -/
abbrev LevelKinds (s : State) : Prop :=
  ∀ c ∈ [s.lib.settings.pilot, s.lib.settings.pcode0, s.lib.settings.pcode1, s.lib.settings.pcode2,
      s.lib.settings.pcode3, s.lib.settings.estop, s.lib.settings.bkaux, s.lib.settings.fdrwarn, s.lib.settings.tsel0,
      s.lib.settings.tsel1, s.lib.settings.tsel2, s.lib.settings.tsel3],
    c.kind = .levelHigh ∨ c.kind = .levelLow

/-- The lines behind the phase in LISTEN and RUN: a berth past VACANT and not TRIPPED has its pilot proven and its e-stop
inactive; it waits with the aux open, closes with the feeder warning inactive and the aux open, and carries a ship only
with the aux closed (R3, R7, R11, R13, R18, R19, R28, R168). -/
abbrev LinesBehindPhase (s : State) : Prop :=
  s.started = true →
    (s.bsq.phase ≠ .vacant ∧ s.bsq.phase ≠ .tripped → s.pilotActive = true ∧ s.estopActive = false) ∧
    (s.bsq.phase = .vacant ∨ s.bsq.phase = .plugged ∨ s.bsq.phase = .queued ∨ s.bsq.phase = .energising →
      s.auxClosed = false) ∧
    (s.bsq.phase = .queued ∨ s.bsq.phase = .energising → s.warningActive = false) ∧
    (s.bsq.phase = .awaitSync ∨ s.bsq.phase.connected = true ∨ s.bsq.phase = .deEnergising → s.auxClosed = true)

/-- A profile with every field in the range of R148. -/
def Profile.inRange (p : Profile) : Bool :=
  Machine.inRange 10 16383 p.maxFirm && Machine.inRange 10 p.maxFirm p.minFirm && Machine.inRange 0 16383 p.maxFlex &&
    Machine.inRange 10 1000 p.quantum && Machine.inRange p.quantum 16383 p.raiseLimit &&
    Machine.inRange 10 4095 p.rampStep && Machine.inRange 100 10000 p.rampInterval &&
    Machine.inRange 10 4095 p.downrampStep && Machine.inRange 0 4095 p.inrushAllowance &&
    Machine.inRange 0 30000 p.inrushWindow && Machine.inRange 1 600 p.syncWindow &&
    Machine.inRange 10 1800 p.parallelLimit && Machine.inRange 0 2000 p.overdrawTolerance &&
    Machine.inRange 100 10000 p.overdrawDwell && Machine.inRange 1 255 p.stallLimit &&
    (p.expectedId.all fun i => Machine.inRange 1 65535 i) && decide (p.maxFirm + p.inrushAllowance ≤ 16383)

/-- The phases from QUEUED to DE_ENERGISING. -/
def Phase.pastPlugged (p : Phase) : Bool := p == .queued || p.energised

/-- A profile is in use from QUEUED to DE_ENERGISING (R10, R150), every loaded slot holds figures in range (R148), and
the stall count stays below the limit of the profile in use until the ramp is suspended at it (R92, R98). -/
abbrev ProfileInUse (s : State) : Prop :=
  (∀ a : Address, ∀ p ∈ s.vlp.slots[a], p.inRange = true) ∧
  (s.bsq.noProfile = false → ∀ c ∈ s.bsq.profileCode, s.vlp.slots[c].isSome = true) ∧
  (s.bsq.phase.pastPlugged = true → s.profile.isSome = true) ∧
  (s.bsq.phase.pair = true →
    if s.gos.suspended then s.gos.stall = s.figures.stallLimit else s.gos.stall < s.figures.stallLimit)

/-- The own reserve and its frame (R52 to R57, R61, R62, R122, R124): amount and class are clear exactly in NONE; QUEUED
has its RESERVE in the queue and SENT has it in transmission; no other RESERVE is there but an abandoned one still on the
link; the hold and reserve backoff timers run exactly in HOLD and BACKOFF; a FIRM_ENERGISE reserve belongs to QUEUED, a
FLEX_RAISE one to the pair; and a refusal is remembered only beside an abandoned RESERVE on the link (R53). -/
abbrev ReserveForm (s : State) : Prop :=
  (s.rsu.state = .none → s.rsu.amount = 0 ∧ s.rsu.cls = none) ∧
  (s.rsu.state = .queued → ∃ e ∈ s.blc.queue, e.isReserve = true ∧ e.abandoned = false) ∧
  (s.rsu.state = .sent →
    s.blc.link.attempting = true ∧ ∃ e ∈ s.blc.queue.head?, e.isReserve = true ∧ e.abandoned = false) ∧
  (∀ e ∈ s.blc.queue, e.isReserve = true → e.abandoned = false →
    (s.rsu.state = .queued ∨ s.rsu.state = .sent) ∧ ∃ c ∈ s.rsu.cls, e.content = .reserve s.rsu.amount c) ∧
  (s.blc.link.attempting = true →
    ∀ e ∈ s.blc.queue.head?, e.isReserve = true → e.abandoned = false → s.rsu.state = .sent) ∧
  (∀ e ∈ s.blc.queue, e.abandoned = true → e.isReserve = true ∧ s.blc.reserveOnLink = true) ∧
  (s.tmb.hold.running = true ↔ s.rsu.state = .hold) ∧
  (s.tmb.reserveBackoff.running = true ↔ s.rsu.state = .backoff) ∧
  (s.rsu.cls = some .firmEnergise → s.bsq.phase = .queued) ∧ (s.rsu.cls = some .flexRaise → s.bsq.phase.pair = true) ∧
  (s.rsu.state ≠ .none → s.rsu.cls.isSome = true) ∧
  (s.rsu.refusedOnLink = true →
    s.blc.inTransmission = true ∧ ∃ e ∈ s.blc.queue.head?, e.isReserve = true ∧ e.abandoned = true)

/-- What is loaded lies within its ranges and is complete from START on, and the schedule stands on the record its mode
names (R108, R109, R111 to R115, R181, R182). -/
abbrev LoadedForm (s : State) : Prop :=
  (∀ r ∈ s.svp.station, StationRanges r) ∧ (s.started = true → s.svp.station.isSome = true ∧ s.csc.periods ≠ []) ∧
  s.csc.periods.length ≤ 16 ∧
  (∀ p ∈ s.csc.periods, p.capacity ≤ 60000 ∧ 1 ≤ p.executions ∧ p.executions ≤ 255) ∧
  (s.started = false → s.csc.index = 0 ∧ s.csc.pc = s.csc.capacityAt 0 ∧ s.csc.selectRange = false) ∧
  (s.started = true →
    (s.csc.mode = .stepped →
      s.csc.index < s.csc.periods.length ∧ s.csc.pc = s.csc.capacityAt s.csc.index ∧ 1 ≤ s.csc.remaining ∧
        s.csc.remaining ≤ s.csc.executionsAt s.csc.index) ∧
    (s.csc.mode = .fixed → s.csc.index = 0 ∧ s.csc.pc = s.csc.capacityAt 0) ∧
    (s.csc.mode = .selected →
      s.csc.index = s.selectCode.val ∧
        (s.csc.index < s.csc.periods.length →
          s.csc.pc = s.csc.capacityAt s.csc.index ∧ s.csc.selectRange = false) ∧
        (s.csc.periods.length ≤ s.csc.index →
          (∀ p ∈ s.csc.periods, s.csc.pc ≤ p.capacity) ∧ s.csc.selectRange = true)))

/-- The trip was started by an uncommanded close or has met one since (R28, R169). -/
def TripRecord.uncommanded (r : TripRecord) : Bool := r.first == .breakerUncommanded || r.later.breakerUncommanded

/-- The own claim (R21 to R24, R26 to R28) and what it comes from: zero up to QUEUED, without flex up to AWAIT_SYNC,
within the profile while energised, zero in TRIPPED exactly with the open confirmed, and else as it was or the
stuck-breaker claim; the reserve that may become claim (R61, R79 to R82) and the clamped demands (R134, R143). -/
abbrev ClaimForm (s : State) : Prop :=
  (s.bsq.firm ≤ 16383 ∧ s.bsq.flex ≤ 16383 ∧ s.bsq.transient ≤ 4095) ∧
  (s.bsq.phase = .vacant ∨ s.bsq.phase = .plugged ∨ s.bsq.phase = .queued →
    s.bsq.firm = 0 ∧ s.bsq.flex = 0 ∧ s.bsq.transient = 0) ∧
  (s.bsq.phase = .energising ∨ s.bsq.phase = .awaitSync → s.bsq.flex = 0) ∧
  (s.bsq.phase.energised = true →
    s.figures.minFirm ≤ s.bsq.firm ∧ s.bsq.firm ≤ s.figures.maxFirm ∧ s.bsq.flex ≤ s.figures.maxFlex ∧
      s.bsq.transient ≤ s.figures.inrushAllowance) ∧
  (∀ r ∈ s.tru.record,
    (r.openConfirmed = true → s.bsq.firm = 0 ∧ s.bsq.flex = 0 ∧ s.bsq.transient = 0) ∧
    (r.openConfirmed = false →
      if r.uncommanded then s.bsq.firm = s.station.stuckBreakerClaim ∧ s.bsq.flex = 0 ∧ s.bsq.transient = 0
      else s.figures.minFirm ≤ s.bsq.firm ∧ s.bsq.firm ≤ s.figures.maxFirm ∧ s.bsq.flex ≤ s.figures.maxFlex ∧
        s.bsq.transient ≤ s.figures.inrushAllowance ∧ s.profile.isSome = true) ∧
    r.openConfirmed = !s.auxClosed) ∧
  (s.rsu.cls = some .firmEnergise →
    s.figures.minFirm + s.figures.inrushAllowance ≤ s.rsu.amount ∧
      s.rsu.amount ≤ s.figures.maxFirm + s.figures.inrushAllowance) ∧
  (s.rsu.cls = some .flexRaise → s.bsq.flex + s.rsu.amount ≤ s.figures.maxFlex) ∧
  (s.vlp.clampedFirm = (s.vlp.held.map fun r => clampFirm s.profile r.firmDemand).getD 0 ∧
    s.vlp.clampedFlex = (s.vlp.held.map fun r => clampFlex s.profile r.flexDemand).getD 0) ∧
  (s.vlp.held.isNone = true ↔ s.vlp.link = .idle) ∧
  (s.bsq.phase = .queued → s.vlp.link = .up ∧ s.requests .shore = true)

/-! ### The end of an event -/

/-- Neither trip condition has newly become true (R168): each that stands has been taken. -/
def State.calm (s : State) : Bool :=
  (!s.estopCondition || s.tru.estopHeld) && (!s.feederCondition || s.tru.feederHeld)

/-- The event leaves the engine idle with the request set, so a computation begins at its end (R71). -/
def State.begins (u : State) : Bool := u.hre.computing.isNone && u.hre.request

/-- The event that led from `s` to `u` has made a frame head that begins its attempt in the same event (R125). -/
def State.headStarts (s u : State) : Bool :=
  u.blc.link == .idle && u.blc.headCode != s.blc.headCode && u.waitReached

/-- The overdraw timer once the monitor has set its state anew: started on entry to EXCESS, cancelled on leaving it
(R171). -/
def State.overdrawAfter (s : State) : Timer :=
  if s.monitorNow = .excess then
    if s.tru.monitor = .excess then s.tmb.overdraw else Timer.start s.figures.overdrawDwell
  else if s.tru.monitor = .excess then s.tmb.overdraw.stop else s.tmb.overdraw

/-- The link-loss timer after an event: stopped where the link is not LOST or the phase not connected (R173). -/
def State.linkLossAfter (s : State) : Timer :=
  if s.vlp.link = .lost ∧ s.bsq.phase.connected then s.tmb.linkLoss else s.tmb.linkLoss.stop

/-- An entry at the end of an event: the own one mirrors the announced values (R35), and the start of a computation
clears the changed bits (R72). -/
def State.entryAfter (u t : State) (a : Address) : PeerEntry :=
  let e := if a = u.ownAddress ∧ u.pvt[a].standing = .own then t.mirrored u.pvt[a] else u.pvt[a]
  if u.begins then { e with changed := false } else e

/-- The engine at the end of an event: a computation in progress is stale once an own input differs (R73), an idle
engine with the request set copies the own inputs and clears the request (R71, R72), and nothing else happens. -/
abbrev EngineEnds (u t : State) : Prop :=
  t.hre = { u.hre with request := t.hre.request, computing := t.hre.computing } ∧
  (∀ w ∈ u.hre.computing, t.hre.request = u.hre.request ∧
    ∃ x ∈ t.hre.computing, x.inputs = w.inputs ∧ x.stale = (w.stale || w.inputs != t.ownInputs) ∧
      x.seen = if w.seen.getLast? = some t.readings then w.seen else w.seen ++ [t.readings]) ∧
  (u.begins = true →
    t.hre.request = false ∧ t.hre.computing = some { inputs := t.ownInputs, seen := [t.readings], stale := false }) ∧
  (u.hre.computing = none → u.hre.request = false → t.hre = u.hre)

/-- `t` is `u` after the end of an event that began in `s` and in which no trip condition becomes true. Beside what the
event did, which is in `u`, exactly this follows: voltage present follows the aux (R5); the monitor sets its state and
its timer anew (R170, R171); the link-loss timer stops outside its conditions (R173); the own entry mirrors the announced
values (R35); the engine takes note or begins (R71 to R73); a new head frame may begin its attempt (R125, R55); and a
reference word (R105) and a berth status record (R147) start where their content has changed. -/
abbrev EndsAs (s u t : State) : Prop :=
  t.bsq = { u.bsq with voltagePresent := u.voltageNow } ∧
  (∀ a : Address, t.pvt[a] = u.entryAfter t a) ∧
  t.rsu = (if u.blc.queue.head?.any TxEntry.isReserve ∧ State.headStarts s u then { u.rsu with state := .sent }
           else u.rsu) ∧
  EngineEnds u t ∧
  t.gos = (if u.gos.applied ≠ s.gos.applied ∧ u.gos.port = .idle then u.gos.startWord else u.gos) ∧
  t.csc = u.csc ∧
  t.blc = (if State.headStarts s u then
             { u.blc with link := .own 0, idleCount := 0, onWire := u.blc.queue.head?.map t.frameOf }
           else u.blc) ∧
  t.vlp = (if u.vlp.sender = .idle ∧ u.vlp.lastSent ≠ some t.statusNow then
             { u.vlp with sender := .sending, statusCount := 0, lastSent := some t.statusNow }
           else u.vlp) ∧
  t.mtp = u.mtp ∧
  t.tru = { u.tru with monitor := u.monitorNow, estopHeld := u.estopCondition, feederHeld := u.feederCondition } ∧
  t.tmb = { u.tmb with overdraw := u.overdrawAfter, linkLoss := u.linkLossAfter } ∧
  t.lib = u.lib ∧ t.svp = u.svp ∧ t.pending = u.pending ∧ t.freeCount = u.freeCount

/-- A command ends as `u`: it gives a next state, which is `u` after a calm end of the event. -/
def CompletesAs (c : Instr) (s u : State) : Prop := ∃ t, exec c s = .next t ∧ EndsAs s u t

/-! ### Plain statements of conditions and answers -/

/-- The conditions of R10 for moving from PLUGGED to QUEUED, the phase apart. -/
abbrev EntryConditions (s : State) : Prop :=
  s.svp.mode = .run ∧ s.requests .shore = true ∧ s.vlp.link ≠ .lost ∧ s.bsq.profileCode.isSome = true ∧
  s.bsq.noProfile = false ∧ s.bsq.vesselMismatch = false ∧ s.bsq.syncAbort = false ∧ s.bsq.parallelForced = false ∧
  s.bsq.hostHold = false ∧ s.warningActive = false

/-- A berth in PLUGGED after the entry conditions have been evaluated: QUEUED where they hold (R10). -/
def State.entered (s : State) : State := if EntryConditions s then setPhase .queued s else s

/-- BKOPEN asserted alone, with the breaker timer serving the open (R3, R4). -/
def State.opening (u : State) : State :=
  { u with
    bsq := { u.bsq with bkClose := false, bkOpen := true, serving := some .openCmd }
    tmb := { u.tmb with breaker := { interval := u.station.breakerTime, left := some u.station.breakerTime } } }

/-- The berth as it de-energises: the open is commanded with the aux closed (R18), and with the aux open it is complete
at once, in PLUGGED with the claim zero and the entry conditions evaluated (R18, R19). -/
def State.deEnergised (u : State) : State :=
  let d := setPhase .deEnergising u
  if u.auxClosed then d.opening
  else
    (setPhase .plugged (setClaim 0 0 0
      { d with
        bsq := { d.bsq with bkOpen := false, serving := none }
        tmb := { d.tmb with breaker := d.tmb.breaker.stop, inrush := d.tmb.inrush.stop } })).entered

/-- A valid ship record taken, before its fields act in the phase (R20, R99, R139, R141 to R143): the link is UP with its
timeout retriggered, the record is held and its demands are clamped, an echo of at least A releases a suspended ramp in
the pair, and the two abort flags go with a request of NONE. -/
def State.heard (s : State) (r : ShipRecord) : State :=
  let h := formClamps
    { s with
      vlp := { s.vlp with link := .up, held := some r }
      tmb := { s.tmb with
        linkTimeout := { interval := s.station.vesselLinkTimeout, left := some s.station.vesselLinkTimeout } }
      hre := { s.hre with request := s.hre.request || s.vlp.link == .lost } }
  { h with
    gos := if s.gos.suspended = true ∧ s.bsq.phase.pair = true ∧ s.gos.applied ≤ r.echo then
             { s.gos with suspended := false, stall := 0 }
           else s.gos
    bsq := if r.request = .none then { s.bsq with syncAbort := false, parallelForced := false } else s.bsq }

/-- The Service Port after it has answered a command (R179): the count risen modulo 256 and the buffer replaced. -/
def Svp.answered (v : Svp) (kind : Nat) (code : ResponseCode) (data : List Byte) : Svp :=
  { v with commandCount := (v.commandCount + 1) % 256
           response := some { code := code, count := (v.commandCount + 1) % 256, kind := kind, data := data } }

/-- A command is refused: it is answered with a code and no data, and changes nothing else (R179, R180). -/
def Refuses (c : Instr) (s : State) (kind : Nat) (code : ResponseCode) : Prop :=
  exec c s = .next { s with svp := s.svp.answered kind code [] }

end Sys2Proof.Machine
end

