-- ==== Sys2Proof/Certificates/Slice0/Obligations.lean ====
section
/-! DEFINITION. The statements about the EB-240, one for each rule or group of rules they formalise. -/

open Sys2Proof Sys2Proof.Machine

/-- For every command, every rest of the queue and every state, step with that command at the front is exec of that
command on the state with the rest as its queue, and every command gives a next state: none faults and none is
refused by the model. The queue itself is the model's own (log entry 18). On an empty queue step gives the state
after one bit time, the model's choice (log entry 1): an idle pair counts it; the own frame goes on by a bit, and
after its last one the released run at its end is counted on to ten, when its slot of 16 bit times begins; the jam
and the slots lose it, the jam ending with its last one, after which released bit times are counted to ten, and a
slot that holds no frame too; and nothing else in the part changes. In a bit time the station drives the pair with
the bit of its frame, in its jam, and in a slot that it objects in, and else leaves it released.
(95_what_each_step_holds.md; 07_berth_link.md sections 7.1, 7.3, 7.5 (R120, R121, R125, R126, R129)) -/
def Obligations.StepTakesTheFrontCommandOrPassesABitTime : Prop :=
  (∀ (c : Instr) (rest : List Instr) (s : State),
    step { s with pending := c :: rest } = exec c { s with pending := rest } ∧ ∃ t, exec c s = .next t) ∧
  ∀ s : State, s.pending = [] →
    ∃ t, step s = .next t ∧ t = { s with blc := t.blc } ∧
      (s.blc.link = .idle → t.blc = { s.blc with idleCount := s.blc.idleCount + 1 }) ∧
      (∀ d n, s.blc.link = .slot d n → 2 ≤ n ∨ s.blc.rx.isSome = true →
        t.blc = { s.blc with link := .slot d (n - 1) }) ∧
      (∀ d n, s.blc.link = .slot d n → n ≤ 1 → s.blc.rx = none → t.blc = { s.blc with link := .idle, idleCount := 0 }) ∧
      (∀ i, ∀ f ∈ s.blc.onWire, s.blc.link = .own i →
        (i + 1 < f.levels.length → t.blc = { s.blc with link := .own (i + 1) }) ∧
        (f.levels.length ≤ i + 1 →
          t.blc = { s.blc with link := .ending (f.levels.reverse.takeWhile fun l => l == false).length })) ∧
      (∀ r, s.blc.link = .ending r →
        t.blc = { s.blc with link := if r + 1 < 10 then .ending (r + 1) else .ownSlot 16 }) ∧
      (∀ n, s.blc.link = .ownSlot n → t.blc = { s.blc with link := .ownSlot (n - 1) }) ∧
      (∀ n, s.blc.link = .jam n → t.blc = { s.blc with link := if 1 < n then .jam (n - 1) else .collided 0 }) ∧
      (∀ r, s.blc.link = .collided r → t.blc = { s.blc with link := .collided (min 10 (r + 1)) }) ∧
      (s.blc.link = .foreign → t = s) ∧
      (s.blc.drives = true ↔
        (∃ i, ∃ f ∈ s.blc.onWire, s.blc.link = .own i ∧ f.levels[i]? = some true) ∨ (∃ n, s.blc.link = .jam n) ∨
          ∃ n, s.blc.link = .slot true n ∧ 1 ≤ n)

/-- The own inputs of a computation are those that R72 lists, each as it stands; a commit evaluation and a trial work
on them and on the readings of the entries as they stand (R86). The own entry mirrors the phase code, the claim, the
period and the three flags (R35). A berth status record holds the phase, A, voltage present, the first cause in
TRIPPED, the suspension and the firm-overload flag (R146). The monitor is UNARMED outside the three connected phases,
SUSPENDED without a current draw, and else WITHIN or EXCESS of A plus the tolerance (R170, R161). The conditions of
ESTOP and FEEDER_LOST are those of R168. The head's access wait is 48 bit times, or the collision backoff of the own
address after a collision, and it is reached where the idle count is at least that (R125, R126). The profile in use
is the selected slot where loaded (R150), and the plug and select codes count their lines from line 0, the least
significant (R6, R115). (01_berth_phases_and_changeover.md sections 1.1, 1.2, 1.3 (R1, R5, R6); 02_peer_view_table.md
sections 2.1, 2.2 (R32, R35); 04_headroom_engine.md sections 4.3, 4.9 (R72, R86); 06_capacity_schedule.md section 6.5
(R115); 07_berth_link.md section 7.3 (R125, R126); 08_vessel_link_and_berth_profiles.md sections 8.4, 8.5 (R146,
R150); 09_line_inputs_meter_port_and_timer_bank.md section 9.4 (R161); 10_trips_and_protection.md sections 10.2, 10.3
(R168, R170); 11_service_port_and_start_up.md section 11.3 (R181)) -/
def Obligations.WhatTheBlocksReadOfEachOther : Prop :=
  ∀ s : State,
    s.ownInputs =
      { mode := s.svp.mode, phase := s.bsq.phase, firm := s.bsq.firm, flex := s.bsq.flex, transient := s.bsq.transient,
        reserveState := s.rsu.state, reserveClass := s.rsu.cls, amount := s.rsu.amount, pc := s.csc.pc,
        margin := s.station.margin
        profile := s.profile.map fun p =>
          { maxFlex := p.maxFlex, quantum := p.quantum, raiseLimit := p.raiseLimit,
            inrushAllowance := p.inrushAllowance }
        clampedFirm := s.vlp.clampedFirm, clampedFlex := s.vlp.clampedFlex, link := s.vlp.link,
        cutSettle := s.hre.cutSettle } ∧
    (∀ a : Address, s.readings[a] = s.pvt[a].reading) ∧
    s.figuresNow = figuresOf s.ownInputs (peersOf s.ownAddress s.readings) ∧
    (∀ e : PeerEntry, s.mirrored e =
      { e with
        phaseCode := some s.bsq.phase.code, firm := s.bsq.firm, flex := s.bsq.flex, transient := s.bsq.transient,
        periodIndex := some s.csc.index, capacity := some s.csc.pc, tripped := decide (s.bsq.phase = .tripped),
        firmOverload := s.hre.firmOverload, listening := decide (s.svp.mode = .listen) }) ∧
    s.statusNow =
      { phase := s.bsq.phase, applied := s.gos.applied, voltagePresent := s.bsq.voltagePresent
        cause := if s.bsq.phase = .tripped then s.tru.record.map fun r => r.first else none
        suspended := s.gos.suspended, firmOverload := s.hre.firmOverload } ∧
    s.voltageNow = decide (s.svp.mode ≠ .config ∧ s.auxClosed = true) ∧
    s.currentDraw = (if s.mtp.stale = true then none else s.mtp.draw) ∧
    (s.bsq.phase ≠ .parallel ∧ s.bsq.phase ≠ .onShore ∧ s.bsq.phase ≠ .transferBack → s.monitorNow = .unarmed) ∧
    (s.bsq.phase = .parallel ∨ s.bsq.phase = .onShore ∨ s.bsq.phase = .transferBack →
      (s.currentDraw = none → s.monitorNow = .suspended) ∧
      ∀ d ∈ s.currentDraw,
        s.monitorNow = if d ≤ s.gos.applied + s.figures.overdrawTolerance then .within else .excess) ∧
    (s.estopCondition = true ↔ s.estopActive = true ∧ s.bsq.phase ≠ .vacant) ∧
    (s.feederCondition = true ↔ s.warningActive = true ∧ (s.bsq.phase = .energising ∨ s.auxClosed = true)) ∧
    (s.blc.queue = [] → s.waitReached = false) ∧
    (∀ (e : TxEntry) (rest : List TxEntry), s.blc.queue = e :: rest →
      (s.waitReached = true ↔
        (if e.collisions = 0 then 48 else (s.ownAddress.val + 1) * 64 + 48) ≤ s.blc.idleCount)) ∧
    s.profile = s.bsq.profileCode.bind (fun c => s.vlp.slots[c]) ∧
    (∀ r ∈ s.svp.station, s.station = r ∧ (r.address ≤ 15 → s.ownAddress.val = r.address)) ∧
    s.plugCode.val = s.lib.lines.pcode0.active.toNat + 2 * s.lib.lines.pcode1.active.toNat +
      4 * s.lib.lines.pcode2.active.toNat + 8 * s.lib.lines.pcode3.active.toNat ∧
    s.selectCode.val = s.lib.lines.tsel0.active.toNat + 2 * s.lib.lines.tsel1.active.toNat +
      4 * s.lib.lines.tsel2.active.toNat + 8 * s.lib.lines.tsel3.active.toNat ∧
    [Phase.vacant, .plugged, .queued, .energising, .awaitSync, .parallel, .onShore, .transferBack, .deEnergising,
      .tripped].map Phase.code = [0, 1, 2, 3, 4, 5, 6, 7, 8, 9]

/-- From every state RESET gives the state in which the Berth Sequencer is in VACANT with the BKOPEN pulse of 2000 ms
running, every peer entry is EMPTY, no reserve, record, snapshot, period, profile or station record is held, every
figure and flag is 0 or clear, every other timer is stopped, the reference word of grant 0 and count 0 is being sent,
VTX is at the released level, and the mode is CONFIG. The queue of commands and the free count stay (the model's
choice, log entry 18), the silent elapsed count of 0 is a value the spec does not give (log entry 24), and that no
line has a qualification before the first boundary is log entry 5. (11_service_port_and_start_up.md section 11.1
(R178); 01_berth_phases_and_changeover.md sections 1.1, 1.2 (R1, R3); 02_peer_view_table.md section 2.2 (R33);
03_raise_reservation.md section 3.1 (R52); 04_headroom_engine.md section 4.1 (R70); 05_grant_output_stage.md sections
5.1, 5.8 (R92, R106); 06_capacity_schedule.md section 6.1 (R108); 07_berth_link.md sections 7.1, 7.2, 7.6 (R121,
R122, R131); 08_vessel_link_and_berth_profiles.md section 8.1 (R134); 09_line_inputs_meter_port_and_timer_bank.md
sections 9.3, 9.4, 9.7 (R157, R159, R166); 10_trips_and_protection.md section 10.1 (R167)) -/
def Obligations.ResetReturnsEveryBlock : Prop :=
  ∀ s : State, ∃ t, exec .reset s = .next t ∧ t.pending = s.pending ∧ t.freeCount = s.freeCount ∧
    t.bsq = { phase := .vacant, noProfile := false, vesselMismatch := false, syncAbort := false, parallelForced := false,
              profileCode := none, hostHold := false, voltagePresent := false, firm := 0, flex := 0, transient := 0,
              bkClose := false, bkOpen := true, serving := some .resetPulse } ∧
    (∀ a : Address, t.pvt[a] =
      { standing := .empty, phaseCode := none, firm := 0, flex := 0, transient := 0, periodIndex := none,
        capacity := none, tripped := false, firmOverload := false, listening := false, reserved := none,
        heard := false, changed := false, missed := 0, silentAge := 0, silentElapsed := 0 }) ∧
    (t.rsu.state = .none ∧ t.rsu.amount = 0 ∧ t.rsu.cls = none) ∧
    (t.hre.request = false ∧ t.hre.computing = none ∧ t.hre.pmin = 0 ∧ t.hre.e = 0 ∧ t.hre.s = 0 ∧ t.hre.f = 0 ∧
      t.hre.h = 0 ∧ t.hre.last = .none ∧ t.hre.disagreement = false ∧ t.hre.firmOverload = false ∧
      t.hre.cutSettle = 0) ∧
    t.gos = { target := 0, pending := 0, applied := 0, stall := 0, suspended := false, port := .sending 0 0,
              updateCount := 0 } ∧
    t.csc = { periods := [], mode := .fixed, index := 0, pc := 0, remaining := 0, selectRange := false } ∧
    (t.blc.queue = [] ∧ t.blc.link = .idle ∧ t.blc.idleCount = 0 ∧ t.blc.rx = none ∧ t.blc.conflict = false) ∧
    (t.vlp.link = .idle ∧ t.vlp.held = none ∧ t.vlp.clampedFirm = 0 ∧ t.vlp.clampedFlex = 0 ∧
      t.vlp.demandClamped = false ∧ t.vlp.sender = .idle ∧ (∀ n, t.vlp.vtx n = false) ∧ t.vlp.statusCount = 0 ∧
          t.vlp.lastSent = none ∧
      ∀ a : Address, t.vlp.slots[a] = none) ∧
    t.mtp = { draw := none, stale := false } ∧ (t.tru.record = none ∧ t.tru.monitor = .unarmed) ∧
    (t.tmb.boundary = 0 ∧ t.tmb.breaker = { interval := 2000, left := some 2000 } ∧ t.tmb.announce.left = none ∧
      t.tmb.listen.left = none ∧ t.tmb.hold.left = none ∧ t.tmb.reserveBackoff.left = none ∧ t.tmb.inrush.left = none ∧
      t.tmb.sync.left = none ∧ t.tmb.parallel.left = none ∧ t.tmb.ramp.left = none ∧ t.tmb.linkTimeout.left = none ∧
      t.tmb.linkLoss.left = none ∧ t.tmb.overdraw.left = none ∧ t.tmb.meterStale.left = none) ∧
    (∀ l : Line, t.lib.settings.get l =
      { kind := if l = .tadv ∨ l = .trst then .rising else .levelHigh, delay := 0 } ∧ (t.lib.lines.get l).qual = none) ∧
    (t.svp.mode = .config ∧ t.svp.station = none ∧ t.svp.response = none ∧ t.svp.commandCount = 0 ∧
      t.svp.snapshot = none ∧ t.svp.attention = .empty ∧ t.svp.attn = false)

/-- In CONFIG a record within every range of R181 and R158 is held whole, the response is ACCEPTED, every line takes
its new kind and delay, its settled level becomes its latest sample, its qualification is abandoned and its qualified
state follows, and nothing else changes. A record with any field out of range is refused with OUT_OF_RANGE.
(11_service_port_and_start_up.md section 11.3 (R181); 09_line_inputs_meter_port_and_timer_bank.md section 9.3 (R157,
R158)) -/
def Obligations.LoadStationTakesTheWholeRecord : Prop :=
  ∀ (r : StationRecord) (s : State), s.svp.mode = .config →
    (StationRanges r →
      ∃ t, exec (.loadStation r) s = .next t ∧ t = { s with svp := t.svp, lib := t.lib } ∧
        t.svp = { s.svp.answered 1 .accepted [] with station := some r } ∧
        t.lib.settings.pilot = { kind := if r.pilot.kind = 1 then .levelLow else .levelHigh, delay := r.pilot.delay } ∧
        t.lib.settings.estop = { kind := if r.estop.kind = 1 then .levelLow else .levelHigh, delay := r.estop.delay } ∧
        t.lib.settings.bkaux = { kind := if r.bkaux.kind = 1 then .levelLow else .levelHigh, delay := r.bkaux.delay } ∧
        t.lib.settings.fdrwarn =
          { kind := if r.fdrwarn.kind = 1 then .levelLow else .levelHigh, delay := r.fdrwarn.delay } ∧
        (∀ n, t.lib.settings.get (.pcode n) =
          { kind := if r.pcode.kind = 1 then .levelLow else .levelHigh, delay := r.pcode.delay }) ∧
        (∀ n, t.lib.settings.get (.tsel n) =
          { kind := if r.tsel.kind = 1 then .levelLow else .levelHigh, delay := r.tsel.delay }) ∧
        t.lib.settings.tadv =
          { kind := if r.tadv.kind = 1 then .falling else if r.tadv.kind = 2 then .anyEdge else .rising,
            delay := r.tadv.delay } ∧
        t.lib.settings.trst =
          { kind := if r.trst.kind = 1 then .falling else if r.trst.kind = 2 then .anyEdge else .rising,
            delay := r.trst.delay } ∧
        ∀ l : Line, t.lib.lines.get l =
          { sampled := (s.lib.lines.get l).sampled, settled := (s.lib.lines.get l).sampled, qual := none,
            active := (t.lib.settings.get l).kind.activeAt (s.lib.lines.get l).sampled }) ∧
    (¬StationRanges r → Refuses (.loadStation r) s 1 .outOfRange)

/-- In CONFIG a LOAD_PROFILE within every range and bound of R148 and R149 loads its slot whole and changes nothing
else but the response, and any other is refused with OUT_OF_RANGE. SET_SCHEDULE_MODE sets the mode of codes 0, 1 and
2, and refuses every other code. (08_vessel_link_and_berth_profiles.md section 8.5 (R148, R149);
06_capacity_schedule.md section 6.2 (R110)) -/
def Obligations.LoadProfileAndScheduleMode : Prop :=
  ∀ s : State, s.svp.mode = .config →
    (∀ p : ProfileArgs,
      (ProfileRanges p →
        exec (.loadProfile p) s = .next
          { s with
            svp := s.svp.answered 2 .accepted []
            vlp := { s.vlp with slots := s.vlp.slots.set (Fin.ofNat 16 p.slot) (some
              { maxFirm := p.maxFirm, minFirm := p.minFirm, maxFlex := p.maxFlex, quantum := p.quantum,
                raiseLimit := p.raiseLimit, rampStep := p.rampStep, rampInterval := p.rampInterval,
                downrampStep := p.downrampStep, inrushAllowance := p.inrushAllowance, inrushWindow := p.inrushWindow,
                syncWindow := p.syncWindow, parallelLimit := p.parallelLimit, overdrawTolerance := p.overdrawTolerance,
                overdrawDwell := p.overdrawDwell, stallLimit := p.stallLimit,
                expectedId := if p.idPresence = 1 then some p.expectedId else none }) } }) ∧
      (¬ProfileRanges p → Refuses (.loadProfile p) s 2 .outOfRange)) ∧
    (∀ (code : Nat) (m : ScheduleMode),
      (code = 0 ∧ m = .stepped) ∨ (code = 1 ∧ m = .selected) ∨ (code = 2 ∧ m = .fixed) →
      exec (.setScheduleMode code) s = .next
        { s with svp := s.svp.answered 4 .accepted [], csc := { s.csc with mode := m } }) ∧
    ∀ code, 3 ≤ code → Refuses (.setScheduleMode code) s 4 .outOfRange

/-- In CONFIG a period in range is appended where its index is the loaded count and replaces the record where its
index is below it. Pc becomes the capacity of record 0 where index 0 is loaded, and a Pc that changes sets the
recompute request. Every other LOAD_PERIOD is refused with OUT_OF_RANGE, and nothing else changes.
(06_capacity_schedule.md section 6.2 (R109)) -/
def Obligations.LoadPeriodKeepsTheListWithoutGap : Prop :=
  ∀ (index capacity executions : Nat) (s : State), s.svp.mode = .config →
    (index ≤ 15 ∧ index ≤ s.csc.periods.length ∧ capacity ≤ 60000 ∧ 1 ≤ executions ∧ executions ≤ 255 →
      ∃ t, exec (.loadPeriod index capacity executions) s = .next t ∧
        t = { s with svp := s.svp.answered 3 .accepted [], csc := t.csc, hre := t.hre } ∧
        t.csc = { s.csc with periods := t.csc.periods, pc := t.csc.pc } ∧
        (index = s.csc.periods.length →
          t.csc.periods = s.csc.periods ++ [{ capacity := capacity, executions := executions }]) ∧
        (index < s.csc.periods.length →
          t.csc.periods = s.csc.periods.set index { capacity := capacity, executions := executions }) ∧
        (index = 0 → t.csc.pc = capacity) ∧ (index ≠ 0 → t.csc.pc = s.csc.pc) ∧
        t.hre = { s.hre with request := t.hre.request } ∧
        (t.hre.request = true ↔ s.hre.request = true ∨ t.csc.pc ≠ s.csc.pc)) ∧
    (¬(index ≤ 15 ∧ index ≤ s.csc.periods.length ∧ capacity ≤ 60000 ∧ 1 ≤ executions ∧ executions ≤ 255) →
      Refuses (.loadPeriod index capacity executions) s 3 .outOfRange)

/-- The loads and START are refused with WRONG_MODE in LISTEN and RUN, and CLEAR_TRIP, FORGET_PEER, BERTH_HOLD and
PROBE in CONFIG; START with INCOMPLETE without a station record or a period; CLEAR_TRIP with OUT_OF_RANGE without a
record and with CAUSE_PRESENT while any of its conditions fails; the address, setting and want commands with
OUT_OF_RANGE beyond their ranges or, for FORGET_PEER, on an OWN or EMPTY entry; LATCH with HELD and READ_SNAPSHOT
with NOT_LATCHED. Each leaves all but the response buffer and the command count as it was.
(11_service_port_and_start_up.md section 11.2 (R180); 02_peer_view_table.md section 2.6 (R50, R51);
10_trips_and_protection.md section 10.6 (R176); 11_service_port_and_start_up.md sections 11.4, 11.5 (R182, R184)) -/
def Obligations.RefusedCommandsChangeNothing : Prop :=
  ∀ s : State,
    (s.svp.mode ≠ .config →
      (∀ r, Refuses (.loadStation r) s 1 .wrongMode) ∧ (∀ p, Refuses (.loadProfile p) s 2 .wrongMode) ∧
      (∀ i c x, Refuses (.loadPeriod i c x) s 3 .wrongMode) ∧ (∀ m, Refuses (.setScheduleMode m) s 4 .wrongMode) ∧
      Refuses .start s 5 .wrongMode ∧
      (s.tru.record = none → Refuses .clearTrip s 10 .outOfRange) ∧
      (s.tru.record.isSome = true →
        s.auxClosed = true ∨ s.openConfirmed = false ∨ s.estopActive = true ∨ s.warningActive = true ∨
          (∃ d, s.currentDraw = some d ∧ s.figures.overdrawTolerance < d) →
        Refuses .clearTrip s 10 .causePresent) ∧
      (∀ a, 16 ≤ a → Refuses (.forgetPeer a) s 11 .outOfRange) ∧
      (∀ a : Address, s.pvt[a].standing = .own ∨ s.pvt[a].standing = .empty →
        Refuses (.forgetPeer a.val) s 11 .outOfRange) ∧
      (∀ c, 2 ≤ c → Refuses (.berthHold c) s 12 .outOfRange) ∧
      (∀ w, 16383 < w → Refuses (.probe w) s 13 .outOfRange)) ∧
    (s.svp.mode = .config →
      Refuses .clearTrip s 10 .wrongMode ∧ (∀ a, Refuses (.forgetPeer a) s 11 .wrongMode) ∧
      (∀ c, Refuses (.berthHold c) s 12 .wrongMode) ∧ (∀ w, Refuses (.probe w) s 13 .wrongMode) ∧
      (s.svp.station = none ∨ s.csc.periods = [] → Refuses .start s 5 .incomplete)) ∧
    (∀ a, 16 ≤ a → Refuses (.readPeer a) s 9 .outOfRange) ∧
    (s.svp.snapshot.isSome = true → Refuses .latch s 7 .held) ∧
    (s.svp.snapshot = none → Refuses .readSnapshot s 8 .notLatched)

/-- From a quiet CONFIG with a station record and a period loaded, START is accepted: the mode is LISTEN, the listen
timer runs three announce intervals, the announce and meter-stale timers run, the own entry is OWN and listening, the
period is set by the mode, a computation is in progress, an ANNOUNCE is queued and a berth status record is sent.
With the aux closed the berth trips with BREAKER_UNCOMMANDED at the stuck-breaker claim; with the aux open and the
pilot proven it is PLUGGED with the profile selected, or trips with ESTOP where the e-stop is active (judged before
the entry conditions: log entry 8); otherwise it stays VACANT, and a reset pulse still running goes on over START
(log entry 15). (11_service_port_and_start_up.md section 11.4 (R182); 01_berth_phases_and_changeover.md section 1.1
(R2); 02_peer_view_table.md section 2.2 (R34); 06_capacity_schedule.md section 6.3 (R112); 07_berth_link.md section
7.8 (R133); 08_vessel_link_and_berth_profiles.md section 8.4 (R147); 09_line_inputs_meter_port_and_timer_bank.md
section 9.4 (R160)) -/
def Obligations.StartAcceptedMovesToListen : Prop :=
  ∀ (s : State) (r : StationRecord) (p : Period) (ps : List Period), ConfigQuiet s → s.svp.mode = .config →
    s.svp.station = some r → s.csc.periods = p :: ps →
    ∃ t, exec .start s = .next t ∧
      t.svp.mode = .listen ∧ t.svp.station = some r ∧ t.svp.snapshot = s.svp.snapshot ∧
      t.svp.response = some { code := .accepted, count := (s.svp.commandCount + 1) % 256, kind := 5, data := [] } ∧
      t.svp.commandCount = (s.svp.commandCount + 1) % 256 ∧
      t.tmb.listen = { interval := 3 * r.announceInterval, left := some (3 * r.announceInterval) } ∧
      t.tmb.announce = { interval := r.announceInterval, left := some r.announceInterval } ∧
      t.tmb.meterStale = { interval := r.meterStaleInterval, left := some r.meterStaleInterval } ∧
      t.ownEntry.standing = .own ∧ t.ownEntry.listening = true ∧ t.ownEntry = t.mirrored t.ownEntry ∧
      (∀ a : Address, a ≠ s.ownAddress → t.pvt[a] = s.pvt[a]) ∧
      t.csc.periods = s.csc.periods ∧ t.csc.mode = s.csc.mode ∧
      (s.csc.mode = .stepped → t.csc.index = 0 ∧ t.csc.pc = p.capacity ∧ t.csc.remaining = p.executions) ∧
      (s.csc.mode = .fixed → t.csc.index = 0 ∧ t.csc.pc = p.capacity) ∧
      (s.csc.mode = .selected → t.csc.index = s.selectCode.val ∧
        (∀ q, s.csc.periods[s.selectCode.val]? = some q → t.csc.pc = q.capacity ∧ t.csc.selectRange = false) ∧
        (s.csc.periods.length ≤ s.selectCode.val → t.csc.selectRange = true ∧
            (∀ q ∈ s.csc.periods, t.csc.pc ≤ q.capacity) ∧
          ∃ q ∈ s.csc.periods, t.csc.pc = q.capacity)) ∧
      t.hre.computing.isSome = true ∧ t.blc.holds 1 = true ∧
      t.vlp.sender = .sending ∧ t.vlp.lastSent = some t.statusNow ∧ t.vlp.slots = s.vlp.slots ∧ t.vlp.held = none ∧
      t.vlp.link = .idle ∧ t.mtp = s.mtp ∧ t.lib = s.lib ∧
      (s.auxClosed = false ∧ s.pilotActive = false → t.bsq = s.bsq ∧ t.tru.record = none) ∧
      (s.auxClosed = false ∧ s.pilotActive = true ∧ s.estopActive = false →
        t.bsq = { s.bsq with phase := .plugged, profileCode := some s.plugCode,
                             noProfile := s.vlp.slots[s.plugCode].isNone } ∧ t.tru.record = none) ∧
      (s.auxClosed = false ∧ s.pilotActive = true ∧ s.estopActive = true →
        t.bsq.phase = .tripped ∧ t.bsq.profileCode = some s.plugCode ∧ t.bsq.firm = 0 ∧
        ∃ k, t.tru.record = some k ∧ k.first = .estop ∧ k.phaseAtTrip = .plugged ∧ k.openConfirmed = true) ∧
      (s.auxClosed = true →
        t.bsq.phase = .tripped ∧ t.bsq.firm = r.stuckBreakerClaim ∧ t.bsq.flex = 0 ∧ t.bsq.transient = 0 ∧
        t.bsq.bkOpen = true ∧ t.bsq.bkClose = false ∧ t.bsq.voltagePresent = true ∧
        ∃ k, t.tru.record = some k ∧ k.first = .breakerUncommanded ∧ k.phaseAtTrip = .vacant ∧ k.openConfirmed = false)

/-- In every mode READ_STATUS is answered ACCEPTED with the station mode, the berth phase and the attention set as it
stood, and in the same event the set becomes empty and ATTN is deasserted; nothing else changes. (R186) -/
def Obligations.ReadStatusReportsAndEmptiesAttention : Prop :=
  ∀ s : State,
    exec .readStatus s = .next
      { s with svp :=
        { s.svp.answered 6 .accepted
            [BitVec.ofNat 8 s.svp.mode.code, BitVec.ofNat 8 s.bsq.phase.code, BitVec.ofNat 8 s.svp.attention.code] with
          attention := .empty, attn := false } }

/-- With no snapshot held LATCH holds a copy of every item of R192 as it stands and changes nothing else but the
response. The head's collision count is shown as it is up to 15, a count of 16 as 15 (log entry 10) and an empty
queue as 0 (log entry 29); the collision backoff shows the backoff of the own address less the idle count while the
head waits after a collision that was not its sixteenth, and is stopped else (log entry 20). With a snapshot held
READ_SNAPSHOT answers with its 199 bytes, each item in the order, width and code of R191 and R192, and frees it, and
changes nothing else. (11_service_port_and_start_up.md section 11.5 (R184); 12_formats.md sections 12.2, 12.3 (R190,
R191, R192); 07_berth_link.md sections 7.2, 7.3 (R122, R126, R127); 09_line_inputs_meter_port_and_timer_bank.md
section 9.7 (R166)) -/
def Obligations.LatchCopiesAndReadSnapshotFrees : Prop :=
  ∀ s : State,
    (s.svp.snapshot = none →
      ∃ t, exec .latch s = .next t ∧ ∃ n, t.svp.snapshot = some n ∧
        t = { s with svp := { s.svp.answered 7 .accepted [] with snapshot := some n } } ∧
        n.mode = s.svp.mode ∧ n.station = s.svp.station ∧ n.phase = s.bsq.phase ∧ n.noProfile = s.bsq.noProfile ∧
        n.vesselMismatch = s.bsq.vesselMismatch ∧ n.syncAbort = s.bsq.syncAbort ∧
        n.parallelForced = s.bsq.parallelForced ∧ n.profileCode = s.bsq.profileCode ∧ n.hostHold = s.bsq.hostHold ∧
        n.firm = s.bsq.firm ∧ n.flex = s.bsq.flex ∧ n.transient = s.bsq.transient ∧
        n.reserveState = s.rsu.state ∧ n.reserveClass = s.rsu.cls ∧ n.reserveAmount = s.rsu.amount ∧
        n.pmin = s.hre.pmin ∧ n.e = s.hre.e ∧ n.s = s.hre.s ∧ n.f = s.hre.f ∧ n.h = s.hre.h ∧ n.last = s.hre.last ∧
        n.disagreement = s.hre.disagreement ∧ n.firmOverload = s.hre.firmOverload ∧ n.cutSettle = s.hre.cutSettle ∧
        n.target = s.gos.target ∧ n.pending = s.gos.pending ∧ n.applied = s.gos.applied ∧ n.stall = s.gos.stall ∧
        n.suspended = s.gos.suspended ∧ n.scheduleMode = s.csc.mode ∧ n.loadedCount = s.csc.periods.length ∧
        n.index = s.csc.index ∧ n.pc = s.csc.pc ∧ n.remaining = s.csc.remaining ∧ n.selectRange = s.csc.selectRange ∧
        n.queue.kinds = s.blc.queue.map (·.content.code) ∧
        n.queue.collisions = min 15 ((s.blc.queue.head?.map (·.collisions)).getD 0) ∧
        (n.queue.inTransmission = true ↔ s.blc.queue ≠ [] ∧ s.blc.inTransmission = true) ∧
        n.conflict = s.blc.conflict ∧ n.link = s.vlp.link ∧
        n.held = s.vlp.held ∧ n.clampedFirm = s.vlp.clampedFirm ∧ n.clampedFlex = s.vlp.clampedFlex ∧
        n.demandClamped = s.vlp.demandClamped ∧ n.lastSent = s.vlp.lastSent ∧
        (∀ a : Address, n.slotsLoaded[a] = s.vlp.slots[a].isSome) ∧ n.draw = s.mtp.draw ∧ n.meterStale = s.mtp.stale ∧
        n.timers.announce = s.tmb.announce.left ∧ n.timers.listen = s.tmb.listen.left ∧
        n.timers.hold = s.tmb.hold.left ∧ n.timers.reserveBackoff = s.tmb.reserveBackoff.left ∧
        n.timers.collisionBackoff =
          (if (∃ e ∈ s.blc.queue.head?, 1 ≤ e.collisions ∧ e.collisions < 16) ∧ s.blc.link.attempting = false then
            some ((s.ownAddress.val + 1) * 64 + 48 - s.blc.idleCount) else none) ∧
        n.timers.breaker = s.tmb.breaker.left ∧ n.timers.inrush = s.tmb.inrush.left ∧ n.timers.sync = s.tmb.sync.left ∧
        n.timers.parallel = s.tmb.parallel.left ∧ n.timers.ramp = s.tmb.ramp.left ∧
        n.timers.linkTimeout = s.tmb.linkTimeout.left ∧ n.timers.linkLoss = s.tmb.linkLoss.left ∧
        n.timers.overdraw = s.tmb.overdraw.left ∧ n.timers.meterStale = s.tmb.meterStale.left ∧
        n.record = s.tru.record ∧ n.monitor = s.tru.monitor ∧ n.attention = s.svp.attention) ∧
    (∀ n, s.svp.snapshot = some n →
      exec .readSnapshot s = .next { s with svp := { s.svp.answered 8 .accepted (snapshotData n) with snapshot := none } } ∧
      (snapshotData n).length = 199 ∧
      let two (k : Nat) : List Byte := [byte k, byte (k / 256)]
      let four (k : Nat) : List Byte := [byte k, byte (k / 256), byte (k / 65536), byte (k / 16777216)]
      let bit (b : Bool) : Nat := if b = true then 1 else 0
      let none' (k : Nat) : List Byte := List.replicate k 255
      let time (o : Option Nat) : List Byte := match o with | some k => four k | none => none' 4
      let set (a : LineArg) : List Byte := [byte a.kind] ++ two a.delay
      let station : List Byte :=
        match n.station with
        | none   => none' 44
        | some r =>
          [byte r.address] ++ two r.margin ++ two r.announceInterval ++ two r.holdWindow ++ two r.reserveBackoffUnit ++
            two r.forgetInterval ++ two r.breakerTime ++ two r.vesselLinkTimeout ++ [byte r.linkLossInterval] ++
            two r.meterStaleInterval ++ two r.stuckBreakerClaim ++ set r.pilot ++ set r.estop ++ set r.bkaux ++
            set r.fdrwarn ++ set r.tadv ++ set r.trst ++ set r.pcode ++ set r.tsel
      let held : List Byte :=
        match n.held with
        | none   => none' 10
        | some r =>
          two r.vesselId ++ [byte r.request.code, byte (bit r.breakerClosed + 16 * r.generators.code)] ++
            two r.firmDemand ++ two r.flexDemand ++ two r.echo
      let sent : List Byte :=
        match n.lastSent with
        | none   => none' 6
        | some b =>
          [byte b.phase.code, byte (bit b.voltagePresent), byte (bit b.suspended + 2 * bit b.firmOverload)] ++
            two b.applied ++ [byte (match b.cause with | some c => c.code | none => 0)]
      let draw : List Byte := match n.draw with | some d => [1] ++ two d | none => [0] ++ none' 2
      let trip : List Byte :=
        match n.record with
        | none   => [0] ++ none' 6
        | some r =>
          [1, byte r.first.code, byte r.phaseAtTrip.code] ++ two r.appliedAtTrip ++
            [byte (bit r.later.pilotLost + 2 * bit r.later.estop + 4 * bit r.later.feederLost +
               8 * bit r.later.breakerFail + 16 * bit r.later.breakerUncommanded + 32 * bit r.later.overdraw +
               64 * bit r.later.linkLost),
             byte (bit r.openConfirmed)]
      let last : Nat × Nat × Nat :=
        match n.last with
        | .none              => (0, 0, 0)
        | .release k         => (1, 0, k)
        | .cut k             => (2, 0, k)
        | .cutWithheld k     => (3, 0, k)
        | .reserveWanted c k => (4, c.code, k)
        | .energiseWait k    => (5, 0, k)
        | .deferred          => (6, 0, 0)
        | .discarded         => (7, 0, 0)
      snapshotData n =
        [byte n.mode.code] ++ station ++
        [byte n.phase.code, byte (bit n.noProfile + 2 * bit n.vesselMismatch + 4 * bit n.syncAbort +
           8 * bit n.parallelForced), byte (match n.profileCode with | some c => c.val | none => 255),
         byte (bit n.hostHold)] ++ two n.firm ++ two n.flex ++ two n.transient ++
        [byte n.reserveState.code, byte (match n.reserveClass with | some c => c.code | none => 0)] ++
        two n.reserveAmount ++
        four n.pmin ++ four n.e ++ four n.s ++ four n.f ++ four (n.h % 4294967296).toNat ++
        [byte last.1, byte last.2.1] ++ two last.2.2 ++ [byte (bit n.disagreement + 2 * bit n.firmOverload),
         byte n.cutSettle] ++
        two n.target ++ two n.pending ++ two n.applied ++ [byte n.stall, byte (bit n.suspended)] ++
        [byte n.scheduleMode.code, byte n.loadedCount, byte n.index] ++ two n.pc ++
        [byte n.remaining, byte (bit n.selectRange)] ++
        [byte (n.queue.kinds.getD 0 0), byte (n.queue.kinds.getD 1 0), byte (n.queue.kinds.getD 2 0),
         byte n.queue.collisions, byte (bit n.queue.inTransmission), byte (bit n.conflict)] ++
        [byte n.link.code] ++ held ++ two n.clampedFirm ++ two n.clampedFlex ++ [byte (bit n.demandClamped)] ++ sent ++
        two (∑ a : Address, (if n.slotsLoaded[a] = true then 2 ^ a.val else 0)) ++
        draw ++ [byte (bit n.meterStale)] ++
        time n.timers.announce ++ time n.timers.listen ++ time n.timers.hold ++ time n.timers.reserveBackoff ++
        time n.timers.collisionBackoff ++ time n.timers.breaker ++ time n.timers.inrush ++ time n.timers.sync ++
        time n.timers.parallel ++ time n.timers.ramp ++ time n.timers.linkTimeout ++ time n.timers.linkLoss ++
        time n.timers.overdraw ++ time n.timers.meterStale ++
        trip ++ [byte n.monitor.code] ++
        [byte (bit n.attention.trip + 2 * bit n.attention.firmOverload + 4 * bit n.attention.scheduleDisagreement +
           8 * bit n.attention.addressConflict + 16 * bit n.attention.linkCongested +
           32 * bit n.attention.rampSuspended + 64 * bit n.attention.demandClamped + 128 * bit n.attention.meterStale)]) ∧
    [Mode.config, .listen, .run].map Mode.code = [0, 1, 2] ∧
    [ReserveState.none, .queued, .sent, .hold, .backoff].map ReserveState.code = [0, 1, 2, 3, 4] ∧
    [ReserveClass.firmEnergise, .flexRaise].map ReserveClass.code = [1, 2] ∧
    [ScheduleMode.stepped, .selected, .fixed].map ScheduleMode.code = [0, 1, 2] ∧
    [VesselLink.idle, .up, .lost].map VesselLink.code = [0, 1, 2] ∧
    [ShipRequest.none, .shore, .back].map ShipRequest.code = [0, 1, 2] ∧
    [Generators.online, .syncing, .off].map Generators.code = [0, 1, 2] ∧
    [TripCause.pilotLost, .estop, .feederLost, .breakerFail, .breakerUncommanded, .overdraw, .linkLost].map
      TripCause.code = [1, 2, 3, 4, 5, 6, 7] ∧
    [Monitor.unarmed, .suspended, .within, .excess].map Monitor.code = [0, 1, 2, 3]

/-- READ_PEER of an address answers with every field of its entry in the layout and the codes of R191. PROBE in
LISTEN or RUN with a want of 0 to 16383 answers with the raise amount that the want, clamped to max flex, would give
at the present headroom, or 0. Both change nothing but the response buffer and the count, and a transaction that
carries no command changes nothing at all. (02_peer_view_table.md section 2.6 (R51); 04_headroom_engine.md section
4.11 (R90); 12_formats.md section 12.3 (R191); 11_service_port_and_start_up.md section 11.2 (R179)) -/
def Obligations.ReadPeerAndProbeOnlyAnswer : Prop :=
  ∀ s : State,
    (∀ a : Address,
      let data : List Byte :=
        [byte a.val, byte s.pvt[a].standing.code, byte (s.pvt[a].phaseCode.getD 255), byte s.pvt[a].firm,
         byte (s.pvt[a].firm / 256), byte s.pvt[a].flex, byte (s.pvt[a].flex / 256), byte s.pvt[a].transient,
         byte (s.pvt[a].transient / 256), byte (s.pvt[a].periodIndex.getD 255), byte (s.pvt[a].capacity.getD 65535),
         byte (s.pvt[a].capacity.getD 65535 / 256),
         byte (s.pvt[a].tripped.toNat + 2 * s.pvt[a].firmOverload.toNat + 4 * s.pvt[a].listening.toNat +
           8 * s.pvt[a].heard.toNat + 16 * s.pvt[a].changed.toNat),
         byte s.pvt[a].reserved.isSome.toNat, byte ((s.pvt[a].reserved.map (·.amount)).getD 0),
         byte ((s.pvt[a].reserved.map (·.amount)).getD 0 / 256), byte ((s.pvt[a].reserved.map (·.cls.code)).getD 0),
         byte ((s.pvt[a].reserved.map (·.age)).getD 0), byte s.pvt[a].missed, byte s.pvt[a].silentAge,
         byte (s.pvt[a].silentAge / 256)]
      exec (.readPeer a.val) s = .next { s with svp := s.svp.answered 9 .accepted data }) ∧
    [Standing.empty, .live, .silent, .own].map Standing.code = [0, 1, 2, 3] ∧
    [ReserveClass.firmEnergise, .flexRaise].map ReserveClass.code = [1, 2] ∧
    (∀ want, want ≤ 16383 → s.svp.mode ≠ .config → s.profile = none →
      exec (.probe want) s = .next { s with svp := s.svp.answered 13 .accepted [0, 0] }) ∧
    (∀ want, want ≤ 16383 → s.svp.mode ≠ .config → ∀ p, s.profile = some p →
      let r := min (min (min p.maxFlex want - s.bsq.flex) s.figuresNow.h.toNat) p.raiseLimit / p.quantum * p.quantum
      let n := if 0 < s.figuresNow.h ∧ s.bsq.flex < want ∧ p.quantum ≤ r then r else 0
      exec (.probe want) s = .next { s with svp := s.svp.answered 13 .accepted [byte n, byte (n / 256)] }) ∧
    ∀ bytes, exec (.transactionNotTaken bytes) s = .next s

/-- A frame joins the tail with collision count 0 and clear marks unless a frame of its kind is in the queue. A
requested ANNOUNCE joins so, except that an ANNOUNCE in transmission gets its refresh mark and nothing else changes.
Abandoning a RESERVE marks it where it is in transmission, and otherwise takes every RESERVE out with the others in
their order. An entry is in transmission from the start of an attempt, through its frame, the released run after it
and its slot, or through the jam and the rest of a collided transmission. Nothing else of the Berth Link Controller
changes. (07_berth_link.md section 7.2 (R122, R123, R124); 03_raise_reservation.md section 3.6 (R69)) -/
def Obligations.QueueOperationsKeepOneFrameOfEachKind : Prop :=
  ∀ (b : Blc),
    (∀ (c : TxContent), b.holds c.code = true →
      b.join c = b) ∧
    (∀ (c : TxContent), b.holds c.code = false →
      b.join c = { b with queue := b.queue ++ [{ content := c, collisions := 0, refresh := false, abandoned := false }] }) ∧
    (∀ (e : TxEntry) (rest : List TxEntry), b.queue = e :: rest → b.inTransmission = true → e.content = .announce →
      b.requestAnnounce = { b with queue := { e with refresh := true } :: rest }) ∧
    (¬(b.inTransmission = true ∧ ∃ e ∈ b.queue.head?, e.content = .announce) →
      b.requestAnnounce = b.join .announce) ∧
    (∀ (e : TxEntry) (rest : List TxEntry), b.queue = e :: rest → b.inTransmission = true → e.isReserve = true →
      b.abandonReserve = { b with queue := { e with abandoned := true } :: rest }) ∧
    (¬(b.inTransmission = true ∧ ∃ e ∈ b.queue.head?, e.isReserve = true) →
      b.abandonReserve = { b with queue := b.queue.filter fun e => !e.isReserve }) ∧
    (∀ (e : TxEntry), (e.isReserve = true ↔ ∃ n c, e.content = .reserve n c)) ∧
    ((b.link.attempting = true ↔ (∃ i, b.link = .own i) ∨ (∃ r, b.link = .ending r) ∨ ∃ n, b.link = .ownSlot n) ∧
     (b.inTransmission = true ↔ b.link.attempting = true ∨ (∃ n, b.link = .jam n) ∨ ∃ r, b.link = .collided r))

/-- Where the grant lies in its bounds, a change of any claim part stores the parts, makes T firm plus flex, brings A
and P down to the new T where they exceed it in the connected phases, sets the recompute request and requests an
ANNOUNCE, and nothing else changes. Parts that are as they were change nothing. (01_berth_phases_and_changeover.md
section 1.8 (R21); 05_grant_output_stage.md section 5.2 (R93, R94); 04_headroom_engine.md section 4.2 (R71)) -/
def Obligations.ClaimChangeReachesEveryBlock : Prop :=
  ∀ (firm flex transient : Nat) (s : State), GrantBounds s →
    (firm = s.bsq.firm ∧ flex = s.bsq.flex ∧ transient = s.bsq.transient →
      setClaim firm flex transient s = s) ∧
    (¬(firm = s.bsq.firm ∧ flex = s.bsq.flex ∧ transient = s.bsq.transient) →
      setClaim firm flex transient s =
        { s with
          bsq := { s.bsq with firm := firm, flex := flex, transient := transient }
          gos := { s.gos with
            target := firm + flex
            applied := if s.bsq.phase.connected then min s.gos.applied (firm + flex) else s.gos.applied
            pending := if s.bsq.phase.connected then min s.gos.pending (firm + flex) else s.gos.pending }
          hre := { s.hre with request := true }
          blc := s.blc.requestAnnounce })

/-- A change of phase abandons the own reserve on a trip and where its class matches the group left, sets A, P, the
stall count and the suspension to 0 outside the connected phases and P to A on entry to TRANSFER_BACK, starts the
ramp, sync and parallel timers on entry to their phases and stops them outside, clears the cut settle count on
leaving the pair (with no recompute for it: log entry 12), requests a recompute on entry to QUEUED, PARALLEL and
ON_SHORE, and then an ANNOUNCE, after the WITHDRAW of an abandoned reserve (R26 for a trip, log entry 31 otherwise).
Nothing else changes. A RESERVE that is abandoned brings a WITHDRAW and a recompute in SENT and HOLD only.
(01_berth_phases_and_changeover.md sections 1.1, 1.8 (R1, R25); 03_raise_reservation.md section 3.3 (R61);
05_grant_output_stage.md sections 5.3, 5.4, 5.6 (R95, R100, R102, R103); 04_headroom_engine.md sections 4.2, 4.7
(R71, R84); 08_vessel_link_and_berth_profiles.md section 8.5 (R150)) -/
def Obligations.PhaseChangeReachesEveryBlock : Prop :=
  ∀ (next : Phase) (s : State),
    (next = s.bsq.phase →
      setPhase next s = s) ∧
    (next ≠ s.bsq.phase →
      setPhase next s =
        { phaseLeft next s with
          bsq := { s.bsq with phase := next }
          gos := if next = .parallel ∨ next = .onShore then s.gos
                 else if next = .transferBack then
                   { s.gos with pending := s.gos.applied, stall := 0, suspended := false }
                 else { s.gos with pending := 0, applied := 0, stall := 0, suspended := false }
          tmb := { (phaseLeft next s).tmb with
            ramp := if next.connected = false then s.tmb.ramp.stop
                    else if s.bsq.phase.connected = true ∨ s.profile = none then s.tmb.ramp
                    else { interval := s.figures.rampInterval, left := some s.figures.rampInterval }
            sync := if next = .awaitSync ∧ s.profile ≠ none then
                      { interval := s.figures.syncWindow * 1000, left := some (s.figures.syncWindow * 1000) }
                    else s.tmb.sync.stop
            parallel := if next = .parallel ∧ s.profile ≠ none then
                          { interval := s.figures.parallelLimit * 1000, left := some (s.figures.parallelLimit * 1000) }
                        else s.tmb.parallel.stop }
          hre := { (phaseLeft next s).hre with
            request := (phaseLeft next s).hre.request || next == .queued || next == .parallel || next == .onShore
            cutSettle := if s.bsq.phase.pair = true ∧ next.pair = false then 0 else s.hre.cutSettle }
          blc := (phaseLeft next s).blc.requestAnnounce }) ∧
    (phaseLeft next s =
       if next = .tripped ∨
           (s.bsq.phase = .queued ∧ next ≠ .energising ∧ s.rsu.cls = some .firmEnergise) ∨
           (s.bsq.phase.pair = true ∧ next.pair = false ∧ s.rsu.cls = some .flexRaise) then
         match s.rsu.state with
         | .none => s
         | .queued => { s with rsu := { s.rsu with state := .none, amount := 0, cls := none }, blc := s.blc.abandonReserve }
         | .sent =>
           { s with
             rsu := { s.rsu with state := .none, amount := 0, cls := none }
             blc := s.blc.abandonReserve.join .withdraw
             hre := { s.hre with request := true } }
         | .hold =>
           { s with
             rsu := { s.rsu with state := .none, amount := 0, cls := none }
             tmb := { s.tmb with hold := s.tmb.hold.stop }
             blc := s.blc.join .withdraw
             hre := { s.hre with request := true } }
         | .backoff =>
           { s with
             rsu := { s.rsu with state := .none, amount := 0, cls := none }
             tmb := { s.tmb with reserveBackoff := s.tmb.reserveBackoff.stop } }
       else s)

/-- Outside TRIPPED a cause fills the record with itself, the phase and A, raises the trip reason, and the trip is
carried out: phase TRIPPED with all that brings, BKCLOSE deasserted, a timer serving a close stopped. With the aux
closed BKOPEN is asserted and the breaker timer serves the open, running on where it already serves an open or the
reset pulse, and the claim is kept. With the aux open the open is confirmed and the claim and the inrush timer go, a
reset pulse running on (log entry 15). In TRIPPED the cause joins the later causes, raising the trip reason, unless
it is there. (10_trips_and_protection.md sections 10.2, 10.5 (R169, R174, R175); 01_berth_phases_and_changeover.md
section 1.9 (R26, R27); 01_berth_phases_and_changeover.md section 1.2 (R3, R4)) -/
def Obligations.TripIsCarriedOutInOneEvent : Prop :=
  ∀ (c : TripCause) (s : State),
    (∀ r ∈ s.tru.record, s.bsq.phase = .tripped → r.later.has c = true →
      takeCause c s = s) ∧
    (∀ r ∈ s.tru.record, s.bsq.phase = .tripped → r.later.has c = false →
      takeCause c s =
        { s with
          tru := { s.tru with record := some { r with later := r.later.add c } }
          svp := { s.svp with attention := { s.svp.attention with trip := true }, attn := true } }) ∧
    (s.bsq.phase ≠ .tripped →
      let record : TripRecord :=
        { first := c, phaseAtTrip := s.bsq.phase, appliedAtTrip := s.gos.applied, later := .empty, openConfirmed := false }
      let p := setPhase .tripped
        { s with
          tru := { s.tru with record := some record }
          svp := { s.svp with attention := { s.svp.attention with trip := true }, attn := true } }
      let stopped := s.bsq.serving = some .close
      let q : State :=
        { p with
          bsq := { p.bsq with bkClose := false, serving := if stopped then none else p.bsq.serving }
          tmb := { p.tmb with breaker := if stopped then p.tmb.breaker.stop else p.tmb.breaker } }
      (s.auxClosed = true → stopped ∨ s.bsq.serving = none →
        takeCause c s =
          { q with
            bsq := { q.bsq with bkOpen := true, serving := some .openCmd }
            tmb := { q.tmb with
              breaker := { interval := s.station.breakerTime, left := some s.station.breakerTime } } }) ∧
      (s.auxClosed = true → ¬stopped → s.bsq.serving ≠ none →
        takeCause c s = { q with bsq := { q.bsq with bkOpen := true } }) ∧
      (s.auxClosed = false →
        takeCause c s = setClaim 0 0 0
          { q with
            tru := { q.tru with record := q.tru.record.map fun r => { r with openConfirmed := true } }
            tmb := { q.tmb with inrush := q.tmb.inrush.stop } }))

/-- At the first boundary after reset every line is sampled and settled at its level and each level line takes its
qualified state. At every later one the sample is taken, a qualification is abandoned where the sample equals the
settled level, started with this boundary where none runs, and goes on where it does. Every running timer of the
bank, the silent age count of a SILENT entry, the age count of a reserved field and the status interval count after a
first record advance by one millisecond, and nothing else changes. That these counts ride on the two sampling
commands is the model's choice (log entry 3), as is that the status interval count stands still until a first record
and at 50 (log entry 23), and that either command changes nothing at the other's boundary (log entry 19).
(09_line_inputs_meter_port_and_timer_bank.md sections 9.2, 9.3, 9.5 (R154, R157, R162); 02_peer_view_table.md section
2.5 (R47); 03_raise_reservation.md section 3.5 (R66); 08_vessel_link_and_berth_profiles.md section 8.4 (R147)) -/
def Obligations.BoundarySamplesTheLinesAndCountsTheTimers : Prop :=
  ∀ (levels : PerLine Bool) (s : State),
    (s.tmb.boundary = 0 →
      ∃ t, exec (.lineInitialSettle levels) s = .next t ∧
          t = { countBoundary s with lib := t.lib } ∧ t.lib.settings = s.lib.settings ∧
          ∀ l : Line, t.lib.lines.get l =
            { sampled := levels.get l, settled := levels.get l, qual := none,
              active := (s.lib.settings.get l).kind.activeAt (levels.get l) }) ∧
    (s.tmb.boundary ≠ 0 →
      ∃ t, exec (.lineInitialSettle levels) s = .next t ∧
          t = s) ∧
    (s.tmb.boundary = 0 →
      ∃ t, exec (.lineSampling levels) s = .next t ∧
          t = s) ∧
    (s.tmb.boundary ≠ 0 →
      ∃ t, exec (.lineSampling levels) s = .next t ∧
          t = { countBoundary s with lib := t.lib } ∧ t.lib.settings = s.lib.settings ∧
          ∀ l : Line, t.lib.lines.get l =
            { s.lib.lines.get l with
              sampled := levels.get l
              qual := if levels.get l = (s.lib.lines.get l).settled then none
                      else if ∃ q ∈ (s.lib.lines.get l).qual, q.level = levels.get l then (s.lib.lines.get l).qual
                      else some { level := levels.get l, marked := s.tmb.boundary + 1 } }) ∧
    (let t := countBoundary s
     t = { s with tmb := t.tmb, pvt := t.pvt, vlp := t.vlp } ∧ t.tmb.boundary = s.tmb.boundary + 1 ∧
     t.tmb = { boundary := s.tmb.boundary + 1, announce := s.tmb.announce.tick, listen := s.tmb.listen.tick,
               hold := s.tmb.hold.tick, reserveBackoff := s.tmb.reserveBackoff.tick, breaker := s.tmb.breaker.tick,
               inrush := s.tmb.inrush.tick, sync := s.tmb.sync.tick, parallel := s.tmb.parallel.tick,
               ramp := s.tmb.ramp.tick, linkTimeout := s.tmb.linkTimeout.tick, linkLoss := s.tmb.linkLoss.tick,
               overdraw := s.tmb.overdraw.tick, meterStale := s.tmb.meterStale.tick } ∧
     (∀ a : Address, t.pvt[a] =
       { s.pvt[a] with
         silentElapsed := if s.pvt[a].standing = .silent then s.pvt[a].silentElapsed + 1 else s.pvt[a].silentElapsed
         reserved := s.pvt[a].reserved.map fun r => { r with elapsed := r.elapsed + 1 } }) ∧
     t.vlp = { s.vlp with statusCount := if s.vlp.lastSent.isSome then min 50 (s.vlp.statusCount + 1) else s.vlp.statusCount }) ∧
    (∀ (n i : Nat), Timer.tick { interval := i, left := some (n + 1) } = { interval := i, left := some n } ∧
       Timer.tick { interval := i, left := none } = { interval := i, left := none })

/-- A qualification completes at the boundary its delay after the marked one. A change of qualified state of a level
line is the completion to the level at which its kind reads so, an event of an edge line the completion that matches
its kind. Where the qualification of a line completes, its settled level becomes the new level, the qualification
ends and a level line takes its qualified state; all other lines stay. For a plug-coding line, for an edge that does
not match its kind, and in CONFIG for every line, nothing else happens. Select lines due at one boundary settle
together (log entry 30). A line command whose qualification is not complete changes nothing (log entry 19).
(09_line_inputs_meter_port_and_timer_bank.md sections 9.1, 9.2, 9.3 (R153, R154, R155, R156, R157);
01_berth_phases_and_changeover.md section 1.1 (R2); 06_capacity_schedule.md sections 6.5, 6.6 (R116, R118)) -/
def Obligations.QualifiedChangeSettlesItsLine : Prop :=
  ∀ (s : State),
    (∀ (l : Line) (v : Bool), let k := (s.lib.settings.get l).kind
     (s.lineDue l v = true ↔
       ∃ q ∈ (s.lib.lines.get l).qual, q.level = v ∧ q.marked + (s.lib.settings.get l).delay ≤ s.tmb.boundary) ∧
     s.changeDue l v = s.lineDue l (if k = .levelLow then !v else v) ∧
     settleActive l v s = settleLine l (if k = .levelLow then !v else v) s ∧
     s.nextLevel l = !(s.lib.lines.get l).settled ∧
     (s.edgeDue l = true ↔
       s.lineDue l (s.nextLevel l) = true ∧
       ((k = .rising ∧ s.nextLevel l = true) ∨ (k = .falling ∧ s.nextLevel l = false) ∨ k = .anyEdge)) ∧
     (k.activeAt v = true ↔ (k = .levelHigh ∧ v = true) ∨ (k = .levelLow ∧ v = false))) ∧
    (∀ (m : Line), (qualifySelects s) = { s with lib := (qualifySelects s).lib } ∧
        (qualifySelects s).lib.settings = s.lib.settings ∧
     (qualifySelects s).lib.lines.get m =
       if (∃ n, m = .tsel n) ∧ s.lineDue m (s.nextLevel m) = true then
         { s.lib.lines.get m with
           settled := s.nextLevel m, qual := none, active := (s.lib.settings.get m).kind.activeAt (s.nextLevel m) }
       else s.lib.lines.get m) ∧
    (∀ (l m : Line) (v : Bool), (settleLine l v s) = { s with lib := (settleLine l v s).lib } ∧
        (settleLine l v s).lib.settings = s.lib.settings ∧
     (settleLine l v s).lib.lines.get m =
       if m = l then
         { s.lib.lines.get l with settled := v, qual := none, active := (s.lib.settings.get l).kind.activeAt v }
       else s.lib.lines.get m) ∧
    (∀ (n : Fin 4) (v : Bool), s.changeDue (.pcode n) v = true →
      ∃ t, exec (.plugCodeLineChange n v) s = .next t ∧
          t = settleActive (.pcode n) v s) ∧
    (∀ (n : Fin 4) (v : Bool), s.changeDue (.pcode n) v = false →
      ∃ t, exec (.plugCodeLineChange n v) s = .next t ∧
          t = s) ∧
    (∀ (e : EdgeLine), s.lineDue (edgeLineOf e) (s.nextLevel (edgeLineOf e)) = true → s.edgeDue (edgeLineOf e) = false →
      ∃ t, exec (.edgeLineSettled e) s = .next t ∧
          t = settleLine (edgeLineOf e) (s.nextLevel (edgeLineOf e)) s) ∧
    (∀ (e : EdgeLine), s.lineDue (edgeLineOf e) (s.nextLevel (edgeLineOf e)) = false ∨ s.edgeDue (edgeLineOf e) = true →
      ∃ t, exec (.edgeLineSettled e) s = .next t ∧
          t = s) ∧
    (s.changeDue .pilot true = false →
      exec .pilotProven s = .next s) ∧
    (s.changeDue .pilot false = false →
      exec .pilotLost s = .next s) ∧
    (s.changeDue .bkaux true = false →
      exec .auxReadsClosed s = .next s) ∧
    (s.changeDue .bkaux false = false →
      exec .auxReadsOpen s = .next s) ∧
    (∀ (v : Bool), s.changeDue .estop v = false →
      exec (.estopChange v) s = .next s) ∧
    (∀ (v : Bool), s.changeDue .fdrwarn v = false →
      exec (.feederWarningChange v) s = .next s) ∧
    (∀ (n : Fin 4) (v : Bool), s.changeDue (.tsel n) v = false →
      exec (.tariffSelectChange n v) s = .next s) ∧
    (s.edgeDue .tadv = false →
      exec .tariffAdvance s = .next s) ∧
    (s.edgeDue .trst = false →
      exec .tariffRestart s = .next s) ∧
    (s.svp.mode = .config →
      (s.changeDue .pilot true = true → exec .pilotProven s = .next (settleActive .pilot true s)) ∧
      (s.changeDue .pilot false = true → exec .pilotLost s = .next (settleActive .pilot false s)) ∧
      (s.changeDue .bkaux true = true → exec .auxReadsClosed s = .next (settleActive .bkaux true s)) ∧
      (s.changeDue .bkaux false = true → exec .auxReadsOpen s = .next (settleActive .bkaux false s)) ∧
      (∀ v, s.changeDue .estop v = true → exec (.estopChange v) s = .next (settleActive .estop v s)) ∧
      (∀ v, s.changeDue .fdrwarn v = true → exec (.feederWarningChange v) s = .next (settleActive .fdrwarn v s)) ∧
      (∀ n v, s.changeDue (.tsel n) v = true →
        exec (.tariffSelectChange n v) s = .next (qualifySelects (settleActive (.tsel n) v s))) ∧
      (s.edgeDue .tadv = true → exec .tariffAdvance s = .next (settleLine .tadv (s.nextLevel .tadv) s)) ∧
      (s.edgeDue .trst = true → exec .tariffRestart s = .next (settleLine .trst (s.nextLevel .trst) s)))

/-- In LISTEN and RUN a proven pilot in VACANT selects the slot the plug code names, sets NO_PROFILE by whether it is
loaded, clamps the held record again and enters PLUGGED, where the entry conditions may queue the berth; with the
e-stop active the berth trips with ESTOP from PLUGGED instead (judged before the entry conditions: log entry 8). In
any other phase only the line settles. A lost pilot makes the link IDLE with no record and no clamped demand, and
then frees the berth in PLUGGED or QUEUED, trips it with PILOT_LOST while energised, is added to an unconfirmed trip,
and does nothing more else. (01_berth_phases_and_changeover.md section 1.3 (R6, R7);
08_vessel_link_and_berth_profiles.md sections 8.2, 8.3 (R140, R144); 10_trips_and_protection.md section 10.2 (R168))
-/
def Obligations.PilotProvenPlugsAndPilotLostUnplugsOrTrips : Prop :=
  ∀ (s : State), s.started = true → s.calm = true →
    (s.changeDue .pilot true = true → s.bsq.phase ≠ .vacant →
      CompletesAs (.pilotProven) s
          (settleActive .pilot true s)) ∧
    (s.changeDue .pilot true = true → s.bsq.phase = .vacant →
      let l := settleActive .pilot true s
      let p := setPhase .plugged (formClamps { l with
        bsq := { l.bsq with profileCode := some s.plugCode, noProfile := s.vlp.slots[s.plugCode].isNone } })
      (s.estopActive = false → CompletesAs .pilotProven s p.entered) ∧
      (s.estopActive = true → s.tru.estopHeld = false → CompletesAs .pilotProven s (takeCause .estop p))) ∧
    (s.changeDue .pilot false = true →
      let l := settleActive .pilot false s
      let k : State :=
        { l with
          vlp := { l.vlp with link := .idle, held := none, clampedFirm := 0, clampedFlex := 0, demandClamped := false }
          tmb := { l.tmb with linkTimeout := l.tmb.linkTimeout.stop }
          hre := { l.hre with request := l.hre.request || l.vlp.clampedFirm != 0 || l.vlp.clampedFlex != 0 } }
      let v := setPhase .vacant k
      (s.bsq.phase = .plugged ∨ s.bsq.phase = .queued →
        CompletesAs .pilotLost s
          { v with
            bsq := { v.bsq with profileCode := none, noProfile := false, vesselMismatch := false, syncAbort := false,
                                parallelForced := false } }) ∧
      (s.bsq.phase.energised = true ∨ (s.bsq.phase = .tripped ∧ s.openConfirmed = false) →
        CompletesAs .pilotLost s (takeCause .pilotLost k)) ∧
      (s.bsq.phase = .vacant ∨ (s.bsq.phase = .tripped ∧ s.openConfirmed = true) → CompletesAs .pilotLost s k))

/-- In ENERGISING the closed aux releases BKCLOSE, stops the breaker timer, starts the inrush timer (a window of 0
zeroes transient at once) and enters AWAIT_SYNC, from which the latest record leads on to DE_ENERGISING with the open
commanded (also with no record held: log entry 22), to PARALLEL or to ON_SHORE. In VACANT, PLUGGED and QUEUED, and in
TRIPPED with the open confirmed, firm becomes the stuck-breaker claim and the cause BREAKER_UNCOMMANDED is taken; in
TRIPPED the open is commanded again and no longer confirmed. A feeder warning that stands, and an e-stop that VACANT
had held off, are taken after it (log entry 8). In every other case only the line settles. The level lines have level
kinds. (01_berth_phases_and_changeover.md sections 1.5, 1.6, 1.8, 1.9 (R13, R14, R15, R24, R28);
10_trips_and_protection.md section 10.2 (R168)) -/
def Obligations.AuxClosureEndsTheCloseOrTripsTheBerth : Prop :=
  ∀ (s : State), s.started = true → s.calm = true → LevelKinds s → s.changeDue .bkaux true = true →
    (s.bsq.phase = .energising →
      let l := settleActive .bkaux true s
      let b : State :=
        { l with bsq := { l.bsq with bkClose := false, serving := none }, tmb := { l.tmb with breaker := l.tmb.breaker.stop } }
      let w := setPhase .awaitSync
        (if s.profile = none then b
         else if s.figures.inrushWindow = 0 then
           setClaim s.bsq.firm s.bsq.flex 0 { b with tmb := { b.tmb with inrush := { interval := 0, left := none } } }
         else { b with tmb := { b.tmb with
                  inrush := { interval := s.figures.inrushWindow, left := some s.figures.inrushWindow } } })
      let d := setPhase .deEnergising w
      let p := setPhase .parallel w
      (s.vlp.link = .lost ∨ s.requests .shore = false →
        CompletesAs .auxReadsClosed s
          { d with
            bsq := { d.bsq with bkClose := false, bkOpen := true, serving := some .openCmd }
            tmb := { d.tmb with
              breaker := { interval := s.station.breakerTime, left := some s.station.breakerTime } } }) ∧
      (s.vlp.link ≠ .lost → ∀ r ∈ s.vlp.held, r.request = .shore → r.breakerClosed = true →
        CompletesAs .auxReadsClosed s (if r.generators = .off then setPhase .onShore p else p)) ∧
      (s.vlp.link ≠ .lost → ∀ r ∈ s.vlp.held, r.request = .shore → r.breakerClosed = false →
          CompletesAs .auxReadsClosed s w)) ∧
    (s.bsq.phase = .vacant ∨ s.bsq.phase = .plugged ∨ s.bsq.phase = .queued → s.auxClosed = false →
      let u := takeCause .breakerUncommanded (setClaim s.station.stuckBreakerClaim 0 0 (settleActive .bkaux true s))
      (s.warningActive = false ∧ (s.bsq.phase = .vacant → s.estopActive = false) → CompletesAs .auxReadsClosed s u) ∧
      (s.warningActive = true → s.tru.feederHeld = false → (s.bsq.phase = .vacant → s.estopActive = false) →
        CompletesAs .auxReadsClosed s (takeCause .feederLost u)) ∧
      (s.warningActive = false → s.bsq.phase = .vacant ∧ s.estopActive = true → s.tru.estopHeld = false →
        CompletesAs .auxReadsClosed s (takeCause .estop u)) ∧
      (s.warningActive = true → s.tru.feederHeld = false → s.bsq.phase = .vacant ∧ s.estopActive = true →
        s.tru.estopHeld = false →
        CompletesAs .auxReadsClosed s (takeCause .feederLost (takeCause .estop u)))) ∧
    (∀ r ∈ s.tru.record, s.bsq.phase = .tripped → r.openConfirmed = true → s.auxClosed = false →
      let u := takeCause .breakerUncommanded (setClaim s.station.stuckBreakerClaim 0 0 (settleActive .bkaux true s))
      let v : State :=
        { u with
          tru := { u.tru with record := u.tru.record.map fun r => { r with openConfirmed := false } }
          bsq := { u.bsq with bkClose := false, bkOpen := true, serving := some .openCmd }
          tmb := { u.tmb with breaker := { interval := s.station.breakerTime, left := some s.station.breakerTime } } }
      s.tru.feederHeld = false →
        CompletesAs .auxReadsClosed s (if s.warningActive = true then takeCause .feederLost v else v)) ∧
    (s.bsq.phase = .awaitSync ∨ s.bsq.phase.connected = true ∨ s.bsq.phase = .deEnergising ∨
        (s.bsq.phase = .tripped ∧ s.openConfirmed = false) → s.warningActive = false ∨ s.tru.feederHeld = true →
      CompletesAs (.auxReadsClosed) s
          (settleActive .bkaux true s))

/-- In DE_ENERGISING the open aux releases BKOPEN, stops the breaker and inrush timers, zeroes the claim and enters
PLUGGED, where the entry conditions are evaluated. In AWAIT_SYNC and the connected phases the berth passes through
DE_ENERGISING to the same. In TRIPPED the open is confirmed with the same releases and the claim zeroed. In every
other phase the reset pulse ends where it runs, and nothing more happens. What a reset pulse still running does in
these phases is log entry 15. (01_berth_phases_and_changeover.md sections 1.2, 1.7, 1.9 (R3, R4, R18, R19, R27);
10_trips_and_protection.md section 10.5 (R175)) -/
def Obligations.AuxOpeningCompletesTheOpen : Prop :=
  ∀ (s : State), s.started = true → s.calm = true → s.changeDue .bkaux false = true →
    (let l := settleActive .bkaux false s
     let r : State :=
       if s.bsq.serving = some .resetPulse then
         { l with
           bsq := { l.bsq with bkOpen := false, serving := none }
           tmb := { l.tmb with breaker := l.tmb.breaker.stop } }
       else l
     let release (u : State) : State :=
       { u with
         bsq := { u.bsq with bkOpen := false, serving := none }
         tmb := { u.tmb with breaker := u.tmb.breaker.stop, inrush := u.tmb.inrush.stop } }
     (s.bsq.phase = .deEnergising →
       CompletesAs .auxReadsOpen s (setPhase .plugged (setClaim 0 0 0 (release r))).entered) ∧
     (s.bsq.phase = .awaitSync ∨ s.bsq.phase.connected = true →
       CompletesAs .auxReadsOpen s (setPhase .plugged (setClaim 0 0 0 (release (setPhase .deEnergising r)))).entered) ∧
     (s.bsq.phase = .tripped →
       CompletesAs .auxReadsOpen s
         (setClaim 0 0 0 (release
           { r with tru := { r.tru with record := r.tru.record.map fun x => { x with openConfirmed := true } } }))) ∧
     (s.bsq.phase = .vacant ∨ s.bsq.phase = .plugged ∨ s.bsq.phase = .queued ∨ s.bsq.phase = .energising →
       CompletesAs .auxReadsOpen s r))

/-- ESTOP_CHANGE to active takes cause ESTOP in every phase but VACANT, and settles the line alone in VACANT or to
inactive. FEEDER_WARNING_CHANGE to active takes FEEDER_LOST in ENERGISING or with the aux closed, returns QUEUED to
PLUGGED with the aux open, and settles the line alone otherwise; to inactive it lets a berth in PLUGGED queue where
the entry conditions hold. The level lines have level kinds. (10_trips_and_protection.md section 10.2 (R168, R169);
01_berth_phases_and_changeover.md section 1.4 (R10, R11)) -/
def Obligations.EstopAndFeederWarningTripOrHoldBack : Prop :=
  ∀ (s : State), s.started = true → s.calm = true → LevelKinds s →
    (s.changeDue .estop false = true →
      CompletesAs (.estopChange false) s
          (settleActive .estop false s)) ∧
    (s.changeDue .estop true = true → s.bsq.phase = .vacant →
      CompletesAs (.estopChange true) s
          (settleActive .estop true s)) ∧
    (s.changeDue .estop true = true → s.bsq.phase ≠ .vacant → s.tru.estopHeld = false →
      CompletesAs (.estopChange true) s
          (takeCause .estop (settleActive .estop true s))) ∧
    (s.changeDue .fdrwarn false = true →
      let l := settleActive .fdrwarn false s
      (s.bsq.phase = .plugged → CompletesAs (.feederWarningChange false) s l.entered) ∧
      (s.bsq.phase ≠ .plugged → CompletesAs (.feederWarningChange false) s l)) ∧
    (s.changeDue .fdrwarn true = true →
      let l := settleActive .fdrwarn true s
      (s.bsq.phase = .queued ∧ s.auxClosed = false → CompletesAs (.feederWarningChange true) s (setPhase .plugged l)) ∧
      (s.bsq.phase = .energising ∨ (s.bsq.phase ≠ .queued ∧ s.auxClosed = true) → s.tru.feederHeld = false →
        (s.bsq.phase = .vacant → s.estopActive = false) →
            CompletesAs (.feederWarningChange true) s (takeCause .feederLost l)) ∧
      (s.bsq.phase ≠ .queued ∧ s.bsq.phase ≠ .energising ∧ s.auxClosed = false →
        CompletesAs (.feederWarningChange true) s l))

/-- In STEPPED mode an advance lowers executions remaining and, where none is left, goes to the next record or back
to record 0 and reloads; a restart goes to record 0. In SELECTED mode a select change, with every select line due at
the same boundary (log entry 30), goes to the code on the lines, with the lowest capacity and SELECT_RANGE set beyond
the list. A new period or capacity sets the recompute request and requests an ANNOUNCE. In any other mode only the
line settles. (06_capacity_schedule.md sections 6.3, 6.4, 6.5, 6.6 (R111, R113, R114, R115, R116, R117, R118)) -/
def Obligations.TariffEventsMoveTheSchedule : Prop :=
  ∀ (s : State), s.started = true → s.calm = true →
    (let record (i : Nat) : Period := s.csc.periods.getD i { capacity := 0, executions := 0 }
     let moved (l : State) (c : Csc) : State :=
       if c.index = s.csc.index ∧ c.pc = s.csc.pc then { l with csc := c }
       else { l with csc := c, hre := { l.hre with request := true }, blc := l.blc.requestAnnounce }
     let a := settleLine .tadv (s.nextLevel .tadv) s
     let b := settleLine .trst (s.nextLevel .trst) s
     let goTo (i : Nat) : Csc := { s.csc with index := i, remaining := (record i).executions, pc := (record i).capacity }
     let next := if s.csc.index + 1 < s.csc.periods.length then s.csc.index + 1 else 0
     (s.edgeDue .tadv = true →
       (s.csc.mode = .stepped → 1 < s.csc.remaining →
         CompletesAs .tariffAdvance s { a with csc := { s.csc with remaining := s.csc.remaining - 1 } }) ∧
       (s.csc.mode = .stepped → s.csc.remaining ≤ 1 → CompletesAs .tariffAdvance s (moved a (goTo next))) ∧
       (s.csc.mode ≠ .stepped → CompletesAs .tariffAdvance s a)) ∧
     (s.edgeDue .trst = true →
       (s.csc.mode = .stepped → CompletesAs .tariffRestart s (moved b (goTo 0))) ∧
       (s.csc.mode ≠ .stepped → CompletesAs .tariffRestart s b)) ∧
     (∀ (n : Fin 4) (v : Bool), s.changeDue (.tsel n) v = true →
       let q := qualifySelects (settleActive (.tsel n) v s)
       (s.csc.mode = .selected → q.selectCode.val < s.csc.periods.length →
         CompletesAs (.tariffSelectChange n v) s
           (moved q
             { s.csc with index := q.selectCode.val, pc := (record q.selectCode.val).capacity, selectRange := false })) ∧
       (s.csc.mode = .selected → s.csc.periods.length ≤ q.selectCode.val →
         ∀ lowest : Nat, (∃ p ∈ s.csc.periods, p.capacity = lowest) → (∀ p ∈ s.csc.periods, lowest ≤ p.capacity) →
           CompletesAs (.tariffSelectChange n v) s
             (moved q { s.csc with index := q.selectCode.val, pc := lowest, selectRange := true })) ∧
       (s.csc.mode ≠ .selected → CompletesAs (.tariffSelectChange n v) s q)))

/-- With a record held, the open confirmed, the e-stop and the feeder warning inactive and no draw above the
tolerance, CLEAR_TRIP empties the record and clears the flags. With no pilot the phase becomes VACANT with no
profile; with the pilot the plug code selects the slot, a held record is compared with its expected id and clamped
again, and PLUGGED is entered with its conditions evaluated. BERTH_HOLD with the setting in force only answers; a new
setting is stored, and in PLUGGED the entry conditions are evaluated. That NO_PROFILE and VESSEL_MISMATCH are clear
in VACANT is the model's choice (log entry 9). (10_trips_and_protection.md section 10.6 (R176);
01_berth_phases_and_changeover.md sections 1.4, 1.9 (R9, R10, R29); 08_vessel_link_and_berth_profiles.md sections
8.3, 8.5 (R144, R151)) -/
def Obligations.ClearTripAndBerthHoldAccepted : Prop :=
  ∀ (s : State), s.started = true → s.calm = true →
    (s.tru.record.isSome = true → s.auxClosed = false → s.openConfirmed = true → s.estopActive = false →
        s.warningActive = false → (∀ d ∈ s.currentDraw, d ≤ s.figures.overdrawTolerance) →
      let d : State :=
        { s with
          tru := { s.tru with record := none }
          bsq := { s.bsq with profileCode := none, noProfile := false, vesselMismatch := false, syncAbort := false,
                              parallelForced := false } }
      let v := setPhase .vacant (formClamps d)
      let q : State :=
        { d with bsq := { d.bsq with
            profileCode := some s.plugCode
            noProfile := s.vlp.slots[s.plugCode].isNone
            vesselMismatch := s.vlp.held.any fun r => s.vlp.slots[s.plugCode].any fun p => p.expectedId.any (· != r.vesselId) } }
      let p := (setPhase .plugged (formClamps q)).entered
      (s.pilotActive = false → CompletesAs .clearTrip s { v with svp := v.svp.answered 10 .accepted [] }) ∧
      (s.pilotActive = true → CompletesAs .clearTrip s { p with svp := p.svp.answered 10 .accepted [] })) ∧
    (∀ code : Nat, code ≤ 1 → s.bsq.hostHold = decide (code = 1) →
      exec (.berthHold code) s = .next { s with svp := s.svp.answered 12 .accepted [] }) ∧
    (∀ code : Nat, code ≤ 1 → s.bsq.hostHold ≠ decide (code = 1) →
      let h : State := { s with bsq := { s.bsq with hostHold := decide (code = 1) } }
      let e := if s.bsq.phase = .plugged then h.entered else h
      CompletesAs (.berthHold code) s { e with svp := e.svp.answered 12 .accepted [] })

/-- A set changed bit requests a recompute, and takes a QUEUED reserve back to NONE; its RESERVE leaves the queue
where it waits, and stays there marked abandoned until its collided transmission ends (R122, R124; log entry 16). An
accepted FORGET_PEER empties the entry. A SILENT entry due an ageing step loses its heard mark and its age, or is
emptied at the forget interval, or grows one second older. A reserved field due an age step grows one older, or is
folded into the claim part of its class, saturating at 16383 kW, at the third. Emptying and folding set the changed
bit; steps that are not due change nothing (log entry 19). (02_peer_view_table.md sections 2.4, 2.5, 2.6 (R43, R47,
R49, R50); 03_raise_reservation.md sections 3.1, 3.5 (R54, R66, R67); 07_berth_link.md section 7.2 (R122, R124)) -/
def Obligations.ChangedBitsDropAQueuedReserve : Prop :=
  ∀ (s : State), s.started = true → s.calm = true →
    ((s.rsu.state = .queued →
       tableChanged s =
         { s with
           rsu := { s.rsu with state := .none, amount := 0, cls := none }
           blc := s.blc.abandonReserve
           hre := { s.hre with request := true } }) ∧
     (s.rsu.state ≠ .queued → tableChanged s = { s with hre := { s.hre with request := true } })) ∧
    (∀ a : Address, s.pvt[a].standing = .live ∨ s.pvt[a].standing = .silent →
      let u := tableChanged { s with pvt := s.pvt.set a { PeerEntry.blank with changed := true } }
      CompletesAs (.forgetPeer a.val) s { u with svp := u.svp.answered 11 .accepted [] }) ∧
    (∀ a : Address, s.pvt[a].standing = .silent → 1000 ≤ s.pvt[a].silentElapsed →
      let e := s.pvt[a]
      (e.heard = true →
        CompletesAs (.silentAgeingStep a) s
          { s with pvt := s.pvt.set a { e with heard := false, silentAge := 0, silentElapsed := 0 } }) ∧
      (e.heard = false → e.silentAge + 1 < s.station.forgetInterval →
        CompletesAs (.silentAgeingStep a) s
          { s with pvt := s.pvt.set a { e with silentAge := e.silentAge + 1, silentElapsed := 0 } }) ∧
      (e.heard = false → s.station.forgetInterval ≤ e.silentAge + 1 →
        CompletesAs (.silentAgeingStep a) s
          (tableChanged { s with pvt := s.pvt.set a { PeerEntry.blank with changed := true } }))) ∧
    (∀ a : Address, ¬(s.pvt[a].standing = .silent ∧ 1000 ≤ s.pvt[a].silentElapsed) →
      exec (.silentAgeingStep a) s = .next s) ∧
    (∀ a : Address, s.pvt[a].standing = .live ∨ s.pvt[a].standing = .silent →
      let e := s.pvt[a]
      ∀ r ∈ s.pvt[a].reserved, s.station.holdWindow ≤ r.elapsed →
        (r.age + 1 < 3 →
          CompletesAs (.reservedFieldAgeStep a) s
            { s with pvt := s.pvt.set a { e with reserved := some { r with age := r.age + 1, elapsed := 0 } } }) ∧
        (3 ≤ r.age + 1 → r.cls = .flexRaise →
          let x : PeerEntry := { e with flex := min 16383 (e.flex + r.amount), reserved := none, changed := true }
          CompletesAs (.reservedFieldAgeStep a) s (tableChanged { s with pvt := s.pvt.set a x })) ∧
        (3 ≤ r.age + 1 → r.cls = .firmEnergise →
          let x : PeerEntry := { e with firm := min 16383 (e.firm + r.amount), reserved := none, changed := true }
          CompletesAs (.reservedFieldAgeStep a) s (tableChanged { s with pvt := s.pvt.set a x }))) ∧
    (∀ a : Address, (s.pvt[a].standing ≠ .live ∧ s.pvt[a].standing ≠ .silent) ∨
        (∀ r ∈ s.pvt[a].reserved, r.elapsed < s.station.holdWindow) →
      exec (.reservedFieldAgeStep a) s = .next s)

/-- What is judged is what the levels on VRX assemble to, the data bits having the berth link's levels (the model's
choice, log entry 32). Levels that are not those of a record to its end, a framing error, a length other than 12
bytes, a wrong check, the vessel id 0, a request code above 2, a breaker code above 1 or a generators code above 2, a
record in CONFIG and the combination of R137 change nothing; any other is read field for field. The clamps of the
held record are formed from the profile in use, DEMAND_CLAMPED raises its reason when it becomes set, and a changed
clamped demand requests a recompute. In VACANT, ENERGISING, DE_ENERGISING and TRIPPED a valid record does what it
does in every phase and no more; what it moves in the other six phases is stated apart.
(08_vessel_link_and_berth_profiles.md sections 8.1, 8.2, 8.3 (R135 to R139, R141 to R144); 05_grant_output_stage.md
section 5.4 (R99); 01_berth_phases_and_changeover.md section 1.7 (R20); 12_formats.md opening and section 12.2 (R188,
R190)) -/
def Obligations.ShipRecordsAreJudgedAndTaken : Prop :=
  ∀ (levels : List Level) (s : State),
    (let rx := assemble levels
     let b (i : Nat) : Nat := (rx.bytes.getD i 0).toNat
     let w (i : Nat) : Nat := b i + 256 * b (i + 1)
     let faulty := wholeRecord levels = false ∨ rx.framingError = true ∨ rx.bytes.length ≠ 12 ∨
         checkGood rx.bytes = false
     let outside := w 0 = 0 ∨ 2 < b 2 ∨ 1 < b 3 % 4 ∨ 2 < b 3 / 16 % 4
     (faulty ∨ outside → shipRecordIn levels = none ∧ exec (.shipStatusRecord levels) s = .next s) ∧
     (¬faulty → ¬outside →
       shipRecordIn levels = some
         { vesselId := w 0, request := if b 2 = 0 then .none else if b 2 = 1 then .shore else .back
           breakerClosed := decide (b 3 % 4 = 1)
           generators := if b 3 / 16 % 4 = 0 then .online else if b 3 / 16 % 4 = 1 then .syncing else .off
           firmDemand := w 4, flexDemand := w 6, echo := w 8 })) ∧
    (s.svp.mode = .config →
      exec (.shipStatusRecord levels) s = .next s) ∧
    (∀ r ∈ shipRecordIn levels, s.bsq.phase = .queued → r.breakerClosed = true → r.generators = .syncing →
      exec (.shipStatusRecord levels) s = .next s) ∧
    (let firm : Nat :=
       match s.vlp.held, s.profile with
       | some r, some p => min p.maxFirm (max p.minFirm (min 16383 r.firmDemand))
       | some r, none   => min 16383 r.firmDemand
       | none, _        => 0
     let flex : Nat :=
       match s.vlp.held, s.profile with
       | some r, some p => min p.maxFlex (min 16383 r.flexDemand)
       | some r, none   => min 16383 r.flexDemand
       | none, _        => 0
     let clamped := s.vlp.held.any fun r => r.firmDemand != firm || r.flexDemand != flex
     let raised := clamped && !s.vlp.demandClamped
     formClamps s =
       { s with
         vlp := { s.vlp with clampedFirm := firm, clampedFlex := flex, demandClamped := clamped }
         hre := { s.hre with request := s.hre.request || firm != s.vlp.clampedFirm || flex != s.vlp.clampedFlex }
         svp := { s.svp with
           attention := { s.svp.attention with demandClamped := s.svp.attention.demandClamped || raised }
           attn := s.svp.attn || raised } }) ∧
    (∀ r ∈ shipRecordIn levels, s.started = true → s.calm = true →
        s.bsq.phase = .vacant ∨ s.bsq.phase = .energising ∨ s.bsq.phase = .deEnergising ∨ s.bsq.phase = .tripped →
      CompletesAs (.shipStatusRecord levels) s
          (s.heard r))

/-- In PLUGGED a valid record sets VESSEL_MISMATCH by the expected id of the profile, where it has one, and the entry
conditions are evaluated. In QUEUED it judges the id the same way, and with a request other than SHORE or a mismatch
the phase returns to PLUGGED, from which the conditions do not let it queue. The record is the one that the levels on
VRX carry (log entry 32). (01_berth_phases_and_changeover.md sections 1.3, 1.4, 1.7 (R8, R10, R11, R20);
08_vessel_link_and_berth_profiles.md section 8.5 (R151)) -/
def Obligations.ShipRecordsQueueAndReturnTheBerth : Prop :=
  ∀ (levels : List Level) (s : State), s.started = true → s.calm = true →
    (∀ r ∈ shipRecordIn levels, let h := s.heard r
     let v : State :=
       { h with bsq := { h.bsq with
           vesselMismatch := match s.figures.expectedId with
             | some id => r.vesselId != id
             | none    => s.bsq.vesselMismatch } }
     let back := setPhase .plugged v
     (s.bsq.phase = .plugged → CompletesAs (.shipStatusRecord levels) s v.entered) ∧
     (s.bsq.phase = .queued → ¬(r.breakerClosed = true ∧ r.generators = .syncing) →
       (r.request ≠ .shore ∨ v.bsq.vesselMismatch = true → CompletesAs (.shipStatusRecord levels) s back) ∧
       (r.request = .shore → v.bsq.vesselMismatch = false → CompletesAs (.shipStatusRecord levels) s v)))

/-- In AWAIT_SYNC a request changed to other than SHORE de-energises the berth; otherwise a ship breaker changed to
CLOSED leads to PARALLEL, or ON_SHORE with the generators OFF; otherwise SYNCING retriggers the sync window. In
PARALLEL and ON_SHORE a request changed to other than SHORE leads to TRANSFER_BACK, and then a breaker changed to
OPEN de-energises; otherwise generators changed to OFF lead from PARALLEL to ON_SHORE. In TRANSFER_BACK a breaker
changed to OPEN de-energises. The first record counts as changed in every field. That a field not marked changed
moves no phase is log entry 17. The record is the one that the levels on VRX carry (log entry 32).
(01_berth_phases_and_changeover.md sections 1.5, 1.6 (R14 to R17); 08_vessel_link_and_berth_profiles.md section 8.3
(R142)) -/
def Obligations.ShipRecordsMoveTheChangeover : Prop :=
  ∀ (levels : List Level) (s : State), s.started = true → s.calm = true →
    (∀ r ∈ shipRecordIn levels, let h := s.heard r
     let asks := r.request ≠ .shore ∧ ∀ x ∈ s.vlp.held, x.request ≠ r.request
     let closes := r.breakerClosed = true ∧ ∀ x ∈ s.vlp.held, x.breakerClosed = false
     let opens := r.breakerClosed = false ∧ ∀ x ∈ s.vlp.held, x.breakerClosed = true
     let stops := r.generators = .off ∧ ∀ x ∈ s.vlp.held, x.generators ≠ .off
     let p := setPhase .parallel h
     let b := setPhase .transferBack h
     (s.bsq.phase = .awaitSync →
       (asks → CompletesAs (.shipStatusRecord levels) s h.deEnergised) ∧
       (¬asks → closes → CompletesAs (.shipStatusRecord levels) s (if r.generators = .off then setPhase .onShore p else p)) ∧
       (¬asks → ¬closes → r.generators = .syncing → s.profile ≠ none →
         CompletesAs (.shipStatusRecord levels) s
           { h with tmb := { h.tmb with
               sync := { interval := s.figures.syncWindow * 1000, left := some (s.figures.syncWindow * 1000) } } }) ∧
       (¬asks → ¬closes → r.generators ≠ .syncing → CompletesAs (.shipStatusRecord levels) s h)) ∧
     (s.bsq.phase = .parallel ∨ s.bsq.phase = .onShore →
       (asks → opens → CompletesAs (.shipStatusRecord levels) s b.deEnergised) ∧
       (asks → ¬opens → CompletesAs (.shipStatusRecord levels) s b) ∧
       (¬asks → opens → CompletesAs (.shipStatusRecord levels) s h.deEnergised) ∧
       (¬asks → ¬opens → s.bsq.phase = .parallel → stops →
           CompletesAs (.shipStatusRecord levels) s (setPhase .onShore h)) ∧
       (¬asks → ¬opens → s.bsq.phase = .onShore ∨ ¬stops → CompletesAs (.shipStatusRecord levels) s h)) ∧
     (s.bsq.phase = .transferBack →
       (opens → CompletesAs (.shipStatusRecord levels) s h.deEnergised) ∧
       (¬opens → CompletesAs (.shipStatusRecord levels) s h)))

/-- Sixteen bits, bit 15 first, become the draw; in LISTEN and RUN the meter is fresh again and the meter-stale timer
runs its whole interval, and in CONFIG nothing else changes. Any other number of bits changes nothing. At the expiry
of the meter-stale timer the meter is stale, so that no draw is offered, the timer stops and the reason is raised; an
expiry that is not due changes nothing (log entry 19). (09_line_inputs_meter_port_and_timer_bank.md section 9.4
(R159, R160, R161); 11_service_port_and_start_up.md section 11.6 (R185)) -/
def Obligations.MeterSamplesAndTheirStaleness : Prop :=
  ∀ (s : State),
    (∀ d : Nat, s.started = true → s.calm = true → d < 65536 →
      CompletesAs (.meterSample ((List.range 16).map fun i => d.testBit (15 - i))) s
          ({ s with
            mtp := { s.mtp with draw := some d, stale := false }
            tmb := { s.tmb with
              meterStale := { interval := s.station.meterStaleInterval, left := some s.station.meterStaleInterval } } })) ∧
    (∀ d : Nat, s.started = false → d < 65536 →
      exec (.meterSample ((List.range 16).map fun i => d.testBit (15 - i))) s =
        .next { s with mtp := { s.mtp with draw := some d } }) ∧
    (∀ bits : List Bool, bits.length ≠ 16 →
      exec (.meterSample bits) s = .next s) ∧
    (s.started = true → s.calm = true → s.tmb.meterStale.left = some 0 →
      CompletesAs (.meterStaleExpiry) s
          ({ s with
            mtp := { s.mtp with stale := true }
            tmb := { s.tmb with meterStale := s.tmb.meterStale.stop }
            svp := { s.svp with attention := { s.svp.attention with meterStale := true }, attn := true } })) ∧
    (s.tmb.meterStale.left ≠ some 0 →
      exec .meterStaleExpiry s = .next s) ∧
    (s.currentDraw = if s.mtp.stale = true then none else s.mtp.draw)

/-- At the end of a reference word the update count rises modulo 256, and a new word with the present A starts where
the word sent another, the port going idle otherwise. A berth status record ends in the gap; at the gap's end the
next one starts where the content differs from the last sent or the status interval has passed, and the sender goes
idle otherwise. With the sender idle in LISTEN and RUN the interval starts one. Each changes nothing else, and
nothing at all where it is not due (log entry 19). VTX runs through the 80 levels of the record last started while it
is sent, through the 20 released bit times of the gap after it, and is released with the sender idle. That the data
bits of this link have the berth link's levels is the model's choice, log entry 32. (05_grant_output_stage.md section
5.8 (R105); 08_vessel_link_and_berth_profiles.md sections 8.1, 8.4 (R134, R135, R147); 12_formats.md section 12.5
(R194)) -/
def Obligations.OutputPortsSendTheLatestFields : Prop :=
  ∀ (s : State),
    ((s.gos.port = .idle → exec .referenceWordEnd s = .next s) ∧
     (∀ g c, s.gos.port = .sending g c →
       let n := (s.gos.updateCount + 1) % 256
       exec .referenceWordEnd s = .next { s with gos := { s.gos with
         updateCount := n, port := if s.gos.applied = g then .idle else .sending s.gos.applied n } })) ∧
    (let sent : State := { s with vlp := { s.vlp with sender := .sending, statusCount := 0, lastSent := some s.statusNow } }
     (s.started = true ∧ s.vlp.sender = .idle ∧ 50 ≤ s.vlp.statusCount → exec .statusIntervalReached s = .next sent) ∧
     (¬(s.started = true ∧ s.vlp.sender = .idle ∧ 50 ≤ s.vlp.statusCount) → exec .statusIntervalReached s = .next s) ∧
     (s.vlp.sender = .sending →
       exec .berthStatusRecordEnd s = .next { s with vlp := { s.vlp with sender := .gap } }) ∧
     (s.vlp.sender ≠ .sending → exec .berthStatusRecordEnd s = .next s) ∧
     (s.vlp.sender = .gap → s.vlp.lastSent ≠ some s.statusNow ∨ 50 ≤ s.vlp.statusCount →
       exec .statusRecordGapEnd s = .next sent) ∧
     (s.vlp.sender = .gap → s.vlp.lastSent = some s.statusNow → s.vlp.statusCount < 50 →
       exec .statusRecordGapEnd s = .next { s with vlp := { s.vlp with sender := .idle } }) ∧
     (s.vlp.sender ≠ .gap → exec .statusRecordGapEnd s = .next s)) ∧
    ((∀ b ∈ s.vlp.lastSent, s.vlp.sender = .sending →
       s.vlp.vtxRun = b.bytes.flatMap charLevels ∧ s.vlp.vtxRun.length = 80) ∧
     (s.vlp.sender = .gap → s.vlp.vtxRun = List.replicate 20 false) ∧
     (∀ n, s.vlp.vtx n = s.vlp.vtxRun.getD n false) ∧
     (s.vlp.sender ≠ .sending → ∀ n, s.vlp.vtx n = false))

/-- What is judged is what the levels of the transmission assemble to. A framing error, fewer than three bytes or a
wrong check fail it, and a station in HOLD in RUN drives the slot. A good one that is no ANNOUNCE, RESERVE or
WITHDRAW of its length with every field in its range is discarded, with the slot undriven. A frame from the own
address, in LISTEN and RUN, finds the address conflict: the reason is raised once and a QUEUED reserve goes. Any
other frame is buffered with its fields, with whether it was received in CONFIG (log entry 11), and a station in HOLD
in RUN drives the slot of a RESERVE. Where no transmission of another station is on the pair, or the levels are not
those of one to its end, nothing changes (log entries 4 and 19). (07_berth_link.md sections 7.1, 7.5, 7.6, 7.7 (R120,
R121, R129 to R132); 03_raise_reservation.md sections 3.3, 3.4 (R62, R63); 12_formats.md opening and section 12.1
(R188, R189)) -/
def Obligations.ReceivedTransmissionsAreJudgedAtTheirEnd : Prop :=
  ∀ (levels : List Level) (s : State),
    (s.blc.link ≠ .foreign ∨ wholeTransmission levels = false →
      exec (.receivedTransmissionEnd levels) s = .next s) ∧
    (s.blc.link = .foreign → wholeTransmission levels = true →
      let rx := assemble levels
      let b (i : Nat) : Nat := (rx.bytes.getD i 0).toNat
      let w (i : Nat) : Nat := b i + 256 * b (i + 1)
      let bit (i : Nat) : Bool := decide (b 10 / 2 ^ i % 2 = 1)
      let whole := rx.framingError = false ∧ 3 ≤ rx.bytes.length ∧ checkGood rx.bytes = true
      let isAnnounce := rx.bytes.length = 13 ∧ b 0 / 16 = 1 ∧ b 1 % 16 ≤ 9 ∧ w 2 ≤ 16383 ∧ w 4 ≤ 16383 ∧ w 6 ≤ 4095 ∧
        w 8 ≤ 60000
      let isReserve := rx.bytes.length = 6 ∧ b 0 / 16 = 2 ∧ w 1 ≤ 16383 ∧ (b 3 = 1 ∨ b 3 = 2)
      let isWithdraw := rx.bytes.length = 3 ∧ b 0 / 16 = 3
      let sender : Address := Fin.ofNat 16 (b 0 % 16)
      let f : Frame :=
        if isAnnounce then
          .announce sender
            { phaseCode := b 1 % 16, periodIndex := b 1 / 16, firm := w 2, flex := w 4, transient := w 6, capacity := w 8,
              tripped := bit 0, firmOverload := bit 1, listening := bit 2 }
        else if isReserve then .reserve sender (w 1) (if b 3 = 1 then .firmEnergise else .flexRaise)
        else .withdraw sender
      let objects := decide (s.svp.mode = .run ∧ s.rsu.state = .hold)
      let slot (driving : Bool) (x : Option RxFrame) : State :=
        { s with blc := { s.blc with link := .slot driving 16, idleCount := 0, rx := x } }
      let found : State :=
        { slot false none with
          blc := { (slot false none).blc with conflict := true }
          svp := { s.svp with attention := { s.svp.attention with addressConflict := true }, attn := true } }
      let ends (u : State) : Prop :=
        (s.started = false → exec (.receivedTransmissionEnd levels) s = .next u) ∧
        (s.started = true → s.calm = true → CompletesAs (.receivedTransmissionEnd levels) s u)
      (¬whole → ends (slot objects none)) ∧
      (whole → ¬isAnnounce → ¬isReserve → ¬isWithdraw → ends (slot false none)) ∧
      (whole → isAnnounce ∨ isReserve ∨ isWithdraw →
        (s.started = false ∨ sender ≠ s.ownAddress →
          ends (slot (objects && decide isReserve) (some { frame := f, inConfig := !s.started }))) ∧
        (s.started = true ∧ sender = s.ownAddress →
          (s.blc.conflict = true → ends (slot false none)) ∧
          (s.blc.conflict = false → s.rsu.state ≠ .queued → ends found) ∧
          (s.blc.conflict = false → s.rsu.state = .queued →
            ends { found with
              rsu := { s.rsu with state := .none, amount := 0, cls := none }, blc := found.blc.abandonReserve }))))

/-- A buffered frame leaves the buffer at the end of its slot, once the sixteen bit times have passed. It is handed
on in LISTEN and RUN if received there and not from the own address. An ANNOUNCE makes the entry LIVE with its
figures and drops a reserved field, setting the changed bit where the entry was not LIVE, held a reserved field or a
figure differs. A quiet RESERVE, whose slot the station does not drive and reads driven at fewer than four of its bit
times 5 to 12, makes the entry LIVE with the new reserved field, an earlier one folded in; any other only marks a
known entry heard. A WITHDRAW drops the reserved field of a known entry. That a frame received in CONFIG is not
handed on is log entry 11. A command before that, or with no frame of its kind in the buffer, changes nothing (log
entry 19). (02_peer_view_table.md sections 2.3, 2.4, 2.5 (R36 to R43, R48); 03_raise_reservation.md section 3.5 (R64,
R65, R68); 07_berth_link.md sections 7.5, 7.6 (R129, R131)) -/
def Obligations.ReceivedFramesEnterTheTable : Prop :=
  ∀ (levels : SlotLevels) (s : State),
    (∀ (d : Bool) (r : RxFrame), s.blc.link = .slot d 0 → s.blc.rx = some r →
      let a := r.frame.sender
      let w : State := { s with blc := { s.blc with link := .idle, idleCount := 0, rx := none } }
      let e := s.pvt[a]
      let known := e.standing = .live ∨ e.standing = .silent
      let put (x : PeerEntry) : State := { w with pvt := s.pvt.set a x }
      let c : Instr :=
        match r.frame with
        | .announce _ _  => .announceReceived
        | .reserve _ _ _ => .reserveReceived levels
        | .withdraw _    => .withdrawReceived
      let samples : List Level :=
        [levels[4], levels[5], levels[6], levels[7], levels[8], levels[9], levels[10], levels[11]]
      let quiet := d = false ∧ (samples.filter id).length < 4
      (s.started = false → exec c s = .next w) ∧
      (s.started = true → s.calm = true →
        (r.inConfig = true ∨ a = s.ownAddress → CompletesAs c s w) ∧
        (r.inConfig = false → a ≠ s.ownAddress →
          (∀ f, r.frame = .announce a f →
            let new : PeerEntry :=
              { standing := .live, phaseCode := some f.phaseCode, firm := f.firm, flex := f.flex, transient := f.transient,
                periodIndex := some f.periodIndex, capacity := some f.capacity, tripped := f.tripped,
                firmOverload := f.firmOverload, listening := f.listening, reserved := none, heard := true,
                changed := e.changed, missed := 0, silentAge := 0, silentElapsed := 0 }
            let same := e.standing = .live ∧ e.firm = f.firm ∧ e.flex = f.flex ∧ e.transient = f.transient ∧
              e.capacity = some f.capacity ∧ e.listening = f.listening ∧ e.reserved = none
            (same → CompletesAs c s (put new)) ∧
            (¬same → CompletesAs c s (tableChanged (put { new with changed := true })))) ∧
          (∀ n k, r.frame = .reserve a n k →
            (¬quiet → CompletesAs c s (put (if known then { e with heard := true } else e))) ∧
            (quiet → CompletesAs c s (tableChanged (put
              { (if e.standing = .empty then PeerEntry.blank else e.fold) with
                standing := .live, heard := true, missed := 0, silentAge := 0, silentElapsed := 0, changed := true
                reserved := some { amount := n, cls := k, age := 0, elapsed := 0 } })))) ∧
          (r.frame = .withdraw a →
            (¬known → CompletesAs c s w) ∧
            (known → e.reserved = none → CompletesAs c s (put { e with heard := true })) ∧
            (known → e.reserved ≠ none →
              CompletesAs c s (tableChanged (put { e with heard := true, reserved := none, changed := true }))))))) ∧
    (((∀ d, s.blc.link ≠ .slot d 0) → exec .announceReceived s = .next s ∧ exec (.reserveReceived levels) s = .next s ∧
       exec .withdrawReceived s = .next s) ∧
     ((∀ r ∈ s.blc.rx, ∀ a f, r.frame ≠ .announce a f) → exec .announceReceived s = .next s) ∧
     ((∀ r ∈ s.blc.rx, ∀ a n k, r.frame ≠ .reserve a n k) → exec (.reserveReceived levels) s = .next s) ∧
     ((∀ r ∈ s.blc.rx, ∀ a, r.frame ≠ .withdraw a) → exec .withdrawReceived s = .next s))

/-- In LISTEN and RUN with the pair idle outside any slot and the idle count at the head's access wait, 48 bit times
or the collision backoff of the own address after a collision, ATTEMPT_START begins its attempt: an ANNOUNCE with the
fields the own entry shows, a RESERVE with its amount and class, which takes the own reserve into SENT, or a
WITHDRAW. Before the wait has passed, with the pair in use or in a slot, with the queue empty, or in CONFIG it
changes nothing. TRANSMISSION_BEGINS, a bit time driven by another station, on an idle pair marks it as another's,
after the own frame or the own jam starts the released run that ends the transmission anew, and changes nothing in
any other transmission or a slot. That a command which is not due changes nothing is log entry 19. (07_berth_link.md
sections 7.1, 7.2, 7.3 (R121, R123 to R126); 03_raise_reservation.md section 3.1 (R55); 12_formats.md section 12.1
(R189)) -/
def Obligations.AttemptsSendTheHeadFrame : Prop :=
  ∀ (s : State),
    (∀ (e : TxEntry) (rest : List TxEntry), s.blc.queue = e :: rest → s.started = true → s.calm = true →
        s.blc.link = .idle → (if e.collisions = 0 then 48 else (s.ownAddress.val + 1) * 64 + 48) ≤ s.blc.idleCount →
      let o := s.ownEntry
      let f : Frame :=
        match e.content with
        | .announce =>
          .announce s.ownAddress
            { phaseCode := o.phaseCode.getD 0, periodIndex := o.periodIndex.getD 0, firm := o.firm, flex := o.flex,
              transient := o.transient, capacity := o.capacity.getD 0, tripped := o.tripped,
              firmOverload := o.firmOverload,
              listening := o.listening }
        | .reserve n c => .reserve s.ownAddress n c
        | .withdraw    => .withdraw s.ownAddress
      CompletesAs .attemptStart s
        { s with
          blc := { s.blc with link := .own 0, idleCount := 0, onWire := some f }
          rsu := { s.rsu with state := if e.content.code = 2 then .sent else s.rsu.state } }) ∧
    (∀ (e : TxEntry) (rest : List TxEntry), s.blc.queue = e :: rest →
        s.blc.idleCount < (if e.collisions = 0 then 48 else (s.ownAddress.val + 1) * 64 + 48) →
      exec .attemptStart s = .next s) ∧
    (s.started = false ∨ s.blc.queue = [] ∨ s.blc.link ≠ .idle →
      exec .attemptStart s = .next s) ∧
    (s.blc.link = .idle →
      exec .transmissionBegins s = .next { s with blc := { s.blc with link := .foreign, idleCount := 0 } }) ∧
    (∀ (r : Nat), s.blc.link = .ending r →
      exec .transmissionBegins s = .next { s with blc := { s.blc with link := .ending 0 } }) ∧
    (∀ (r : Nat), s.blc.link = .collided r →
      exec .transmissionBegins s = .next { s with blc := { s.blc with link := .collided (if r < 10 then 0 else r) } }) ∧
    (s.blc.link ≠ .idle → (∀ r, s.blc.link ≠ .ending r) → (∀ r, s.blc.link ≠ .collided r) →
      exec .transmissionBegins s = .next s)

/-- The pair reads driven where this station or another drives it. A released bit of the own frame that reads driven
is a collision and ends the attempt: the jam of 16 bit times begins, the bit time of the mismatch its first (the
model's choice, log entry 33), the head frame counts it, and a SENT reserve whose frame it is returns to QUEUED. At
the end of the collided transmission, with the tenth released bit time after the jam, an abandoned RESERVE leaves the
queue; a frame with sixteen collisions raises LINK_CONGESTED and leaves it, a RESERVE taking the own reserve to NONE
with a recompute request, a marked ANNOUNCE going to the tail; any other frame stays at the head with its mark clear.
A wanted reserve refused for the frame is asked for again as it leaves. That a RESERVE at its sixteenth collision is
QUEUED until the drop is log entry 16; that a level read back with no mismatch, and an end that has not come, change
nothing is log entry 19. (07_berth_link.md sections 7.1, 7.3 (R120, R121, R126, R127); 03_raise_reservation.md
sections 3.1, 3.3, 3.6 (R53, R55, R62, R69); 07_berth_link.md section 7.2 (R123, R124);
11_service_port_and_start_up.md section 11.6 (R185)) -/
def Obligations.CollidedAttemptsRetryOrAreDropped : Prop :=
  ∀ (s : State), s.started = true → s.calm = true →
    (∀ (e : TxEntry) (rest : List TxEntry) (i : Nat) (f : Frame), s.blc.queue = e :: rest → s.blc.link = .own i →
        s.blc.onWire = some f → f.levels[i]? = some false →
      CompletesAs (.collision) s
          ({ s with
            blc := { s.blc with
              link := .jam 16, onWire := none
              queue := { e with collisions := e.collisions + 1
                                refresh := e.refresh && decide (16 ≤ e.collisions + 1) } :: rest }
            rsu := { s.rsu with state := if s.rsu.state = .sent ∧ e.content.code = 2 then .queued else s.rsu.state } })) ∧
    (∀ (others : Level), (s.blc.pair others = true ↔ s.blc.drives = true ∨ others = true)) ∧
    (s.blc.queue = [] ∨ (∀ i, s.blc.link ≠ .own i) →
      exec .collision s = .next s) ∧
    (∀ (i : Nat) (f : Frame), s.blc.link = .own i → s.blc.onWire = some f → f.levels[i]? = some true →
      exec .collision s = .next s) ∧
    (∀ (e : TxEntry) (rest : List TxEntry) (r : Nat), s.blc.queue = e :: rest → s.blc.link = .collided r → 10 ≤ r →
      let w (q : List TxEntry) : State :=
        { s with blc := { s.blc with link := .slot false 16, idleCount := 0, queue := q } }
      let congested (u : State) : State :=
        { u with svp := { s.svp with attention := { s.svp.attention with linkCongested := true }, attn := true } }
      let none (u : State) : State :=
        { u with rsu := { s.rsu with state := .none, amount := 0, cls := none }, hre := { s.hre with request := true } }
      let release (u : State) : State :=
        if s.rsu.refusedOnLink = true then
          { u with rsu := { u.rsu with refusedOnLink := false }, hre := { u.hre with request := true } }
        else u

      (e.content.code = 2 → e.abandoned = true → CompletesAs .collidedTransmissionEnd s (release (w rest))) ∧
      (e.collisions < 16 → ¬(e.content.code = 2 ∧ e.abandoned = true) →
        CompletesAs .collidedTransmissionEnd s (w ({ e with refresh := false } :: rest))) ∧
      (16 ≤ e.collisions → e.content.code = 2 → e.abandoned = false →
        CompletesAs .collidedTransmissionEnd s (release (none (congested (w rest))))) ∧
      (16 ≤ e.collisions → e.content = .announce → e.refresh = true →
        CompletesAs .collidedTransmissionEnd s (congested (w (rest ++ [{ e with collisions := 0, refresh := false }])))) ∧
      (16 ≤ e.collisions → e.content = .withdraw ∨ (e.content = .announce ∧ e.refresh = false) →
        CompletesAs .collidedTransmissionEnd s (congested (w rest)))) ∧
    (s.blc.queue = [] ∨ (∀ r, s.blc.link ≠ .collided r) →
      exec .collidedTransmissionEnd s = .next s) ∧
    (∀ (r : Nat), s.blc.link = .collided r → r < 10 →
      exec .collidedTransmissionEnd s = .next s)

/-- At the end of the slot after an own frame, once its sixteen bit times have passed, the pair is idle and the frame
leaves the queue, a marked ANNOUNCE going to the tail with its mark clear. A RESERVE that is SENT and not abandoned
enters HOLD with the hold window where the pair is driven at fewer than four of the slot's bit times 5 to 12, and
BACKOFF with the backoff time of one unit for each address step where it is driven at four or more. A wanted reserve
refused for the frame is asked for again. Before that, and with no own slot in progress, nothing changes (log entry
19). (07_berth_link.md sections 7.2, 7.4, 7.5 (R123, R124, R128, R129); 03_raise_reservation.md sections 3.1, 3.3
(R53, R56, R57, R61)) -/
def Obligations.OwnSlotsSettleTheSentFrame : Prop :=
  ∀ (levels : SlotLevels) (s : State), s.started = true → s.calm = true →
    (∀ (e : TxEntry) (rest : List TxEntry), s.blc.queue = e :: rest → s.blc.link = .ownSlot 0 →
      let w (q : List TxEntry) : State :=
        { s with blc := { s.blc with link := .idle, idleCount := 0, onWire := none, queue := q } }
      let samples : List Level :=
        [levels[4], levels[5], levels[6], levels[7], levels[8], levels[9], levels[10], levels[11]]
      let driven := 4 ≤ (samples.filter id).length
      let backoff := (s.ownAddress.val + 1) * s.station.reserveBackoffUnit
      let release (u : State) : State :=
        if s.rsu.refusedOnLink = true then
          { u with rsu := { u.rsu with refusedOnLink := false }, hre := { u.hre with request := true } }
        else u

      (e.content = .announce → e.refresh = true →
        CompletesAs (.ownSlotEnd levels) s (w (rest ++ [{ e with collisions := 0, refresh := false }]))) ∧
      (e.content = .withdraw ∨ (e.content = .announce ∧ e.refresh = false) →
        CompletesAs (.ownSlotEnd levels) s (w rest)) ∧
      (e.content.code = 2 → e.abandoned = true ∨ s.rsu.state ≠ .sent →
        CompletesAs (.ownSlotEnd levels) s (release (w rest))) ∧
      (e.content.code = 2 → e.abandoned = false → s.rsu.state = .sent → ¬driven →
        CompletesAs (.ownSlotEnd levels) s
          (release { w rest with
            rsu := { s.rsu with state := .hold }
            tmb := { s.tmb with hold := { interval := s.station.holdWindow, left := some s.station.holdWindow } } })) ∧
      (e.content.code = 2 → e.abandoned = false → s.rsu.state = .sent → driven →
        CompletesAs (.ownSlotEnd levels) s
          (release { w rest with
            rsu := { s.rsu with state := .backoff }
            tmb := { s.tmb with reserveBackoff := { interval := backoff, left := some backoff } } }))) ∧
    (s.blc.link ≠ .ownSlot 0 ∨ s.blc.queue = [] →
      exec (.ownSlotEnd levels) s = .next s)

/-- At its expiry the announce timer runs anew, an ANNOUNCE is requested, a LIVE entry heard since the last check has
its mark and misses cleared, one not heard counts a miss and turns SILENT at the third, setting its changed bit, and
a cut settle count above 0 falls by one and requests a recompute on reaching 0. At listen expiry the mode is RUN, the
timer stops, an ANNOUNCE and a recompute are requested, and in PLUGGED the entry conditions are evaluated. Either
expiry changes nothing where it is not due (log entry 19). (07_berth_link.md section 7.8 (R133);
02_peer_view_table.md section 2.5 (R45, R46); 04_headroom_engine.md section 4.7 (R84);
11_service_port_and_start_up.md section 11.4 (R183); 01_berth_phases_and_changeover.md section 1.4 (R10)) -/
def Obligations.AnnounceAndListenExpiries : Prop :=
  ∀ (s : State), s.started = true → s.calm = true →
    (s.tmb.announce.left = some 0 →
      let checked (e : PeerEntry) : PeerEntry :=
        if e.standing ≠ .live then e
        else if e.heard = true then { e with heard := false, missed := 0 }
        else if e.missed < 2 then { e with missed := e.missed + 1 }
        else { e with standing := .silent, missed := 3, silentAge := 0, silentElapsed := 0, changed := true }
      let k : State :=
        { s with
          tmb := { s.tmb with
            announce := { interval := s.station.announceInterval, left := some s.station.announceInterval } }
          blc := s.blc.requestAnnounce
          pvt := s.pvt.map checked
          hre := { s.hre with
            cutSettle := s.hre.cutSettle - 1
            request := s.hre.request || s.hre.cutSettle == 1 } }
      ((∃ a : Address, s.pvt[a].standing = .live ∧ s.pvt[a].heard = false ∧ 2 ≤ s.pvt[a].missed) →
        CompletesAs .announceTimerExpiry s (tableChanged k)) ∧
      (¬(∃ a : Address, s.pvt[a].standing = .live ∧ s.pvt[a].heard = false ∧ 2 ≤ s.pvt[a].missed) →
        CompletesAs .announceTimerExpiry s k)) ∧
    (s.tmb.listen.left = some 0 →
      let k : State :=
        { s with
          svp := { s.svp with mode := .run }
          tmb := { s.tmb with listen := s.tmb.listen.stop }
          blc := s.blc.requestAnnounce
          hre := { s.hre with request := true } }
      CompletesAs .listenExpiry s (if s.bsq.phase = .plugged then k.entered else k)) ∧
    (s.tmb.announce.left ≠ some 0 →
      exec .announceTimerExpiry s = .next s) ∧
    (s.tmb.listen.left ≠ some 0 →
      exec .listenExpiry s = .next s)

/-- With H worked from the view and the claim as they stand, a FLEX_RAISE of amount R adds to flex 0 where H + R is
not above 0, and otherwise the smaller of R and H + R rounded down to the quantum; with the link LOST it adds 0. A
FIRM_ENERGISE is accepted in QUEUED where H is not negative: the phase becomes ENERGISING, firm becomes the amount
less the inrush allowance, transient the allowance, BKCLOSE is asserted and the breaker timer serves the close.
Otherwise it is refused: a WITHDRAW is queued and a recompute requested. The reserve returns to NONE in each case.
Its form outside its phases is log entry 22, and that the close ends a reset pulse still running log entry 7. At the
expiry of the reserve backoff timer the own reserve returns to NONE, with the amount 0 and the class absent, the
timer stops and a recompute is requested; nothing else changes. A backoff or hold expiry that is not due changes
nothing (log entry 19). (03_raise_reservation.md section 3.2 (R58 to R60); 04_headroom_engine.md sections 4.9, 4.10
(R86 to R89); 01_berth_phases_and_changeover.md sections 1.4, 1.8 (R12, R21); 03_raise_reservation.md section 3.1
(R57)) -/
def Obligations.HoldAndBackoffExpiriesSettleTheReserve : Prop :=
  ∀ (s : State),
    (s.started = true → s.calm = true → s.tmb.hold.left = some 0 → s.rsu.cls = some .flexRaise →
      let x := s.figuresNow.h + (s.rsu.amount : Int)
      let c : Nat :=
        if s.vlp.link = .lost ∨ s.bsq.phase.pair = false ∨ x ≤ 0 then 0
        else min s.rsu.amount (x.toNat / s.figures.quantum * s.figures.quantum)
      let u := setClaim s.bsq.firm (s.bsq.flex + c) s.bsq.transient
        { s with
          tmb := { s.tmb with hold := s.tmb.hold.stop }
          rsu := { s.rsu with state := .none, amount := 0, cls := none } }
      CompletesAs .holdExpiry s { u with blc := u.blc.requestAnnounce, hre := { u.hre with request := true } }) ∧
    (s.started = true → s.calm = true → s.tmb.hold.left = some 0 → s.rsu.cls = some .firmEnergise →
        s.bsq.phase = .queued → 0 ≤ s.figuresNow.h → s.warningActive = false →
      let u := setClaim (s.rsu.amount - s.figures.inrushAllowance) 0 s.figures.inrushAllowance
        (setPhase .energising
          { s with
            tmb := { s.tmb with hold := s.tmb.hold.stop }
            rsu := { s.rsu with state := .none, amount := 0, cls := none } })
      CompletesAs .holdExpiry s
        { u with
          bsq := { u.bsq with bkClose := true, bkOpen := false, serving := some .close }
          tmb := { u.tmb with breaker := { interval := s.station.breakerTime, left := some s.station.breakerTime } } }) ∧
    (s.started = true → s.calm = true → s.tmb.hold.left = some 0 → s.rsu.cls = some .firmEnergise →
        s.bsq.phase ≠ .queued ∨ (s.figuresNow.h < 0 ∧ s.rsu.amount ≠ 0) →
      CompletesAs (.holdExpiry) s
          ({ s with
            tmb := { s.tmb with hold := s.tmb.hold.stop }
            rsu := { s.rsu with state := .none, amount := 0, cls := none }
            blc := s.blc.join .withdraw
            hre := { s.hre with request := true } })) ∧
    (s.started = true → s.calm = true → s.tmb.reserveBackoff.left = some 0 →
      CompletesAs (.reserveBackoffExpiry) s
          ({ s with
            tmb := { s.tmb with reserveBackoff := s.tmb.reserveBackoff.stop }
            rsu := { s.rsu with state := .none, amount := 0, cls := none }
            hre := { s.hre with request := true } })) ∧
    (s.tmb.reserveBackoff.left ≠ some 0 →
      exec .reserveBackoffExpiry s = .next s) ∧
    (s.tmb.hold.left ≠ some 0 →
      exec .holdExpiry s = .next s)

/-- The timer stops. Serving a close it takes BREAKER_FAIL. Serving the reset pulse it deasserts BKOPEN, and in
TRIPPED with the aux closed the cause joins the later causes. Serving an open it deasserts BKOPEN; in DE_ENERGISING
it starts a trip that commands no further open, the claim staying while the aux reads closed, and in TRIPPED with the
aux closed the cause joins the later causes. In CONFIG only the reset pulse ends. An expiry with no command served
only stops the timer, a state that no run reaches, and one that is not due changes nothing (log entry 19).
(01_berth_phases_and_changeover.md sections 1.2, 1.7, 1.9 (R3, R4, R18, R26, R27); 10_trips_and_protection.md
sections 10.2, 10.5 (R168, R169, R175)) -/
def Obligations.BreakerTimerExpiryFailsItsCommand : Prop :=
  ∀ (s : State),
    (s.started = true → s.calm = true → s.tmb.breaker.left = some 0 →
        s.bsq.phase ≠ .vacant ∨ s.bsq.serving ≠ some .close →
      let k : State :=
        { s with bsq := { s.bsq with serving := none }, tmb := { s.tmb with breaker := s.tmb.breaker.stop } }
      let o : State := { k with bsq := { k.bsq with bkOpen := false } }
      let record : TripRecord :=
        { first := .breakerFail, phaseAtTrip := .deEnergising, appliedAtTrip := s.gos.applied, later := .empty
          openConfirmed := false }
      let p := setPhase .tripped
        { o with
          tru := { s.tru with record := some record }
          svp := { s.svp with attention := { s.svp.attention with trip := true }, attn := true } }
      let f : State := { p with bsq := { p.bsq with bkClose := false } }
      (s.bsq.serving = some .close → CompletesAs .breakerTimerExpiry s (takeCause .breakerFail k)) ∧
      (s.bsq.serving = some .resetPulse →
        CompletesAs .breakerTimerExpiry s
          (if s.bsq.phase = .tripped ∧ s.auxClosed = true then takeCause .breakerFail o else o)) ∧
      (s.bsq.serving = some .openCmd → s.bsq.phase = .deEnergising → s.auxClosed = true →
        CompletesAs .breakerTimerExpiry s f) ∧
      (s.bsq.serving = some .openCmd → s.bsq.phase = .deEnergising → s.auxClosed = false →
        CompletesAs .breakerTimerExpiry s
          (setClaim 0 0 0
            { f with
              tru := { f.tru with record := f.tru.record.map fun r => { r with openConfirmed := true } }
              tmb := { f.tmb with inrush := f.tmb.inrush.stop } })) ∧
      (s.bsq.serving = some .openCmd → s.bsq.phase ≠ .deEnergising →
        CompletesAs .breakerTimerExpiry s
          (if s.bsq.phase = .tripped ∧ s.auxClosed = true then takeCause .breakerFail o else o)) ∧
      (s.bsq.serving = none → CompletesAs .breakerTimerExpiry s k)) ∧
    (s.svp.mode = .config → s.tmb.breaker.left = some 0 → s.bsq.serving = some .resetPulse →
      exec .breakerTimerExpiry s =
        .next { s with
          bsq := { s.bsq with bkOpen := false, serving := none },
          tmb := { s.tmb with breaker := s.tmb.breaker.stop } }) ∧
    (s.tmb.breaker.left ≠ some 0 →
      exec .breakerTimerExpiry s = .next s)

/-- At inrush expiry the timer stops and transient becomes 0 as a change of the own claim. At the expiry of the sync
window in AWAIT_SYNC SYNC_ABORT is set and the berth de-energises. At the expiry of the parallel limit in PARALLEL
PARALLEL_FORCED is set and TRANSFER_BACK entered. A transient that is 0 already changes nothing more (log entry 27).
In any other phase the two only stop, a form no run reaches (log entry 22), and an expiry that is not due changes
nothing (log entry 19). (01_berth_phases_and_changeover.md sections 1.5, 1.6, 1.7, 1.8 (R14, R15, R20, R24)) -/
def Obligations.InrushSyncAndParallelExpiries : Prop :=
  ∀ (s : State), s.started = true → s.calm = true →
    (let i : State := { s with tmb := { s.tmb with inrush := s.tmb.inrush.stop } }
     let y : State := { s with tmb := { s.tmb with sync := s.tmb.sync.stop } }
     let p : State := { s with tmb := { s.tmb with parallel := s.tmb.parallel.stop } }
     (s.tmb.inrush.left = some 0 → CompletesAs .inrushExpiry s (setClaim s.bsq.firm s.bsq.flex 0 i)) ∧
     (s.tmb.inrush.left ≠ some 0 → exec .inrushExpiry s = .next s) ∧
     (s.tmb.sync.left = some 0 → s.bsq.phase = .awaitSync →
       CompletesAs .syncWindowExpiry s { y with bsq := { s.bsq with syncAbort := true } }.deEnergised) ∧
     (s.tmb.sync.left = some 0 → s.bsq.phase ≠ .awaitSync → CompletesAs .syncWindowExpiry s y) ∧
     (s.tmb.sync.left ≠ some 0 → exec .syncWindowExpiry s = .next s) ∧
     (s.tmb.parallel.left = some 0 → s.bsq.phase = .parallel →
       CompletesAs .parallelLimitExpiry s (setPhase .transferBack { p with bsq := { s.bsq with parallelForced := true } })) ∧
     (s.tmb.parallel.left = some 0 → s.bsq.phase ≠ .parallel → CompletesAs .parallelLimitExpiry s p) ∧
     (s.tmb.parallel.left ≠ some 0 → exec .parallelLimitExpiry s = .next s))

/-- The ramp timer runs anew. In PARALLEL and ON_SHORE a suspended ramp does nothing; with the target at or below A,
P becomes A; otherwise P becomes the smaller of the target and A plus the step, and where the link is not LOST and
the echo is at least A, A becomes P and the stall count 0, while otherwise the stall count rises and at the stall
limit the ramp is suspended with its reason. In TRANSFER_BACK A and P fall by the downramp step, flex becomes the
larger of 0 and A less firm, by however much the claim then falls (the model's choice where A was below T, log entry
34), and an ANNOUNCE is requested (also where the claim did not change: log entry 13); with A at 0 already A, P and
the claim stay (log entry 26). A tick that is not due changes nothing (log entry 19). (05_grant_output_stage.md
sections 5.3, 5.4, 5.5 (R95 to R98, R101); 01_berth_phases_and_changeover.md section 1.6 (R17);
11_service_port_and_start_up.md section 11.6 (R185)) -/
def Obligations.RampTicksStepTheGrant : Prop :=
  ∀ (s : State), s.started = true → s.calm = true →
    (s.tmb.ramp.left = some 0 →
      let k : State :=
        { s with tmb := { s.tmb with
            ramp := { interval := s.figures.rampInterval, left := some s.figures.rampInterval } } }
      let g := s.gos
      let next := min g.target (g.applied + s.figures.rampStep)
      let passes := s.vlp.link ≠ .lost ∧
          g.applied ≤ (if s.vlp.link = .idle then 0 else (s.vlp.held.map (·.echo)).getD 0)
      let stalled : State := { k with gos := { g with pending := next, stall := g.stall + 1 } }
      let a := g.applied - s.figures.downrampStep
      let d := setClaim s.bsq.firm (a - s.bsq.firm) s.bsq.transient { k with gos := { g with pending := a, applied := a } }
      (s.bsq.phase.pair = true →
        (g.suspended = true → CompletesAs .rampTick s k) ∧
        (g.suspended = false → g.target ≤ g.applied →
          CompletesAs .rampTick s { k with gos := { g with pending := g.applied } }) ∧
        (g.suspended = false → g.applied < g.target → passes →
          CompletesAs .rampTick s { k with gos := { g with pending := next, applied := next, stall := 0 } }) ∧
        (g.suspended = false → g.applied < g.target → ¬passes → g.stall + 1 ≠ s.figures.stallLimit →
          CompletesAs .rampTick s stalled) ∧
        (g.suspended = false → g.applied < g.target → ¬passes → g.stall + 1 = s.figures.stallLimit →
          CompletesAs .rampTick s
            { stalled with
              gos := { stalled.gos with suspended := true }
              svp := { s.svp with attention := { s.svp.attention with rampSuspended := true }, attn := true } })) ∧
      (s.bsq.phase = .transferBack → g.applied = 0 → CompletesAs .rampTick s { k with blc := k.blc.requestAnnounce }) ∧
      (s.bsq.phase = .transferBack → 0 < g.applied → CompletesAs .rampTick s { d with blc := d.blc.requestAnnounce }) ∧
      (s.bsq.phase.connected = false → CompletesAs .rampTick s k)) ∧
    (s.tmb.ramp.left ≠ some 0 →
      exec .rampTick s = .next s)

/-- At its expiry with the link UP the timeout stops and the link is LOST. A berth in QUEUED returns to PLUGGED; one
in AWAIT_SYNC de-energises; in the connected phases flex becomes 0, an ANNOUNCE is requested (also where flex was 0:
log entry 13) and the link-loss timer runs its interval; elsewhere nothing more happens. The link-loss timer's expiry
takes LINK_LOST and the overdraw timer's OVERDRAW, outside VACANT. An expiry that is not due changes nothing (log
entry 19). (08_vessel_link_and_berth_profiles.md section 8.2 (R139, R141); 10_trips_and_protection.md sections 10.2,
10.3, 10.4 (R168, R172, R173); 01_berth_phases_and_changeover.md sections 1.4, 1.5 (R11, R14)) -/
def Obligations.VesselLinkLossAndTheTripsOfTimers : Prop :=
  ∀ (s : State), s.started = true → s.calm = true →
    (s.tmb.linkTimeout.left = some 0 → s.vlp.link = .up →
      let k : State :=
        { s with vlp := { s.vlp with link := .lost }, tmb := { s.tmb with linkTimeout := s.tmb.linkTimeout.stop } }
      let c := setClaim s.bsq.firm 0 s.bsq.transient k
      let n := s.station.linkLossInterval * 1000
      (s.bsq.phase = .queued → CompletesAs .vesselLinkTimeout s (setPhase .plugged k)) ∧
      (s.bsq.phase = .awaitSync → CompletesAs .vesselLinkTimeout s k.deEnergised) ∧
      (s.bsq.phase.connected = true →
        CompletesAs .vesselLinkTimeout s
          { c with
            blc := c.blc.requestAnnounce, tmb := { c.tmb with linkLoss := { interval := n, left := some n } } }) ∧
      (s.bsq.phase ≠ .queued ∧ s.bsq.phase ≠ .awaitSync ∧ s.bsq.phase.connected = false →
        CompletesAs .vesselLinkTimeout s k)) ∧
    (s.tmb.linkTimeout.left ≠ some 0 ∨ s.vlp.link ≠ .up →
      exec .vesselLinkTimeout s = .next s) ∧
    (s.tmb.linkLoss.left = some 0 → s.bsq.phase ≠ .vacant →
      CompletesAs (.linkLossTripExpiry) s
          (takeCause .linkLost { s with tmb := { s.tmb with linkLoss := s.tmb.linkLoss.stop } })) ∧
    (s.tmb.linkLoss.left ≠ some 0 →
      exec .linkLossTripExpiry s = .next s) ∧
    (s.tmb.overdraw.left = some 0 → s.bsq.phase ≠ .vacant →
      CompletesAs (.overdrawExpiry) s
          (takeCause .overdraw { s with tmb := { s.tmb with overdraw := s.tmb.overdraw.stop } })) ∧
    (s.tmb.overdraw.left ≠ some 0 →
      exec .overdrawExpiry s = .next s)

/-- A computation whose own inputs changed stores DISCARDED and asks for another. Otherwise the figures and the
disagreement flag are stored, firm overload is set in RUN exactly where H is negative and F is 0, each flag raising
its reason as it becomes set, and the action is handed on: a release or cut changes flex, a cut sets the settle count
to 2, a withheld cut and an energise wait store their amounts, and a wanted reserve is taken where none is held, no
conflict stands, no earlier RESERVE is on the link and, for flex, the link is not LOST. With the view changed since
the start, a raise or admission is DEFERRED. Which of several views an entry was read from is the free value of log
entry 2, that a refusal is remembered only where the RESERVE on the link is its sole ground log entry 14, the order
of two frames that join log entry 28, and that nothing happens with no computation in progress log entry 19.
(04_headroom_engine.md sections 4.1, 4.3, 4.6, 4.7, 4.8, 4.11 (R70, R72, R73, R80 to R85, R91);
03_raise_reservation.md section 3.1 (R53); 02_peer_view_table.md section 2.1 (R32); 04_headroom_engine.md section 4.4
(R74); 11_service_port_and_start_up.md section 11.6 (R185)) -/
def Obligations.CompletionStoresFiguresAndHandsOnTheAction : Prop :=
  ∀ (s : State), s.started = true → s.calm = true →
    (∀ w ∈ s.hre.computing, w.stale = true →
      CompletesAs (.computationComplete) s
          ({ s with freeCount := s.freeCount + 1, hre := { s.hre with computing := none, last := .discarded, request := true } })) ∧
    (s.hre.computing = none →
      exec .computationComplete s = .next s) ∧
    (∀ w ∈ s.hre.computing, w.stale = false →
      let g := figuresOf w.inputs (peersOf s.ownAddress (readingsUsed s.freeCount w.seen))
      let heavy := decide (s.svp.mode = .run ∧ g.h < 0 ∧ g.f = 0)
      let newDisagreement := g.disagreement && !s.hre.disagreement
      let newHeavy := heavy && !s.hre.firmOverload
      let k (last : LastResult) : State :=
        { s with
          freeCount := s.freeCount + 1
          hre := { s.hre with
            computing := none, pmin := g.pmin, e := g.e, s := g.s, f := g.f, h := g.h, disagreement := g.disagreement
            firmOverload := heavy, last := last }
          blc := if heavy ≠ s.hre.firmOverload then s.blc.requestAnnounce else s.blc
          svp := { s.svp with
            attention := { s.svp.attention with
              scheduleDisagreement := s.svp.attention.scheduleDisagreement || newDisagreement
              firmOverload := s.svp.attention.firmOverload || newHeavy }
            attn := s.svp.attn || newDisagreement || newHeavy } }
      let want (cls : ReserveClass) (n : Nat) : State :=
        let t := k (.reserveWanted cls n)
        if s.rsu.state ≠ .none ∨ s.blc.conflict = true ∨ (cls = .flexRaise ∧ s.vlp.link = .lost) then t
        else if s.blc.reserveOnLink = true then { t with rsu := { s.rsu with refusedOnLink := true } }
        else
          { t with
            rsu := { s.rsu with state := .queued, amount := n, cls := some cls }, blc := t.blc.join (.reserve n cls) }
      (actionOf w.inputs g = .none → CompletesAs .computationComplete s (k .none)) ∧
      (∀ x, actionOf w.inputs g = .release x →
        CompletesAs .computationComplete s (setClaim s.bsq.firm x s.bsq.transient (k (.release (s.bsq.flex - x))))) ∧
      (∀ n, actionOf w.inputs g = .cut n →
        let c := setClaim s.bsq.firm (s.bsq.flex - n) s.bsq.transient (k (.cut n))
        CompletesAs .computationComplete s { c with hre := { c.hre with cutSettle := 2 } }) ∧
      (∀ n, actionOf w.inputs g = .cutWithheld n → CompletesAs .computationComplete s (k (.cutWithheld n))) ∧
      (∀ n, actionOf w.inputs g = .raise n →
        CompletesAs .computationComplete s (if s.hre.request = true then k .deferred else want .flexRaise n)) ∧
      (∀ n, actionOf w.inputs g = .energise n →
        CompletesAs .computationComplete s (if s.hre.request = true then k .deferred else want .firmEnergise n)) ∧
      (∀ n, actionOf w.inputs g = .energiseWait n → CompletesAs .computationComplete s (k (.energiseWait n))))

/-- A LIVE entry hands over its counted claim, its flex and, unless listening, its capacity; a SILENT one its counted
claim alone; any other nothing. Pmin is the least of the own capacity and those handed over, E is Pmin less the
margin, at least 0, S is the own counted claim and those of the peers, F the own flex and those of the peers, H is E
less S, and the disagreement is set where a capacity differs from the own. Each entry is read from a view that stood
while the computation ran, and a later address never from an earlier view. (02_peer_view_table.md section 2.1 (R32);
04_headroom_engine.md sections 4.3, 4.4, 4.5 (R72, R74 to R77); 02_peer_view_table.md section 2.3 (R40);
03_raise_reservation.md section 3.5 (R66)) -/
def Obligations.FiguresComeFromTheViewAndTheOwnInputs : Prop :=
  (∀ e : PeerEntry,
    let counted := e.firm + e.flex + e.transient + (e.reserved.map (·.amount)).getD 0
    (e.standing = .live →
      e.reading = { counted := counted, flex := e.flex, capacity := if e.listening = true then none else e.capacity }) ∧
    (e.standing = .silent → e.reading = { counted := counted, flex := 0, capacity := none }) ∧
    (e.standing = .empty ∨ e.standing = .own → e.reading = { counted := 0, flex := 0, capacity := none })) ∧
  (∀ (own : Address) (w : OwnInputs) (v : Table PeerReading),
    let g := figuresOf w (peersOf own v)
    (g.pmin ≤ w.pc ∧ (∀ a, a ≠ own → ∀ c ∈ v[a].capacity, g.pmin ≤ c) ∧
      (g.pmin = w.pc ∨ ∃ a, a ≠ own ∧ v[a].capacity = some g.pmin)) ∧
    g.e = g.pmin - w.margin ∧
    g.s = w.firm + w.flex + w.transient + (if w.reserveState = .sent ∨ w.reserveState = .hold then w.amount else 0) +
      ∑ a : Address, (if a = own then 0 else v[a].counted) ∧
    g.f = w.flex + ∑ a : Address, (if a = own then 0 else v[a].flex) ∧
    g.h = (g.e : Int) - g.s ∧
    (g.disagreement = true ↔ ∃ a, a ≠ own ∧ ∃ c ∈ v[a].capacity, c ≠ w.pc)) ∧
  ∀ (k : Nat) (seen : List (Table PeerReading)), seen ≠ [] →
    ∃ m : Address → Nat, (∀ a b, a ≤ b → m a ≤ m b) ∧
      ∀ a, ∃ v, seen[m a]? = some v ∧ (readingsUsed k seen)[a] = v[a]

/-- In RUN in PARALLEL and ON_SHORE a wanted flex below the own flex is released. Otherwise with H negative, F and
the own flex above 0, the cut is the share of the excess rounded up to the kilowatt and to the quantum, at most the
flex, withheld while the settle count runs. Otherwise, with H above 0, no reserve held and flex below the want, the
raise is the least of the shortfall, H and the raise limit rounded down to the quantum, if at least one quantum. In
QUEUED with no reserve the need is admitted where it is at most H. With no profile in use, outside RUN and in other
phases nothing is found. (04_headroom_engine.md sections 4.6, 4.7, 4.10 (R78 to R84, R89);
08_vessel_link_and_berth_profiles.md section 8.5 (R150)) -/
def Obligations.StagesChooseTheAction : Prop :=
  ∀ (w : OwnInputs) (g : Figures),
    (w.profile = none ∨ w.mode ≠ .run ∨ (w.phase.pair = false ∧ w.phase ≠ .queued) → actionOf w g = .none) ∧
    ∀ p, w.profile = some p → w.mode = .run → 1 ≤ p.quantum →
      let want := min p.maxFlex (w.clampedFirm + w.clampedFlex - w.firm)
      let need := w.clampedFirm + p.inrushAllowance
      (w.phase.pair = true → want < w.flex → actionOf w g = .release want) ∧
      (w.phase.pair = true → w.flex ≤ want → g.h < 0 → g.f = 0 ∨ w.flex = 0 → actionOf w g = .none) ∧
      (w.phase.pair = true → w.flex ≤ want → g.h < 0 → 0 < g.f → 0 < w.flex →
        ∃ x k n : Nat, (x : Int) = -g.h ∧ w.flex * x ≤ k * g.f ∧ k * g.f < w.flex * x + g.f ∧
          k ≤ n * p.quantum ∧ n * p.quantum < k + p.quantum ∧
          actionOf w g = if w.cutSettle = 0 then .cut (min w.flex (n * p.quantum))
                         else .cutWithheld (min w.flex (n * p.quantum))) ∧
      (w.phase.pair = true → w.flex ≤ want → 0 ≤ g.h → g.h = 0 ∨ w.reserveState ≠ .none ∨ w.flex = want →
        actionOf w g = .none) ∧
      (w.phase.pair = true → 0 < g.h → w.reserveState = .none → w.flex < want →
        let r := min (min (want - w.flex) g.h.toNat) p.raiseLimit
        (r < p.quantum → actionOf w g = .none) ∧
        (p.quantum ≤ r → actionOf w g = .raise (r - r % p.quantum))) ∧
      (w.phase = .queued → w.reserveState ≠ .none → actionOf w g = .none) ∧
      (w.phase = .queued → w.reserveState = .none →
        actionOf w g = if (need : Int) ≤ g.h then .energise need else .energiseWait need)

/-- Let some stations with one view of the feeder hold flex parts with sum F above 0, and let the excess be O. With
any quanta of at least 1, the cuts that R83 gives them are each at most the own flex, and their sum is at least the
smaller of O and F; and each is less than one quantum above the exact share of the excess that the station bears. It
is a law of the arithmetic of R83 alone: the model holds one station (log entry 25). (04_headroom_engine.md section
4.7 (R83); 04_headroom_engine.md section 4.7, first paragraph; 04_headroom_engine.md section 4.10 (R89)) -/
def Obligations.CutSharesTogetherCoverTheExcess : Prop :=
  ∀ (stations : List (Nat × Nat)) (excess : Nat),
    (∀ x ∈ stations, 1 ≤ x.1) → 0 < (stations.map (·.2)).sum →
    let f := (stations.map (·.2)).sum
    let cut (x : Nat × Nat) : Nat := cutAmount x.1 excess x.2 f
    (∀ x ∈ stations, cut x ≤ x.2 ∧ f * cut x < excess * x.2 + f * x.1) ∧
    min excess f ≤ (stations.map cut).sum

/-- The register starts at all ones; each byte is taken least significant bit first; for each bit the register is
shifted one place towards its least significant end, and where the bit shifted out, XORed with the data bit, is 1,
the register is XORed with the pattern whose bits 15, 10 and 3 are set; the register after the last bit is the check
value, sent without inversion, low byte first. A received record passes exactly where its last two bytes are the
check value of the ones before them, and the check of a record together with its check bytes is then 0. (R193) -/
def Obligations.CheckValueIsTheShiftRegister : Prop :=
  checkOf [] = 0xFFFF#16 ∧
  (∀ (bs : List Byte) (b : Byte), ∃ r : Nat → Check, r 0 = checkOf bs ∧ checkOf (bs ++ [b]) = r 8 ∧
    ∀ i, i < 8 → ∀ j, j < 16 →
      (r (i + 1)).getLsbD j =
        ((r i).getLsbD (j + 1) ^^
          (((r i).getLsbD 0 ^^ b.getLsbD i) && (j == 15 || j == 10 || j == 3)))) ∧
  (∀ bs : List Byte, ∃ lo hi : Byte, withCheck bs = bs ++ [lo, hi] ∧ (checkOf bs).toNat = lo.toNat + 256 * hi.toNat) ∧
  (∀ bs : List Byte, checkGood bs = true ↔
    ∃ m lo hi, bs = m ++ [lo, hi] ∧ (checkOf m).toNat = lo.toNat + 256 * hi.toNat) ∧
  ∀ bs : List Byte, checkOf (withCheck bs) = 0 ∧ (checkGood bs = true → checkOf bs = 0)

/-- For each of the thirteen service commands with every operand at every value its bytes admit, the transaction that
carries its command record, kind byte, data fields and check, is decoded to that command; and no other row has a
command record. (12_formats.md opening and sections 12.3, 12.4 (R188, R191, R193); 11_service_port_and_start_up.md
section 11.2 (R179)) -/
def Obligations.ServiceRecordsDecodeToTheirCommands : Prop :=
  ∀ i : Instr,
    (∀ bs, i.wf = true → commandBytes i = some bs → decodeTransaction bs = some i) ∧
    ((commandBytes i).isSome = true ↔
      (∃ r, i = .loadStation r) ∨ (∃ p, i = .loadProfile p) ∨ (∃ x c n, i = .loadPeriod x c n) ∨
      (∃ m, i = .setScheduleMode m) ∨ i = .start ∨ i = .readStatus ∨ i = .latch ∨ i = .readSnapshot ∨
      (∃ a, i = .readPeer a) ∨ i = .clearTrip ∨ (∃ a, i = .forgetPeer a) ∨ (∃ c, i = .berthHold c) ∨
      ∃ n, i = .probe n)

/-- A character is sent as a driven start bit, eight data bits least significant first with a 0 driven and a 1
released, and a released stop bit, a frame as its characters back to back: 130, 60 or 30 bit times by kind. Levels
bring a transmission to its end with the first run of ten released ones, a vessel link record with one of twenty; a
sent frame's comes 1 to 10 released bit times after it, and the receiver then holds its characters. A driven stop bit
is a framing error. A frame with every field within its range, received without a framing error, is judged good and
is that frame; a ship status record with a vessel id of 1 to 65535 and its other fields in two bytes, sent level by
level on VRX, is read back as that record. A reference word carries the grant in its low half and the update count in
its highest byte, and its bits go out on REFTX from bit 31 to bit 0. A response record carries its code, command
count, kind, data length and data with the check; SDO shifts out the response buffer byte by byte, and idles after it
or while it is empty. A berth status record carries its phase, voltage present, flags, A and cause in six bytes with
the check, and goes out as the 80 levels of its eight characters, which 1 to 20 released bit times bring to their
end. On the vessel link, on VRX and VTX alike, that a data bit 0 is driven and a 1 released is the model's choice,
log entry 32, since R135 gives a character's start and stop bit alone; so is, on both links, that released bit times
between characters are passed over. (12_formats.md opening and sections 12.1, 12.2, 12.3, 12.5 (R188 to R191, R194);
07_berth_link.md sections 7.1, 7.6 (R120, R121, R130); 08_vessel_link_and_berth_profiles.md section 8.1 (R135, R136);
11_service_port_and_start_up.md section 11.2 (R179)) -/
def Obligations.FramesAndRecordsDecodeToTheirFields : Prop :=
  (∀ c : Byte, charLevels c = [true, !c.getLsbD 0, !c.getLsbD 1, !c.getLsbD 2, !c.getLsbD 3, !c.getLsbD 4, !c.getLsbD 5,
    !c.getLsbD 6, !c.getLsbD 7, false]) ∧
  (∀ f : Frame, f.levels = f.bytes.flatMap charLevels ∧
    f.levels.length = match f with | .announce _ _ => 130 | .reserve _ _ _ => 60 | .withdraw _ => 30) ∧
  (∀ levels : List Level,
    (∀ limit, 1 ≤ limit → (endsAfter limit 0 levels = true ↔ (∃ m, levels = m ++ List.replicate limit false) ∧
      ∀ m n, levels = m ++ List.replicate limit false ++ n → n = [])) ∧
    (wholeTransmission levels = true ↔ levels.head? = some true ∧ endsAfter 10 0 levels = true) ∧
    (wholeRecord levels = true ↔ levels.head? = some true ∧ endsAfter 20 0 levels = true)) ∧
  (∀ f : Frame, ∃ n, 1 ≤ n ∧ n ≤ 10 ∧ wholeTransmission (f.levels ++ List.replicate n false) = true ∧
    assemble (f.levels ++ List.replicate n false) = { bytes := f.bytes, framingError := false }) ∧
  (∀ (bs : List Byte) (n : Nat) (later : List Level),
    assemble (bs.flatMap charLevels ++ List.replicate n false ++ later) =
      { bytes := bs ++ (assemble later).bytes, framingError := (assemble later).framingError }) ∧
  (∀ (bs : List Byte) (data later : List Level), data.length = 8 →
    (assemble (bs.flatMap charLevels ++ [true] ++ data ++ [true] ++ later)).framingError = true) ∧
  (∀ f : Frame, f.inRange = true → judge { bytes := f.bytes, framingError := false } = .good f) ∧
  (∀ r : ShipRecord, 1 ≤ r.vesselId → r.vesselId < 65536 → r.firmDemand < 65536 → r.flexDemand < 65536 →
    r.echo < 65536 → ∃ n, 1 ≤ n ∧ n ≤ 20 ∧
    shipRecordIn ((withCheck r.body).flatMap charLevels ++ List.replicate n false) = some r) ∧
  (∀ grant count, grant < 32768 → count < 256 →
    (refWord grant count).toNat = count * 2 ^ 24 + grant ∧
      (refWord grant count).extractLsb' 0 16 = BitVec.ofNat 16 grant ∧
      (refWord grant count).extractLsb' 24 8 = BitVec.ofNat 8 count ∧
      (RefPort.sending grant count).bits.length = 32 ∧
      ∀ i, i < 32 → (RefPort.sending grant count).bits[i]? = some ((refWord grant count).getLsbD (31 - i))) ∧
  (∀ r : Response, r.bytes = withCheck
    ([byte r.code.code, byte r.count, byte r.kind, byte r.data.length, byte (r.data.length / 256)] ++ r.data)) ∧
  [ResponseCode.accepted, .wrongMode, .outOfRange, .incomplete, .causePresent, .notLatched, .held].map
    ResponseCode.code = [0, 1, 2, 3, 4, 5, 6] ∧
  (∀ (s : State) (n : Nat), (sdoBytes s n).length = n ∧ ∀ i, i < n →
    (s.svp.response = none → (sdoBytes s n)[i]? = some none) ∧
    ∀ r ∈ s.svp.response,
      (∀ b, r.bytes[i]? = some b → (sdoBytes s n)[i]? = some (some b)) ∧
      (r.bytes.length ≤ i → (sdoBytes s n)[i]? = some none)) ∧
  (∀ b : BerthStatus, b.bytes = withCheck
    [byte b.phase.code, byte b.voltagePresent.toNat, byte (b.suspended.toNat + 2 * b.firmOverload.toNat),
     byte b.applied, byte (b.applied / 256), byte ((b.cause.map (·.code)).getD 0)] ∧
    b.levels = b.bytes.flatMap charLevels ∧ b.levels.length = 80 ∧
    ∃ n, 1 ≤ n ∧ n ≤ 20 ∧ wholeRecord (b.levels ++ List.replicate n false) = true) ∧
  [TripCause.pilotLost, .estop, .feederLost, .breakerFail, .breakerUncommanded, .overdraw, .linkLost].map
    TripCause.code = [1, 2, 3, 4, 5, 6, 7]

/-- From every state in which CONFIG is quiet, a step leads to one: in CONFIG no phase, claim, peer entry, reserve,
grant, frame, record, trip or attention reason arises, whatever command is taken, and VTX stays at the released
level. (01_berth_phases_and_changeover.md section 1.1 (R2); 02_peer_view_table.md sections 2.2, 2.3 (R33, R36);
03_raise_reservation.md section 3.1 (R52); 04_headroom_engine.md sections 4.1, 4.2 (R70, R71); 07_berth_link.md
section 7.2 (R122); 08_vessel_link_and_berth_profiles.md sections 8.1, 8.4 (R138, R147); 10_trips_and_protection.md
section 10.1 (R167); 11_service_port_and_start_up.md section 11.6 (R185)) -/
def Obligations.EveryStepKeepsConfigQuiet : Prop :=
  (∀ s t : State, ConfigQuiet s → step s = .next t → ConfigQuiet t) ∧
  ∀ s : State, ConfigQuiet s → s.svp.mode = .config → ∀ n, s.vlp.vtx n = false

/-- From every state with CONFIG quiet and the breaker outputs in form a step leads to one in form: never both
outputs, BKCLOSE asserted exactly in ENERGISING, BKOPEN only for the reset pulse or an open, the breaker timer
running exactly for the command it serves, and a trip record exactly in TRIPPED. (01_berth_phases_and_changeover.md
sections 1.2, 1.4, 1.9 (R3, R4, R12, R26); 10_trips_and_protection.md sections 10.2, 10.6 (R169, R176)) -/
def Obligations.EveryStepKeepsTheBreakerInterlock : Prop :=
  ∀ s t : State, ConfigQuiet s → Outputs s → step s = .next t → Outputs t

/-- From every state with the grant in its bounds a step leads to one: T is firm plus flex, A at most P, P at most T
where the ramp runs up, A and P 0 and no stall outside the connected phases, and P equal to A in TRANSFER_BACK, as
GrantBounds says. (05_grant_output_stage.md sections 5.1, 5.2, 5.3, 5.4, 5.5, 5.6 (R92, R94, R96, R100 to R103)) -/
def Obligations.EveryStepKeepsTheGrantBounds : Prop :=
  ∀ s t : State, GrantBounds s → step s = .next t → GrantBounds t

/-- From every state with the transmit queue in form a step leads to one: at most three frames and never two of a
kind, a head wherever one is in transmission, a collision count above 0 on the head alone and of sixteen only on a
collided one (log entry 16), a received frame only during its slot, a frame on the wire exactly in an attempt that
has not collided, and the link at a bit of that frame, in a released run below ten, or with at most sixteen bit times
left of a jam or slot. (07_berth_link.md sections 7.1, 7.2, 7.3, 7.5, 7.6 (R120 to R122, R126, R127, R129, R130)) -/
def Obligations.EveryStepKeepsTheQueueForm : Prop :=
  ∀ s t : State, QueueForm s → step s = .next t → QueueForm t

/-- From every state in which ATTN is asserted exactly while the attention set holds a reason, every step leads to
one. After reset the set is empty and ATTN is deasserted. Where CONFIG is quiet the set is empty and ATTN deasserted
until START; a reason raised asserts ATTN, and READ_STATUS empties the set and deasserts it. (R187) -/
def Obligations.AttnIsAssertedWhileAReasonIsHeld : Prop :=
  (∀ s t : State, AttnFollows s → step s = .next t → AttnFollows t) ∧
  (State.reset.svp.attention = .empty ∧ State.reset.svp.attn = false) ∧
  (∀ s : State, ConfigQuiet s → s.svp.mode = .config → s.svp.attention = .empty ∧ s.svp.attn = false) ∧
  (∀ (r : Reason) (s : State), (raiseAttention r s).svp.attn = true) ∧
  ∀ s t : State, exec .readStatus s = .next t → t.svp.attention = .empty ∧ t.svp.attn = false

/-- From every state with CONFIG quiet and the Peer View Table in form a step leads to one: exactly the entry at the
own address is OWN in LISTEN and RUN, an EMPTY entry is as after reset but for its changed bit, a LIVE one has missed
at most two checks, a SILENT one three, and the figures, the reserved field and the frame in the receive buffer lie
in their ranges. (02_peer_view_table.md sections 2.1, 2.2, 2.5 (R31, R33, R34, R45, R46, R48);
03_raise_reservation.md section 3.5 (R66, R67); 07_berth_link.md section 7.6 (R130)) -/
def Obligations.EveryStepKeepsTheTableForm : Prop :=
  ∀ s t : State, ConfigQuiet s → TableForm s → step s = .next t → TableForm t

/-- In LISTEN and RUN every step from a settled state leads to one: voltage present follows the aux, the monitor its
inputs, the own entry the announced values, a set request finds the engine computing, a computation not stale holds
the own inputs as they stand, an idle sender has sent the present content, the two conditions are remembered (log
entry 24), and the link-loss and overdraw timers run only under theirs. The first boundary has passed (log entry 5).
(01_berth_phases_and_changeover.md section 1.2 (R5); 02_peer_view_table.md section 2.2 (R35); 04_headroom_engine.md
sections 4.2, 4.3 (R71, R73); 08_vessel_link_and_berth_profiles.md section 8.4 (R147); 10_trips_and_protection.md
sections 10.2, 10.3, 10.4 (R168, R170, R171, R173)) -/
def Obligations.EveryEventEndsSettled : Prop :=
  ∀ s t : State, 0 < s.tmb.boundary → ConfigQuiet s → TableForm s → Settled s → step s = .next t → Settled t

/-- From every state in which PILOT, the plug-coding lines, ESTOP, BKAUX, FDRWARN and the select lines are LEVEL_HIGH
or LEVEL_LOW, a step leads to one: RESET gives the reset configuration, LOAD_STATION one that a station record can
give, and no other command changes a kind. (09_line_inputs_meter_port_and_timer_bank.md sections 9.1, 9.3 (R153,
R157, R158); 11_service_port_and_start_up.md sections 11.1, 11.3 (R178, R181); 12_formats.md section 12.3 (R191)) -/
def Obligations.EveryStepKeepsTheLevelKinds : Prop :=
  ∀ s t : State, LevelKinds s → step s = .next t → LevelKinds t

/-- From every settled state past the first boundary (log entry 5), with CONFIG quiet, level kinds on the level lines
and the lines behind the phase, a step leads to one with the lines behind it: past VACANT and not TRIPPED the pilot
is proven and the e-stop inactive; up to ENERGISING the aux is open and in QUEUED and ENERGISING the warning
inactive; from AWAIT_SYNC to DE_ENERGISING the aux is closed. (01_berth_phases_and_changeover.md sections 1.2, 1.3,
1.4, 1.5, 1.7, 1.9 (R3, R7, R11, R13, R18, R19, R28); 10_trips_and_protection.md section 10.2 (R168)) -/
def Obligations.EveryStepKeepsTheLinesBehindThePhase : Prop :=
  ∀ s t : State,
    0 < s.tmb.boundary → ConfigQuiet s → LevelKinds s → Settled s →
    LinesBehindPhase s → step s = .next t → LinesBehindPhase t

/-- From every state with CONFIG quiet, the grant in its bounds, past the first boundary, the profile in use and what
is loaded in form, a step leads to one with both: every loaded slot, station record and period in its ranges, a slot
in use from QUEUED to DE_ENERGISING, the stall count below its limit until the ramp is suspended at it, and in LISTEN
and RUN the period index, Pc and the executions remaining those of the schedule mode.
(08_vessel_link_and_berth_profiles.md section 8.5 (R148 to R150); 01_berth_phases_and_changeover.md section 1.4
(R10); 05_grant_output_stage.md sections 5.1, 5.4 (R92, R98); 06_capacity_schedule.md sections 6.1, 6.2, 6.3, 6.4,
6.5 (R108, R109, R111 to R115); 11_service_port_and_start_up.md sections 11.3, 11.4 (R181, R182)) -/
def Obligations.EveryStepKeepsTheProfileAndTheLoadedForm : Prop :=
  ∀ s t : State, 0 < s.tmb.boundary → ConfigQuiet s → GrantBounds s → ProfileInUse s → LoadedForm s →
    step s = .next t → ProfileInUse t ∧ LoadedForm t

/-- From every settled state with CONFIG quiet and the queue and the table in form, a step keeps the own reserve in
form: amount and class clear exactly in NONE, QUEUED with its frame in the queue, SENT with it in an attempt that has
not collided, no other RESERVE but an abandoned one on the link, the hold timer running exactly in HOLD and the
reserve backoff timer exactly in BACKOFF, a FIRM_ENERGISE only in QUEUED a FLEX_RAISE only in the pair, and a refusal
remembered (log entry 14) only beside an abandoned RESERVE on the link (log entry 16). (03_raise_reservation.md
sections 3.1, 3.2, 3.3 (R52 to R58, R61, R62); 07_berth_link.md section 7.2 (R122, R124)) -/
def Obligations.EveryStepKeepsTheReserveForm : Prop :=
  ∀ s t : State,
    ConfigQuiet s → QueueForm s → Settled s → TableForm s →
    ReserveForm s → step s = .next t → ReserveForm t

/-- From every state past the first boundary (log entry 5) in which the other invariants hold a step keeps the claim
in form: zero up to QUEUED, no flex before PARALLEL, firm, flex and transient within the profile while energised, and
in TRIPPED zero exactly with the open confirmed and otherwise as it was, or the stuck-breaker claim after an
uncommanded close; the reserve that may become claim and the clamped demands lie in the profile's bounds too.
(01_berth_phases_and_changeover.md sections 1.8, 1.9 (R21 to R24, R26 to R28); 03_raise_reservation.md section 3.3
(R61); 04_headroom_engine.md section 4.6 (R79 to R82); 08_vessel_link_and_berth_profiles.md sections 8.1, 8.3 (R134,
R143); 10_trips_and_protection.md section 10.2 (R169)) -/
def Obligations.EveryStepKeepsTheClaimForm : Prop :=
  ∀ s t : State,
    ConfigQuiet s → QueueForm s → Settled s → TableForm s → ReserveForm s → LoadedForm s → ProfileInUse s →
        Outputs s → GrantBounds s → LevelKinds s → LinesBehindPhase s → 0 < s.tmb.boundary →
    ClaimForm s → step s = .next t → ClaimForm t

/-- The state after reset has CONFIG quiet, the breaker outputs, the grant, the queue, the attention, the table, the
settled blocks, the line kinds, the lines, the profile, the reserve, what is loaded and the claim in form.
(11_service_port_and_start_up.md section 11.1 (R178); 05_grant_output_stage.md section 5.1 (R92); 07_berth_link.md
section 7.2 (R122); 10_trips_and_protection.md section 10.1 (R167)) -/
def Obligations.ResetHasTheInvariants : Prop :=
  ConfigQuiet State.reset ∧ Outputs State.reset ∧ GrantBounds State.reset ∧ QueueForm State.reset ∧
  AttnFollows State.reset ∧ TableForm State.reset ∧ Settled State.reset ∧ LevelKinds State.reset ∧
  LinesBehindPhase State.reset ∧ ProfileInUse State.reset ∧ ReserveForm State.reset ∧
  LoadedForm State.reset ∧ ClaimForm State.reset
end

