-- ==== Sys2Proof/Laws/State.lean ====
section
/-! SUPPORT. What each change of one block leaves in every field of the state, and which readings of the state it
leaves as they were. Every lemma is true by computation and a simp lemma, so no later proof unfolds an update. -/

namespace Sys2Proof.Machine

/-! ### The fields after a change of one block -/

variable (s : State)

@[simp] theorem State.mapBsq_bsq (f : Bsq → Bsq) : (s.mapBsq f).bsq = f s.bsq := rfl
@[simp] theorem State.mapBsq_pvt (f : Bsq → Bsq) : (s.mapBsq f).pvt = s.pvt := rfl
@[simp] theorem State.mapBsq_rsu (f : Bsq → Bsq) : (s.mapBsq f).rsu = s.rsu := rfl
@[simp] theorem State.mapBsq_hre (f : Bsq → Bsq) : (s.mapBsq f).hre = s.hre := rfl
@[simp] theorem State.mapBsq_gos (f : Bsq → Bsq) : (s.mapBsq f).gos = s.gos := rfl
@[simp] theorem State.mapBsq_csc (f : Bsq → Bsq) : (s.mapBsq f).csc = s.csc := rfl
@[simp] theorem State.mapBsq_blc (f : Bsq → Bsq) : (s.mapBsq f).blc = s.blc := rfl
@[simp] theorem State.mapBsq_vlp (f : Bsq → Bsq) : (s.mapBsq f).vlp = s.vlp := rfl
@[simp] theorem State.mapBsq_mtp (f : Bsq → Bsq) : (s.mapBsq f).mtp = s.mtp := rfl
@[simp] theorem State.mapBsq_tru (f : Bsq → Bsq) : (s.mapBsq f).tru = s.tru := rfl
@[simp] theorem State.mapBsq_tmb (f : Bsq → Bsq) : (s.mapBsq f).tmb = s.tmb := rfl
@[simp] theorem State.mapBsq_lib (f : Bsq → Bsq) : (s.mapBsq f).lib = s.lib := rfl
@[simp] theorem State.mapBsq_svp (f : Bsq → Bsq) : (s.mapBsq f).svp = s.svp := rfl
@[simp] theorem State.mapBsq_pending (f : Bsq → Bsq) : (s.mapBsq f).pending = s.pending := rfl
@[simp] theorem State.mapBsq_freeCount (f : Bsq → Bsq) : (s.mapBsq f).freeCount = s.freeCount := rfl

@[simp] theorem State.mapPvt_bsq (f : Table PeerEntry → Table PeerEntry) : (s.mapPvt f).bsq = s.bsq := rfl
@[simp] theorem State.mapPvt_pvt (f : Table PeerEntry → Table PeerEntry) : (s.mapPvt f).pvt = f s.pvt := rfl
@[simp] theorem State.mapPvt_rsu (f : Table PeerEntry → Table PeerEntry) : (s.mapPvt f).rsu = s.rsu := rfl
@[simp] theorem State.mapPvt_hre (f : Table PeerEntry → Table PeerEntry) : (s.mapPvt f).hre = s.hre := rfl
@[simp] theorem State.mapPvt_gos (f : Table PeerEntry → Table PeerEntry) : (s.mapPvt f).gos = s.gos := rfl
@[simp] theorem State.mapPvt_csc (f : Table PeerEntry → Table PeerEntry) : (s.mapPvt f).csc = s.csc := rfl
@[simp] theorem State.mapPvt_blc (f : Table PeerEntry → Table PeerEntry) : (s.mapPvt f).blc = s.blc := rfl
@[simp] theorem State.mapPvt_vlp (f : Table PeerEntry → Table PeerEntry) : (s.mapPvt f).vlp = s.vlp := rfl
@[simp] theorem State.mapPvt_mtp (f : Table PeerEntry → Table PeerEntry) : (s.mapPvt f).mtp = s.mtp := rfl
@[simp] theorem State.mapPvt_tru (f : Table PeerEntry → Table PeerEntry) : (s.mapPvt f).tru = s.tru := rfl
@[simp] theorem State.mapPvt_tmb (f : Table PeerEntry → Table PeerEntry) : (s.mapPvt f).tmb = s.tmb := rfl
@[simp] theorem State.mapPvt_lib (f : Table PeerEntry → Table PeerEntry) : (s.mapPvt f).lib = s.lib := rfl
@[simp] theorem State.mapPvt_svp (f : Table PeerEntry → Table PeerEntry) : (s.mapPvt f).svp = s.svp := rfl
@[simp] theorem State.mapPvt_pending (f : Table PeerEntry → Table PeerEntry) : (s.mapPvt f).pending = s.pending := rfl
@[simp] theorem State.mapPvt_freeCount (f : Table PeerEntry → Table PeerEntry) : (s.mapPvt f).freeCount = s.freeCount := rfl

@[simp] theorem State.mapRsu_bsq (f : Rsu → Rsu) : (s.mapRsu f).bsq = s.bsq := rfl
@[simp] theorem State.mapRsu_pvt (f : Rsu → Rsu) : (s.mapRsu f).pvt = s.pvt := rfl
@[simp] theorem State.mapRsu_rsu (f : Rsu → Rsu) : (s.mapRsu f).rsu = f s.rsu := rfl
@[simp] theorem State.mapRsu_hre (f : Rsu → Rsu) : (s.mapRsu f).hre = s.hre := rfl
@[simp] theorem State.mapRsu_gos (f : Rsu → Rsu) : (s.mapRsu f).gos = s.gos := rfl
@[simp] theorem State.mapRsu_csc (f : Rsu → Rsu) : (s.mapRsu f).csc = s.csc := rfl
@[simp] theorem State.mapRsu_blc (f : Rsu → Rsu) : (s.mapRsu f).blc = s.blc := rfl
@[simp] theorem State.mapRsu_vlp (f : Rsu → Rsu) : (s.mapRsu f).vlp = s.vlp := rfl
@[simp] theorem State.mapRsu_mtp (f : Rsu → Rsu) : (s.mapRsu f).mtp = s.mtp := rfl
@[simp] theorem State.mapRsu_tru (f : Rsu → Rsu) : (s.mapRsu f).tru = s.tru := rfl
@[simp] theorem State.mapRsu_tmb (f : Rsu → Rsu) : (s.mapRsu f).tmb = s.tmb := rfl
@[simp] theorem State.mapRsu_lib (f : Rsu → Rsu) : (s.mapRsu f).lib = s.lib := rfl
@[simp] theorem State.mapRsu_svp (f : Rsu → Rsu) : (s.mapRsu f).svp = s.svp := rfl
@[simp] theorem State.mapRsu_pending (f : Rsu → Rsu) : (s.mapRsu f).pending = s.pending := rfl
@[simp] theorem State.mapRsu_freeCount (f : Rsu → Rsu) : (s.mapRsu f).freeCount = s.freeCount := rfl

@[simp] theorem State.mapHre_bsq (f : Hre → Hre) : (s.mapHre f).bsq = s.bsq := rfl
@[simp] theorem State.mapHre_pvt (f : Hre → Hre) : (s.mapHre f).pvt = s.pvt := rfl
@[simp] theorem State.mapHre_rsu (f : Hre → Hre) : (s.mapHre f).rsu = s.rsu := rfl
@[simp] theorem State.mapHre_hre (f : Hre → Hre) : (s.mapHre f).hre = f s.hre := rfl
@[simp] theorem State.mapHre_gos (f : Hre → Hre) : (s.mapHre f).gos = s.gos := rfl
@[simp] theorem State.mapHre_csc (f : Hre → Hre) : (s.mapHre f).csc = s.csc := rfl
@[simp] theorem State.mapHre_blc (f : Hre → Hre) : (s.mapHre f).blc = s.blc := rfl
@[simp] theorem State.mapHre_vlp (f : Hre → Hre) : (s.mapHre f).vlp = s.vlp := rfl
@[simp] theorem State.mapHre_mtp (f : Hre → Hre) : (s.mapHre f).mtp = s.mtp := rfl
@[simp] theorem State.mapHre_tru (f : Hre → Hre) : (s.mapHre f).tru = s.tru := rfl
@[simp] theorem State.mapHre_tmb (f : Hre → Hre) : (s.mapHre f).tmb = s.tmb := rfl
@[simp] theorem State.mapHre_lib (f : Hre → Hre) : (s.mapHre f).lib = s.lib := rfl
@[simp] theorem State.mapHre_svp (f : Hre → Hre) : (s.mapHre f).svp = s.svp := rfl
@[simp] theorem State.mapHre_pending (f : Hre → Hre) : (s.mapHre f).pending = s.pending := rfl
@[simp] theorem State.mapHre_freeCount (f : Hre → Hre) : (s.mapHre f).freeCount = s.freeCount := rfl

@[simp] theorem State.mapGos_bsq (f : Gos → Gos) : (s.mapGos f).bsq = s.bsq := rfl
@[simp] theorem State.mapGos_pvt (f : Gos → Gos) : (s.mapGos f).pvt = s.pvt := rfl
@[simp] theorem State.mapGos_rsu (f : Gos → Gos) : (s.mapGos f).rsu = s.rsu := rfl
@[simp] theorem State.mapGos_hre (f : Gos → Gos) : (s.mapGos f).hre = s.hre := rfl
@[simp] theorem State.mapGos_gos (f : Gos → Gos) : (s.mapGos f).gos = f s.gos := rfl
@[simp] theorem State.mapGos_csc (f : Gos → Gos) : (s.mapGos f).csc = s.csc := rfl
@[simp] theorem State.mapGos_blc (f : Gos → Gos) : (s.mapGos f).blc = s.blc := rfl
@[simp] theorem State.mapGos_vlp (f : Gos → Gos) : (s.mapGos f).vlp = s.vlp := rfl
@[simp] theorem State.mapGos_mtp (f : Gos → Gos) : (s.mapGos f).mtp = s.mtp := rfl
@[simp] theorem State.mapGos_tru (f : Gos → Gos) : (s.mapGos f).tru = s.tru := rfl
@[simp] theorem State.mapGos_tmb (f : Gos → Gos) : (s.mapGos f).tmb = s.tmb := rfl
@[simp] theorem State.mapGos_lib (f : Gos → Gos) : (s.mapGos f).lib = s.lib := rfl
@[simp] theorem State.mapGos_svp (f : Gos → Gos) : (s.mapGos f).svp = s.svp := rfl
@[simp] theorem State.mapGos_pending (f : Gos → Gos) : (s.mapGos f).pending = s.pending := rfl
@[simp] theorem State.mapGos_freeCount (f : Gos → Gos) : (s.mapGos f).freeCount = s.freeCount := rfl

@[simp] theorem State.mapCsc_bsq (f : Csc → Csc) : (s.mapCsc f).bsq = s.bsq := rfl
@[simp] theorem State.mapCsc_pvt (f : Csc → Csc) : (s.mapCsc f).pvt = s.pvt := rfl
@[simp] theorem State.mapCsc_rsu (f : Csc → Csc) : (s.mapCsc f).rsu = s.rsu := rfl
@[simp] theorem State.mapCsc_hre (f : Csc → Csc) : (s.mapCsc f).hre = s.hre := rfl
@[simp] theorem State.mapCsc_gos (f : Csc → Csc) : (s.mapCsc f).gos = s.gos := rfl
@[simp] theorem State.mapCsc_csc (f : Csc → Csc) : (s.mapCsc f).csc = f s.csc := rfl
@[simp] theorem State.mapCsc_blc (f : Csc → Csc) : (s.mapCsc f).blc = s.blc := rfl
@[simp] theorem State.mapCsc_vlp (f : Csc → Csc) : (s.mapCsc f).vlp = s.vlp := rfl
@[simp] theorem State.mapCsc_mtp (f : Csc → Csc) : (s.mapCsc f).mtp = s.mtp := rfl
@[simp] theorem State.mapCsc_tru (f : Csc → Csc) : (s.mapCsc f).tru = s.tru := rfl
@[simp] theorem State.mapCsc_tmb (f : Csc → Csc) : (s.mapCsc f).tmb = s.tmb := rfl
@[simp] theorem State.mapCsc_lib (f : Csc → Csc) : (s.mapCsc f).lib = s.lib := rfl
@[simp] theorem State.mapCsc_svp (f : Csc → Csc) : (s.mapCsc f).svp = s.svp := rfl
@[simp] theorem State.mapCsc_pending (f : Csc → Csc) : (s.mapCsc f).pending = s.pending := rfl
@[simp] theorem State.mapCsc_freeCount (f : Csc → Csc) : (s.mapCsc f).freeCount = s.freeCount := rfl

@[simp] theorem State.mapBlc_bsq (f : Blc → Blc) : (s.mapBlc f).bsq = s.bsq := rfl
@[simp] theorem State.mapBlc_pvt (f : Blc → Blc) : (s.mapBlc f).pvt = s.pvt := rfl
@[simp] theorem State.mapBlc_rsu (f : Blc → Blc) : (s.mapBlc f).rsu = s.rsu := rfl
@[simp] theorem State.mapBlc_hre (f : Blc → Blc) : (s.mapBlc f).hre = s.hre := rfl
@[simp] theorem State.mapBlc_gos (f : Blc → Blc) : (s.mapBlc f).gos = s.gos := rfl
@[simp] theorem State.mapBlc_csc (f : Blc → Blc) : (s.mapBlc f).csc = s.csc := rfl
@[simp] theorem State.mapBlc_blc (f : Blc → Blc) : (s.mapBlc f).blc = f s.blc := rfl
@[simp] theorem State.mapBlc_vlp (f : Blc → Blc) : (s.mapBlc f).vlp = s.vlp := rfl
@[simp] theorem State.mapBlc_mtp (f : Blc → Blc) : (s.mapBlc f).mtp = s.mtp := rfl
@[simp] theorem State.mapBlc_tru (f : Blc → Blc) : (s.mapBlc f).tru = s.tru := rfl
@[simp] theorem State.mapBlc_tmb (f : Blc → Blc) : (s.mapBlc f).tmb = s.tmb := rfl
@[simp] theorem State.mapBlc_lib (f : Blc → Blc) : (s.mapBlc f).lib = s.lib := rfl
@[simp] theorem State.mapBlc_svp (f : Blc → Blc) : (s.mapBlc f).svp = s.svp := rfl
@[simp] theorem State.mapBlc_pending (f : Blc → Blc) : (s.mapBlc f).pending = s.pending := rfl
@[simp] theorem State.mapBlc_freeCount (f : Blc → Blc) : (s.mapBlc f).freeCount = s.freeCount := rfl

@[simp] theorem State.mapVlp_bsq (f : Vlp → Vlp) : (s.mapVlp f).bsq = s.bsq := rfl
@[simp] theorem State.mapVlp_pvt (f : Vlp → Vlp) : (s.mapVlp f).pvt = s.pvt := rfl
@[simp] theorem State.mapVlp_rsu (f : Vlp → Vlp) : (s.mapVlp f).rsu = s.rsu := rfl
@[simp] theorem State.mapVlp_hre (f : Vlp → Vlp) : (s.mapVlp f).hre = s.hre := rfl
@[simp] theorem State.mapVlp_gos (f : Vlp → Vlp) : (s.mapVlp f).gos = s.gos := rfl
@[simp] theorem State.mapVlp_csc (f : Vlp → Vlp) : (s.mapVlp f).csc = s.csc := rfl
@[simp] theorem State.mapVlp_blc (f : Vlp → Vlp) : (s.mapVlp f).blc = s.blc := rfl
@[simp] theorem State.mapVlp_vlp (f : Vlp → Vlp) : (s.mapVlp f).vlp = f s.vlp := rfl
@[simp] theorem State.mapVlp_mtp (f : Vlp → Vlp) : (s.mapVlp f).mtp = s.mtp := rfl
@[simp] theorem State.mapVlp_tru (f : Vlp → Vlp) : (s.mapVlp f).tru = s.tru := rfl
@[simp] theorem State.mapVlp_tmb (f : Vlp → Vlp) : (s.mapVlp f).tmb = s.tmb := rfl
@[simp] theorem State.mapVlp_lib (f : Vlp → Vlp) : (s.mapVlp f).lib = s.lib := rfl
@[simp] theorem State.mapVlp_svp (f : Vlp → Vlp) : (s.mapVlp f).svp = s.svp := rfl
@[simp] theorem State.mapVlp_pending (f : Vlp → Vlp) : (s.mapVlp f).pending = s.pending := rfl
@[simp] theorem State.mapVlp_freeCount (f : Vlp → Vlp) : (s.mapVlp f).freeCount = s.freeCount := rfl

@[simp] theorem State.mapMtp_bsq (f : Mtp → Mtp) : (s.mapMtp f).bsq = s.bsq := rfl
@[simp] theorem State.mapMtp_pvt (f : Mtp → Mtp) : (s.mapMtp f).pvt = s.pvt := rfl
@[simp] theorem State.mapMtp_rsu (f : Mtp → Mtp) : (s.mapMtp f).rsu = s.rsu := rfl
@[simp] theorem State.mapMtp_hre (f : Mtp → Mtp) : (s.mapMtp f).hre = s.hre := rfl
@[simp] theorem State.mapMtp_gos (f : Mtp → Mtp) : (s.mapMtp f).gos = s.gos := rfl
@[simp] theorem State.mapMtp_csc (f : Mtp → Mtp) : (s.mapMtp f).csc = s.csc := rfl
@[simp] theorem State.mapMtp_blc (f : Mtp → Mtp) : (s.mapMtp f).blc = s.blc := rfl
@[simp] theorem State.mapMtp_vlp (f : Mtp → Mtp) : (s.mapMtp f).vlp = s.vlp := rfl
@[simp] theorem State.mapMtp_mtp (f : Mtp → Mtp) : (s.mapMtp f).mtp = f s.mtp := rfl
@[simp] theorem State.mapMtp_tru (f : Mtp → Mtp) : (s.mapMtp f).tru = s.tru := rfl
@[simp] theorem State.mapMtp_tmb (f : Mtp → Mtp) : (s.mapMtp f).tmb = s.tmb := rfl
@[simp] theorem State.mapMtp_lib (f : Mtp → Mtp) : (s.mapMtp f).lib = s.lib := rfl
@[simp] theorem State.mapMtp_svp (f : Mtp → Mtp) : (s.mapMtp f).svp = s.svp := rfl
@[simp] theorem State.mapMtp_pending (f : Mtp → Mtp) : (s.mapMtp f).pending = s.pending := rfl
@[simp] theorem State.mapMtp_freeCount (f : Mtp → Mtp) : (s.mapMtp f).freeCount = s.freeCount := rfl

@[simp] theorem State.mapTru_bsq (f : Tru → Tru) : (s.mapTru f).bsq = s.bsq := rfl
@[simp] theorem State.mapTru_pvt (f : Tru → Tru) : (s.mapTru f).pvt = s.pvt := rfl
@[simp] theorem State.mapTru_rsu (f : Tru → Tru) : (s.mapTru f).rsu = s.rsu := rfl
@[simp] theorem State.mapTru_hre (f : Tru → Tru) : (s.mapTru f).hre = s.hre := rfl
@[simp] theorem State.mapTru_gos (f : Tru → Tru) : (s.mapTru f).gos = s.gos := rfl
@[simp] theorem State.mapTru_csc (f : Tru → Tru) : (s.mapTru f).csc = s.csc := rfl
@[simp] theorem State.mapTru_blc (f : Tru → Tru) : (s.mapTru f).blc = s.blc := rfl
@[simp] theorem State.mapTru_vlp (f : Tru → Tru) : (s.mapTru f).vlp = s.vlp := rfl
@[simp] theorem State.mapTru_mtp (f : Tru → Tru) : (s.mapTru f).mtp = s.mtp := rfl
@[simp] theorem State.mapTru_tru (f : Tru → Tru) : (s.mapTru f).tru = f s.tru := rfl
@[simp] theorem State.mapTru_tmb (f : Tru → Tru) : (s.mapTru f).tmb = s.tmb := rfl
@[simp] theorem State.mapTru_lib (f : Tru → Tru) : (s.mapTru f).lib = s.lib := rfl
@[simp] theorem State.mapTru_svp (f : Tru → Tru) : (s.mapTru f).svp = s.svp := rfl
@[simp] theorem State.mapTru_pending (f : Tru → Tru) : (s.mapTru f).pending = s.pending := rfl
@[simp] theorem State.mapTru_freeCount (f : Tru → Tru) : (s.mapTru f).freeCount = s.freeCount := rfl

@[simp] theorem State.mapTmb_bsq (f : Tmb → Tmb) : (s.mapTmb f).bsq = s.bsq := rfl
@[simp] theorem State.mapTmb_pvt (f : Tmb → Tmb) : (s.mapTmb f).pvt = s.pvt := rfl
@[simp] theorem State.mapTmb_rsu (f : Tmb → Tmb) : (s.mapTmb f).rsu = s.rsu := rfl
@[simp] theorem State.mapTmb_hre (f : Tmb → Tmb) : (s.mapTmb f).hre = s.hre := rfl
@[simp] theorem State.mapTmb_gos (f : Tmb → Tmb) : (s.mapTmb f).gos = s.gos := rfl
@[simp] theorem State.mapTmb_csc (f : Tmb → Tmb) : (s.mapTmb f).csc = s.csc := rfl
@[simp] theorem State.mapTmb_blc (f : Tmb → Tmb) : (s.mapTmb f).blc = s.blc := rfl
@[simp] theorem State.mapTmb_vlp (f : Tmb → Tmb) : (s.mapTmb f).vlp = s.vlp := rfl
@[simp] theorem State.mapTmb_mtp (f : Tmb → Tmb) : (s.mapTmb f).mtp = s.mtp := rfl
@[simp] theorem State.mapTmb_tru (f : Tmb → Tmb) : (s.mapTmb f).tru = s.tru := rfl
@[simp] theorem State.mapTmb_tmb (f : Tmb → Tmb) : (s.mapTmb f).tmb = f s.tmb := rfl
@[simp] theorem State.mapTmb_lib (f : Tmb → Tmb) : (s.mapTmb f).lib = s.lib := rfl
@[simp] theorem State.mapTmb_svp (f : Tmb → Tmb) : (s.mapTmb f).svp = s.svp := rfl
@[simp] theorem State.mapTmb_pending (f : Tmb → Tmb) : (s.mapTmb f).pending = s.pending := rfl
@[simp] theorem State.mapTmb_freeCount (f : Tmb → Tmb) : (s.mapTmb f).freeCount = s.freeCount := rfl

@[simp] theorem State.mapLib_bsq (f : Lib → Lib) : (s.mapLib f).bsq = s.bsq := rfl
@[simp] theorem State.mapLib_pvt (f : Lib → Lib) : (s.mapLib f).pvt = s.pvt := rfl
@[simp] theorem State.mapLib_rsu (f : Lib → Lib) : (s.mapLib f).rsu = s.rsu := rfl
@[simp] theorem State.mapLib_hre (f : Lib → Lib) : (s.mapLib f).hre = s.hre := rfl
@[simp] theorem State.mapLib_gos (f : Lib → Lib) : (s.mapLib f).gos = s.gos := rfl
@[simp] theorem State.mapLib_csc (f : Lib → Lib) : (s.mapLib f).csc = s.csc := rfl
@[simp] theorem State.mapLib_blc (f : Lib → Lib) : (s.mapLib f).blc = s.blc := rfl
@[simp] theorem State.mapLib_vlp (f : Lib → Lib) : (s.mapLib f).vlp = s.vlp := rfl
@[simp] theorem State.mapLib_mtp (f : Lib → Lib) : (s.mapLib f).mtp = s.mtp := rfl
@[simp] theorem State.mapLib_tru (f : Lib → Lib) : (s.mapLib f).tru = s.tru := rfl
@[simp] theorem State.mapLib_tmb (f : Lib → Lib) : (s.mapLib f).tmb = s.tmb := rfl
@[simp] theorem State.mapLib_lib (f : Lib → Lib) : (s.mapLib f).lib = f s.lib := rfl
@[simp] theorem State.mapLib_svp (f : Lib → Lib) : (s.mapLib f).svp = s.svp := rfl
@[simp] theorem State.mapLib_pending (f : Lib → Lib) : (s.mapLib f).pending = s.pending := rfl
@[simp] theorem State.mapLib_freeCount (f : Lib → Lib) : (s.mapLib f).freeCount = s.freeCount := rfl

@[simp] theorem State.mapSvp_bsq (f : Svp → Svp) : (s.mapSvp f).bsq = s.bsq := rfl
@[simp] theorem State.mapSvp_pvt (f : Svp → Svp) : (s.mapSvp f).pvt = s.pvt := rfl
@[simp] theorem State.mapSvp_rsu (f : Svp → Svp) : (s.mapSvp f).rsu = s.rsu := rfl
@[simp] theorem State.mapSvp_hre (f : Svp → Svp) : (s.mapSvp f).hre = s.hre := rfl
@[simp] theorem State.mapSvp_gos (f : Svp → Svp) : (s.mapSvp f).gos = s.gos := rfl
@[simp] theorem State.mapSvp_csc (f : Svp → Svp) : (s.mapSvp f).csc = s.csc := rfl
@[simp] theorem State.mapSvp_blc (f : Svp → Svp) : (s.mapSvp f).blc = s.blc := rfl
@[simp] theorem State.mapSvp_vlp (f : Svp → Svp) : (s.mapSvp f).vlp = s.vlp := rfl
@[simp] theorem State.mapSvp_mtp (f : Svp → Svp) : (s.mapSvp f).mtp = s.mtp := rfl
@[simp] theorem State.mapSvp_tru (f : Svp → Svp) : (s.mapSvp f).tru = s.tru := rfl
@[simp] theorem State.mapSvp_tmb (f : Svp → Svp) : (s.mapSvp f).tmb = s.tmb := rfl
@[simp] theorem State.mapSvp_lib (f : Svp → Svp) : (s.mapSvp f).lib = s.lib := rfl
@[simp] theorem State.mapSvp_svp (f : Svp → Svp) : (s.mapSvp f).svp = f s.svp := rfl
@[simp] theorem State.mapSvp_pending (f : Svp → Svp) : (s.mapSvp f).pending = s.pending := rfl
@[simp] theorem State.mapSvp_freeCount (f : Svp → Svp) : (s.mapSvp f).freeCount = s.freeCount := rfl

/-! ### Readings that a change of another block leaves alone -/

@[simp] theorem State.mapBsq_station (f : Bsq → Bsq) : (s.mapBsq f).station = s.station := rfl
@[simp] theorem State.mapPvt_station (f : Table PeerEntry → Table PeerEntry) : (s.mapPvt f).station = s.station := rfl
@[simp] theorem State.mapRsu_station (f : Rsu → Rsu) : (s.mapRsu f).station = s.station := rfl
@[simp] theorem State.mapHre_station (f : Hre → Hre) : (s.mapHre f).station = s.station := rfl
@[simp] theorem State.mapGos_station (f : Gos → Gos) : (s.mapGos f).station = s.station := rfl
@[simp] theorem State.mapCsc_station (f : Csc → Csc) : (s.mapCsc f).station = s.station := rfl
@[simp] theorem State.mapBlc_station (f : Blc → Blc) : (s.mapBlc f).station = s.station := rfl
@[simp] theorem State.mapVlp_station (f : Vlp → Vlp) : (s.mapVlp f).station = s.station := rfl
@[simp] theorem State.mapMtp_station (f : Mtp → Mtp) : (s.mapMtp f).station = s.station := rfl
@[simp] theorem State.mapTru_station (f : Tru → Tru) : (s.mapTru f).station = s.station := rfl
@[simp] theorem State.mapTmb_station (f : Tmb → Tmb) : (s.mapTmb f).station = s.station := rfl
@[simp] theorem State.mapLib_station (f : Lib → Lib) : (s.mapLib f).station = s.station := rfl

@[simp] theorem State.mapBsq_ownAddress (f : Bsq → Bsq) : (s.mapBsq f).ownAddress = s.ownAddress := rfl
@[simp] theorem State.mapPvt_ownAddress (f : Table PeerEntry → Table PeerEntry) : (s.mapPvt f).ownAddress = s.ownAddress := rfl
@[simp] theorem State.mapRsu_ownAddress (f : Rsu → Rsu) : (s.mapRsu f).ownAddress = s.ownAddress := rfl
@[simp] theorem State.mapHre_ownAddress (f : Hre → Hre) : (s.mapHre f).ownAddress = s.ownAddress := rfl
@[simp] theorem State.mapGos_ownAddress (f : Gos → Gos) : (s.mapGos f).ownAddress = s.ownAddress := rfl
@[simp] theorem State.mapCsc_ownAddress (f : Csc → Csc) : (s.mapCsc f).ownAddress = s.ownAddress := rfl
@[simp] theorem State.mapBlc_ownAddress (f : Blc → Blc) : (s.mapBlc f).ownAddress = s.ownAddress := rfl
@[simp] theorem State.mapVlp_ownAddress (f : Vlp → Vlp) : (s.mapVlp f).ownAddress = s.ownAddress := rfl
@[simp] theorem State.mapMtp_ownAddress (f : Mtp → Mtp) : (s.mapMtp f).ownAddress = s.ownAddress := rfl
@[simp] theorem State.mapTru_ownAddress (f : Tru → Tru) : (s.mapTru f).ownAddress = s.ownAddress := rfl
@[simp] theorem State.mapTmb_ownAddress (f : Tmb → Tmb) : (s.mapTmb f).ownAddress = s.ownAddress := rfl
@[simp] theorem State.mapLib_ownAddress (f : Lib → Lib) : (s.mapLib f).ownAddress = s.ownAddress := rfl

@[simp] theorem State.mapBsq_started (f : Bsq → Bsq) : (s.mapBsq f).started = s.started := rfl
@[simp] theorem State.mapPvt_started (f : Table PeerEntry → Table PeerEntry) : (s.mapPvt f).started = s.started := rfl
@[simp] theorem State.mapRsu_started (f : Rsu → Rsu) : (s.mapRsu f).started = s.started := rfl
@[simp] theorem State.mapHre_started (f : Hre → Hre) : (s.mapHre f).started = s.started := rfl
@[simp] theorem State.mapGos_started (f : Gos → Gos) : (s.mapGos f).started = s.started := rfl
@[simp] theorem State.mapCsc_started (f : Csc → Csc) : (s.mapCsc f).started = s.started := rfl
@[simp] theorem State.mapBlc_started (f : Blc → Blc) : (s.mapBlc f).started = s.started := rfl
@[simp] theorem State.mapVlp_started (f : Vlp → Vlp) : (s.mapVlp f).started = s.started := rfl
@[simp] theorem State.mapMtp_started (f : Mtp → Mtp) : (s.mapMtp f).started = s.started := rfl
@[simp] theorem State.mapTru_started (f : Tru → Tru) : (s.mapTru f).started = s.started := rfl
@[simp] theorem State.mapTmb_started (f : Tmb → Tmb) : (s.mapTmb f).started = s.started := rfl
@[simp] theorem State.mapLib_started (f : Lib → Lib) : (s.mapLib f).started = s.started := rfl

@[simp] theorem State.mapPvt_profile (f : Table PeerEntry → Table PeerEntry) : (s.mapPvt f).profile = s.profile := rfl
@[simp] theorem State.mapRsu_profile (f : Rsu → Rsu) : (s.mapRsu f).profile = s.profile := rfl
@[simp] theorem State.mapHre_profile (f : Hre → Hre) : (s.mapHre f).profile = s.profile := rfl
@[simp] theorem State.mapGos_profile (f : Gos → Gos) : (s.mapGos f).profile = s.profile := rfl
@[simp] theorem State.mapCsc_profile (f : Csc → Csc) : (s.mapCsc f).profile = s.profile := rfl
@[simp] theorem State.mapBlc_profile (f : Blc → Blc) : (s.mapBlc f).profile = s.profile := rfl
@[simp] theorem State.mapMtp_profile (f : Mtp → Mtp) : (s.mapMtp f).profile = s.profile := rfl
@[simp] theorem State.mapTru_profile (f : Tru → Tru) : (s.mapTru f).profile = s.profile := rfl
@[simp] theorem State.mapTmb_profile (f : Tmb → Tmb) : (s.mapTmb f).profile = s.profile := rfl
@[simp] theorem State.mapLib_profile (f : Lib → Lib) : (s.mapLib f).profile = s.profile := rfl
@[simp] theorem State.mapSvp_profile (f : Svp → Svp) : (s.mapSvp f).profile = s.profile := rfl

@[simp] theorem State.mapPvt_figures (f : Table PeerEntry → Table PeerEntry) : (s.mapPvt f).figures = s.figures := rfl
@[simp] theorem State.mapRsu_figures (f : Rsu → Rsu) : (s.mapRsu f).figures = s.figures := rfl
@[simp] theorem State.mapHre_figures (f : Hre → Hre) : (s.mapHre f).figures = s.figures := rfl
@[simp] theorem State.mapGos_figures (f : Gos → Gos) : (s.mapGos f).figures = s.figures := rfl
@[simp] theorem State.mapCsc_figures (f : Csc → Csc) : (s.mapCsc f).figures = s.figures := rfl
@[simp] theorem State.mapBlc_figures (f : Blc → Blc) : (s.mapBlc f).figures = s.figures := rfl
@[simp] theorem State.mapMtp_figures (f : Mtp → Mtp) : (s.mapMtp f).figures = s.figures := rfl
@[simp] theorem State.mapTru_figures (f : Tru → Tru) : (s.mapTru f).figures = s.figures := rfl
@[simp] theorem State.mapTmb_figures (f : Tmb → Tmb) : (s.mapTmb f).figures = s.figures := rfl
@[simp] theorem State.mapLib_figures (f : Lib → Lib) : (s.mapLib f).figures = s.figures := rfl
@[simp] theorem State.mapSvp_figures (f : Svp → Svp) : (s.mapSvp f).figures = s.figures := rfl

@[simp] theorem State.mapBsq_auxClosed (f : Bsq → Bsq) : (s.mapBsq f).auxClosed = s.auxClosed := rfl
@[simp] theorem State.mapPvt_auxClosed (f : Table PeerEntry → Table PeerEntry) : (s.mapPvt f).auxClosed = s.auxClosed := rfl
@[simp] theorem State.mapRsu_auxClosed (f : Rsu → Rsu) : (s.mapRsu f).auxClosed = s.auxClosed := rfl
@[simp] theorem State.mapHre_auxClosed (f : Hre → Hre) : (s.mapHre f).auxClosed = s.auxClosed := rfl
@[simp] theorem State.mapGos_auxClosed (f : Gos → Gos) : (s.mapGos f).auxClosed = s.auxClosed := rfl
@[simp] theorem State.mapCsc_auxClosed (f : Csc → Csc) : (s.mapCsc f).auxClosed = s.auxClosed := rfl
@[simp] theorem State.mapBlc_auxClosed (f : Blc → Blc) : (s.mapBlc f).auxClosed = s.auxClosed := rfl
@[simp] theorem State.mapVlp_auxClosed (f : Vlp → Vlp) : (s.mapVlp f).auxClosed = s.auxClosed := rfl
@[simp] theorem State.mapMtp_auxClosed (f : Mtp → Mtp) : (s.mapMtp f).auxClosed = s.auxClosed := rfl
@[simp] theorem State.mapTru_auxClosed (f : Tru → Tru) : (s.mapTru f).auxClosed = s.auxClosed := rfl
@[simp] theorem State.mapTmb_auxClosed (f : Tmb → Tmb) : (s.mapTmb f).auxClosed = s.auxClosed := rfl
@[simp] theorem State.mapSvp_auxClosed (f : Svp → Svp) : (s.mapSvp f).auxClosed = s.auxClosed := rfl

@[simp] theorem State.mapBsq_pilotActive (f : Bsq → Bsq) : (s.mapBsq f).pilotActive = s.pilotActive := rfl
@[simp] theorem State.mapPvt_pilotActive (f : Table PeerEntry → Table PeerEntry) : (s.mapPvt f).pilotActive = s.pilotActive := rfl
@[simp] theorem State.mapRsu_pilotActive (f : Rsu → Rsu) : (s.mapRsu f).pilotActive = s.pilotActive := rfl
@[simp] theorem State.mapHre_pilotActive (f : Hre → Hre) : (s.mapHre f).pilotActive = s.pilotActive := rfl
@[simp] theorem State.mapGos_pilotActive (f : Gos → Gos) : (s.mapGos f).pilotActive = s.pilotActive := rfl
@[simp] theorem State.mapCsc_pilotActive (f : Csc → Csc) : (s.mapCsc f).pilotActive = s.pilotActive := rfl
@[simp] theorem State.mapBlc_pilotActive (f : Blc → Blc) : (s.mapBlc f).pilotActive = s.pilotActive := rfl
@[simp] theorem State.mapVlp_pilotActive (f : Vlp → Vlp) : (s.mapVlp f).pilotActive = s.pilotActive := rfl
@[simp] theorem State.mapMtp_pilotActive (f : Mtp → Mtp) : (s.mapMtp f).pilotActive = s.pilotActive := rfl
@[simp] theorem State.mapTru_pilotActive (f : Tru → Tru) : (s.mapTru f).pilotActive = s.pilotActive := rfl
@[simp] theorem State.mapTmb_pilotActive (f : Tmb → Tmb) : (s.mapTmb f).pilotActive = s.pilotActive := rfl
@[simp] theorem State.mapSvp_pilotActive (f : Svp → Svp) : (s.mapSvp f).pilotActive = s.pilotActive := rfl

@[simp] theorem State.mapBsq_estopActive (f : Bsq → Bsq) : (s.mapBsq f).estopActive = s.estopActive := rfl
@[simp] theorem State.mapPvt_estopActive (f : Table PeerEntry → Table PeerEntry) : (s.mapPvt f).estopActive = s.estopActive := rfl
@[simp] theorem State.mapRsu_estopActive (f : Rsu → Rsu) : (s.mapRsu f).estopActive = s.estopActive := rfl
@[simp] theorem State.mapHre_estopActive (f : Hre → Hre) : (s.mapHre f).estopActive = s.estopActive := rfl
@[simp] theorem State.mapGos_estopActive (f : Gos → Gos) : (s.mapGos f).estopActive = s.estopActive := rfl
@[simp] theorem State.mapCsc_estopActive (f : Csc → Csc) : (s.mapCsc f).estopActive = s.estopActive := rfl
@[simp] theorem State.mapBlc_estopActive (f : Blc → Blc) : (s.mapBlc f).estopActive = s.estopActive := rfl
@[simp] theorem State.mapVlp_estopActive (f : Vlp → Vlp) : (s.mapVlp f).estopActive = s.estopActive := rfl
@[simp] theorem State.mapMtp_estopActive (f : Mtp → Mtp) : (s.mapMtp f).estopActive = s.estopActive := rfl
@[simp] theorem State.mapTru_estopActive (f : Tru → Tru) : (s.mapTru f).estopActive = s.estopActive := rfl
@[simp] theorem State.mapTmb_estopActive (f : Tmb → Tmb) : (s.mapTmb f).estopActive = s.estopActive := rfl
@[simp] theorem State.mapSvp_estopActive (f : Svp → Svp) : (s.mapSvp f).estopActive = s.estopActive := rfl

@[simp] theorem State.mapBsq_warningActive (f : Bsq → Bsq) : (s.mapBsq f).warningActive = s.warningActive := rfl
@[simp] theorem State.mapPvt_warningActive (f : Table PeerEntry → Table PeerEntry) : (s.mapPvt f).warningActive = s.warningActive := rfl
@[simp] theorem State.mapRsu_warningActive (f : Rsu → Rsu) : (s.mapRsu f).warningActive = s.warningActive := rfl
@[simp] theorem State.mapHre_warningActive (f : Hre → Hre) : (s.mapHre f).warningActive = s.warningActive := rfl
@[simp] theorem State.mapGos_warningActive (f : Gos → Gos) : (s.mapGos f).warningActive = s.warningActive := rfl
@[simp] theorem State.mapCsc_warningActive (f : Csc → Csc) : (s.mapCsc f).warningActive = s.warningActive := rfl
@[simp] theorem State.mapBlc_warningActive (f : Blc → Blc) : (s.mapBlc f).warningActive = s.warningActive := rfl
@[simp] theorem State.mapVlp_warningActive (f : Vlp → Vlp) : (s.mapVlp f).warningActive = s.warningActive := rfl
@[simp] theorem State.mapMtp_warningActive (f : Mtp → Mtp) : (s.mapMtp f).warningActive = s.warningActive := rfl
@[simp] theorem State.mapTru_warningActive (f : Tru → Tru) : (s.mapTru f).warningActive = s.warningActive := rfl
@[simp] theorem State.mapTmb_warningActive (f : Tmb → Tmb) : (s.mapTmb f).warningActive = s.warningActive := rfl
@[simp] theorem State.mapSvp_warningActive (f : Svp → Svp) : (s.mapSvp f).warningActive = s.warningActive := rfl

@[simp] theorem State.mapBsq_plugCode (f : Bsq → Bsq) : (s.mapBsq f).plugCode = s.plugCode := rfl
@[simp] theorem State.mapPvt_plugCode (f : Table PeerEntry → Table PeerEntry) : (s.mapPvt f).plugCode = s.plugCode := rfl
@[simp] theorem State.mapRsu_plugCode (f : Rsu → Rsu) : (s.mapRsu f).plugCode = s.plugCode := rfl
@[simp] theorem State.mapHre_plugCode (f : Hre → Hre) : (s.mapHre f).plugCode = s.plugCode := rfl
@[simp] theorem State.mapGos_plugCode (f : Gos → Gos) : (s.mapGos f).plugCode = s.plugCode := rfl
@[simp] theorem State.mapCsc_plugCode (f : Csc → Csc) : (s.mapCsc f).plugCode = s.plugCode := rfl
@[simp] theorem State.mapBlc_plugCode (f : Blc → Blc) : (s.mapBlc f).plugCode = s.plugCode := rfl
@[simp] theorem State.mapVlp_plugCode (f : Vlp → Vlp) : (s.mapVlp f).plugCode = s.plugCode := rfl
@[simp] theorem State.mapMtp_plugCode (f : Mtp → Mtp) : (s.mapMtp f).plugCode = s.plugCode := rfl
@[simp] theorem State.mapTru_plugCode (f : Tru → Tru) : (s.mapTru f).plugCode = s.plugCode := rfl
@[simp] theorem State.mapTmb_plugCode (f : Tmb → Tmb) : (s.mapTmb f).plugCode = s.plugCode := rfl
@[simp] theorem State.mapSvp_plugCode (f : Svp → Svp) : (s.mapSvp f).plugCode = s.plugCode := rfl

@[simp] theorem State.mapBsq_selectCode (f : Bsq → Bsq) : (s.mapBsq f).selectCode = s.selectCode := rfl
@[simp] theorem State.mapPvt_selectCode (f : Table PeerEntry → Table PeerEntry) : (s.mapPvt f).selectCode = s.selectCode := rfl
@[simp] theorem State.mapRsu_selectCode (f : Rsu → Rsu) : (s.mapRsu f).selectCode = s.selectCode := rfl
@[simp] theorem State.mapHre_selectCode (f : Hre → Hre) : (s.mapHre f).selectCode = s.selectCode := rfl
@[simp] theorem State.mapGos_selectCode (f : Gos → Gos) : (s.mapGos f).selectCode = s.selectCode := rfl
@[simp] theorem State.mapCsc_selectCode (f : Csc → Csc) : (s.mapCsc f).selectCode = s.selectCode := rfl
@[simp] theorem State.mapBlc_selectCode (f : Blc → Blc) : (s.mapBlc f).selectCode = s.selectCode := rfl
@[simp] theorem State.mapVlp_selectCode (f : Vlp → Vlp) : (s.mapVlp f).selectCode = s.selectCode := rfl
@[simp] theorem State.mapMtp_selectCode (f : Mtp → Mtp) : (s.mapMtp f).selectCode = s.selectCode := rfl
@[simp] theorem State.mapTru_selectCode (f : Tru → Tru) : (s.mapTru f).selectCode = s.selectCode := rfl
@[simp] theorem State.mapTmb_selectCode (f : Tmb → Tmb) : (s.mapTmb f).selectCode = s.selectCode := rfl
@[simp] theorem State.mapSvp_selectCode (f : Svp → Svp) : (s.mapSvp f).selectCode = s.selectCode := rfl

@[simp] theorem State.mapBsq_currentDraw (f : Bsq → Bsq) : (s.mapBsq f).currentDraw = s.currentDraw := rfl
@[simp] theorem State.mapPvt_currentDraw (f : Table PeerEntry → Table PeerEntry) : (s.mapPvt f).currentDraw = s.currentDraw := rfl
@[simp] theorem State.mapRsu_currentDraw (f : Rsu → Rsu) : (s.mapRsu f).currentDraw = s.currentDraw := rfl
@[simp] theorem State.mapHre_currentDraw (f : Hre → Hre) : (s.mapHre f).currentDraw = s.currentDraw := rfl
@[simp] theorem State.mapGos_currentDraw (f : Gos → Gos) : (s.mapGos f).currentDraw = s.currentDraw := rfl
@[simp] theorem State.mapCsc_currentDraw (f : Csc → Csc) : (s.mapCsc f).currentDraw = s.currentDraw := rfl
@[simp] theorem State.mapBlc_currentDraw (f : Blc → Blc) : (s.mapBlc f).currentDraw = s.currentDraw := rfl
@[simp] theorem State.mapVlp_currentDraw (f : Vlp → Vlp) : (s.mapVlp f).currentDraw = s.currentDraw := rfl
@[simp] theorem State.mapTru_currentDraw (f : Tru → Tru) : (s.mapTru f).currentDraw = s.currentDraw := rfl
@[simp] theorem State.mapTmb_currentDraw (f : Tmb → Tmb) : (s.mapTmb f).currentDraw = s.currentDraw := rfl
@[simp] theorem State.mapLib_currentDraw (f : Lib → Lib) : (s.mapLib f).currentDraw = s.currentDraw := rfl
@[simp] theorem State.mapSvp_currentDraw (f : Svp → Svp) : (s.mapSvp f).currentDraw = s.currentDraw := rfl

@[simp] theorem State.mapBsq_echo (f : Bsq → Bsq) : (s.mapBsq f).echo = s.echo := rfl
@[simp] theorem State.mapPvt_echo (f : Table PeerEntry → Table PeerEntry) : (s.mapPvt f).echo = s.echo := rfl
@[simp] theorem State.mapRsu_echo (f : Rsu → Rsu) : (s.mapRsu f).echo = s.echo := rfl
@[simp] theorem State.mapHre_echo (f : Hre → Hre) : (s.mapHre f).echo = s.echo := rfl
@[simp] theorem State.mapGos_echo (f : Gos → Gos) : (s.mapGos f).echo = s.echo := rfl
@[simp] theorem State.mapCsc_echo (f : Csc → Csc) : (s.mapCsc f).echo = s.echo := rfl
@[simp] theorem State.mapBlc_echo (f : Blc → Blc) : (s.mapBlc f).echo = s.echo := rfl
@[simp] theorem State.mapMtp_echo (f : Mtp → Mtp) : (s.mapMtp f).echo = s.echo := rfl
@[simp] theorem State.mapTru_echo (f : Tru → Tru) : (s.mapTru f).echo = s.echo := rfl
@[simp] theorem State.mapTmb_echo (f : Tmb → Tmb) : (s.mapTmb f).echo = s.echo := rfl
@[simp] theorem State.mapLib_echo (f : Lib → Lib) : (s.mapLib f).echo = s.echo := rfl
@[simp] theorem State.mapSvp_echo (f : Svp → Svp) : (s.mapSvp f).echo = s.echo := rfl

@[simp] theorem State.mapBsq_echoPasses (f : Bsq → Bsq) : (s.mapBsq f).echoPasses = s.echoPasses := rfl
@[simp] theorem State.mapPvt_echoPasses (f : Table PeerEntry → Table PeerEntry) : (s.mapPvt f).echoPasses = s.echoPasses := rfl
@[simp] theorem State.mapRsu_echoPasses (f : Rsu → Rsu) : (s.mapRsu f).echoPasses = s.echoPasses := rfl
@[simp] theorem State.mapHre_echoPasses (f : Hre → Hre) : (s.mapHre f).echoPasses = s.echoPasses := rfl
@[simp] theorem State.mapCsc_echoPasses (f : Csc → Csc) : (s.mapCsc f).echoPasses = s.echoPasses := rfl
@[simp] theorem State.mapBlc_echoPasses (f : Blc → Blc) : (s.mapBlc f).echoPasses = s.echoPasses := rfl
@[simp] theorem State.mapMtp_echoPasses (f : Mtp → Mtp) : (s.mapMtp f).echoPasses = s.echoPasses := rfl
@[simp] theorem State.mapTru_echoPasses (f : Tru → Tru) : (s.mapTru f).echoPasses = s.echoPasses := rfl
@[simp] theorem State.mapTmb_echoPasses (f : Tmb → Tmb) : (s.mapTmb f).echoPasses = s.echoPasses := rfl
@[simp] theorem State.mapLib_echoPasses (f : Lib → Lib) : (s.mapLib f).echoPasses = s.echoPasses := rfl
@[simp] theorem State.mapSvp_echoPasses (f : Svp → Svp) : (s.mapSvp f).echoPasses = s.echoPasses := rfl

@[simp] theorem State.mapBsq_openConfirmed (f : Bsq → Bsq) : (s.mapBsq f).openConfirmed = s.openConfirmed := rfl
@[simp] theorem State.mapPvt_openConfirmed (f : Table PeerEntry → Table PeerEntry) : (s.mapPvt f).openConfirmed = s.openConfirmed := rfl
@[simp] theorem State.mapRsu_openConfirmed (f : Rsu → Rsu) : (s.mapRsu f).openConfirmed = s.openConfirmed := rfl
@[simp] theorem State.mapHre_openConfirmed (f : Hre → Hre) : (s.mapHre f).openConfirmed = s.openConfirmed := rfl
@[simp] theorem State.mapGos_openConfirmed (f : Gos → Gos) : (s.mapGos f).openConfirmed = s.openConfirmed := rfl
@[simp] theorem State.mapCsc_openConfirmed (f : Csc → Csc) : (s.mapCsc f).openConfirmed = s.openConfirmed := rfl
@[simp] theorem State.mapBlc_openConfirmed (f : Blc → Blc) : (s.mapBlc f).openConfirmed = s.openConfirmed := rfl
@[simp] theorem State.mapVlp_openConfirmed (f : Vlp → Vlp) : (s.mapVlp f).openConfirmed = s.openConfirmed := rfl
@[simp] theorem State.mapMtp_openConfirmed (f : Mtp → Mtp) : (s.mapMtp f).openConfirmed = s.openConfirmed := rfl
@[simp] theorem State.mapTmb_openConfirmed (f : Tmb → Tmb) : (s.mapTmb f).openConfirmed = s.openConfirmed := rfl
@[simp] theorem State.mapLib_openConfirmed (f : Lib → Lib) : (s.mapLib f).openConfirmed = s.openConfirmed := rfl
@[simp] theorem State.mapSvp_openConfirmed (f : Svp → Svp) : (s.mapSvp f).openConfirmed = s.openConfirmed := rfl

@[simp] theorem State.mapBsq_ownEntry (f : Bsq → Bsq) : (s.mapBsq f).ownEntry = s.ownEntry := rfl
@[simp] theorem State.mapRsu_ownEntry (f : Rsu → Rsu) : (s.mapRsu f).ownEntry = s.ownEntry := rfl
@[simp] theorem State.mapHre_ownEntry (f : Hre → Hre) : (s.mapHre f).ownEntry = s.ownEntry := rfl
@[simp] theorem State.mapGos_ownEntry (f : Gos → Gos) : (s.mapGos f).ownEntry = s.ownEntry := rfl
@[simp] theorem State.mapCsc_ownEntry (f : Csc → Csc) : (s.mapCsc f).ownEntry = s.ownEntry := rfl
@[simp] theorem State.mapBlc_ownEntry (f : Blc → Blc) : (s.mapBlc f).ownEntry = s.ownEntry := rfl
@[simp] theorem State.mapVlp_ownEntry (f : Vlp → Vlp) : (s.mapVlp f).ownEntry = s.ownEntry := rfl
@[simp] theorem State.mapMtp_ownEntry (f : Mtp → Mtp) : (s.mapMtp f).ownEntry = s.ownEntry := rfl
@[simp] theorem State.mapTru_ownEntry (f : Tru → Tru) : (s.mapTru f).ownEntry = s.ownEntry := rfl
@[simp] theorem State.mapTmb_ownEntry (f : Tmb → Tmb) : (s.mapTmb f).ownEntry = s.ownEntry := rfl
@[simp] theorem State.mapLib_ownEntry (f : Lib → Lib) : (s.mapLib f).ownEntry = s.ownEntry := rfl

@[simp] theorem State.mapBsq_readings (f : Bsq → Bsq) : (s.mapBsq f).readings = s.readings := rfl
@[simp] theorem State.mapRsu_readings (f : Rsu → Rsu) : (s.mapRsu f).readings = s.readings := rfl
@[simp] theorem State.mapHre_readings (f : Hre → Hre) : (s.mapHre f).readings = s.readings := rfl
@[simp] theorem State.mapGos_readings (f : Gos → Gos) : (s.mapGos f).readings = s.readings := rfl
@[simp] theorem State.mapCsc_readings (f : Csc → Csc) : (s.mapCsc f).readings = s.readings := rfl
@[simp] theorem State.mapBlc_readings (f : Blc → Blc) : (s.mapBlc f).readings = s.readings := rfl
@[simp] theorem State.mapVlp_readings (f : Vlp → Vlp) : (s.mapVlp f).readings = s.readings := rfl
@[simp] theorem State.mapMtp_readings (f : Mtp → Mtp) : (s.mapMtp f).readings = s.readings := rfl
@[simp] theorem State.mapTru_readings (f : Tru → Tru) : (s.mapTru f).readings = s.readings := rfl
@[simp] theorem State.mapTmb_readings (f : Tmb → Tmb) : (s.mapTmb f).readings = s.readings := rfl
@[simp] theorem State.mapLib_readings (f : Lib → Lib) : (s.mapLib f).readings = s.readings := rfl
@[simp] theorem State.mapSvp_readings (f : Svp → Svp) : (s.mapSvp f).readings = s.readings := rfl

end Sys2Proof.Machine
end

