-- ==== Sys2Proof/Laws/Settle.lean ====
section
/-! SUPPORT. What the end of an event does, said once: each part of it, and the whole where no trip condition becomes
true. -/

namespace Sys2Proof.Machine

/-- In CONFIG the end of an event does nothing (R2, R71, R167). -/
theorem settle_config (before s : State) (h : s.started = false) : settle before s = s := by
  simp [settle, h]

/-- Judging the conditions changes nothing but what is remembered of them where none becomes true (R168). -/
theorem checkConditions_calm (s : State) (h : s.calm = true) :
    checkConditions s = s.mapTru fun u => { u with estopHeld := s.estopCondition, feederHeld := s.feederCondition } := by
  have hf : ((s.feederCondition && !s.tru.feederHeld) = false) := by
    simp only [State.calm, Bool.and_eq_true, Bool.or_eq_true, Bool.not_eq_true'] at h
    rcases h.2 with h | h <;> simp [h]
  have he : ((s.estopCondition && !s.tru.estopHeld) = false) := by
    simp only [State.calm, Bool.and_eq_true, Bool.or_eq_true, Bool.not_eq_true'] at h
    rcases h.1 with h | h <;> simp [h]
  have h1 : checkEstop s = s := by simp [checkEstop, he]
  have h2 : checkFeeder s = s := by simp [checkFeeder, hf]
  simp [checkConditions, h1, h2]

/-- The end of a calm event before the engine: the parts that follow the aux, the draw, the link and the announced
values. -/
def State.followed (s : State) : State := mirrorOwn (followLinkLoss (followMonitor (followVoltage
  (s.mapTru fun u => { u with estopHeld := s.estopCondition, feederHeld := s.feederCondition }))))

/-- The end of a calm event (R5, R35, R71, R105, R125, R147, R170, R173). -/
theorem settle_calm (before s : State) (hs : s.started = true) (hc : s.calm = true) :
    settle before s = sendStatus (sendReference before (runEngine (beginIfReached before s.followed))) := by
  simp [settle, hs, checkConditions_calm s hc, State.followed]

theorem getElem_set_self {v : Table PeerEntry} (a : Address) (e : PeerEntry) : (v.set a e)[a] = e := by
  simp

theorem getElem_set_ne {v : Table PeerEntry} {a b : Address} (h : b ≠ a) (e : PeerEntry) : (v.set a e)[b] = v[b] := by
  have : a.val ≠ b.val := fun h' => h (Fin.ext h'.symm)
  simp [this]

/-- The monitor's part of the end of an event (R170, R171). -/
theorem followMonitor_eq (s : State) :
    followMonitor s = (s.mapTru fun u => { u with monitor := s.monitorNow }).mapTmb
      fun b => { b with overdraw := s.overdrawAfter } := by
  unfold followMonitor State.overdrawAfter
  split <;> split <;> rfl

/-- The link-loss timer's part of the end of an event (R173). -/
theorem followLinkLoss_eq (s : State) :
    followLinkLoss s = s.mapTmb fun b => { b with linkLoss := s.linkLossAfter } := by
  unfold followLinkLoss State.linkLossAfter
  split <;> rfl

/-- The table after the own entry has taken the announced values (R35). -/
def State.tableAfter (s : State) : Table PeerEntry :=
  if s.ownEntry.standing = .own then s.pvt.set s.ownAddress (s.mirrored s.ownEntry) else s.pvt

/-- The own entry's part of the end of an event (R35). -/
theorem mirrorOwn_eq (s : State) : mirrorOwn s = s.mapPvt fun _ => s.tableAfter := by
  unfold mirrorOwn State.tableAfter
  split <;> rfl

/-- The whole of the parts that follow, field by field. -/
theorem State.followed_eq (s : State) :
    s.followed =
      { s with
        bsq := { s.bsq with voltagePresent := s.voltageNow }
        pvt := s.tableAfter
        tru := { monitor := s.monitorNow, estopHeld := s.estopCondition, feederHeld := s.feederCondition,
                 record := s.tru.record }
        tmb := { s.tmb with overdraw := s.overdrawAfter, linkLoss := s.linkLossAfter } } := by
  simp only [State.followed, mirrorOwn_eq, followLinkLoss_eq, followMonitor_eq, followVoltage]
  rfl

/-- What a new head frame does (R125, R55): nothing, or its attempt begins on an idle link. -/
theorem beginIfReached_eq (before s : State) :
    beginIfReached before s =
      { s with
        blc := if State.headStarts before s then
                 { s.blc with link := .own 0, idleCount := 0, onWire := s.blc.queue.head?.map s.frameOf }
               else s.blc
        rsu := if s.blc.queue.head?.any TxEntry.isReserve ∧ State.headStarts before s then
                 { s.rsu with state := .sent } else s.rsu } := by
  have hiff : (s.blc.link = .idle ∧ s.blc.headCode ≠ before.blc.headCode ∧ s.waitReached = true) ↔
      State.headStarts before s = true := by
    simp [State.headStarts, and_assoc]
  unfold beginIfReached
  by_cases h : State.headStarts before s = true
  · rw [if_pos (hiff.2 h)]
    have hw := (hiff.2 h).2.2
    unfold State.waitReached at hw
    unfold beginAttempt
    cases hq : s.blc.queue with
    | nil => simp [hq] at hw
    | cons e rest =>
      by_cases hr : e.isReserve = true
      · simp [h, hr, State.mapBlc, State.mapRsu, hq]
      · simp [h, hr, State.mapBlc, hq]
  · rw [if_neg (fun h' => h (hiff.1 h'))]
    simp [h]

/-- What the engine does at the end of an event (R71, R72, R73), field by field. -/
theorem runEngine_eq (s : State) :
    runEngine s =
      { s with
        pvt := if s.begins then s.pvt.map (fun e => { e with changed := false }) else s.pvt
        hre := { s.hre with
          request := if s.begins then false else s.hre.request
          computing := if s.begins then some { inputs := s.ownInputs, seen := [s.readings], stale := false }
                       else s.hre.computing.map (Working.observe s.ownInputs s.readings) } } := by
  have hread : (s.pvt.map fun e => { e with changed := false }).map PeerEntry.reading = s.pvt.map PeerEntry.reading := by
    rw [Vector.map_map]
    congr 1
  unfold runEngine State.begins
  cases hc : s.hre.computing with
  | some w => simp [State.mapHre]
  | none =>
    by_cases hr : s.hre.request = true
    · simp only [hr, if_true, Option.isNone_none, Bool.and_self]
      unfold startComputation
      simp only [State.mapHre, State.mapPvt, State.readings, hread]
      rfl
    · have hr' : s.hre.request = false := by simpa using hr
      obtain ⟨x, hx⟩ : ∃ x, x = s.hre := ⟨_, rfl⟩
      simp only [hr', Bool.and_false, Bool.false_eq_true, if_false, Option.map_none]
      have : s.hre = { s.hre with request := false, computing := none } := by
        rw [← hx] at hc hr' ⊢
        cases x; simp_all
      exact congrArg (fun h => ({ s with hre := h } : State)) this

/-- The reference port at the end of an event (R105). -/
theorem sendReference_eq (before s : State) :
    sendReference before s =
      { s with gos := if s.gos.applied ≠ before.gos.applied ∧ s.gos.port = .idle then s.gos.startWord else s.gos } := by
  unfold sendReference
  split <;> rfl

/-- The berth status record at the end of an event (R147). -/
theorem sendStatus_eq (s : State) :
    sendStatus s =
      { s with
        vlp := if s.vlp.sender = .idle ∧ s.vlp.lastSent ≠ some s.statusNow then
                 { s.vlp with sender := .sending, statusCount := 0, lastSent := some s.statusNow } else s.vlp } := by
  unfold sendStatus
  split <;> rfl

/-- The table after the own entry's part, entry by entry (R35). -/
theorem State.tableAfter_at (s : State) (a : Address) :
    s.tableAfter[a] = if a = s.ownAddress ∧ s.pvt[a].standing = .own then s.mirrored s.pvt[a] else s.pvt[a] := by
  unfold State.tableAfter
  by_cases ha : a = s.ownAddress
  · subst ha
    by_cases ho : s.ownEntry.standing = .own
    · have ho' : s.pvt[s.ownAddress].standing = .own := ho
      rw [if_pos ho, if_pos ⟨rfl, ho'⟩, getElem_set_self]
      rfl
    · have ho' : ¬s.pvt[s.ownAddress].standing = .own := ho
      rw [if_neg ho, if_neg (fun h => ho' h.2)]
  · rw [if_neg fun h : a = s.ownAddress ∧ _ => ha h.1]
    split
    · exact getElem_set_ne ha _
    · rfl

/-- The end of a calm event in LISTEN or RUN, in the one statement that the commands' laws cite. -/
theorem settle_endsAs (before u : State) (hs : u.started = true) (hc : u.calm = true) :
    EndsAs before u (settle before u) := by
  rw [settle_calm before u hs hc]
  obtain ⟨v, hv⟩ : ∃ v, v = u.followed := ⟨_, rfl⟩
  rw [← hv]
  have hv' := hv.trans (State.followed_eq u)
  rw [beginIfReached_eq]
  obtain ⟨w, hw⟩ : ∃ w, w = ({ v with
        blc := if State.headStarts before v then
                 { v.blc with link := .own 0, idleCount := 0, onWire := v.blc.queue.head?.map v.frameOf }
               else v.blc
        rsu := if v.blc.queue.head?.any TxEntry.isReserve ∧ State.headStarts before v then
                 { v.rsu with state := .sent } else v.rsu } : State) := ⟨_, rfl⟩
  rw [← hw, runEngine_eq, sendReference_eq]
  obtain ⟨y, hy⟩ : ∃ y, y = ({ w with
        pvt := if w.begins then w.pvt.map (fun e => { e with changed := false }) else w.pvt
        hre := { w.hre with
          request := if w.begins then false else w.hre.request
          computing := if w.begins then some { inputs := w.ownInputs, seen := [w.readings], stale := false }
                       else w.hre.computing.map (Working.observe w.ownInputs w.readings) }
        gos := if w.gos.applied ≠ before.gos.applied ∧ w.gos.port = .idle then w.gos.startWord else w.gos } : State) :=
    ⟨_, rfl⟩
  have hz := sendStatus_eq y
  obtain ⟨z, hz'⟩ : ∃ z, z = sendStatus y := ⟨_, rfl⟩
  rw [← hz'] at hz
  have hgoal : EndsAs before u z := by
    have hstart : State.headStarts before v = State.headStarts before u := by rw [hv']; rfl
    have hbegin : w.begins = u.begins := by rw [hw, hv']; rfl
    have hinputs : z.ownInputs = w.ownInputs := by
      have h1 : z.ownInputs = y.ownInputs := by
        rw [hz']; unfold sendStatus; split <;> rfl
      rw [h1, hy]; rfl
    have hread : z.readings = w.readings := by
      have h1 : z.readings = y.readings := by rw [hz]; rfl
      rw [h1, hy]
      simp only [State.readings]
      split
      · rw [Vector.map_map]; congr 1
      · rfl
    have hstat : z.statusNow = y.statusNow := by rw [hz]; rfl
    have hmir : ∀ e, z.mirrored e = u.mirrored e := by
      intro e
      have h1 : z.mirrored e = y.mirrored e := by rw [hz]; rfl
      rw [h1, hy, hw, hv']; rfl
    have hentry : ∀ a : Address, z.pvt[a] = u.entryAfter z a := by
      intro a
      have h1 : z.pvt = if u.begins then u.tableAfter.map (fun e => { e with changed := false }) else u.tableAfter := by
        rw [hz]; show y.pvt = _
        rw [hy]; show (if w.begins then _ else _) = _
        rw [hbegin, hw, hv']
      simp only [State.entryAfter, h1, hmir]
      split
      · simp only [Fin.getElem_fin, Vector.getElem_map]
        have := State.tableAfter_at u a
        simp only [Fin.getElem_fin] at this
        rw [this]
      · exact State.tableAfter_at u a
    refine ⟨?_, hentry, ?_, ⟨?_, ?_, ?_, ?_⟩, ?_, ?_, ?_, ?_, ?_, ?_, ?_, ?_, ?_, ?_, ?_⟩
    · rw [hz, hy, hw, hv']
    · rw [← hstart, hz, hy, hw, hv']
    · rw [hz, hy, hw, hv']
    · intro c hc
      have hcw : w.hre.computing = some c := by rw [hw, hv']; exact hc
      have hb : w.begins = false := by simp [State.begins, hcw]
      have h2 : z.hre = y.hre := by rw [hz]
      rw [h2, hy]
      simp only [hb, hcw, Option.map_some, Bool.false_eq_true, if_false]
      refine ⟨by rw [hw, hv'], _, rfl, ?_⟩
      simp only [Working.observe, hinputs, hread]
      exact ⟨trivial, trivial, trivial⟩
    · intro hb
      have hb' : w.begins = true := by rw [hbegin, hb]
      have h2 : z.hre = y.hre := by rw [hz]
      rw [h2, hy, hinputs, hread]
      simp only [hb', if_true]
      exact ⟨trivial, trivial⟩
    · intro hc hr
      have hb : w.begins = false := by rw [hbegin]; simp [State.begins, hr]
      have h2 : z.hre = y.hre := by rw [hz]
      have h3 : w.hre = u.hre := by rw [hw, hv']
      rw [h2, hy]
      simp only [hb, h3, hc, Bool.false_eq_true, if_false, Option.map_none]
      cases hu : u.hre
      simp_all
    · have h3 : w.gos = u.gos := by rw [hw, hv']
      rw [hz, hy]; simp only [h3]
    · rw [hz, hy, hw, hv']
    · have hf : ∀ e, z.frameOf e = v.frameOf e := by
        intro e
        have ho : z.ownAddress = v.ownAddress := by rw [hz, hy, hw]; rfl
        have ha : announceOf z.ownEntry = announceOf v.ownEntry := by
          have h4 : z.pvt = if w.begins then v.pvt.map (fun e => { e with changed := false }) else v.pvt := by
            rw [hz]; show y.pvt = _
            rw [hy]; show (if w.begins then _ else _) = _
            rw [hw]
          simp only [State.ownEntry, ho, h4]
          split
          · simp only [Fin.getElem_fin, Vector.getElem_map]; rfl
          · rfl
        simp only [State.frameOf, ho, ha]
      have h3 : z.blc = w.blc := by rw [hz, hy]
      have h4 : v.blc = u.blc := by rw [hv']
      rw [h3, hw]
      simp only [hstart, h4]
      have : (z.frameOf) = v.frameOf := funext hf
      rw [this]
    · have h3 : y.vlp = u.vlp := by rw [hy, hw, hv']
      have h4 : z.vlp = if y.vlp.sender = .idle ∧ y.vlp.lastSent ≠ some y.statusNow then
          { y.vlp with sender := .sending, statusCount := 0, lastSent := some y.statusNow } else y.vlp := by rw [hz]
      rw [h4, hstat, h3]
    · rw [hz, hy, hw, hv']
    · rw [hz, hy, hw, hv']
    · rw [hz, hy, hw, hv']
    · rw [hz, hy, hw, hv']
    · rw [hz, hy, hw, hv']
    · rw [hz, hy, hw, hv']
    · rw [hz, hy, hw, hv']
  rw [hz', hy] at hgoal
  exact hgoal

end Sys2Proof.Machine
end

