-- ==== Sys2Proof/Laws/Operations.lean ====
section
/-! SUPPORT. One lemma for each shared operation, saying once all that it can do: the state it gives, with every block
that it leaves as it was. The changes of claim and phase, the trip, the clamps and the changed bit are stated as
obligations; here stands which blocks each of them can reach. -/

namespace Sys2Proof.Machine

variable (s : State)

/-! ### Events -/

/-- An event always gives a next state: what it does, and then its end. -/
theorem event_eq (f : State → State) : event f s = .next (settle s (f s)) := rfl

/-- An event whose condition stands happens. -/
theorem eventIf_true {c : Bool} (h : c = true) (f : State → State) : eventIf c f s = .next (settle s (f s)) := by
  simp [eventIf, h, event]

/-- An event whose condition does not stand changes nothing. -/
theorem eventIf_false {c : Bool} (h : c = false) (f : State → State) : eventIf c f s = .next s := by
  simp [eventIf, h]

/-- A command that is an event ends as what it does, where the event leaves the station started and no trip condition
newly true. -/
theorem completesAs_of_event {c : Instr} {f : State → State} (h : exec c s = event f s) (hs : (f s).started = true)
    (hc : (f s).calm = true) : CompletesAs c s (f s) :=
  ⟨_, h, settle_endsAs s (f s) hs hc⟩

/-- The same for an event with a condition. -/
theorem completesAs_of_eventIf {c : Instr} {b : Bool} {f : State → State} (h : exec c s = eventIf b f s) (hb : b = true)
    (hs : (f s).started = true) (hc : (f s).calm = true) : CompletesAs c s (f s) :=
  completesAs_of_event s (by rw [h, hb]; rfl) hs hc

/-! ### Timers -/

theorem Timer.tick_due (t : Timer) : t.tick.due = true ↔ ∃ n ∈ t.left, n ≤ 1 := by
  cases h : t.left <;> simp [Timer.tick, Timer.due, h]
  omega

@[simp] theorem Timer.start_left (n : Nat) : (Timer.start n).left = some n := rfl
@[simp] theorem Timer.start_interval (n : Nat) : (Timer.start n).interval = n := rfl
@[simp] theorem Timer.stop_left (t : Timer) : t.stop.left = none := rfl
@[simp] theorem Timer.stop_interval (t : Timer) : t.stop.interval = t.interval := rfl
@[simp] theorem Timer.stop_due (t : Timer) : t.stop.due = false := rfl

/-! ### Attention and the request -/

/-- Raising a reason adds it to the set and asserts ATTN. -/
theorem raiseAttention_eq (r : Reason) :
    raiseAttention r s = { s with svp := { s.svp with attention := s.svp.attention.add r, attn := true } } := rfl

/-- A set with a reason in it is never empty. -/
theorem AttentionSet.add_nonempty (a : AttentionSet) (r : Reason) : (a.add r).nonempty = true := by
  cases r <;> simp [AttentionSet.add, AttentionSet.nonempty]

/-- A recompute request sets the flag and nothing else. -/
theorem requestRecompute_eq : requestRecompute s = { s with hre := { s.hre with request := true } } := rfl

/-! ### The transmit queue -/

/-- Joining leaves everything but the queue. -/
theorem Blc.join_eq (c : TxContent) (b : Blc) :
    b.join c = { b with queue := if b.holds c.code then b.queue else b.queue ++ [TxEntry.joining c] } := by
  unfold Blc.join
  split <;> simp_all

/-- A frame of the kind is in the queue after it has joined. -/
theorem Blc.join_holds (c : TxContent) (b : Blc) : (b.join c).holds c.code = true := by
  unfold Blc.join
  split
  · assumption
  · simp [Blc.holds, TxEntry.joining]

/-- Requesting an ANNOUNCE leaves everything but the queue. -/
theorem Blc.requestAnnounce_eq (b : Blc) : b.requestAnnounce = { b with queue := b.requestAnnounce.queue } := by
  unfold Blc.requestAnnounce Blc.mapHead Blc.join
  split <;> split <;> rfl

/-- Abandoning a RESERVE leaves everything but the queue. -/
theorem Blc.abandonReserve_eq (b : Blc) : b.abandonReserve = { b with queue := b.abandonReserve.queue } := by
  unfold Blc.abandonReserve Blc.mapHead
  split <;> [split; skip] <;> rfl

/-- An ANNOUNCE is in the queue once it has been requested. -/
theorem Blc.requestAnnounce_holds (b : Blc) : b.requestAnnounce.holds 1 = true := by
  unfold Blc.requestAnnounce
  split
  · rename_i h
    cases hq : b.queue with
    | nil => simp [hq] at h
    | cons e rest => simp_all [Blc.mapHead, Blc.holds]
  · exact Blc.join_holds .announce b

/-- An attempt puts the head frame on the wire and takes a RESERVE's own reserve into SENT. -/
theorem beginAttempt_eq (e : TxEntry) (rest : List TxEntry) (h : s.blc.queue = e :: rest) :
    beginAttempt s =
      { s with
        blc := { s.blc with link := .own 0, idleCount := 0, onWire := some (s.frameOf e) }
        rsu := { s.rsu with state := if e.isReserve then .sent else s.rsu.state } } := by
  simp only [beginAttempt, h]
  split <;> simp [State.mapBlc, State.mapRsu, h]

/-! ### The reserve -/

/-- The own reserve returns to NONE with its amount and class clear. -/
theorem clearReserve_eq : clearReserve s = { s with rsu := { s.rsu with state := .none, amount := 0, cls := none } } := rfl

/-- Abandoning the own reserve reaches the reserve, its frame, its two timers and the request alone. -/
theorem abandonReserve_frame :
    abandonReserve s =
      { s with
        rsu := (abandonReserve s).rsu
        blc := (abandonReserve s).blc
        hre := { s.hre with request := (abandonReserve s).hre.request }
        tmb := { s.tmb with
          hold := (abandonReserve s).tmb.hold, reserveBackoff := (abandonReserve s).tmb.reserveBackoff } } := by
  unfold abandonReserve
  split <;> rfl

/-- Abandoning leaves no reserve, but for one that was NONE before. -/
theorem abandonReserve_state : (abandonReserve s).rsu.state = .none := by
  unfold abandonReserve
  split <;> first | assumption | rfl

/-- A wanted reserve reaches the reserve and the queue alone. -/
theorem wantReserve_frame (c : ReserveClass) (n : Nat) :
    wantReserve c n s = { s with rsu := (wantReserve c n s).rsu, blc := (wantReserve c n s).blc } := by
  unfold wantReserve
  split <;> [split; skip] <;> rfl

/-- A wanted reserve that is taken is QUEUED with its amount and class. -/
theorem wantReserve_taken (c : ReserveClass) (n : Nat) (h : s.mayReserve c = true) (hl : s.blc.reserveOnLink = false) :
    wantReserve c n s =
      { s with
        rsu := { s.rsu with state := .queued, amount := n, cls := some c }, blc := s.blc.join (.reserve n c) } := by
  simp only [wantReserve, h, hl]
  rfl

/-- The end of an earlier RESERVE reaches the memory of a refused want and the request alone. -/
theorem releaseRefused_eq :
    releaseRefused s =
      { s with
        rsu := { s.rsu with refusedOnLink := false }
        hre := { s.hre with request := s.hre.request || s.rsu.refusedOnLink } } := by
  unfold releaseRefused
  cases h : s.rsu.refusedOnLink
  · obtain ⟨_, _, rsu, _⟩ := s
    obtain ⟨_, _, _, _⟩ := rsu
    simp_all
  · simp [requestRecompute, State.mapRsu, State.mapHre]

/-- Finding the conflict marks it, raises its reason, and frees a QUEUED reserve. -/
theorem conflictFound_frame :
    conflictFound s =
      { s with
        rsu := (conflictFound s).rsu
        blc := { s.blc with conflict := true, queue := (conflictFound s).blc.queue }
        svp := { s.svp with attention := s.svp.attention.add .addressConflict, attn := true } } := by
  unfold conflictFound
  dsimp only
  split
  · simp only [clearReserve, State.mapBlc, State.mapRsu, raiseAttention, State.mapSvp]
    rw [Blc.abandonReserve_eq]
  · rfl

/-! ### The table -/

/-- Replacing an entry without its changed bit reaches that entry alone. -/
theorem putEntry_unchanged (a : Address) (e : PeerEntry) : putEntry a e false s = { s with pvt := s.pvt.set a e } := rfl

/-- Replacing an entry with its changed bit set reaches the table, the reserve, its frame and the request alone. -/
theorem putEntry_frame (a : Address) (e : PeerEntry) (c : Bool) :
    putEntry a e c s =
      { s with
        pvt := s.pvt.set a e
        rsu := (putEntry a e c s).rsu
        blc := (putEntry a e c s).blc
        hre := { s.hre with request := s.hre.request || c } } := by
  unfold putEntry tableChanged dropOnViewChange
  cases c
  · simp [State.mapPvt]
  · simp only [Bool.or_true, if_true]
    split <;> rfl

/-! ### The claim, the phase and the breaker -/

/-- A change of claim reaches the three claim parts, the grant, the queue and the request alone. -/
theorem setClaim_frame (firm flex transient : Nat) :
    setClaim firm flex transient s =
      { s with
        bsq := { s.bsq with firm := firm, flex := flex, transient := transient }
        gos := (setClaim firm flex transient s).gos
        blc := (setClaim firm flex transient s).blc
        hre := { s.hre with request := (setClaim firm flex transient s).hre.request } } := by
  unfold setClaim
  split
  · rename_i h
    obtain ⟨rfl, rfl, rfl⟩ := h
    rfl
  · dsimp only
    split <;> rfl

/-- The notice of a phase left is the abandonment of the reserve, or nothing. -/
theorem phaseLeft_cases (next : Phase) : phaseLeft next s = abandonReserve s ∨ phaseLeft next s = s := by
  unfold phaseLeft
  split_ifs <;> simp

/-- A change of phase leaves the claim and everything in the sequencer but the phase. -/
theorem setPhase_bsq (next : Phase) : (setPhase next s).bsq = { s.bsq with phase := next } := by
  unfold setPhase
  split
  · rename_i h
    simp [h]
  · rcases phaseLeft_cases s next with h | h <;> rw [h] <;> [rw [abandonReserve_frame]; skip] <;> (dsimp only; split_ifs <;> rfl)

/-- A change of phase reaches the sequencer's phase, the reserve, the grant, the timers, the queue and the engine's
request and settle count alone. -/
theorem setPhase_frame (next : Phase) :
    setPhase next s =
      { s with
        bsq := { s.bsq with phase := next }
        rsu := (setPhase next s).rsu
        gos := (setPhase next s).gos
        blc := (setPhase next s).blc
        tmb := (setPhase next s).tmb
        hre := { s.hre with
          request := (setPhase next s).hre.request, cutSettle := (setPhase next s).hre.cutSettle } } := by
  unfold setPhase
  split
  · rename_i h
    simp [h]
  · rcases phaseLeft_cases s next with h | h <;> rw [h] <;> [rw [abandonReserve_frame]; skip] <;> (dsimp only; split_ifs <;> rfl)

/-- Commanding the close asserts BKCLOSE alone and starts the breaker timer. -/
theorem commandClose_eq :
    commandClose s =
      { s with
        bsq := { s.bsq with bkClose := true, bkOpen := false, serving := some .close }
        tmb := { s.tmb with breaker := Timer.start s.station.breakerTime } } := rfl

/-- Commanding the open asserts BKOPEN alone and starts the breaker timer. -/
theorem commandOpen_eq :
    commandOpen s =
      { s with
        bsq := { s.bsq with bkClose := false, bkOpen := true, serving := some .openCmd }
        tmb := { s.tmb with breaker := Timer.start s.station.breakerTime } } := rfl

/-- Releasing the open deasserts BKOPEN and stops the breaker timer. -/
theorem releaseOpen_eq :
    releaseOpen s =
      { s with
        bsq := { s.bsq with bkOpen := false, serving := none }
        tmb := { s.tmb with breaker := s.tmb.breaker.stop } } := rfl

/-- The inrush timer takes the window of the profile in use; a window of 0 stops it again and zeroes transient. -/
theorem startInrush_cases :
    (s.profile = none ∧ startInrush s = s) ∨
    (∃ p, s.profile = some p ∧ p.inrushWindow = 0 ∧
      startInrush s = setClaim s.bsq.firm s.bsq.flex 0
        { s with tmb := { s.tmb with inrush := { interval := 0, left := none } } }) ∨
    (∃ p, s.profile = some p ∧ p.inrushWindow ≠ 0 ∧
      startInrush s = { s with tmb := { s.tmb with inrush := Timer.start p.inrushWindow } }) := by
  unfold startInrush
  cases h : s.profile with
  | none   => simp
  | some p =>
    by_cases hw : p.inrushWindow = 0
    · exact .inr (.inl ⟨p, rfl, hw, by simp [hw, State.mapTmb, Timer.start, Timer.stop]⟩)
    · exact .inr (.inr ⟨p, rfl, hw, by simp [hw, State.mapTmb]⟩)

/-- A ramp tick in TRANSFER_BACK requests an ANNOUNCE, and changes the grant and the claim where A is above 0. -/
theorem rampDown_cases :
    (s.gos.applied = 0 ∧ rampDown s = requestAnnounce s) ∨
    (0 < s.gos.applied ∧
      rampDown s = requestAnnounce
        (setClaim s.bsq.firm (s.gos.applied - s.figures.downrampStep - s.bsq.firm) s.bsq.transient
          { s with gos := { s.gos with pending := s.gos.applied - s.figures.downrampStep
                                       applied := s.gos.applied - s.figures.downrampStep } })) := by
  unfold rampDown
  split
  · exact .inl ⟨‹_›, rfl⟩
  · exact .inr ⟨by omega, rfl⟩

/-- Evaluating the entry conditions queues the berth or changes nothing. -/
theorem evaluateEntry_cases :
    (s.mayQueue = true ∧ evaluateEntry s = setPhase .queued s) ∨ (s.mayQueue = false ∧ evaluateEntry s = s) := by
  unfold evaluateEntry
  cases s.mayQueue <;> simp

/-- The entry conditions as R10 lists them. -/
theorem mayQueue_iff : s.mayQueue = true ↔ s.bsq.phase = .plugged ∧ EntryConditions s := by
  simp [State.mayQueue, and_assoc]

/-! ### Trips -/

/-- A cause in TRIPPED reaches the later causes and the attention alone. -/
theorem addLater_frame (c : TripCause) :
    addLater c s = { s with tru := { s.tru with record := (addLater c s).tru.record }, svp := (addLater c s).svp } := by
  unfold addLater
  split
  · rfl
  · split <;> rfl

/-- Marking the open confirmed or not reaches that mark alone. -/
theorem setConfirmed_eq (b : Bool) :
    setConfirmed b s =
      { s with tru := { s.tru with record := s.tru.record.map fun r => { r with openConfirmed := b } } } := rfl

/-- A set of causes holds a cause that was added, and every other as before. -/
theorem CauseSet.has_add (k : CauseSet) (c d : TripCause) : (k.add c).has d = (k.has d || c == d) := by
  cases c <;> cases d <;> simp [CauseSet.add, CauseSet.has]

/-! ### The service port and the link's slots -/

/-- Answering a command changes the response buffer and the count alone. -/
theorem answer_eq (kind : Nat) (code : ResponseCode) (data : List Byte) :
    answer kind code data s = { s with svp := s.svp.answered kind code data } := rfl

/-- A refusal is an answer and nothing else. -/
theorem refuse_eq (kind : Nat) (code : ResponseCode) :
    refuse kind code s = .next { s with svp := s.svp.answered kind code [] } := rfl

/-- A slot that opens reaches the link, its count and the buffer alone. -/
theorem openSlot_eq (d : Bool) (rx : Option RxFrame) :
    openSlot d rx s = { s with blc := { s.blc with link := .slot d 16, idleCount := 0, rx := rx } } := rfl

/-- A slot of a received frame that closes empties the buffer and leaves the pair idle. -/
theorem closeSlot_eq :
    closeSlot s = { s with blc := { s.blc with link := .idle, idleCount := 0, rx := none } } := rfl

/-! ### The link's bit times and levels -/

/-- An own attempt without a collision stands in one of its three phases. -/
theorem LinkPhase.attempting_iff (p : LinkPhase) :
    p.attempting = true ↔ (∃ i, p = .own i) ∨ (∃ r, p = .ending r) ∨ ∃ n, p = .ownSlot n := by
  cases p <;> simp [LinkPhase.attempting]

/-- A collided attempt stands in its jam or after it. -/
theorem LinkPhase.colliding_iff (p : LinkPhase) : p.colliding = true ↔ (∃ n, p = .jam n) ∨ ∃ r, p = .collided r := by
  cases p <;> simp [LinkPhase.colliding]

/-- A bit time reaches the link and the idle count alone. -/
theorem Blc.bitTime_frame (b : Blc) :
    b.bitTime = { b with link := b.bitTime.link, idleCount := b.bitTime.idleCount } := by
  unfold Blc.bitTime
  split <;> first | rfl | (split <;> rfl)

/-- A driven bit time reaches the link and the idle count alone. -/
theorem Blc.driven_frame (b : Blc) :
    b.driven = { b with link := b.driven.link, idleCount := b.driven.idleCount } := by
  unfold Blc.driven
  split <;> rfl

/-- The frame of a slot is there from the slot's sixteenth bit time on. -/
theorem Blc.slotFrame_eq_some (b : Blc) (r : RxFrame) :
    b.slotFrame = some r ↔ (∃ d, b.link = .slot d 0) ∧ b.rx = some r := by
  unfold Blc.slotFrame
  split <;> simp_all

/-- A mismatch is a released bit of the own frame in a bit time that another station drives. -/
theorem Blc.mismatch_iff (others : Level) (b : Blc) :
    b.mismatch others = true ↔ (∃ i, b.link = .own i) ∧ b.drives = false ∧ others = true := by
  unfold Blc.mismatch Blc.pair
  split <;> cases hd : b.drives <;> simp_all

/-- A character is ten levels. -/
@[simp] theorem charLevels_length (b : Byte) : (charLevels b).length = 10 := rfl

/-- Characters back to back are ten levels each. -/
theorem flatMap_charLevels_length (bs : List Byte) : (bs.flatMap charLevels).length = 10 * bs.length := by
  induction bs with
  | nil => rfl
  | cons b bs ih => simp [ih]; omega

/-- A frame is ten levels for each character. -/
theorem Frame.levels_length (f : Frame) : f.levels.length = 10 * f.bytes.length := flatMap_charLevels_length f.bytes

/-- The samples of a slot are the levels of its bit times 5 to 12. -/
theorem slotSamples_eq (levels : SlotLevels) :
    slotSamples levels =
      [levels[4], levels[5], levels[6], levels[7], levels[8], levels[9], levels[10], levels[11]] := by
  obtain ⟨⟨l⟩, h⟩ := levels
  simp only [List.size_toArray] at h
  match l, h with
  | [_, _, _, _, _, _, _, _, _, _, _, _, _, _, _, _], _ => rfl

/-- A slot reads driven from four driven samples on. -/
theorem slotDriven_iff (levels : SlotLevels) :
    slotDriven levels = true ↔ 4 ≤ ((slotSamples levels).filter id).length := by
  rw [slotDriven, decide_eq_true_iff]
  rfl

/-- A run of released bit times is counted on over further levels. -/
theorem releasedRun_append (run : Nat) (xs ys : List Level) :
    releasedRun run (xs ++ ys) = releasedRun (releasedRun run xs) ys := by
  simp [releasedRun]

/-- A driven level starts the count of a run anew. -/
@[simp] theorem releasedRun_driven (run : Nat) (ls : List Level) : releasedRun run (true :: ls) = releasedRun 0 ls := rfl

/-- The run at the end of some levels is the released ones after the last driven one. -/
theorem releasedRun_eq (ls : List Level) : releasedRun 0 ls = (ls.reverse.takeWhile fun l => l == false).length := by
  induction ls using List.reverseRecOn with
  | nil => rfl
  | append_singleton ls l ih => cases l <;> simp_all [releasedRun]

/-- The data bits of a character carry its byte. -/
theorem byteOf_data (b : Byte) : byteOf ((List.range 8).map fun i => !b.getLsbD i) = b := by
  revert b; decide +kernel

/-- The levels of a character add its byte to what is held. -/
theorem foldl_take_charLevels (x : Reception) (b : Byte) :
    (charLevels b).foldl Assembly.take { held := x, data := none } =
      { held := { x with bytes := x.bytes ++ [b] }, data := none } := by
  have h := byteOf_data b
  simp [List.range_succ] at h
  simp [charLevels, Config.dataBits, List.range_succ, Assembly.take, h]

/-- Released bit times between characters add nothing. -/
theorem foldl_take_released (x : Reception) (n : Nat) :
    (List.replicate n false).foldl Assembly.take { held := x, data := none } = { held := x, data := none } := by
  induction n with
  | zero => rfl
  | succ n ih => simpa [List.replicate_succ, Assembly.take] using ih

/-- A reference word is 32 bits. -/
@[simp] theorem refBits_length (w : RefWord) : (refBits w).length = 32 := by simp [refBits]

/-- A berth status record is 80 levels. -/
@[simp] theorem BerthStatus.levels_length (b : BerthStatus) : b.levels.length = 80 :=
  flatMap_charLevels_length b.bytes

/-- With the sender idle VTX is released. -/
@[simp] theorem Vlp.vtx_idle (v : Vlp) (h : v.sender = .idle) (n : Nat) : v.vtx n = false := by
  simp [Vlp.vtx, Vlp.vtxRun, h]

/-- In the gap VTX is released. -/
@[simp] theorem Vlp.vtx_gap (v : Vlp) (h : v.sender = .gap) (n : Nat) : v.vtx n = false := by
  simp [Vlp.vtx, Vlp.vtxRun, h, List.getD_eq_getElem?_getD, List.getElem?_replicate]
  split <;> rfl

/-- While a record is sent VTX runs through its levels, and is released after them. -/
theorem Vlp.vtx_sending (v : Vlp) (b : BerthStatus) (h : v.sender = .sending) (hb : v.lastSent = some b) (n : Nat) :
    v.vtx n = b.levels.getD n false := by
  simp [Vlp.vtx, Vlp.vtxRun, h, hb]

/-- A berth status record that starts holds the fields as they stand. -/
theorem startStatusRecord_eq :
    startStatusRecord s =
      { s with vlp := { s.vlp with sender := .sending, statusCount := 0, lastSent := some s.statusNow } } := rfl

/-! ### The schedule and the lines -/

/-- A change of the schedule reaches it, and where the index or Pc changes the queue and the request. -/
theorem changeSchedule_frame (f : Csc → Csc) :
    changeSchedule f s =
      { s with
        csc := f s.csc
        blc := (changeSchedule f s).blc
        hre := { s.hre with request := (changeSchedule f s).hre.request } } := by
  unfold changeSchedule
  dsimp only
  split <;> rfl

/-- The new settings reach the lines alone. -/
theorem applySettings_frame (c : PerLine LineSetting) :
    applySettings c s = { s with lib := (applySettings c s).lib } ∧ (applySettings c s).lib.settings = c :=
  ⟨rfl, rfl⟩

/-- What is kept for one line after another line's part was replaced. -/
theorem get_set_line {α : Type} (p : PerLine α) (l m : Line) (x : α) :
    (p.set l x).get m = if m = l then x else p.get m := by
  rcases l with _ | i | _ | _ | _ | _ | _ | i <;> try fin_cases i
  all_goals rcases m with _ | j | _ | _ | _ | _ | _ | j <;> (try fin_cases j) <;> rfl

/-- The completion of a qualification reaches the lines alone. -/
theorem settleLine_frame (l : Line) (v : Bool) :
    settleLine l v s = { s with lib := { s.lib with lines := (settleLine l v s).lib.lines } } := rfl

/-- The completions of select lines at one boundary reach the lines alone. -/
theorem qualifySelect_frame (n : Fin 4) :
    qualifySelect n s = { s with lib := { s.lib with lines := (qualifySelect n s).lib.lines } } := by
  unfold qualifySelect
  split <;> rfl

/-- The same for the four together. -/
theorem qualifySelects_frame :
    qualifySelects s = { s with lib := { s.lib with lines := (qualifySelects s).lib.lines } } := by
  unfold qualifySelects
  rw [qualifySelect_frame _ 3, qualifySelect_frame _ 2, qualifySelect_frame _ 1, qualifySelect_frame _ 0]

/-- A level line's kind code gives a level kind. -/
theorem levelKindOf_level (code : Nat) : levelKindOf code = .levelHigh ∨ levelKindOf code = .levelLow := by
  unfold levelKindOf
  split <;> simp

/-- The head's access wait passes exactly from the idle count that R125 and R126 give. -/
theorem waitReached_cons (e : TxEntry) (rest : List TxEntry) (h : s.blc.queue = e :: rest) :
    s.waitReached = true ↔ accessWait s.ownAddress e ≤ s.blc.idleCount := by
  simp [State.waitReached, h]

/-- The count of a boundary reaches the timers, the table's age counts and the status interval alone. -/
theorem countBoundary_frame :
    countBoundary s =
      { s with
        tmb := s.tmb.tick
        pvt := s.pvt.map PeerEntry.tick
        vlp := { s.vlp with statusCount := (countBoundary s).vlp.statusCount } } := rfl

end Sys2Proof.Machine
end

