-- ==== Sys2Proof/Tests/Slice0.lean ====
section
/-! SUPPORT. Small tests of the model on states built here, and for every statement with hypotheses a concrete state and
operands that meet them, branch by branch. -/

namespace Sys2Proof.Tests

open Sys2Proof Sys2Proof.Machine

-- The theorems are elaborated one after the other, so that the compiler needs no thread for each.
set_option Elab.async false

/-! ### States to test on -/

/-- A line setting that is active high after 5 ms. -/
def high5 : LineArg := { kind := 0, delay := 5 }

/-- A station record in range. -/
def station2 : StationRecord :=
  { address := 2, margin := 400, announceInterval := 500, holdWindow := 300, reserveBackoffUnit := 20,
    forgetInterval := 60, breakerTime := 400, vesselLinkTimeout := 300, linkLossInterval := 10,
    meterStaleInterval := 100, stuckBreakerClaim := 800, pilot := high5, estop := high5, bkaux := high5,
    fdrwarn := high5, tadv := high5, trst := high5, pcode := high5, tsel := high5 }

/-- The LOAD_PROFILE of the slot used here. -/
def profileArgs : ProfileArgs :=
  { slot := 4, maxFirm := 1200, minFirm := 300, maxFlex := 3000, quantum := 50, raiseLimit := 1000, rampStep := 200,
    rampInterval := 1000, downrampStep := 400, inrushAllowance := 250, inrushWindow := 5000, syncWindow := 60,
    parallelLimit := 300, overdrawTolerance := 150, overdrawDwell := 1000, stallLimit := 3, idPresence := 1,
    expectedId := 2117 }

/-- The part in CONFIG with everything loaded, ten boundaries after reset. -/
def configured : State :=
  { State.reset with
    bsq := { State.reset.bsq with bkOpen := false, serving := none }
    vlp := { State.reset.vlp with slots := State.reset.vlp.slots.set 4 (some (profileOfArgs profileArgs)) }
    csc := { State.reset.csc with periods := [{ capacity := 10400, executions := 2 }, { capacity := 9000, executions := 1 }],
                                  pc := 10400 }
    tmb := { State.reset.tmb with boundary := 10, breaker := .blank }
    svp := { State.reset.svp with station := some station2 } }

/-- The part in RUN with nothing plugged. -/
def running : State :=
  { configured with
    svp := { configured.svp with mode := .run }
    pvt := configured.pvt.set 2 { PeerEntry.blank with standing := .own } }

/-- A line's state given. -/
def putLine (l : Line) (x : LineState) (s : State) : State := s.mapLib fun b => { b with lines := b.lines.set l x }

/-- A line at a settled level, with its qualified state where it is a level line of kind active high. -/
def line (l : Line) (level : Bool) (s : State) : State :=
  let active := (s.lib.settings.get l).kind.activeAt level
  putLine l { sampled := level, settled := level, qual := none, active := active } s

/-- A line whose qualification of a level completes at the latest boundary. -/
def due (l : Line) (level : Bool) (s : State) : State :=
  let active := (s.lib.settings.get l).kind.activeAt (!level)
  putLine l { sampled := level, settled := !level, qual := some { level := level, marked := 3 }, active := active } s

/-- The part in RUN in a phase, with the slot 4 selected, the pilot proven and the ship's link up. -/
def berth (p : Phase) : State :=
  let s := line (.pcode 2) true (line .pilot true running)
  { s with
    bsq := { s.bsq with phase := p, profileCode := some 4 }
    vlp := { s.vlp with
      link := .up
      held := some { vesselId := 2117, request := .shore, breakerClosed := false, generators := .online,
                     firmDemand := 700, flexDemand := 900, echo := 0 }
      clampedFirm := 700, clampedFlex := 900 } }

/-- The same with the aux reading closed. -/
def connected (p : Phase) : State := line .bkaux true (berth p)

/-- A berth in a connected phase with a claim and a grant. -/
def drawing (p : Phase) : State :=
  let s := connected p
  { s with
    bsq := { s.bsq with firm := 700, flex := 500 }
    gos := { s.gos with target := 1200, pending := 800, applied := 800 } }

/-- A berth in TRIPPED with its open confirmed or not. -/
def tripped (confirmed : Bool) : State :=
  let s := line .bkaux (!confirmed) (berth .tripped)
  let r : TripRecord :=
    { first := .estop, phaseAtTrip := .onShore, appliedAtTrip := 800, later := .empty, openConfirmed := confirmed }
  { s with tru := { s.tru with record := some r } }

/-- The levels of a run of bytes received to a run of released bit times. -/
def receivedTo (limit : Nat) (bs : List Byte) : List Level :=
  bs.flatMap charLevels ++ List.replicate (limit - releasedRun 0 (bs.flatMap charLevels)) false

/-- A ship record on its way. -/
def sends (r : ShipRecord) : List Level := receivedTo 20 (withCheck r.body)

/-- The record that the berth holds, to vary. -/
def ship : ShipRecord :=
  { vesselId := 2117, request := .shore, breakerClosed := false, generators := .online, firmDemand := 700,
    flexDemand := 900, echo := 0 }

/-- Levels of a slot in which, of the bit times 5 to 12, the first `n` are driven, and all eight others too. -/
def driven (n : Nat) : SlotLevels := Vector.ofFn fun i => decide (i.val < 4 + n ∨ 12 ≤ i.val)

/-- A queued frame as it joins. -/
def queued (c : TxContent) : TxEntry := TxEntry.joining c

/-- A part whose queue and link are given. -/
def linked (l : LinkPhase) (q : List TxEntry) (s : State) : State := { s with blc := { s.blc with link := l, queue := q } }

/-- A part that sends a frame, at a bit of it, with its entry at the head of the queue. -/
def sending (i : Nat) (f : Frame) (q : List TxEntry) (s : State) : State :=
  { s with blc := { s.blc with link := .own i, onWire := some f, queue := q } }

/-- The levels of a run of bytes received to the end of its transmission. -/
def received (bs : List Byte) : List Level := receivedTo 10 bs

/-- The part after some bit times with no command. -/
def later : Nat → State → State
  | 0,     s => s
  | n + 1, s => later n (bitTime s)

/-- A peer entry with figures, LIVE and heard. -/
def peer : PeerEntry :=
  { PeerEntry.blank with standing := .live, phaseCode := some 6, firm := 800, flex := 400, periodIndex := some 0,
                         capacity := some 10400, heard := true }

/-- A part whose entry at address 5 is given. -/
def knows (e : PeerEntry) (s : State) : State := { s with pvt := s.pvt.set 5 e }

/-- Every timer due at once. -/
def allDue (s : State) : State :=
  let d : Timer := { interval := 300, left := some 0 }
  { s with tmb := { s.tmb with announce := d, listen := d, hold := d, reserveBackoff := d, breaker := d, inrush := d,
                               sync := d, parallel := d, ramp := d, linkTimeout := d, linkLoss := d, overdraw := d,
                               meterStale := d } }

/-- What the most statements ask: LISTEN or RUN, and no trip condition newly true. -/
def ready (s : State) : Bool := s.started && s.calm

/-! ### Well-formedness: an ill-formed command for each check -/

theorem test_wf_station : (Instr.loadStation station2).wf = true ∧
    (Instr.loadStation { station2 with address := 256 }).wf = false ∧
    (Instr.loadStation { station2 with margin := 65536 }).wf = false ∧
    (Instr.loadStation { station2 with announceInterval := 65536 }).wf = false ∧
    (Instr.loadStation { station2 with holdWindow := 65536 }).wf = false ∧
    (Instr.loadStation { station2 with reserveBackoffUnit := 65536 }).wf = false ∧
    (Instr.loadStation { station2 with forgetInterval := 65536 }).wf = false ∧
    (Instr.loadStation { station2 with breakerTime := 65536 }).wf = false ∧
    (Instr.loadStation { station2 with vesselLinkTimeout := 65536 }).wf = false ∧
    (Instr.loadStation { station2 with linkLossInterval := 256 }).wf = false ∧
    (Instr.loadStation { station2 with meterStaleInterval := 65536 }).wf = false ∧
    (Instr.loadStation { station2 with stuckBreakerClaim := 65536 }).wf = false := by decide

theorem test_wf_station_lines : (Instr.loadStation { station2 with pilot := { kind := 256, delay := 0 } }).wf = false ∧
    (Instr.loadStation { station2 with estop := { kind := 0, delay := 65536 } }).wf = false ∧
    (Instr.loadStation { station2 with bkaux := { kind := 256, delay := 0 } }).wf = false ∧
    (Instr.loadStation { station2 with fdrwarn := { kind := 0, delay := 65536 } }).wf = false ∧
    (Instr.loadStation { station2 with tadv := { kind := 256, delay := 0 } }).wf = false ∧
    (Instr.loadStation { station2 with trst := { kind := 0, delay := 65536 } }).wf = false ∧
    (Instr.loadStation { station2 with pcode := { kind := 256, delay := 0 } }).wf = false ∧
    (Instr.loadStation { station2 with tsel := { kind := 0, delay := 65536 } }).wf = false := by decide

theorem test_wf_profile : (Instr.loadProfile profileArgs).wf = true ∧
    (Instr.loadProfile { profileArgs with slot := 256 }).wf = false ∧
    (Instr.loadProfile { profileArgs with maxFirm := 65536 }).wf = false ∧
    (Instr.loadProfile { profileArgs with minFirm := 65536 }).wf = false ∧
    (Instr.loadProfile { profileArgs with maxFlex := 65536 }).wf = false ∧
    (Instr.loadProfile { profileArgs with quantum := 65536 }).wf = false ∧
    (Instr.loadProfile { profileArgs with raiseLimit := 65536 }).wf = false ∧
    (Instr.loadProfile { profileArgs with rampStep := 65536 }).wf = false ∧
    (Instr.loadProfile { profileArgs with rampInterval := 65536 }).wf = false ∧
    (Instr.loadProfile { profileArgs with downrampStep := 65536 }).wf = false := by decide

theorem test_wf_profile_windows : (Instr.loadProfile { profileArgs with inrushAllowance := 65536 }).wf = false ∧
    (Instr.loadProfile { profileArgs with inrushWindow := 65536 }).wf = false ∧
    (Instr.loadProfile { profileArgs with syncWindow := 65536 }).wf = false ∧
    (Instr.loadProfile { profileArgs with parallelLimit := 65536 }).wf = false ∧
    (Instr.loadProfile { profileArgs with overdrawTolerance := 65536 }).wf = false ∧
    (Instr.loadProfile { profileArgs with overdrawDwell := 65536 }).wf = false ∧
    (Instr.loadProfile { profileArgs with stallLimit := 256 }).wf = false ∧
    (Instr.loadProfile { profileArgs with idPresence := 256 }).wf = false ∧
    (Instr.loadProfile { profileArgs with expectedId := 65536 }).wf = false := by decide

theorem test_wf_operands : (Instr.loadPeriod 256 0 0).wf = false ∧ (Instr.loadPeriod 0 65536 0).wf = false ∧
    (Instr.loadPeriod 0 0 256).wf = false ∧ (Instr.loadPeriod 255 65535 255).wf = true ∧
    (Instr.setScheduleMode 256).wf = false ∧ (Instr.readPeer 256).wf = false ∧ (Instr.forgetPeer 256).wf = false ∧
    (Instr.berthHold 256).wf = false ∧ (Instr.probe 65536).wf = false ∧ (Instr.probe 65535).wf = true := by decide

/-- A record of START with its check is taken, so it is no transaction not taken; a wrong check and no bytes are not. -/
theorem test_wf_not_taken : (Instr.transactionNotTaken (withCheck [5])).wf = false ∧
    (Instr.transactionNotTaken [5, 0, 0]).wf = true ∧ (Instr.transactionNotTaken []).wf = true := by decide +kernel

/-! ### The decoders on bytes written out from the tables -/

/-- The example under R193: the nine bytes of values 49 to 57 give a check of 28,561, sent as 145 and then 111. -/
theorem test_check_example : checkOf [49, 50, 51, 52, 53, 54, 55, 56, 57] = 28561#16 ∧
    (withCheck [49, 50, 51, 52, 53, 54, 55, 56, 57]).drop 9 = [145, 111] := by decide +kernel

/-- A RESERVE of 900 kW, FLEX_RAISE, from address 3 (R189). -/
theorem test_frame_reserve : (Frame.reserve 3 900 .flexRaise).body = [0x23, 0x84, 0x03, 0x02] ∧
    parseBody [0x23, 0x84, 0x03, 0x02] = some (.reserve 3 900 .flexRaise) ∧
    parseBody [0x23, 0x00, 0x40, 0x02] = none ∧ parseBody [0x23, 0x84, 0x03, 0x03] = none := by decide

/-- A WITHDRAW from address 15 and an ANNOUNCE from address 1 (R189). -/
theorem test_frame_announce : parseBody [0x3F] = some (.withdraw 15) ∧
    parseBody [0x11, 0x26, 0xBC, 0x02, 0xF4, 0x01, 0x00, 0x00, 0xA0, 0x28, 0x04] =
      some (.announce 1
        { phaseCode := 6, periodIndex := 2, firm := 700, flex := 500, transient := 0, capacity := 10400, tripped := false,
          firmOverload := false, listening := true }) := by decide

/-- A ship status record: vessel 2117, SHORE, breaker CLOSED, generators SYNCING, 700 and 900 kW, echo 800 (R190). -/
theorem test_ship_record : parseShip [0x45, 0x08, 0x01, 0x11, 0xBC, 0x02, 0x84, 0x03, 0x20, 0x03] =
      some { vesselId := 2117, request := .shore, breakerClosed := true, generators := .syncing, firmDemand := 700,
             flexDemand := 900, echo := 800 } ∧
    parseShip [0x00, 0x00, 0x01, 0x11, 0xBC, 0x02, 0x84, 0x03, 0x20, 0x03] = none ∧
    parseShip [0x45, 0x08, 0x03, 0x11, 0xBC, 0x02, 0x84, 0x03, 0x20, 0x03] = none ∧
    parseShip [0x45, 0x08, 0x01, 0x12, 0xBC, 0x02, 0x84, 0x03, 0x20, 0x03] = none ∧
    parseShip [0x45, 0x08, 0x01, 0x31, 0xBC, 0x02, 0x84, 0x03, 0x20, 0x03] = none := by decide

/-- A PROBE of 900 kW and a LOAD_PERIOD of record 1 with 9000 kW and 3 executions as data fields (R191). -/
theorem test_command_fields : commandOf 13 [0x84, 0x03] = some (.probe 900) ∧
    commandOf 3 [0x01, 0x28, 0x23, 0x03] = some (.loadPeriod 1 9000 3) ∧ commandOf 3 [0x01, 0x28, 0x23] = none ∧
    commandOf 0 [] = none ∧ commandOf 14 [] = none ∧ commandOf 5 [0x00] = none := by decide

/-- A reference word of grant 800 with count 3, bit 31 first, and a meter word of 650 kW (R194). -/
theorem test_port_words : refWord 800 3 = 0x03000320#32 ∧
    (RefPort.sending 800 3).bits =
      [false, false, false, false, false, false, true, true, false, false, false, false, false, false, false, false,
       false, false, false, false, false, false, true, true, false, false, true, false, false, false, false, false] ∧
    drawOf [false, false, false, false, false, false, true, false, true, false, false, false, true, false, true, false] =
      650 := by decide

/-- No word spells a command, and the interface leaves the state as it is. -/
theorem test_no_table_word : decodeTableWord 8 5 = none ∧ State.withFetchWord running 8 5 = running := ⟨rfl, rfl⟩

/-! ### The witnesses of the statements -/

theorem test_witness_StepTakesTheFrontCommandOrPassesABitTime :
    (∀ x ∈ [LinkPhase.idle, .slot true 2, .slot false 1, .foreign, .ending 8, .ending 9, .ownSlot 1, .jam 2, .jam 1,
            .collided 0, .collided 9], (linked x [] running).pending = []) ∧
    (∀ i ∈ [28, 29], (sending i (.withdraw 2) [queued .withdraw] running).pending = [] ∧
      (sending i (.withdraw 2) [queued .withdraw] running).blc.link = .own i) ∧
    (Frame.withdraw 2).levels.length = 30 := by decide +kernel

theorem test_witness_empty_queue_slot_of_a_frame :
    (knows peer (linked (.slot false 1) [] { running with blc := { running.blc with
      rx := some { frame := .withdraw 5, inConfig := false } } })).blc.rx.isSome = true := by decide

theorem test_witness_WhatTheBlocksReadOfEachOther : running.bsq.phase = .vacant ∧ running.blc.queue = [] ∧
    (drawing .onShore).bsq.phase = .onShore ∧ (drawing .onShore).currentDraw = none ∧
    (∀ d ∈ [950, 951], ({ drawing .onShore with mtp := { draw := some d, stale := false } } : State).currentDraw = some d) ∧
    (∀ n ∈ [0, 1], (linked .idle [{ queued .announce with collisions := n }] running).blc.queue =
      [{ queued .announce with collisions := n }]) ∧
    running.svp.station = some station2 ∧ station2.address ≤ 15 := by decide

/-- The least and the greatest figures of R181 and R158. -/
def stationLeast : StationRecord :=
  { station2 with address := 0, margin := 0, announceInterval := 100, holdWindow := 50, reserveBackoffUnit := 10,
                  forgetInterval := 10, breakerTime := 20, vesselLinkTimeout := 100, linkLossInterval := 1,
                  meterStaleInterval := 20, stuckBreakerClaim := 10, pilot := { kind := 0, delay := 0 } }

/-- The greatest. -/
def stationGreatest : StationRecord :=
  { station2 with address := 15, margin := 5000, announceInterval := 2000, holdWindow := 5000, reserveBackoffUnit := 500,
                  forgetInterval := 3600, breakerTime := 2000, vesselLinkTimeout := 2000, linkLossInterval := 120,
                  meterStaleInterval := 1000, stuckBreakerClaim := 16383, pilot := { kind := 1, delay := 1000 },
                  tadv := { kind := 2, delay := 1000 } }

set_option synthInstance.maxHeartbeats 400000 in
set_option synthInstance.maxSize 2000 in
theorem test_witness_LoadStationTakesTheWholeRecord : configured.svp.mode = .config ∧
    (∀ r ∈ [station2, stationLeast, stationGreatest], StationRanges r) ∧
    ∀ r ∈ [{ stationLeast with announceInterval := 99 }, { stationGreatest with margin := 5001 },
           { station2 with address := 16 }, { station2 with tadv := { kind := 3, delay := 0 } }], ¬StationRanges r := by
  decide

set_option synthInstance.maxHeartbeats 400000 in
set_option synthInstance.maxSize 2000 in
theorem test_witness_LoadProfileAndScheduleMode : configured.svp.mode = .config ∧
    (∀ p ∈ [profileArgs, { profileArgs with minFirm := 1200 }, { profileArgs with maxFirm := 16133 }], ProfileRanges p) ∧
    ∀ p ∈ [{ profileArgs with minFirm := 1201 }, { profileArgs with maxFirm := 16134 }, { profileArgs with slot := 16 },
           { profileArgs with expectedId := 0 }], ¬ProfileRanges p := by decide

theorem test_witness_LoadPeriodKeepsTheListWithoutGap :
    (0 ≤ 15 ∧ 0 ≤ State.reset.csc.periods.length ∧ 60000 ≤ 60000 ∧ 1 ≤ 1 ∧ 1 ≤ 255) ∧
    (2 = configured.csc.periods.length ∧ 1 < configured.csc.periods.length) ∧
    ¬(3 ≤ configured.csc.periods.length) ∧ State.reset.svp.mode = .config := by decide

theorem test_witness_RefusedCommandsChangeNothing : running.svp.mode ≠ .config ∧ running.tru.record = none ∧
    (∀ s ∈ [tripped false, line .estop true (tripped true), line .fdrwarn true (tripped true),
            { tripped true with mtp := { draw := some 151, stale := false } }],
      s.svp.mode ≠ .config ∧ s.tru.record.isSome = true ∧
        (s.auxClosed = true ∨ s.openConfirmed = false ∨ s.estopActive = true ∨ s.warningActive = true ∨
          (∃ d ∈ s.currentDraw, s.figures.overdrawTolerance < d))) ∧
    (running.pvt[(2 : Address)].standing = .own ∧ running.pvt[(5 : Address)].standing = .empty) ∧
    State.reset.svp.mode = .config ∧ State.reset.svp.station = none ∧ State.reset.svp.snapshot = none ∧
    ({ running with svp := { running.svp with snapshot := some running.snapshotNow } } : State).svp.snapshot.isSome =
      true := by decide

theorem test_witness_StartAcceptedMovesToListen :
    ∀ s ∈ [configured, line .pilot true configured, line .estop true (line .pilot true configured),
           line .bkaux true configured, line (.tsel 1) true { configured with csc := { configured.csc with mode := .selected } },
           { configured with csc := { configured.csc with mode := .stepped } }],
      ConfigQuiet s ∧ s.svp.mode = .config ∧ s.svp.station = some station2 ∧
        s.csc.periods = [{ capacity := 10400, executions := 2 }, { capacity := 9000, executions := 1 }] := by decide

theorem test_witness_ReadPeerAndProbeOnlyAnswer : running.svp.mode ≠ .config ∧ running.profile = none ∧
    (berth .onShore).profile = some (profileOfArgs profileArgs) := by decide

theorem test_witness_QueueOperationsKeepOneFrameOfEachKind :
    (linked (.own 0) [queued .announce] running).blc.holds 1 = true ∧ running.blc.holds 1 = false ∧
    (∀ l ∈ [LinkPhase.own 0, .ending 9, .ownSlot 16, .jam 16, .collided 10],
      (linked l [queued .announce] running).blc.inTransmission = true) ∧
    (queued (.reserve 900 .flexRaise)).isReserve = true ∧
    ∀ l ∈ [LinkPhase.idle, .foreign, .slot true 0],
      (linked l [queued .announce] running).blc.inTransmission = false := by decide

theorem test_witness_ClaimChangeReachesEveryBlock : ∀ s ∈ [running, drawing .parallel, drawing .onShore], GrantBounds s := by
  decide

theorem test_witness_TripIsCarriedOutInOneEvent :
    (∃ r ∈ (tripped true).tru.record, r.later.has .pilotLost = false ∧ (r.later.add .linkLost).has .linkLost = true) ∧
    (tripped true).bsq.phase = .tripped ∧
    ((drawing .onShore).auxClosed = true ∧ (drawing .onShore).bsq.serving = none) ∧
    (({ connected .deEnergising with bsq := { (connected .deEnergising).bsq with serving := some .openCmd } } : State).bsq.serving
      ≠ none) ∧ (berth .energising).auxClosed = false := by decide

theorem test_witness_BoundarySamplesTheLinesAndCountsTheTimers :
    State.reset.tmb.boundary = 0 ∧ running.tmb.boundary ≠ 0 := by decide

theorem test_witness_QualifiedChangeSettlesItsLine :
    (due (.pcode 3) true running).changeDue (.pcode 3) true = true ∧ running.changeDue (.pcode 3) true = false ∧
    (due .tadv false (line .tadv true running)).lineDue .tadv false = true ∧
    (due .tadv false (line .tadv true running)).edgeDue .tadv = false ∧ (due .tadv true running).edgeDue .tadv = true ∧
    (∀ l ∈ [Line.pilot, .bkaux, .estop, .fdrwarn, .tsel 0],
      (due l true configured).changeDue l true = true ∧ (due l false configured).changeDue l false = true ∧
        running.changeDue l true = false ∧ running.changeDue l false = false) ∧
    (due .trst true configured).edgeDue .trst = true ∧ configured.svp.mode = .config ∧
    (due .tadv true running).lineDue .tadv true = true ∧ running.lineDue .tadv true = false ∧
    (∀ n ∈ [(0 : Fin 4), 3], (due (.tsel 3) true (due (.tsel 0) true running)).lineDue (.tsel n) true = true) := by decide

theorem test_witness_PilotProvenPlugsAndPilotLostUnplugsOrTrips :
    (∀ s ∈ [due .pilot true (berth .tripped), due .pilot true running, due .pilot true (line .estop true running)],
      ready s = true ∧ s.changeDue .pilot true = true) ∧
    (∀ s ∈ [due .pilot false (berth .plugged), due .pilot false (berth .queued), due .pilot false (drawing .onShore),
            due .pilot false (tripped false), due .pilot false (tripped true), due .pilot false running],
      ready s = true ∧ s.changeDue .pilot false = true) ∧
    (line .estop true running).tru.estopHeld = false ∧ (drawing .onShore).bsq.phase.energised = true ∧
    (tripped true).openConfirmed = true ∧ (tripped false).openConfirmed = false := by decide

/-- A berth that holds a given ship record. -/
def holding (r : ShipRecord) (s : State) : State := { s with vlp := { s.vlp with held := some r } }

theorem test_witness_AuxClosureEndsTheCloseOrTripsTheBerth :
    (∀ s ∈ [due .bkaux true (berth .energising), due .bkaux true (holding { ship with request := .none } (berth .energising)),
            due .bkaux true (holding { ship with breakerClosed := true } (berth .energising)),
            due .bkaux true (berth .vacant), due .bkaux true (berth .plugged), due .bkaux true (berth .queued),
            due .bkaux true (line .fdrwarn true (berth .plugged)), due .bkaux true (line .estop true (berth .vacant)),
            due .bkaux true (line .fdrwarn true (line .estop true (berth .vacant))), due .bkaux true (tripped true),
            due .bkaux true (berth .awaitSync), due .bkaux true (berth .onShore)],
      ready s = true ∧ s.changeDue .bkaux true = true ∧ s.auxClosed = false ∧ s.tru.feederHeld = false ∧
        s.tru.estopHeld = false ∧ LevelKinds s) ∧
    ((berth .energising).requests .shore = true ∧ (berth .energising).vlp.link ≠ .lost) := by decide

theorem test_witness_AuxOpeningCompletesTheOpen :
    ∀ p ∈ [Phase.deEnergising, .awaitSync, .onShore, .tripped, .vacant, .plugged, .queued, .energising],
      ready (due .bkaux false (connected p)) = true ∧ (due .bkaux false (connected p)).changeDue .bkaux false = true := by
  decide

theorem test_witness_EstopAndFeederWarningTripOrHoldBack :
    (∀ s ∈ [due .estop true running, due .estop true (drawing .onShore)],
      ready s = true ∧ LevelKinds s ∧ s.changeDue .estop true = true ∧ s.tru.estopHeld = false) ∧
    (ready (due .estop false running) = true ∧ LevelKinds (due .estop false running) ∧
      (due .estop false running).changeDue .estop false = true) ∧
    ∀ s ∈ [due .fdrwarn false (berth .plugged), due .fdrwarn false running, due .fdrwarn true (berth .queued),
           due .fdrwarn true (berth .energising), due .fdrwarn true (drawing .onShore), due .fdrwarn true (berth .plugged)],
      ready s = true ∧ LevelKinds s ∧ (s.changeDue .fdrwarn true = true ∨ s.changeDue .fdrwarn false = true) ∧
        s.tru.feederHeld = false := by decide

/-- A part in a schedule mode at a record with some executions remaining. -/
def scheduled (m : ScheduleMode) (remaining : Nat) : State :=
  { running with csc := { running.csc with mode := m, remaining := remaining } }

theorem test_witness_TariffEventsMoveTheSchedule :
    (∀ s ∈ [due .tadv true (scheduled .stepped 2), due .tadv true (scheduled .stepped 1), due .tadv true (scheduled .fixed 0)],
      ready s = true ∧ s.edgeDue .tadv = true) ∧
    (∀ s ∈ [due .trst true (scheduled .stepped 2), due .trst true (scheduled .selected 0)],
      ready s = true ∧ s.edgeDue .trst = true) ∧
    (∀ n ∈ [(0 : Fin 4), 1], ready (due (.tsel n) true (scheduled .selected 0)) = true ∧
      (due (.tsel n) true (scheduled .selected 0)).changeDue (.tsel n) true = true) ∧
    (settleActive (.tsel 0) true (scheduled .selected 0)).selectCode.val < 2 ∧
    2 ≤ (settleActive (.tsel 1) true (scheduled .selected 0)).selectCode.val ∧
    (let s := due (.tsel 0) true (due (.tsel 1) true (scheduled .selected 0))
     ready s = true ∧ s.changeDue (.tsel 0) true = true ∧ s.changeDue (.tsel 1) true = true) ∧
    ((∃ p ∈ running.csc.periods, p.capacity = 9000) ∧ ∀ p ∈ running.csc.periods, 9000 ≤ p.capacity) := by decide

theorem test_witness_ClearTripAndBerthHoldAccepted :
    (∀ s ∈ [tripped true, line .pilot false (tripped true), { tripped true with mtp := { draw := some 150, stale := false } }],
      ready s = true ∧ s.tru.record.isSome = true ∧ s.auxClosed = false ∧ s.openConfirmed = true ∧ s.estopActive = false ∧
        s.warningActive = false ∧ ∀ d ∈ s.currentDraw, d ≤ s.figures.overdrawTolerance) ∧
    (berth .plugged).bsq.hostHold = decide (0 = 1) ∧ (berth .plugged).bsq.hostHold ≠ decide (1 = 1) ∧
    ready (berth .plugged) = true := by decide

theorem test_witness_ChangedBitsDropAQueuedReserve :
    ready (knows peer running) = true ∧ (knows peer running).pvt[(5 : Address)].standing = .live ∧
    (∀ e ∈ [{ peer with standing := .silent, missed := 3, silentElapsed := 1000 },
            { peer with standing := .silent, missed := 3, silentElapsed := 1000, heard := false, silentAge := 58 },
            { peer with standing := .silent, missed := 3, silentElapsed := 1000, heard := false, silentAge := 59 }],
      ready (knows e running) = true ∧ (knows e running).pvt[(5 : Address)] = e ∧ e.standing = .silent ∧
        1000 ≤ e.silentElapsed) ∧
    (∀ r ∈ [{ amount := 900, cls := ReserveClass.flexRaise, age := 1, elapsed := 300 : Reserved },
            { amount := 900, cls := .flexRaise, age := 2, elapsed := 300 },
            { amount := 900, cls := .firmEnergise, age := 2, elapsed := 300 }],
      (knows { peer with reserved := some r } running).pvt[(5 : Address)].reserved = some r ∧
        running.station.holdWindow ≤ r.elapsed) := by decide

theorem test_witness_ShipRecordsAreJudgedAndTaken : shipRecordIn (sends ship) = some ship ∧
    shipRecordIn (sends { ship with breakerClosed := true, generators := .syncing }) =
      some { ship with breakerClosed := true, generators := .syncing } ∧
    shipRecordIn (sends { ship with vesselId := 0 }) = none ∧ checkGood (List.replicate 12 0) = false ∧
    (∀ r ∈ [ship, { ship with vesselId := 0 }], wholeRecord (sends r) = true ∧
      (assemble (sends r)).bytes.length = 12 ∧ checkGood (assemble (sends r)).bytes = true ∧
      wholeRecord (sends r).dropLast = false) ∧
    ((assemble (sends { ship with breakerClosed := true, generators := .off })).bytes.getD 3 0).toNat = 33 ∧
    (∀ p ∈ [Phase.vacant, .energising, .deEnergising, .tripped], ready (berth p) = true) := by decide +kernel

theorem test_witness_ShipRecordsQueueAndReturnTheBerth : shipRecordIn (sends ship) = some ship ∧
    shipRecordIn (sends { ship with request := .none }) = some { ship with request := .none } ∧
    shipRecordIn (sends { ship with vesselId := 2118 }) = some { ship with vesselId := 2118 } ∧
    ready (berth .plugged) = true ∧ ready (berth .queued) = true ∧
    (berth .queued).figures.expectedId = some 2117 := by decide +kernel

/-- The records that move the changeover, each against one held before. -/
def moves : List (ShipRecord × ShipRecord) :=
  [({ ship with request := .none }, ship), ({ ship with breakerClosed := true }, ship),
   ({ ship with breakerClosed := true, generators := .off }, ship), ({ ship with generators := .syncing }, ship),
   (ship, ship), ({ ship with request := .back }, { ship with breakerClosed := true }),
   (ship, { ship with breakerClosed := true }), ({ ship with generators := .off }, { ship with breakerClosed := false })]

theorem test_witness_ShipRecordsMoveTheChangeover :
    (∀ m ∈ moves, shipRecordIn (sends m.1) = some m.1) ∧
    (∀ p ∈ [Phase.awaitSync, .parallel, .onShore, .transferBack], ∀ m ∈ moves,
      ready (holding m.2 (drawing p)) = true ∧ (holding m.2 (drawing p)).vlp.held = some m.2) := by decide +kernel

theorem test_witness_MeterSamplesAndTheirStaleness : ready (drawing .onShore) = true ∧ configured.started = false ∧
    ((allDue running).tmb.meterStale.left = some 0 ∧ ready (allDue running) = true) ∧
    running.tmb.meterStale.left ≠ some 0 ∧ ([true] : List Bool).length ≠ 16 := by decide

theorem test_witness_OutputPortsSendTheLatestFields : State.reset.gos.port = .sending 0 0 ∧
    ({ running with gos := { running.gos with port := .idle } } : State).gos.port = .idle ∧
    (∀ n ∈ [49, 50], ∀ x ∈ [SenderState.idle, .sending, .gap],
      ({ running with vlp := { running.vlp with sender := x, statusCount := n, lastSent := some running.statusNow } } : State).vlp.lastSent
        = some running.statusNow) ∧
    State.reset.vlp.sender ≠ .sending ∧ ∀ x ∈ [SenderState.idle, .sending, .gap],
      ({ running with vlp := { running.vlp with sender := x } } : State).vlp.sender = x := by decide

/-- A part whose reserve stands in a state with 900 kW of flex. -/
def reserving (x : ReserveState) (s : State) : State :=
  { s with rsu := { s.rsu with state := x, amount := 900, cls := some .flexRaise } }

theorem test_witness_ReceivedTransmissionsAreJudgedAtTheirEnd :
    (∀ s ∈ [running, configured, reserving .hold running, reserving .queued running,
            { running with blc := { running.blc with conflict := true } }],
      s.calm = true ∧ s.blc.link ≠ .foreign ∧ (linked .foreign [] s).blc.link = .foreign ∧
        (linked .foreign [] s).calm = true) ∧
    (checkGood (Frame.reserve 5 900 .flexRaise).bytes = true ∧ checkGood (withCheck [0x40]) = true ∧
      checkGood [0x40, 0, 0] = false) ∧
    judge { bytes := (Frame.reserve 5 900 .flexRaise).bytes, framingError := false } = .good (.reserve 5 900 .flexRaise) ∧
    judge { bytes := (Frame.withdraw 2).bytes, framingError := false } = .good (.withdraw 2) ∧
    judge { bytes := withCheck [0x40], framingError := false } = .discarded ∧ running.ownAddress = 2 ∧
    (linked (.own 0) [queued .withdraw] running).blc.link ≠ .foreign ∧ wholeTransmission [] = false ∧
    ∀ bs ∈ [(Frame.reserve 5 900 .flexRaise).bytes, (Frame.withdraw 2).bytes, withCheck [0x40], [0x40, 0, 0]],
      wholeTransmission (received bs) = true ∧ assemble (received bs) = { bytes := bs, framingError := false } := by
  decide +kernel

/-- A part in which the objection slot of a buffered frame has run through. -/
def buffered (f : Frame) (driving inConfig : Bool) (s : State) : State :=
  { s with blc := { s.blc with link := .slot driving 0, rx := some { frame := f, inConfig := inConfig } } }

theorem test_witness_ReceivedFramesEnterTheTable :
    (∀ f ∈ [Frame.announce 5 (announceOf peer), .announce 5 { announceOf peer with firm := 801 }, .reserve 5 900 .flexRaise,
            .withdraw 5, .withdraw 2], ∀ d ∈ [true, false], ∀ c ∈ [true, false],
      ready (buffered f d c (knows peer running)) = true ∧
        (buffered f d c (knows peer running)).blc.link = .slot d 0 ∧
        (buffered f d c (knows peer running)).blc.rx = some { frame := f, inConfig := c }) ∧
    (∀ d, (linked (.slot true 1) [] running).blc.link ≠ .slot d 0) ∧
    (buffered (.withdraw 5) false true configured).started = false ∧
    (knows { peer with reserved := some { amount := 900, cls := .flexRaise, age := 0, elapsed := 0 } }
      running).pvt[(5 : Address)].reserved ≠ none ∧
    (((driven 3).toList.drop 4).take 8).count true = 3 ∧ (((driven 4).toList.drop 4).take 8).count true = 4 ∧
    running.blc.rx = none := by
  decide +kernel

/-- A pair idle for a number of bit times. -/
def waited (n : Nat) (s : State) : State := { s with blc := { s.blc with idleCount := n } }

theorem test_witness_AttemptsSendTheHeadFrame :
    (∀ c ∈ [TxContent.announce, .reserve 900 .flexRaise, .withdraw], ∀ k ∈ [(0, 48), (1, 240), (0, 47), (1, 239)],
      let s := waited k.2 (linked .idle [{ queued c with collisions := k.1 }] running)
      ready s = true ∧ s.blc.queue = [{ queued c with collisions := k.1 }] ∧ s.blc.idleCount = k.2) ∧
    (running.ownAddress.val + 1) * 64 + 48 = 240 ∧ running.blc.queue = [] ∧ configured.started = false ∧
    running.blc.link = .idle ∧
    (∀ l ∈ [LinkPhase.ending 9, .collided 9, .collided 10], (linked l [queued .withdraw] running).blc.link = l) ∧
    (linked (.slot false 3) [] running).blc.link = .slot false 3 := by decide

theorem test_witness_CollidedAttemptsRetryOrAreDropped :
    (∀ l ∈ [LinkPhase.own 2, .own 1, .jam 1, .collided 9, .collided 10],
      ∀ c ∈ [TxContent.announce, .reserve 900 .flexRaise, .withdraw], ∀ n ∈ [15, 16],
      ∀ m ∈ [true, false],
        let s := linked l [{ content := c, collisions := n, refresh := m, abandoned := !m }] (reserving .sent running)
        ready s = true ∧ s.blc.link = l ∧
          s.blc.queue = [{ content := c, collisions := n, refresh := m, abandoned := !m }]) ∧
    (∀ i ∈ [1, 2], (sending i (.withdraw 2) [queued .withdraw] running).blc.onWire = some (.withdraw 2) ∧
      ready (sending i (.withdraw 2) [queued .withdraw] running) = true) ∧
    (Frame.withdraw 2).levels[1]? = some true ∧ (Frame.withdraw 2).levels[2]? = some false := by decide +kernel

theorem test_witness_OwnSlotsSettleTheSentFrame :
    (∀ c ∈ [TxContent.announce, .reserve 900 .flexRaise, .withdraw], ∀ m ∈ [true, false],
      let s := linked (.ownSlot 0) [{ content := c, collisions := 0, refresh := m, abandoned := m }] (reserving .sent running)
      ready s = true ∧ s.blc.link = .ownSlot 0 ∧ s.rsu.state = .sent) ∧
    (linked (.ownSlot 1) [queued .withdraw] running).blc.link ≠ .ownSlot 0 ∧
    (((driven 3).toList.drop 4).take 8).count true = 3 ∧ (((driven 4).toList.drop 4).take 8).count true = 4 := by decide

theorem test_witness_AnnounceAndListenExpiries :
    (∀ s ∈ [allDue running, allDue (berth .plugged), allDue (knows { peer with heard := false, missed := 2 } running)],
      ready s = true ∧ s.tmb.announce.left = some 0 ∧ s.tmb.listen.left = some 0) ∧
    (∃ a : Address, (allDue (knows { peer with heard := false, missed := 2 } running)).pvt[a].standing = .live ∧
      (allDue (knows { peer with heard := false, missed := 2 } running)).pvt[a].heard = false ∧
      2 ≤ (allDue (knows { peer with heard := false, missed := 2 } running)).pvt[a].missed) ∧
    ¬(∃ a : Address, running.pvt[a].standing = .live) ∧ running.tmb.announce.left ≠ some 0 ∧
    running.tmb.listen.left ≠ some 0 := by decide

/-- A berth in QUEUED whose energise reserve is in HOLD, with a capacity. -/
def admitted (pc : Nat) : State :=
  let s := allDue (berth .queued)
  { s with rsu := { s.rsu with state := .hold, amount := 950, cls := some .firmEnergise }, csc := { s.csc with pc := pc } }

theorem test_witness_HoldAndBackoffExpiriesSettleTheReserve :
    (∀ s ∈ [allDue (reserving .hold (drawing .onShore)), admitted 10400, admitted 1000],
      ready s = true ∧ s.tmb.hold.left = some 0 ∧ s.warningActive = false) ∧
    (admitted 1350).figuresNow.h = 0 ∧ (admitted 1349).figuresNow.h = -1 ∧ (admitted 1349).rsu.amount ≠ 0 ∧
    (reserving .hold (drawing .onShore)).rsu.cls = some .flexRaise ∧
    (ready (allDue (reserving .backoff running)) = true ∧
      (allDue (reserving .backoff running)).tmb.reserveBackoff.left = some 0) ∧
    running.tmb.reserveBackoff.left ≠ some 0 ∧ running.tmb.hold.left ≠ some 0 := by decide +kernel

/-- A part whose breaker timer is due for a command. -/
def serving (c : Option BreakerCommand) (s : State) : State := { allDue s with bsq := { s.bsq with serving := c } }

theorem test_witness_BreakerTimerExpiryFailsItsCommand :
    (∀ s ∈ [serving (some .close) (berth .energising), serving (some .resetPulse) running,
            serving (some .resetPulse) (tripped false), serving (some .openCmd) (connected .deEnergising),
            serving (some .openCmd) (berth .deEnergising), serving (some .openCmd) (tripped false),
            serving none (berth .plugged)],
      ready s = true ∧ s.tmb.breaker.left = some 0 ∧ (s.bsq.phase ≠ .vacant ∨ s.bsq.serving ≠ some .close)) ∧
    ((serving (some .resetPulse) configured).svp.mode = .config ∧
      (serving (some .resetPulse) configured).tmb.breaker.left = some 0) ∧ running.tmb.breaker.left ≠ some 0 := by decide

theorem test_witness_InrushSyncAndParallelExpiries :
    (∀ p ∈ [Phase.awaitSync, .parallel, .onShore], ready (allDue (drawing p)) = true ∧
      (allDue (drawing p)).tmb.inrush.left = some 0 ∧ (allDue (drawing p)).tmb.sync.left = some 0 ∧
      (allDue (drawing p)).tmb.parallel.left = some 0) ∧ running.tmb.inrush.left ≠ some 0 := by decide

/-- A drawing berth at a ramp tick, with its grant. -/
def ramping (p : Phase) (g : Gos) : State := { allDue (drawing p) with gos := g }

theorem test_witness_RampTicksStepTheGrant :
    (∀ p ∈ [Phase.parallel, .onShore, .transferBack, .plugged], ready (allDue (drawing p)) = true ∧
      (allDue (drawing p)).tmb.ramp.left = some 0) ∧ running.tmb.ramp.left ≠ some 0 ∧
    (let s := ramping .onShore { (drawing .onShore).gos with applied := 0 }
     s.vlp.link ≠ .lost ∧ s.gos.applied ≤ (s.vlp.held.map (·.echo)).getD 0 ∧ s.gos.applied < s.gos.target) ∧
    (let s := ramping .onShore { (drawing .onShore).gos with stall := 2 }
     ¬(s.gos.applied ≤ (s.vlp.held.map (·.echo)).getD 0) ∧ s.gos.stall + 1 = s.figures.stallLimit) ∧
    (ramping .onShore { (drawing .onShore).gos with suspended := true, stall := 3 }).gos.suspended = true ∧
    (ramping .onShore { (drawing .onShore).gos with target := 800 }).gos.target ≤ 800 ∧
    (ramping .transferBack { (drawing .transferBack).gos with applied := 0 }).gos.applied = 0 := by decide

theorem test_witness_VesselLinkLossAndTheTripsOfTimers :
    (∀ p ∈ [Phase.queued, .awaitSync, .onShore, .plugged], ready (allDue (berth p)) = true ∧
      (allDue (berth p)).tmb.linkTimeout.left = some 0 ∧ (berth p).vlp.link = .up) ∧
    (ready (allDue (drawing .onShore)) = true ∧ (allDue (drawing .onShore)).tmb.linkLoss.left = some 0 ∧
      (allDue (drawing .onShore)).tmb.overdraw.left = some 0 ∧ (drawing .onShore).bsq.phase ≠ .vacant) ∧
    running.tmb.linkTimeout.left ≠ some 0 ∧ running.vlp.link ≠ .up ∧ running.tmb.linkLoss.left ≠ some 0 ∧
    running.tmb.overdraw.left ≠ some 0 := by decide

/-- A part whose computation, begun with its inputs as they stand, is about to complete. -/
def computing (s : State) : State :=
  { s with hre := { s.hre with computing := some { inputs := s.ownInputs, seen := [s.readings], stale := false } } }

/-- What the computation in progress finds to do. -/
def finds (s : State) : Option Action :=
  s.hre.computing.map fun w => actionOf w.inputs (figuresOf w.inputs (peersOf s.ownAddress (readingsUsed s.freeCount w.seen)))

/-- A drawing berth with another capacity and another flexible demand. -/
def demands (pc flexDemand : Nat) : State :=
  let s := drawing .onShore
  computing { s with csc := { s.csc with pc := pc }, vlp := { s.vlp with clampedFlex := flexDemand } }

/-- A part with a given computation in progress. -/
def working (w : Working) (s : State) : State := { s with hre := { s.hre with computing := some w } }

/-- The inputs of a berth over its limit while settling after a cut. -/
def settling : Working :=
  { inputs := { (demands 1000 900).ownInputs with cutSettle := 1 }, seen := [running.readings], stale := false }

/-- A computation whose own inputs have changed. -/
def staleWork : Working := { inputs := running.ownInputs, seen := [running.readings], stale := true }

theorem test_witness_CompletionStoresFiguresAndHandsOnTheAction :
    (∀ s ∈ [computing running, demands 10400 0, demands 1000 900, demands 10400 900, computing (berth .queued)],
      ready s = true ∧ ∃ w ∈ s.hre.computing, w.stale = false) ∧
    finds (computing running) = some .none ∧ finds (demands 10400 0) = some (.release 0) ∧
    finds (demands 1000 900) = some (.cut 500) ∧ finds (working settling running) = some (.cutWithheld 500) ∧
    finds (demands 10400 900) = some (.raise 400) ∧ finds (computing (berth .queued)) = some (.energise 950) ∧
    finds (computing { berth .queued with csc := { running.csc with pc := 1349 } }) = some (.energiseWait 950) ∧
    ready (working staleWork running) = true := by decide +kernel

/-- The figures of the profile used here. -/
def figures4 : ProfileFigures := (profileOfArgs profileArgs).figures

theorem test_witness_StagesChooseTheAction :
    (demands 10400 900).ownInputs.profile = some figures4 ∧ (demands 10400 900).ownInputs.mode = .run ∧
    1 ≤ figures4.quantum ∧ (demands 10400 900).ownInputs.phase.pair = true ∧
    (computing (berth .queued)).ownInputs.phase = .queued ∧ running.ownInputs.profile = none := by decide

/-- Three stations with flex parts of 500, 300 and 0 kW and an excess of 401 kW: they cut 300, 160 and 0. -/
theorem test_witness_CutSharesTogetherCoverTheExcess : (∀ x ∈ [(50, 500), (10, 300), (1, 0)], 1 ≤ x.1) ∧
    0 < ([(50, 500), (10, 300), (1, 0)].map (·.2)).sum ∧ cutAmount 50 401 500 800 = 300 ∧ cutAmount 10 401 300 800 = 160 ∧
    cutAmount 1 401 0 800 = 0 := by decide

theorem test_witness_ServiceRecordsDecodeToTheirCommands : (Instr.loadProfile profileArgs).wf = true ∧
    (commandBytes (.loadProfile profileArgs)).isSome = true ∧ commandBytes .reset = none := by decide

theorem test_witness_FramesAndRecordsDecodeToTheirFields : (Frame.announce 15
      { phaseCode := 9, periodIndex := 15, firm := 16383, flex := 16383, transient := 4095, capacity := 60000,
        tripped := true, firmOverload := true, listening := true }).inRange = true ∧
    (Frame.reserve 0 16383 .firmEnergise).inRange = true ∧ (1 ≤ ship.vesselId ∧ ship.vesselId < 65536) ∧
    State.reset.svp.response = none ∧
    (∃ r ∈ (answer 13 .accepted [0x84, 0x03] running).svp.response,
      r.bytes.length = 9 ∧ r.bytes[8]?.isSome = true) := by decide

/-- A response to PROBE with 900 kW (R191) on SDO: code 0, count 1, kind 13, length 2, the data, the check of two bytes,
and the idle level after it; an empty buffer shows the idle level throughout (R179). -/
theorem test_sdo : (sdoBytes (answer 13 .accepted [0x84, 0x03] running) 10).take 7 =
      [some 0, some 1, some 13, some 2, some 0, some 0x84, some 0x03] ∧
    (sdoBytes (answer 13 .accepted [0x84, 0x03] running) 10)[9]? = some none ∧
    sdoBytes State.reset 2 = [none, none] := by decide

/-! ### The worked sequences of the data book, step by step -/

/-- The state that a command gives. -/
def after (c : Instr) (s : State) : State :=
  match exec c s with
  | .next t => t
  | _       => s

/-- The berth of section 1.11: the peers' counted claims sum to 5,100 kW, the demands are 650 and 2,000 kW. -/
def evening (p : Phase) : State :=
  let s := knows { peer with firm := 5100, flex := 0 } (berth p)
  { s with vlp := { s.vlp with held := some { ship with firmDemand := 650, flexDemand := 2000 }
                               clampedFirm := 650, clampedFlex := 2000 } }

/-- The same with the aux closed, firm 650 kW, and its flex, transient and target. -/
def evening2 (p : Phase) (flex transient : Nat) : State :=
  let s := line .bkaux true (evening p)
  { s with bsq := { s.bsq with firm := 650, flex := flex, transient := transient, voltagePresent := true }
           gos := { s.gos with target := 650 + flex } }

/-- A sequence in which the own reserve waits in HOLD and its hold timer is due. -/
def holds (n : Nat) (c : ReserveClass) (s : State) : State :=
  { s with rsu := { s.rsu with state := .hold, amount := n, cls := some c }
           tmb := { s.tmb with hold := { interval := 300, left := some 0 } } }

/-- Section 1.11: pilot proven, with the PCODE lines giving 4. -/
theorem test_pilotProven :
    (after .pilotProven (due .pilot true (line (.pcode 2) true running))).bsq.phase = .plugged ∧
    (after .pilotProven (due .pilot true (line (.pcode 2) true running))).bsq.profileCode = some 4 := by decide +kernel

/-- Section 1.11: the ship record with request SHORE queues the berth, and a computation begins. -/
theorem test_shipStatusRecord_queues :
    (after (.shipStatusRecord (sends { ship with firmDemand := 650, flexDemand := 2000 })) (evening .plugged)).bsq.phase
      = .queued ∧
    (after (.shipStatusRecord (sends { ship with firmDemand := 650, flexDemand := 2000 }))
      (evening .plugged)).hre.computing.isSome = true := by decide +kernel

/-- Section 1.11: need = 650 + 250 = 900 is wanted as FIRM_ENERGISE with H = 4,900. -/
theorem test_computationComplete_energise :
    (after .computationComplete (computing (evening .queued))).rsu =
      { state := .queued, amount := 900, cls := some .firmEnergise, refusedOnLink := false } ∧
    (after .computationComplete (computing (evening .queued))).hre.h = 4900 := by decide +kernel

/-- Section 1.11: the energise commit closes the breaker with firm 650 and transient 250. -/
theorem test_holdExpiry_energise :
    (after .holdExpiry (holds 900 .firmEnergise (evening .queued))).bsq.phase = .energising ∧
    (after .holdExpiry (holds 900 .firmEnergise (evening .queued))).bsq.firm = 650 ∧
    (after .holdExpiry (holds 900 .firmEnergise (evening .queued))).bsq.transient = 250 ∧
    (after .holdExpiry (holds 900 .firmEnergise (evening .queued))).bsq.bkClose = true := by decide +kernel

/-- Section 1.11: the aux reads closed, the inrush timer runs 5,000 ms and the sync window 60 s. -/
theorem test_auxReadsClosed :
    (after .auxReadsClosed (due .bkaux true (evening .energising))).bsq.phase = .awaitSync ∧
    (after .auxReadsClosed (due .bkaux true (evening .energising))).tmb.inrush.left = some 5000 ∧
    (after .auxReadsClosed (due .bkaux true (evening .energising))).tmb.sync.left = some 60000 ∧
    (after .auxReadsClosed (due .bkaux true (evening .energising))).bsq.voltagePresent = true := by decide +kernel

/-- R164: an inrush window of 0 is put in force at the start, and transient is zeroed at once. -/
theorem test_auxReadsClosed_no_window :
    let e := due .bkaux true (evening .energising)
    let p := profileOfArgs { profileArgs with inrushWindow := 0 }
    let s : State := { e with bsq := { e.bsq with transient := 250 }
                              tmb := { e.tmb with inrush := { interval := 5000, left := none } }
                              vlp := { e.vlp with slots := e.vlp.slots.set 4 (some p) } }
    (after .auxReadsClosed s).tmb.inrush = { interval := 0, left := none } ∧
    (after .auxReadsClosed s).bsq.transient = 0 := by decide +kernel

/-- Section 1.11: the ship breaker CLOSED leads to PARALLEL with a limit of 300 s. -/
theorem test_shipStatusRecord_parallel :
    (after (.shipStatusRecord (sends { ship with breakerClosed := true })) (evening2 .awaitSync 0 250)).bsq.phase =
      .parallel ∧
    (after (.shipStatusRecord (sends { ship with breakerClosed := true }))
      (evening2 .awaitSync 0 250)).tmb.parallel.left = some 300000 := by decide +kernel

/-- Section 1.11: R0 = min(2,000, 4,000, 1,000) = 1,000 is wanted as FLEX_RAISE. -/
theorem test_computationComplete_raise :
    (after .computationComplete (computing (evening2 .parallel 0 250))).rsu =
      { state := .queued, amount := 1000, cls := some .flexRaise, refusedOnLink := false } := by decide +kernel

/-- Section 1.11: the commit of 1,000 kW makes T 1,650 kW. -/
theorem test_holdExpiry_flex :
    (after .holdExpiry (holds 1000 .flexRaise (evening2 .parallel 0 250))).bsq.flex = 1000 ∧
    (after .holdExpiry (holds 1000 .flexRaise (evening2 .parallel 0 250))).gos.target = 1650 := by decide +kernel

/-- Section 1.11: inrush expiry zeroes transient alone. -/
theorem test_inrushExpiry : (after .inrushExpiry (allDue (evening2 .parallel 1000 250))).bsq.transient = 0 ∧
    (after .inrushExpiry (allDue (evening2 .parallel 1000 250))).bsq.flex = 1000 := by decide +kernel

/-- The ramp of section 1.12 or 5.10: A and P given, with firm 650 and flex as given. -/
def ramp (p : Phase) (flex a pending stall : Nat) (suspended : Bool) (echo : Nat) : State :=
  let s := evening2 p flex 0
  { s with gos := { s.gos with applied := a, pending := pending, stall := stall, suspended := suspended, port := .idle }
           vlp := { s.vlp with held := some { ship with echo := echo, breakerClosed := true } }
           tmb := { s.tmb with ramp := { interval := 1000, left := some 0 } } }

/-- Section 1.12: A falls by 400 kW and flex is A less 650, or 0. -/
theorem test_rampTick_down :
    ((after .rampTick (ramp .transferBack 2000 2650 2650 0 false 0)).gos.applied = 2250 ∧
      (after .rampTick (ramp .transferBack 2000 2650 2650 0 false 0)).bsq.flex = 1600) ∧
    ((after .rampTick (ramp .transferBack 0 650 650 0 false 0)).gos.applied = 250 ∧
      (after .rampTick (ramp .transferBack 0 650 650 0 false 0)).bsq.flex = 0) := by decide +kernel

/-- Section 5.10: a step taken, a stall, and the stall that reaches the limit. -/
theorem test_rampTick_up :
    (after .rampTick (ramp .onShore 2000 1050 1050 0 false 1050)).gos =
      { target := 2650, pending := 1250, applied := 1250, stall := 0, suspended := false, port := .sending 1250 0,
        updateCount := 0 } ∧
    (after .rampTick (ramp .onShore 2000 1250 1250 0 false 1050)).gos =
      { target := 2650, pending := 1450, applied := 1250, stall := 1, suspended := false, port := .idle,
        updateCount := 0 } ∧
    (after .rampTick (ramp .onShore 1600 1250 1450 2 false 1050)).gos.suspended = true := by decide +kernel

/-- Section 5.10: the echo of 1,250 kW releases the suspension and does not raise A. -/
theorem test_shipStatusRecord_echo :
    (after (.shipStatusRecord (sends { ship with echo := 1250, breakerClosed := true }))
      (ramp .onShore 1600 1250 1450 3 true 1050)).gos =
      { target := 2250, pending := 1450, applied := 1250, stall := 0, suspended := false, port := .idle,
        updateCount := 0 } := by decide +kernel

/-- Section 5.10: the link becomes LOST, and T, P and A fall to the firm claim at once. -/
theorem test_vesselLinkTimeout :
    (after .vesselLinkTimeout (allDue (ramp .onShore 1600 1450 1450 0 false 1250))).gos =
      { target := 650, pending := 650, applied := 650, stall := 0, suspended := false, port := .sending 650 0,
        updateCount := 0 } ∧
    (after .vesselLinkTimeout (allDue (ramp .onShore 1600 1450 1450 0 false 1250))).tmb.linkLoss.left = some 10000 := by
  decide +kernel

/-- R101: a tick that finds A already 0 leaves A, P and the claim as they are. Log entry 26. -/
theorem test_rampTick_at_zero :
    (after .rampTick (ramp .transferBack 300 0 0 0 false 0)).bsq.flex = 300 ∧
    (after .rampTick (ramp .transferBack 300 0 0 0 false 0)).blc.holds 1 = true := by decide +kernel

/-- Section 1.12: the ship opens its breaker; A is 0 at once and the open is commanded. -/
theorem test_shipStatusRecord_opens :
    let t := after (.shipStatusRecord (sends { ship with request := .back })) (ramp .transferBack 0 250 250 0 false 0)
    t.bsq.phase = .deEnergising ∧ t.gos.applied = 0 ∧ t.bsq.firm = 650 ∧ t.bsq.bkOpen = true ∧
      t.tmb.breaker.left = some 400 := by decide +kernel

/-- Section 1.12: the aux opens in DE_ENERGISING; the claim is zeroed, and a request of NONE holds the berth. -/
theorem test_auxReadsOpen :
    let t := after .auxReadsOpen (due .bkaux false (holding { ship with request := .none } (evening2 .deEnergising 0 0)))
    t.bsq.phase = .plugged ∧ t.bsq.firm = 0 ∧ t.bsq.bkOpen = false ∧ t.bsq.voltagePresent = false := by decide +kernel

/-- Section 1.12: the plug withdrawn in PLUGGED. -/
theorem test_pilotLost : (after .pilotLost (due .pilot false (evening .plugged))).bsq.phase = .vacant ∧
    (after .pilotLost (due .pilot false (evening .plugged))).bsq.profileCode = none := by decide +kernel

/-- Section 2.7: the fourth check after the last frame finds the third miss and turns the entry SILENT. -/
theorem test_announceTimerExpiry :
    (after .announceTimerExpiry (allDue (knows { peer with heard := true } running))).pvt[(5 : Address)] =
      { peer with heard := false, missed := 0 } ∧
    (after .announceTimerExpiry (allDue (knows { peer with heard := false, missed := 2 } running))).pvt[(5 : Address)].standing
      = .silent := by decide +kernel

/-- Section 2.7: the ageing step at a forget interval of 60 s empties the entry. -/
theorem test_silentAgeingStep :
    let e : PeerEntry := { peer with standing := .silent, heard := false, missed := 3, silentElapsed := 1000 }
    (after (.silentAgeingStep 5) (knows e running)).pvt[(5 : Address)].silentAge = 1 ∧
    (after (.silentAgeingStep 5) (knows { e with silentAge := 59 } running)).pvt[(5 : Address)].standing = .empty := by
  decide +kernel

/-- Section 3.7: station 11's backoff with a unit of 50 ms is 12 × 50 = 600 ms after a driven slot. -/
theorem test_ownSlotEnd :
    let s := linked (.ownSlot 0) [queued (.reserve 1000 .flexRaise)] (reserving .sent
      { running with svp := { running.svp with station := some { station2 with address := 11, reserveBackoffUnit := 50 } } })
    (after (.ownSlotEnd (driven 8)) s).tmb.reserveBackoff.left = some 600 ∧
    (after (.ownSlotEnd (driven 3)) s).rsu.state = .hold := by decide +kernel

/-- Section 4.12: 1,550 × 1,100 / 7,300 rounds up to 234 and to 250; 450 × 1,100 / 6,200 to 80 and to 100. Section 4.13:
H = −500 and R = 1,200 commit 700. -/
theorem test_cut_and_commit_arithmetic : cutAmount 50 1550 1100 7300 = 250 ∧ cutAmount 50 450 1100 6200 = 100 ∧
    flexCommit 50 1200 (-500) = 700 := by decide +kernel

/-- The schedule of section 6.9. -/
def night (index remaining pc : Nat) : State :=
  let list : List Period :=
    [{ capacity := 14000, executions := 2 }, { capacity := 9000, executions := 3 },
     { capacity := 12000, executions := 4 }, { capacity := 16000, executions := 1 }]
  { running with csc := { periods := list, mode := .stepped, index := index, pc := pc, remaining := remaining,
                          selectRange := false } }

/-- Section 6.9: pulses 1, 2 and 10, and the restart from index 3. -/
theorem test_tariffAdvance :
    (after .tariffAdvance (due .tadv true (night 0 2 14000))).csc.remaining = 1 ∧
    ((after .tariffAdvance (due .tadv true (night 0 1 14000))).csc.index = 1 ∧
      (after .tariffAdvance (due .tadv true (night 0 1 14000))).csc.pc = 9000) ∧
    (after .tariffAdvance (due .tadv true (night 3 1 16000))).csc = (night 0 2 14000).csc ∧
    (after .tariffRestart (due .trst true (night 3 1 16000))).csc = (night 0 2 14000).csc := by decide +kernel

/-- R116: two select lines qualified at one boundary lead from code 0 to code 3 with no code between. -/
theorem test_tariffSelectChange_together :
    let s := due (.tsel 0) true (due (.tsel 1) true { night 0 0 14000 with
      csc := { (night 0 0 14000).csc with mode := .selected } })
    (after (.tariffSelectChange 0 true) s).csc.index = 3 ∧ (after (.tariffSelectChange 0 true) s).csc.pc = 16000 ∧
    after (.tariffSelectChange 1 true) (after (.tariffSelectChange 0 true) s) = after (.tariffSelectChange 0 true) s := by
  decide +kernel

/-- R125, R126: an attempt begins with the access wait, 48 bit times or station 2's backoff of 240, and not before; and
R121: no transmission begins in a slot. -/
theorem test_attemptStart :
    let s (n k : Nat) : State := waited k (linked .idle [{ queued .withdraw with collisions := n }] running)
    ((after .attemptStart (s 0 48)).blc.link = .own 0 ∧ after .attemptStart (s 0 47) = s 0 47) ∧
    ((after .attemptStart (s 1 240)).blc.link = .own 0 ∧ after .attemptStart (s 1 239) = s 1 239) ∧
    (after .transmissionBegins (linked (.slot false 3) [] running)).blc.link = .slot false 3 := by decide +kernel

/-- Section 7.10: station 4 waits 368 bit times after a collision and station 12 waits 880. -/
theorem test_collision : backoffWait 4 = 368 ∧ backoffWait 12 = 880 ∧
    (after .collision (sending 2 (.withdraw 2) [queued .announce, queued (.reserve 300 .flexRaise)] running)).blc.queue =
      [{ queued .announce with collisions := 1 }, queued (.reserve 300 .flexRaise)] := by decide +kernel

/-- R120: a bit sent driven cannot show a mismatch. R126: the jam drives the pair for 16 bit times and then releases it,
and the collided transmission ends ten bit times after the last jam bit, or after a later bit that another station
drives. -/
theorem test_collision_jam :
    let s (i : Nat) : State := sending i (.withdraw 2) [queued .withdraw] running
    let t := after .collision (s 2)
    after .collision (s 1) = s 1 ∧ (∀ n ∈ List.range 16, (later n t).blc.drives = true) ∧
    (later 16 t).blc.drives = false ∧ (later 16 t).blc.link = .collided 0 ∧
    after .collidedTransmissionEnd (later 25 t) = later 25 t ∧
    (after .collidedTransmissionEnd (later 26 t)).blc.link = .slot false 16 ∧
    (later 9 (after .transmissionBegins (later 25 t))).blc.link = .collided 9 := by decide +kernel

/-- R120, R189: the first character of a WITHDRAW from address 2 is the byte 0x32, sent as a start bit, 0 1 0 0 1 1 0 0
with a 0 driven, and a stop bit; and R120's table of lengths. -/
theorem test_frame_levels : (Frame.withdraw 2).levels.take 10 =
      [true, true, false, true, true, false, false, true, true, false] ∧
    (Frame.withdraw 2).levels.length = 30 ∧ (Frame.reserve 2 900 .flexRaise).levels.length = 60 ∧
    (Frame.announce 2 (announceOf peer)).levels.length = 130 := by decide +kernel

/-- R129: a slot is read at its bit times 5 to 12. Four of them driven read driven and three read quiet, whatever the
eight others are. -/
theorem test_slot_samples :
    slotDriven (Vector.ofFn fun i => decide (4 ≤ i.val ∧ i.val < 8)) = true ∧
    slotDriven (Vector.ofFn fun i => decide (8 ≤ i.val ∧ i.val < 12)) = true ∧
    slotDriven (Vector.ofFn fun i => decide (i.val < 7 ∨ 12 ≤ i.val)) = false ∧
    slotDriven (Vector.ofFn fun i => decide (i.val < 4 ∨ 9 ≤ i.val)) = false := by decide

/-- R134, R135, R147: VTX is released after reset and in the gap's 20 bit times; a record in progress is 80 bit times, of
which the first is a start bit; with the gap after it the ship finds the record's end. -/
theorem test_vtx :
    let s : State := { running with vlp := { running.vlp with sender := .idle, statusCount := 50 } }
    let t := after .statusIntervalReached s
    let u := after .berthStatusRecordEnd t
    State.reset.vlp.vtx 0 = false ∧ s.vlp.vtx 0 = false ∧ t.vlp.vtx 0 = true ∧ t.vlp.vtx 9 = false ∧
    t.vlp.vtx 10 = true ∧ t.vlp.vtx 80 = false ∧ t.vlp.vtxRun.length = 80 ∧
    (∀ n ∈ List.range 20, u.vlp.vtx n = false) ∧ u.vlp.vtxRun.length = 20 ∧
    wholeRecord (t.vlp.vtxRun ++ u.vlp.vtxRun.drop (releasedRun 0 t.vlp.vtxRun)) = true := by decide +kernel

/-- R121, R125: the own frame takes its 30 bit times, its transmission ends with the tenth released bit time of a run,
and its slot takes 16 more, after which OWN_SLOT_END ends the attempt. The check of [0x32] ends in a 0 bit here, so the
run at the frame's end is its stop bit alone. -/
theorem test_own_frame_bit_times :
    let s : State := sending 0 (.withdraw 2) [queued .withdraw] running
    (later 29 s).blc.link = .own 29 ∧ (later 30 s).blc.link = .ending 1 ∧ (later 38 s).blc.link = .ending 9 ∧
    (later 39 s).blc.link = .ownSlot 16 ∧ (later 55 s).blc.link = .ownSlot 0 ∧
    (after (.ownSlotEnd (driven 0)) (later 55 s)).blc.queue = [] ∧
    after (.ownSlotEnd (driven 0)) (later 54 s) = later 54 s := by decide +kernel

/-- R121, R130: a WITHDRAW from address 5 is judged with its tenth released bit time and not before, and handed on after
sixteen more bit times and not before. -/
theorem test_received_bit_times :
    let s := linked .foreign [] (knows { peer with heard := false } running)
    let levels := received (Frame.withdraw 5).bytes
    let t := after (.receivedTransmissionEnd levels) s
    after (.receivedTransmissionEnd levels.dropLast) s = s ∧ t.blc.link = .slot false 16 ∧
    after .withdrawReceived (later 15 t) = later 15 t ∧ (later 16 t).blc.link = .slot false 0 ∧
    (after .withdrawReceived (later 16 t)).pvt[(5 : Address)].heard = true ∧
    (after .withdrawReceived (later 16 t)).blc.link = .idle := by decide +kernel

/-- Section 7.10: the marked ANNOUNCE moves to the tail at the end of its slot, and a quiet RESERVE slot enters HOLD. -/
theorem test_ownSlotEnd_refresh :
    (after (.ownSlotEnd (driven 0)) (linked (.ownSlot 0) [{ queued .announce with collisions := 1, refresh := true },
      queued (.reserve 300 .flexRaise)] running)).blc.queue = [queued (.reserve 300 .flexRaise), queued .announce] := by
  decide +kernel

/-- Section 8.7: a firm demand of 1,350 kW is clamped to 1,200 kW with the flag set. -/
theorem test_shipStatusRecord_clamps :
    let t := after (.shipStatusRecord (sends { ship with firmDemand := 1350, flexDemand := 2000 })) (evening2 .onShore 2000 0)
    t.vlp.clampedFirm = 1200 ∧ t.vlp.clampedFlex = 2000 ∧ t.vlp.demandClamped = true := by decide +kernel

/-- Section 9.8: a sample that returns abandons the qualification, and one that holds keeps its marked boundary. -/
theorem test_lineSampling :
    let s := putLine .tadv { sampled := true, settled := false, qual := some { level := true, marked := 1100 },
                             active := false } { running with tmb := { running.tmb with boundary := 1102 } }
    (after (.lineSampling (PerLine.replicate false)) s).lib.lines.tadv.qual = none ∧
    (after (.lineSampling (PerLine.replicate true)) s).lib.lines.tadv.qual = some { level := true, marked := 1100 } ∧
    (after (.lineSampling (PerLine.replicate true)) s).lib.lines.bkaux.qual = some { level := true, marked := 1103 } := by
  decide +kernel

/-- Section 9.9: a word of 11 clocks is discarded; the expiry sets METER_STALE and raises its reason. -/
theorem test_meter : after (.meterSample (List.replicate 11 true)) running = running ∧
    (after .meterStaleExpiry (allDue running)).mtp.stale = true ∧
    (after .meterStaleExpiry (allDue running)).svp.attention.meterStale = true := by decide +kernel

/-- Section 10.8: the overdraw expiry trips ON_SHORE at A = 2,250 with the open commanded. -/
theorem test_overdrawExpiry :
    let t := after .overdrawExpiry (allDue (ramp .onShore 1600 2250 2250 0 false 2250))
    t.bsq.phase = .tripped ∧ t.gos.applied = 0 ∧ t.bsq.bkOpen = true ∧ t.bsq.flex = 1600 ∧
    t.tru.record = some { first := .overdraw, phaseAtTrip := .onShore, appliedAtTrip := 2250, later := .empty,
                          openConfirmed := false } := by decide +kernel

/-- Section 10.8: the breaker timer's expiry in TRIPPED with the aux closed adds BREAKER_FAIL and releases BKOPEN, and
CLEAR_TRIP is refused with CAUSE_PRESENT until the open is confirmed. -/
theorem test_clearTrip :
    (∃ r ∈ (after .breakerTimerExpiry (serving (some .openCmd) (tripped false))).tru.record, r.later.breakerFail = true) ∧
    (∃ r ∈ (after .clearTrip (tripped false)).svp.response, r.code = .causePresent) ∧
    (∃ r ∈ (after .clearTrip (tripped true)).svp.response, r.code = .accepted) := by decide +kernel

/-- Section 11.7: START before the station record is INCOMPLETE, a margin of 6,000 kW is OUT_OF_RANGE, a LOAD_PERIOD at
index 1 of an empty list is OUT_OF_RANGE, FORGET_PEER in CONFIG is WRONG_MODE. -/
theorem test_service_refusals :
    (∃ r ∈ (after .start State.reset).svp.response, r.code = .incomplete ∧ r.count = 1) ∧
    (∃ r ∈ (after (.loadStation { station2 with margin := 6000 }) State.reset).svp.response, r.code = .outOfRange) ∧
    (∃ r ∈ (after (.loadPeriod 1 12000 1) State.reset).svp.response, r.code = .outOfRange) ∧
    (∃ r ∈ (after (.forgetPeer 2) State.reset).svp.response, r.code = .wrongMode) := by decide +kernel

/-- Section 11.7: START moves to LISTEN, with the listen timer at three announce intervals, and to PLUGGED. -/
theorem test_start :
    let t := after .start (line .pilot true (line (.pcode 2) true configured))
    t.svp.mode = .listen ∧ t.tmb.listen.left = some 1500 ∧ t.bsq.phase = .plugged ∧ t.bsq.profileCode = some 4 := by
  decide +kernel

/-- Section 11.7: LATCH holds a copy, a second one is HELD, READ_SNAPSHOT frees it and then is NOT_LATCHED. -/
theorem test_latch :
    let t := after .latch running
    t.svp.snapshot.isSome = true ∧ (∃ r ∈ (after .latch t).svp.response, r.code = .held) ∧
    (after .readSnapshot t).svp.snapshot = none ∧
    (∃ r ∈ (after .readSnapshot running).svp.response, r.code = .notLatched) := by decide +kernel

/-- R106: the reference word after reset carries grant 0 and count 0, and after it the count is 1. -/
theorem test_referenceWordEnd : State.reset.gos.port = .sending 0 0 ∧
    (after .referenceWordEnd State.reset).gos.port = .idle ∧
    (after .referenceWordEnd State.reset).gos.updateCount = 1 := by decide +kernel

/-! ### The witness of the invariants -/

/-- A part past its first boundary that has been configured and started and has entered RUN with a ship asking. -/
def entered : State :=
  let s := after .start (line .pilot true (line (.pcode 2) true configured))
  let t := after (.shipStatusRecord (sends ship)) s
  after .listenExpiry { t with tmb := { t.tmb with listen := { interval := 1500, left := some 0 } } }

theorem test_witness_started_phase : entered.bsq.phase = .queued ∧ 0 < entered.tmb.boundary := by decide +kernel

theorem test_witness_started_quiet : ConfigQuiet entered := by decide +kernel

theorem test_witness_started_outputs : Outputs entered := by decide +kernel

theorem test_witness_started_bounds : GrantBounds entered := by decide +kernel

theorem test_witness_started_queue : QueueForm entered := by decide +kernel

theorem test_witness_started_attn : AttnFollows entered := by decide +kernel

theorem test_witness_started_table : TableForm entered := by decide +kernel

theorem test_witness_started_settled : Settled entered := by decide +kernel

theorem test_witness_started_kinds : LevelKinds entered := by decide +kernel

theorem test_witness_started_lines : LinesBehindPhase entered := by decide +kernel

theorem test_witness_started_profile : ProfileInUse entered := by decide +kernel

theorem test_witness_started_reserve : ReserveForm entered := by decide +kernel

set_option synthInstance.maxHeartbeats 400000 in
set_option synthInstance.maxSize 2000 in
theorem test_witness_started_loaded : LoadedForm entered := by decide +kernel

set_option synthInstance.maxHeartbeats 400000 in
set_option synthInstance.maxSize 2000 in
theorem test_witness_started_claim : ClaimForm entered := by decide +kernel

/-- The step whose existence the invariants ask for: in that state the queue is empty and a bit time passes. -/
theorem test_witness_invariants_step : step entered = .next (bitTime entered) := by
  have h : entered.pending = [] := by decide +kernel
  unfold step
  rw [h]

end Sys2Proof.Tests
end

