-- ==== Sys2Proof/Proofs/PhaseAndClaim.lean ====
section
/-! SUPPORT. What a change of the own claim and a change of phase do, field by field, and the readings of one block by
another. -/

namespace Sys2Proof.Machine

/-- Four code lines count from line 0, the least significant (R6, R115). -/
theorem codeOf_val (b0 b1 b2 b3 : Bool) :
    (codeOf b0 b1 b2 b3).val = b0.toNat + 2 * b1.toNat + 4 * b2.toNat + 8 * b3.toNat := by
  revert b0 b1 b2 b3; decide

/-- The monitor in the three connected phases (R170). -/
theorem State.monitorNow_of_connected (s : State) (h : s.bsq.phase.connected = true) :
    (s.currentDraw = none → s.monitorNow = .suspended) ∧
    ∀ d ∈ s.currentDraw, s.monitorNow = if d ≤ s.threshold then .within else .excess := by
  cases hd : s.currentDraw <;> simp [State.monitorNow, h, hd]

/-- The three connected phases. -/
theorem Phase.connected_iff (p : Phase) :
    p.connected = true ↔ p = .parallel ∨ p = .onShore ∨ p = .transferBack := by
  simp [Phase.connected, or_assoc]

/-- The pair. -/
theorem Phase.pair_iff (p : Phase) : p.pair = true ↔ p = .parallel ∨ p = .onShore := by
  simp [Phase.pair]

/-- The phases that carry or may carry voltage. -/
theorem Phase.energised_iff (p : Phase) :
    p.energised = true ↔ p = .energising ∨ p = .awaitSync ∨ p.connected = true ∨ p = .deEnergising := by
  simp [Phase.energised, or_assoc]

/-- Settles O2: each reading is its definition, or the definition read in one of its cases. -/
theorem whatTheBlocksReadOfEachOther : Obligations.WhatTheBlocksReadOfEachOther := by
  intro s
  refine ⟨rfl, fun a => ?_, rfl, fun e => ?_, rfl, ?_, rfl, fun h => ?_, fun h => ?_, ?_, ?_, fun h => ?_, fun e rest h => ?_,
    ?_, fun r hr => ?_, codeOf_val _ _ _ _, codeOf_val _ _ _ _, rfl⟩
  · simp [State.readings]
  · simp [State.mirrored, Bool.beq_eq_decide_eq]
  · by_cases h1 : s.svp.mode = .config <;> simp [State.voltageNow, State.started, h1]
  · have hc : s.bsq.phase.connected = false := by
      simpa [Phase.connected, and_assoc] using h
    simp [State.monitorNow, hc]
  · exact s.monitorNow_of_connected ((Phase.connected_iff _).2 h)
  · simp [State.estopCondition]
  · simp [State.feederCondition]
  · simp [State.waitReached, h]
  · rw [waitReached_cons s e rest h]; rfl
  · unfold State.profile; cases s.bsq.profileCode <;> rfl
  · have hst : s.station = r := by simp [State.station, Option.mem_def.1 hr]
    refine ⟨hst, fun ha => ?_⟩
    simp only [State.ownAddress, hst, Fin.ofNat]
    omega

/-- A new target brings A and P down to it in the connected phases, where they exceed it (R93, R94). -/
theorem Gos.newTarget_eq (connected : Bool) (t : Nat) (g : Gos) (h : g.applied ≤ g.pending) :
    g.newTarget connected t =
      { g with
        target := t
        applied := if connected then min g.applied t else g.applied
        pending := if connected then min g.pending t else g.pending } := by
  unfold Gos.newTarget
  cases connected
  · rfl
  · by_cases h1 : t < g.applied
    · have h2 : t ≤ g.pending := by omega
      simp [h1, h1.le, h2]
    · by_cases h2 : t < g.pending
      · simp [h1, h2, h2.le, Nat.min_eq_left (Nat.le_of_not_lt h1)]
      · simp [h1, h2, Nat.min_eq_left (Nat.le_of_not_lt h1), Nat.min_eq_left (Nat.le_of_not_lt h2)]

/-- Claim parts that are as they were change nothing. -/
theorem setClaim_same (s : State) : setClaim s.bsq.firm s.bsq.flex s.bsq.transient s = s := by
  simp [setClaim]

/-- The grant after a target that is as it was, within its bounds. -/
theorem Gos.newTarget_target (connected : Bool) (g : Gos) (hp : g.applied ≤ g.pending) (ht : g.pending ≤ g.target) :
    g.newTarget connected g.target = g := by
  rw [Gos.newTarget_eq connected _ g hp]
  simp [ht, hp.trans ht]

/-- A change of the own claim, field by field (R21, R93). -/
theorem setClaim_of_ne (firm flex transient : Nat) (s : State)
    (h : ¬(firm = s.bsq.firm ∧ flex = s.bsq.flex ∧ transient = s.bsq.transient)) :
    setClaim firm flex transient s =
      { s with
        bsq := { s.bsq with firm := firm, flex := flex, transient := transient }
        gos := if firm = s.bsq.firm ∧ flex = s.bsq.flex then s.gos
               else s.gos.newTarget s.bsq.phase.connected (firm + flex)
        hre := { s.hre with request := true }
        blc := s.blc.requestAnnounce } := by
  unfold setClaim
  rw [if_neg h]
  dsimp only
  split <;> rfl

/-- Settles O13: within the bounds a grant whose target does not change is the same as one handed the target anew. -/
theorem claimChangeReachesEveryBlock : Obligations.ClaimChangeReachesEveryBlock := by
  rintro firm flex transient s ⟨htarget, hap, hpt, -⟩
  refine ⟨?_, fun hne => ?_⟩
  · rintro ⟨rfl, rfl, rfl⟩
    exact setClaim_same s
  · have hgos : (if firm = s.bsq.firm ∧ flex = s.bsq.flex then s.gos
        else s.gos.newTarget s.bsq.phase.connected (firm + flex)) =
          s.gos.newTarget s.bsq.phase.connected (firm + flex) := by
      by_cases hff : firm = s.bsq.firm ∧ flex = s.bsq.flex
      · rw [if_pos hff, hff.1, hff.2, ← htarget, Gos.newTarget_target _ _ hap hpt]
      · rw [if_neg hff]
    rw [setClaim_of_ne _ _ _ _ hne, hgos, Gos.newTarget_eq _ _ _ hap]

/-- The notice of a phase left reaches the reserve, its frame, its two timers and the request alone (R61). -/
theorem phaseLeft_frame (next : Phase) (s : State) :
    phaseLeft next s =
      { s with
        rsu := (phaseLeft next s).rsu
        blc := (phaseLeft next s).blc
        hre := { s.hre with request := (phaseLeft next s).hre.request }
        tmb := { s.tmb with
          hold := (phaseLeft next s).tmb.hold, reserveBackoff := (phaseLeft next s).tmb.reserveBackoff } } := by
  rcases phaseLeft_cases s next with h | h <;> rw [h]
  exact abandonReserve_frame s

/-- Which departures abandon the own reserve (R61). -/
theorem phaseLeft_eq (next : Phase) (s : State) :
    phaseLeft next s =
      if next = .tripped ∨ (s.bsq.phase = .queued ∧ next ≠ .energising ∧ s.rsu.cls = some .firmEnergise) ∨
          (s.bsq.phase.pair = true ∧ next.pair = false ∧ s.rsu.cls = some .flexRaise) then abandonReserve s
      else s := by
  unfold phaseLeft
  simp only [Bool.not_eq_true']
  split_ifs <;> tauto

/-- The timers after a change of phase (R14, R15, R95, R150). -/
theorem phaseTimers_eq (next : Phase) (s : State) :
    phaseTimers next s =
      { s with tmb := { s.tmb with
          ramp := if next.connected = false then s.tmb.ramp.stop
                  else if s.bsq.phase.connected = true ∨ s.profile = none then s.tmb.ramp
                  else Timer.start s.figures.rampInterval
          sync := if next = .awaitSync ∧ s.profile ≠ none then Timer.start (s.figures.syncWindow * 1000)
                  else s.tmb.sync.stop
          parallel := if next = .parallel ∧ s.profile ≠ none then Timer.start (s.figures.parallelLimit * 1000)
                      else s.tmb.parallel.stop } } := by
  simp [phaseTimers, State.mapTmb, Config.second, Option.isSome_iff_ne_none]

/-- What entering a phase does to the grant (R100, R102, R103). -/
theorem Gos.enter_eq (next : Phase) (g : Gos) :
    g.enter next =
      if next = .parallel ∨ next = .onShore then g
      else if next = .transferBack then { g with pending := g.applied, stall := 0, suspended := false }
      else { g with pending := 0, applied := 0, stall := 0, suspended := false } := by
  simp [Gos.enter, Phase.pair]

/-- A change of phase, field by field, over the state that the notice leaves. -/
theorem setPhase_eq (next : Phase) (s : State) (h : next ≠ s.bsq.phase) :
    setPhase next s =
      { phaseTimers next (phaseLeft next s) with
        bsq := { s.bsq with phase := next }
        gos := s.gos.enter next
        hre := { (phaseLeft next s).hre with
          request := (phaseLeft next s).hre.request || next == .queued || next == .parallel || next == .onShore
          cutSettle := if s.bsq.phase.pair = true ∧ next.pair = false then 0 else s.hre.cutSettle }
        blc := (phaseLeft next s).blc.requestAnnounce } := by
  have hleft := phaseLeft_frame next s
  unfold setPhase
  rw [if_neg h]
  generalize phaseLeft next s = l at hleft ⊢
  have hbsq : l.bsq = s.bsq := by rw [hleft]
  have hgos : l.gos = s.gos := by rw [hleft]
  have hsettle : l.hre.cutSettle = s.hre.cutSettle := by rw [hleft]
  have hprofile : l.profile = s.profile := by rw [hleft]; rfl
  have hreq (v : State) : (if next.recomputes then requestRecompute v else v) =
      { v with hre := { v.hre with
          request := v.hre.request || next == .queued || next == .parallel || next == .onShore } } := by
    rw [Bool.or_assoc, Bool.or_assoc, ← Bool.or_assoc (next == .queued)]
    change _ = { v with hre := { v.hre with request := v.hre.request || next.recomputes } }
    cases next.recomputes
    · simp
    · simp [requestRecompute, State.mapHre]
  dsimp only
  rw [hreq]
  by_cases hpair : s.bsq.phase.pair = true ∧ next.pair = false
  · simp [hpair, requestAnnounce, phaseTimers, State.mapBlc, State.mapHre, State.mapGos, State.mapBsq, State.mapTmb,
      hbsq, hgos]
  · have hpair' : (s.bsq.phase.pair && !next.pair) = false := by simpa using hpair
    simp [hpair, hpair', requestAnnounce, phaseTimers, State.mapBlc, State.mapGos, State.mapBsq,
      State.mapTmb, hbsq, hgos, ← hsettle]

/-- Settles O14, from the change of phase field by field and the list of departures that abandon the reserve. -/
theorem phaseChangeReachesEveryBlock : Obligations.PhaseChangeReachesEveryBlock := by
  intro next s
  refine ⟨fun h => if_pos h, fun hne => ?_, ?_⟩
  · have hleft := phaseLeft_frame next s
    have htmb : (phaseLeft next s).tmb.ramp = s.tmb.ramp := by rw [hleft]
    have hsync : (phaseLeft next s).tmb.sync = s.tmb.sync := by rw [hleft]
    have hparallel : (phaseLeft next s).tmb.parallel = s.tmb.parallel := by rw [hleft]
    have hbsq : (phaseLeft next s).bsq = s.bsq := by rw [hleft]
    have hvlp : (phaseLeft next s).vlp = s.vlp := by rw [hleft]
    have hprofile : (phaseLeft next s).profile = s.profile := by simp only [State.profile, hbsq, hvlp]
    have hfigures : (phaseLeft next s).figures = s.figures := by simp only [State.figures, hprofile]
    rw [setPhase_eq next s hne, Gos.enter_eq, phaseTimers_eq, htmb, hsync, hparallel, hbsq, hprofile, hfigures]
    rfl
  · exact phaseLeft_eq next s

end Sys2Proof.Machine
end

