-- ==== Sys2Proof/Proofs/TripConditions.lean ====
section
/-! SUPPORT. The trip conditions at the end of an event, with or without one newly true: what is taken, and that the end
of every event is a calm one after it. What is remembered of the two conditions is read by their taking alone. -/

namespace Sys2Proof.Machine

/-! ### What is remembered of the two conditions -/

/-- The two bits of R168 replaced. -/
def State.remember (e f : Bool) (s : State) : State := s.mapTru fun u => { u with estopHeld := e, feederHeld := f }

section
variable (e f : Bool) (s : State)

@[simp] theorem State.remember_started : (s.remember e f).started = s.started := rfl
@[simp] theorem State.remember_bsq : (s.remember e f).bsq = s.bsq := rfl
@[simp] theorem State.remember_auxClosed : (s.remember e f).auxClosed = s.auxClosed := rfl
@[simp] theorem State.remember_estopCondition : (s.remember e f).estopCondition = s.estopCondition := rfl
@[simp] theorem State.remember_feederCondition : (s.remember e f).feederCondition = s.feederCondition := rfl
@[simp] theorem State.remember_estopHeld : (s.remember e f).tru.estopHeld = e := rfl
@[simp] theorem State.remember_feederHeld : (s.remember e f).tru.feederHeld = f := rfl
@[simp] theorem State.remember_remember (e' f' : Bool) : (s.remember e' f').remember e f = s.remember e f := rfl
@[simp] theorem State.remember_self : s.remember s.tru.estopHeld s.tru.feederHeld = s := rfl

theorem abandonReserve_remember : abandonReserve (s.remember e f) = (abandonReserve s).remember e f := by
  have h : (s.remember e f).rsu.state = s.rsu.state := rfl
  unfold abandonReserve
  rw [h]
  cases s.rsu.state <;> rfl

theorem phaseLeft_remember (next : Phase) : phaseLeft next (s.remember e f) = (phaseLeft next s).remember e f := by
  rw [phaseLeft_eq, phaseLeft_eq, abandonReserve_remember]
  exact (apply_ite (State.remember e f) _ _ _).symm

/-- A change of phase does not read what is remembered. -/
theorem setPhase_remember (next : Phase) : setPhase next (s.remember e f) = (setPhase next s).remember e f := by
  by_cases h : next = s.bsq.phase
  · simp [setPhase, h]
  · rw [setPhase_eq next s h, setPhase_eq next (s.remember e f) h, phaseLeft_remember]
    rfl

/-- A change of the claim does not read what is remembered. -/
theorem setClaim_remember (firm flex transient : Nat) :
    setClaim firm flex transient (s.remember e f) = (setClaim firm flex transient s).remember e f := by
  by_cases h : firm = s.bsq.firm ∧ flex = s.bsq.flex ∧ transient = s.bsq.transient
  · obtain ⟨rfl, rfl, rfl⟩ := h
    rw [setClaim_same]
    exact setClaim_same (s.remember e f)
  · rw [setClaim_of_ne _ _ _ s h, setClaim_of_ne _ _ _ (s.remember e f) h]
    rfl

@[simp] theorem mapBsq_remember (g : Bsq → Bsq) : (s.remember e f).mapBsq g = (s.mapBsq g).remember e f := rfl
@[simp] theorem mapTmb_remember (g : Tmb → Tmb) : (s.remember e f).mapTmb g = (s.mapTmb g).remember e f := rfl
@[simp] theorem commandOpen_remember : commandOpen (s.remember e f) = (commandOpen s).remember e f := rfl
@[simp] theorem setConfirmed_remember (b : Bool) :
    setConfirmed b (s.remember e f) = (setConfirmed b s).remember e f := rfl
@[simp] theorem raiseAttention_remember (r : Reason) :
    raiseAttention r (s.remember e f) = (raiseAttention r s).remember e f := rfl

/-- Confirming the open does not read what is remembered. -/
@[simp] theorem confirmOpen_remember : confirmOpen (s.remember e f) = (confirmOpen s).remember e f := by
  simp only [confirmOpen, zeroClaim, setConfirmed_remember, mapTmb_remember, setClaim_remember]

/-- A trip that is carried out does not read what is remembered. -/
theorem carryOutTrip_remember (b : Bool) : carryOutTrip b (s.remember e f) = (carryOutTrip b s).remember e f := by
  simp only [carryOutTrip, setPhase_remember]
  generalize setPhase .tripped s = p
  by_cases hclose : p.bsq.serving = some .close <;> by_cases haux : p.auxClosed = true
  · cases b <;> simp [hclose, haux, stopBreaker]
  · simp [hclose, haux, stopBreaker]
  · cases b <;> by_cases hsome : p.bsq.serving.isSome = true <;> simp [hclose, haux, hsome]
  · simp [hclose, haux]

/-- A cause that joins the later causes does not read what is remembered. -/
theorem addLater_remember (c : TripCause) : addLater c (s.remember e f) = (addLater c s).remember e f := by
  have h : (s.remember e f).tru.record = s.tru.record := rfl
  unfold addLater
  rw [h]
  cases s.tru.record with
  | none => rfl
  | some r =>
    by_cases hr : r.later.has c = true
    · simp [hr]
    · simp only [hr]; rfl

/-- A cause that is taken does not read what is remembered. -/
theorem takeCause_remember (c : TripCause) : takeCause c (s.remember e f) = (takeCause c s).remember e f := by
  by_cases h : s.bsq.phase = .tripped
  · rw [takeCause, takeCause, if_pos h]
    exact (if_pos h).trans (addLater_remember e f s c)
  · rw [takeCause, takeCause, if_neg h]
    exact (if_neg h).trans (carryOutTrip_remember e f
      (raiseAttention .trip (s.mapTru fun t => { t with record := some (s.newRecord c) })) false)

end

/-! ### What an event's end takes -/

/-- The conditions newly true at the end of an event, each taken in the model's order (R168, log entry 8). -/
def State.tripsTaken (s : State) : State := checkEstop (checkFeeder (checkEstop s))

section
variable (s : State)

/-- ESTOP is taken, or nothing is. -/
theorem checkEstop_cases :
    (s.estopCondition = true ∧ s.tru.estopHeld = false ∧
      checkEstop s = (takeCause .estop s).remember true s.tru.feederHeld) ∨
    ((s.estopCondition = false ∨ s.tru.estopHeld = true) ∧ checkEstop s = s) := by
  unfold checkEstop
  by_cases h : s.estopCondition = true ∧ s.tru.estopHeld = false
  · refine .inl ⟨h.1, h.2, ?_⟩
    rw [← takeCause_remember, if_pos (by simp [h])]
    rfl
  · refine .inr ⟨?_, if_neg (by simpa using h)⟩
    cases hc : s.estopCondition <;> simp_all

/-- FEEDER_LOST is taken, or nothing is. -/
theorem checkFeeder_cases :
    (s.feederCondition = true ∧ s.tru.feederHeld = false ∧
      checkFeeder s = (takeCause .feederLost s).remember s.tru.estopHeld true) ∨
    ((s.feederCondition = false ∨ s.tru.feederHeld = true) ∧ checkFeeder s = s) := by
  unfold checkFeeder
  by_cases h : s.feederCondition = true ∧ s.tru.feederHeld = false
  · refine .inl ⟨h.1, h.2, ?_⟩
    rw [← takeCause_remember, if_pos (by simp [h])]
    rfl
  · refine .inr ⟨?_, if_neg (by simpa using h)⟩
    cases hc : s.feederCondition <;> simp_all

/-- Calm is that each condition that stands has been taken. -/
theorem State.calm_iff :
    s.calm = true ↔ (s.estopCondition = true → s.tru.estopHeld = true) ∧
      (s.feederCondition = true → s.tru.feederHeld = true) := by
  cases he : s.estopCondition <;> cases hf : s.feederCondition <;> simp [State.calm, he, hf]

/-- A calm state takes nothing at the end of an event. -/
theorem State.tripsTaken_of_calm (h : s.calm = true) : s.tripsTaken = s := by
  obtain ⟨he, hf⟩ := s.calm_iff.1 h
  have h1 : checkEstop s = s := by
    rcases checkEstop_cases s with ⟨h1, h2, -⟩ | ⟨-, h1⟩
    · simp [he h1] at h2
    · exact h1
  have h2 : checkFeeder s = s := by
    rcases checkFeeder_cases s with ⟨h1, h2, -⟩ | ⟨-, h1⟩
    · simp [hf h1] at h2
    · exact h1
  simp [State.tripsTaken, h1, h2]

theorem checkConditions_eq :
    checkConditions s = s.tripsTaken.remember s.tripsTaken.estopCondition s.tripsTaken.feederCondition := rfl

end

end Sys2Proof.Machine
end

