-- ==== Sys2Proof/Proofs/SequencerFrame.lean ====
section
/-! SUPPORT. What the Berth Sequencer's and the Trip Unit's shared operations leave as it was, in one relation with one
lemma for each operation, and the end of every event as a calm one. -/

namespace Sys2Proof.Machine

/-- `t` differs from `s` at most in what a change of phase, of the claim or of the breaker outputs and a trip can reach:
the table, the schedule, the vessel link, the draw, the lines, the mode and the profile in use are as they were. -/
structure SequencerFrame (s t : State) : Prop where
  pvt : t.pvt = s.pvt
  csc : t.csc = s.csc
  vlp : t.vlp = s.vlp
  mtp : t.mtp = s.mtp
  lib : t.lib = s.lib
  mode : t.svp.mode = s.svp.mode
  station : t.svp.station = s.svp.station
  profileCode : t.bsq.profileCode = s.bsq.profileCode
  monitor : t.tru.monitor = s.tru.monitor
  boundary : t.tmb.boundary = s.tmb.boundary
  overdraw : t.tmb.overdraw = s.tmb.overdraw
  linkLoss : t.tmb.linkLoss = s.tmb.linkLoss
  firmOverload : t.hre.firmOverload = s.hre.firmOverload

namespace SequencerFrame

variable {s t u : State}

theorem refl (s : State) : SequencerFrame s s := by constructor <;> rfl

theorem trans (h : SequencerFrame s t) (k : SequencerFrame t u) : SequencerFrame s u where
  pvt := k.pvt.trans h.pvt
  csc := k.csc.trans h.csc
  vlp := k.vlp.trans h.vlp
  mtp := k.mtp.trans h.mtp
  lib := k.lib.trans h.lib
  mode := k.mode.trans h.mode
  station := k.station.trans h.station
  profileCode := k.profileCode.trans h.profileCode
  monitor := k.monitor.trans h.monitor
  boundary := k.boundary.trans h.boundary
  overdraw := k.overdraw.trans h.overdraw
  linkLoss := k.linkLoss.trans h.linkLoss
  firmOverload := k.firmOverload.trans h.firmOverload

theorem started (h : SequencerFrame s t) : t.started = s.started := by simp only [State.started, h.mode]
theorem station_eq (h : SequencerFrame s t) : t.station = s.station := by simp only [State.station, h.station]
theorem ownAddress (h : SequencerFrame s t) : t.ownAddress = s.ownAddress := by
  simp only [State.ownAddress, h.station_eq]
theorem ownEntry (h : SequencerFrame s t) : t.ownEntry = s.ownEntry := by
  simp only [State.ownEntry, h.pvt, h.ownAddress]
theorem profile (h : SequencerFrame s t) : t.profile = s.profile := by
  simp only [State.profile, h.profileCode, h.vlp]
theorem figures (h : SequencerFrame s t) : t.figures = s.figures := by simp only [State.figures, h.profile]
theorem auxClosed (h : SequencerFrame s t) : t.auxClosed = s.auxClosed := by simp only [State.auxClosed, h.lib]
theorem pilotActive (h : SequencerFrame s t) : t.pilotActive = s.pilotActive := by simp only [State.pilotActive, h.lib]
theorem estopActive (h : SequencerFrame s t) : t.estopActive = s.estopActive := by simp only [State.estopActive, h.lib]
theorem warningActive (h : SequencerFrame s t) : t.warningActive = s.warningActive := by
  simp only [State.warningActive, h.lib]
theorem requests (h : SequencerFrame s t) (r : ShipRequest) : t.requests r = s.requests r := by
  simp only [State.requests, h.vlp]

end SequencerFrame

section
variable (s : State)

theorem phaseLeft_sequencerFrame (next : Phase) : SequencerFrame s (phaseLeft next s) := by
  rw [phaseLeft_frame]
  constructor <;> rfl

theorem setPhase_sequencerFrame (next : Phase) : SequencerFrame s (setPhase next s) := by
  unfold setPhase
  split
  · exact .refl s
  · refine (phaseLeft_sequencerFrame s next).trans ?_
    dsimp only
    split_ifs <;> constructor <;> rfl

theorem setClaim_sequencerFrame (firm flex transient : Nat) : SequencerFrame s (setClaim firm flex transient s) := by
  rw [setClaim_frame]
  constructor <;> rfl

theorem zeroClaim_sequencerFrame : SequencerFrame s (zeroClaim s) :=
  .trans (by constructor <;> rfl) (setClaim_sequencerFrame _ 0 0 0)

theorem confirmOpen_sequencerFrame : SequencerFrame s (confirmOpen s) :=
  .trans (by constructor <;> rfl) (zeroClaim_sequencerFrame (setConfirmed true s))

theorem commandOpen_sequencerFrame : SequencerFrame s (commandOpen s) := by constructor <;> rfl
theorem commandClose_sequencerFrame : SequencerFrame s (commandClose s) := by constructor <;> rfl
theorem stopBreaker_sequencerFrame : SequencerFrame s (stopBreaker s) := by constructor <;> rfl
theorem releaseOpen_sequencerFrame : SequencerFrame s (releaseOpen s) := by constructor <;> rfl
theorem requestAnnounce_sequencerFrame : SequencerFrame s (requestAnnounce s) := by constructor <;> rfl
theorem requestRecompute_sequencerFrame : SequencerFrame s (requestRecompute s) := by constructor <;> rfl
theorem clearReserve_sequencerFrame : SequencerFrame s (clearReserve s) := by constructor <;> rfl
theorem remember_sequencerFrame (e f : Bool) : SequencerFrame s (s.remember e f) := by constructor <;> rfl

theorem addLater_sequencerFrame (c : TripCause) : SequencerFrame s (addLater c s) := by
  unfold addLater
  split
  · exact .refl s
  · split <;> constructor <;> rfl

theorem carryOutTrip_sequencerFrame (b : Bool) : SequencerFrame s (carryOutTrip b s) := by
  refine (setPhase_sequencerFrame s .tripped).trans ?_
  unfold carryOutTrip
  generalize setPhase .tripped s = p
  dsimp only
  split_ifs
  all_goals try exact .trans (by constructor <;> rfl) (confirmOpen_sequencerFrame _)
  all_goals constructor <;> rfl

theorem startTrip_sequencerFrame (b : Bool) (c : TripCause) : SequencerFrame s (startTrip b c s) :=
  .trans (by constructor <;> rfl) (carryOutTrip_sequencerFrame _ b)

theorem takeCause_sequencerFrame (c : TripCause) : SequencerFrame s (takeCause c s) := by
  unfold takeCause
  split
  · exact addLater_sequencerFrame s c
  · exact startTrip_sequencerFrame s false c

theorem checkEstop_sequencerFrame : SequencerFrame s (checkEstop s) := by
  rcases checkEstop_cases s with ⟨-, -, h⟩ | ⟨-, h⟩ <;> rw [h]
  · exact (takeCause_sequencerFrame s _).trans (remember_sequencerFrame _ _ _)
  · exact .refl s

theorem checkFeeder_sequencerFrame : SequencerFrame s (checkFeeder s) := by
  rcases checkFeeder_cases s with ⟨-, -, h⟩ | ⟨-, h⟩ <;> rw [h]
  · exact (takeCause_sequencerFrame s _).trans (remember_sequencerFrame _ _ _)
  · exact .refl s

theorem tripsTaken_sequencerFrame : SequencerFrame s s.tripsTaken :=
  ((checkEstop_sequencerFrame s).trans (checkFeeder_sequencerFrame _)).trans (checkEstop_sequencerFrame _)

theorem checkConditions_sequencerFrame : SequencerFrame s (checkConditions s) :=
  (tripsTaken_sequencerFrame s).trans (remember_sequencerFrame _ _ _)

theorem evaluateEntry_sequencerFrame : SequencerFrame s (evaluateEntry s) := by
  rcases evaluateEntry_cases s with ⟨-, h⟩ | ⟨-, h⟩ <;> rw [h]
  · exact setPhase_sequencerFrame s .queued
  · exact .refl s

theorem enterPlugged_sequencerFrame : SequencerFrame s (enterPlugged s) :=
  ((setPhase_sequencerFrame s .plugged).trans (checkConditions_sequencerFrame _)).trans (evaluateEntry_sequencerFrame _)

theorem completeDeEnergise_sequencerFrame : SequencerFrame s (completeDeEnergise s) :=
  ((releaseOpen_sequencerFrame s).trans (zeroClaim_sequencerFrame _)).trans (enterPlugged_sequencerFrame _)

theorem enterDeEnergising_sequencerFrame : SequencerFrame s (enterDeEnergising s) := by
  unfold enterDeEnergising
  dsimp only
  split
  · exact (setPhase_sequencerFrame s _).trans (commandOpen_sequencerFrame _)
  · exact (setPhase_sequencerFrame s _).trans (completeDeEnergise_sequencerFrame _)

theorem enterParallel_sequencerFrame : SequencerFrame s (enterParallel s) := by
  unfold enterParallel
  dsimp only
  split
  · exact (setPhase_sequencerFrame s _).trans (setPhase_sequencerFrame _ _)
  · exact setPhase_sequencerFrame s _

theorem startInrush_sequencerFrame : SequencerFrame s (startInrush s) := by
  rcases startInrush_cases s with ⟨-, h⟩ | ⟨p, -, -, h⟩ | ⟨p, -, -, h⟩ <;> rw [h]
  · exact .refl s
  · exact .trans (by constructor <;> rfl) (setClaim_sequencerFrame _ _ _ _)
  · constructor <;> rfl

theorem enterAwaitSync_sequencerFrame : SequencerFrame s (enterAwaitSync s) := by
  have hw : SequencerFrame s (setPhase .awaitSync (startInrush (stopBreaker
      (s.mapBsq fun b => { b with bkClose := false })))) :=
    .trans (by constructor <;> rfl) ((startInrush_sequencerFrame _).trans (setPhase_sequencerFrame _ _))
  unfold enterAwaitSync
  dsimp only
  split_ifs
  · exact hw.trans (enterDeEnergising_sequencerFrame _)
  · exact hw.trans (enterParallel_sequencerFrame _)
  · exact hw

theorem uncommandedClose_sequencerFrame : SequencerFrame s (uncommandedClose s) := by
  unfold uncommandedClose
  dsimp only
  split
  · exact (setClaim_sequencerFrame s _ _ _).trans ((addLater_sequencerFrame _ _).trans (by constructor <;> rfl))
  · exact (setClaim_sequencerFrame s _ _ _).trans (startTrip_sequencerFrame _ _ _)

end
end Sys2Proof.Machine
end

