-- ==== Sys2Proof/Proofs/EventEnd.lean ====
section
/-! SUPPORT. What taking a cause does to the sequencer and the record, and the end of every event in LISTEN and RUN as a
calm one after its trips. -/

namespace Sys2Proof.Machine

section
variable (s : State)

/-! ### The sequencer after the claim and the phase have changed -/

@[simp] theorem setPhase_phase (next : Phase) : (setPhase next s).bsq.phase = next := by rw [setPhase_bsq]

@[simp] theorem setPhase_breaker (next : Phase) : (setPhase next s).tmb.breaker = s.tmb.breaker := by
  unfold setPhase
  split
  · rfl
  · have h : (phaseLeft next s).tmb.breaker = s.tmb.breaker := by rw [phaseLeft_frame]
    dsimp only
    split_ifs <;> exact h

@[simp] theorem setPhase_tru (next : Phase) : (setPhase next s).tru = s.tru := by rw [setPhase_frame]

@[simp] theorem setPhase_svp (next : Phase) : (setPhase next s).svp = s.svp := by rw [setPhase_frame]

@[simp] theorem setClaim_bsq (firm flex transient : Nat) :
    (setClaim firm flex transient s).bsq = { s.bsq with firm := firm, flex := flex, transient := transient } := by
  rw [setClaim_frame]

@[simp] theorem setClaim_tmb (firm flex transient : Nat) : (setClaim firm flex transient s).tmb = s.tmb := by
  rw [setClaim_frame]

@[simp] theorem setClaim_tru (firm flex transient : Nat) : (setClaim firm flex transient s).tru = s.tru := by
  rw [setClaim_frame]

@[simp] theorem setClaim_rsu (firm flex transient : Nat) : (setClaim firm flex transient s).rsu = s.rsu := by
  rw [setClaim_frame]

@[simp] theorem setClaim_svp (firm flex transient : Nat) : (setClaim firm flex transient s).svp = s.svp := by
  rw [setClaim_frame]

@[simp] theorem zeroClaim_bsq : (zeroClaim s).bsq = { s.bsq with firm := 0, flex := 0, transient := 0 } := by
  simp [zeroClaim]

@[simp] theorem zeroClaim_breaker : (zeroClaim s).tmb.breaker = s.tmb.breaker := by simp [zeroClaim]

@[simp] theorem zeroClaim_tru : (zeroClaim s).tru = s.tru := by simp [zeroClaim]

@[simp] theorem zeroClaim_rsu : (zeroClaim s).rsu = s.rsu := by simp [zeroClaim]

@[simp] theorem confirmOpen_bsq : (confirmOpen s).bsq = { s.bsq with firm := 0, flex := 0, transient := 0 } := by
  simp [confirmOpen, setConfirmed]

@[simp] theorem confirmOpen_breaker : (confirmOpen s).tmb.breaker = s.tmb.breaker := by
  simp [confirmOpen, setConfirmed]

@[simp] theorem confirmOpen_tru : (confirmOpen s).tru = (setConfirmed true s).tru := by simp [confirmOpen]

/-! ### A trip carried out -/

/-- A trip before its open is commanded or confirmed: the phase is TRIPPED, BKCLOSE deasserted and a timer serving a
close stopped (R26). -/
def State.tripping (s : State) : State :=
  let t := setPhase .tripped s
  { t with
    bsq := { t.bsq with
      bkClose := false, serving := if s.bsq.serving = some .close then none else s.bsq.serving }
    tmb := { t.tmb with
      breaker := if s.bsq.serving = some .close then s.tmb.breaker.stop else s.tmb.breaker } }

/-- A trip with the aux closed commands the open or lets a pulse or an open run on, and one with the aux open confirms
it (R26). -/
theorem carryOutTrip_eq (b : Bool) :
    carryOutTrip b s =
      if s.auxClosed then
        if b then s.tripping
        else if s.tripping.bsq.serving.isSome then s.tripping.mapBsq fun q => { q with bkOpen := true }
        else commandOpen s.tripping
      else confirmOpen s.tripping := by
  have hbreaker := setPhase_breaker s .tripped
  have hserving : (setPhase .tripped s).bsq.serving = s.bsq.serving := by rw [setPhase_bsq]
  have haux := (setPhase_sequencerFrame s .tripped).auxClosed
  have hu : (if ((setPhase .tripped s).mapBsq fun b => { b with bkClose := false }).bsq.serving = some .close then
      stopBreaker ((setPhase .tripped s).mapBsq fun b => { b with bkClose := false })
      else (setPhase .tripped s).mapBsq fun b => { b with bkClose := false }) = s.tripping := by
    unfold State.tripping
    by_cases h : s.bsq.serving = some .close
    · simp only [State.mapBsq_bsq, hserving, h, if_true, ← hbreaker]
      rfl
    · simp only [State.mapBsq_bsq, hserving, h, if_false, ← hbreaker]
      rw [← hserving]
      rfl
  have hta : s.tripping.auxClosed = s.auxClosed := haux
  unfold carryOutTrip
  dsimp only
  rw [hu, hta]

theorem tripping_phase : s.tripping.bsq.phase = .tripped := setPhase_phase s .tripped

theorem carryOutTrip_phase (b : Bool) : (carryOutTrip b s).bsq.phase = .tripped := by
  have h := tripping_phase s
  rw [carryOutTrip_eq]
  split_ifs <;> simp [commandOpen, h]

/-- After a cause has been taken the phase is TRIPPED. -/
@[simp] theorem takeCause_phase (c : TripCause) : (takeCause c s).bsq.phase = .tripped := by
  unfold takeCause
  split
  · rw [addLater_frame]
    assumption
  · exact carryOutTrip_phase _ false

@[simp] theorem addLater_held (c : TripCause) :
    (addLater c s).tru.estopHeld = s.tru.estopHeld ∧ (addLater c s).tru.feederHeld = s.tru.feederHeld := by
  rw [addLater_frame]
  exact ⟨rfl, rfl⟩

theorem carryOutTrip_held (b : Bool) :
    (carryOutTrip b s).tru.estopHeld = s.tru.estopHeld ∧ (carryOutTrip b s).tru.feederHeld = s.tru.feederHeld := by
  have h : s.tripping.tru = s.tru := setPhase_tru s .tripped
  rw [carryOutTrip_eq]
  split_ifs <;> simp [commandOpen, setConfirmed, h]

theorem takeCause_held (c : TripCause) :
    (takeCause c s).tru.estopHeld = s.tru.estopHeld ∧ (takeCause c s).tru.feederHeld = s.tru.feederHeld := by
  unfold takeCause
  split
  · exact addLater_held s c
  · exact carryOutTrip_held _ false

/-! ### The end of an event -/

/-- After a cause has been taken ESTOP stands where the line is active. -/
theorem takeCause_estopCondition (c : TripCause) : (takeCause c s).estopCondition = s.estopActive := by
  simp [State.estopCondition, (takeCause_sequencerFrame s c).estopActive]

/-- After a cause has been taken FEEDER_LOST stands where the warning is active with the aux closed. -/
theorem takeCause_feederCondition (c : TripCause) :
    (takeCause c s).feederCondition = (s.warningActive && s.auxClosed) := by
  have h : (Phase.tripped == Phase.energising) = false := rfl
  simp [State.feederCondition, (takeCause_sequencerFrame s c).warningActive, (takeCause_sequencerFrame s c).auxClosed, h]

/-- ESTOP has been judged: where its condition stands it has been taken. -/
theorem checkEstop_judged : (checkEstop s).estopCondition = true → (checkEstop s).tru.estopHeld = true := by
  rcases checkEstop_cases s with ⟨-, -, h⟩ | ⟨h', h⟩ <;> rw [h]
  · simp
  · intro hc
    simpa [hc] using h'

/-- Taking ESTOP leaves FEEDER_LOST judged where it was. -/
theorem checkEstop_keeps_feeder (h : s.feederCondition = true → s.tru.feederHeld = true) :
    (checkEstop s).feederCondition = true → (checkEstop s).tru.feederHeld = true := by
  rcases checkEstop_cases s with ⟨-, -, h'⟩ | ⟨-, h'⟩ <;> rw [h']
  · simp only [State.remember_feederCondition, takeCause_feederCondition, State.remember_feederHeld]
    intro hw
    exact h (by simp_all [State.feederCondition])
  · exact h

/-- FEEDER_LOST has been judged. -/
theorem checkFeeder_judged : (checkFeeder s).feederCondition = true → (checkFeeder s).tru.feederHeld = true := by
  rcases checkFeeder_cases s with ⟨-, -, h⟩ | ⟨h', h⟩ <;> rw [h]
  · simp
  · intro hc
    simpa [hc] using h'

/-- Once the conditions newly true have been taken none is newly true. -/
theorem State.tripsTaken_calm : s.tripsTaken.calm = true :=
  (State.calm_iff _).2 ⟨checkEstop_judged _, checkEstop_keeps_feeder _ (checkFeeder_judged _)⟩

/-- The end of an event is the same as of the state in which its trips have been taken. -/
theorem settle_tripsTaken (before : State) (h : s.started = true) : settle before s = settle before s.tripsTaken := by
  have hc : checkConditions s.tripsTaken = checkConditions s := by
    rw [checkConditions_eq, checkConditions_eq, State.tripsTaken_of_calm _ s.tripsTaken_calm]
  rw [settle, settle, if_pos h, if_pos ((tripsTaken_sequencerFrame s).started.trans h), hc]

/-- The end of every event in LISTEN and RUN: its trips are taken, and then it ends as a calm one. -/
theorem settle_ends (before : State) (h : s.started = true) : EndsAs before s.tripsTaken (settle before s) := by
  rw [settle_tripsTaken s before h]
  exact settle_endsAs before _ ((tripsTaken_sequencerFrame s).started.trans h) s.tripsTaken_calm

end

/-- What is remembered of the conditions before an event's end is replaced there. -/
theorem endsAs_remember (e f : Bool) (s u t : State) : EndsAs s (u.remember e f) t ↔ EndsAs s u t := Iff.rfl

/-- A command that is an event ends as the state that its trips lead to, whatever has been remembered of them. -/
theorem completesAs_of_tripsTaken {c : Instr} {s u v : State} {e f : Bool} (h : exec c s = .next (settle s u))
    (hs : u.started = true) (hv : u.tripsTaken = v.remember e f) : CompletesAs c s v :=
  ⟨_, h, (endsAs_remember e f s v _).1 (hv ▸ settle_ends u s hs)⟩

end Sys2Proof.Machine
end

