-- ==== Sys2Proof/Proofs/StepCases.lean ====
section
/-! SUPPORT. What a command taken in LISTEN or RUN can do to the berth, said once: it resets the part, it moves nothing
that the berth's invariants read, or it is an event of the link, the table, the schedule or the meter, or one of the
sequencer's events, and ends as every event does. -/

namespace Sys2Proof.Machine

/-! ### Events beside the sequencer -/

/-- An event of the link, the table, the schedule or the meter, before its end: the sequencer, the record, the grant,
the vessel link, the level lines and the breaker timer stand as they did, the own reserve is kept or gone, and the own
entry stays OWN. -/
structure Aside (s u : State) : Prop where
  bsq : u.bsq = s.bsq
  tru : u.tru = s.tru
  gos : u.gos = s.gos
  vlp : u.vlp = s.vlp
  mode : u.svp.mode = s.svp.mode
  station : u.svp.station = s.svp.station
  pilotActive : u.pilotActive = s.pilotActive
  estopActive : u.estopActive = s.estopActive
  auxClosed : u.auxClosed = s.auxClosed
  warningActive : u.warningActive = s.warningActive
  breaker : u.tmb.breaker = s.tmb.breaker
  overdraw : u.tmb.overdraw = s.tmb.overdraw
  linkLoss : u.tmb.linkLoss = s.tmb.linkLoss
  reserve : (u.rsu.cls = s.rsu.cls ∧ u.rsu.amount = s.rsu.amount) ∨ u.rsu.cls = none
  own : s.ownEntry.standing = .own → u.ownEntry.standing = .own

namespace Aside

variable {s t u : State}

theorem trans (h : Aside s t) (k : Aside t u) : Aside s u where
  bsq := k.bsq.trans h.bsq
  tru := k.tru.trans h.tru
  gos := k.gos.trans h.gos
  vlp := k.vlp.trans h.vlp
  mode := k.mode.trans h.mode
  station := k.station.trans h.station
  pilotActive := k.pilotActive.trans h.pilotActive
  estopActive := k.estopActive.trans h.estopActive
  auxClosed := k.auxClosed.trans h.auxClosed
  warningActive := k.warningActive.trans h.warningActive
  breaker := k.breaker.trans h.breaker
  overdraw := k.overdraw.trans h.overdraw
  linkLoss := k.linkLoss.trans h.linkLoss
  reserve := by
    rcases k.reserve with ⟨hc, ha⟩ | hc
    · rw [hc, ha]; exact h.reserve
    · exact .inr hc
  own := fun ho => k.own (h.own ho)

theorem refl (s : State) : Aside s s :=
  ⟨rfl, rfl, rfl, rfl, rfl, rfl, rfl, rfl, rfl, rfl, rfl, rfl, rfl, .inl ⟨rfl, rfl⟩, id⟩

theorem mapBlc (f : Blc → Blc) (s : State) : Aside s (s.mapBlc f) :=
  ⟨rfl, rfl, rfl, rfl, rfl, rfl, rfl, rfl, rfl, rfl, rfl, rfl, rfl, .inl ⟨rfl, rfl⟩, id⟩

theorem mapHre (f : Hre → Hre) (s : State) : Aside s (s.mapHre f) :=
  ⟨rfl, rfl, rfl, rfl, rfl, rfl, rfl, rfl, rfl, rfl, rfl, rfl, rfl, .inl ⟨rfl, rfl⟩, id⟩

theorem mapCsc (f : Csc → Csc) (s : State) : Aside s (s.mapCsc f) :=
  ⟨rfl, rfl, rfl, rfl, rfl, rfl, rfl, rfl, rfl, rfl, rfl, rfl, rfl, .inl ⟨rfl, rfl⟩, id⟩

theorem mapMtp (f : Mtp → Mtp) (s : State) : Aside s (s.mapMtp f) :=
  ⟨rfl, rfl, rfl, rfl, rfl, rfl, rfl, rfl, rfl, rfl, rfl, rfl, rfl, .inl ⟨rfl, rfl⟩, id⟩

theorem mapTmb (f : Tmb → Tmb) (s : State) (hb : (f s.tmb).breaker = s.tmb.breaker)
    (ho : (f s.tmb).overdraw = s.tmb.overdraw) (hl : (f s.tmb).linkLoss = s.tmb.linkLoss) : Aside s (s.mapTmb f) :=
  ⟨rfl, rfl, rfl, rfl, rfl, rfl, rfl, rfl, rfl, rfl, hb, ho, hl, .inl ⟨rfl, rfl⟩, id⟩

theorem mapRsu (f : Rsu → Rsu) (s : State)
    (h : ((f s.rsu).cls = s.rsu.cls ∧ (f s.rsu).amount = s.rsu.amount) ∨ (f s.rsu).cls = none) : Aside s (s.mapRsu f) :=
  ⟨rfl, rfl, rfl, rfl, rfl, rfl, rfl, rfl, rfl, rfl, rfl, rfl, rfl, h, id⟩

theorem raiseAttention (r : Reason) (s : State) : Aside s (raiseAttention r s) :=
  ⟨rfl, rfl, rfl, rfl, rfl, rfl, rfl, rfl, rfl, rfl, rfl, rfl, rfl, .inl ⟨rfl, rfl⟩, id⟩

theorem answer (kind : Nat) (code : ResponseCode) (data : List Byte) (s : State) :
    Aside s (answer kind code data s) :=
  ⟨rfl, rfl, rfl, rfl, rfl, rfl, rfl, rfl, rfl, rfl, rfl, rfl, rfl, .inl ⟨rfl, rfl⟩, id⟩

theorem clearReserve (s : State) : Aside s (clearReserve s) := mapRsu _ s (.inr rfl)

theorem requestRecompute (s : State) : Aside s (requestRecompute s) := mapHre _ s

theorem requestAnnounce (s : State) : Aside s (requestAnnounce s) := mapBlc _ s

/-- A line beside the four that the berth reads may settle. -/
theorem settleLine (l : Line) (v : Bool) (s : State) (h : l ≠ .pilot ∧ l ≠ .estop ∧ l ≠ .bkaux ∧ l ≠ .fdrwarn) :
    Aside s (settleLine l v s) := by
  have hget (m : Line) (hm : m ≠ l) : ((Machine.settleLine l v s).lib.lines.get m).active = (s.lib.lines.get m).active := by
    simp [Machine.settleLine, get_set_line, hm]
  exact ⟨rfl, rfl, rfl, rfl, rfl, rfl, hget .pilot h.1.symm, hget .estop h.2.1.symm, hget .bkaux h.2.2.1.symm,
    hget .fdrwarn h.2.2.2.symm, rfl, rfl, rfl, .inl ⟨rfl, rfl⟩, id⟩

/-- The table may change where the own entry stays OWN. -/
theorem mapPvt (f : Table PeerEntry → Table PeerEntry) (s : State)
    (h : s.ownEntry.standing = .own → (s.mapPvt f).ownEntry.standing = .own) : Aside s (s.mapPvt f) :=
  ⟨rfl, rfl, rfl, rfl, rfl, rfl, rfl, rfl, rfl, rfl, rfl, rfl, rfl, .inl ⟨rfl, rfl⟩, h⟩

theorem tableChanged (s : State) : Aside s (tableChanged s) := by
  unfold Machine.tableChanged dropOnViewChange
  refine trans ?_ (requestRecompute _)
  split
  · exact ((mapBlc _ s).trans (clearReserve _)).trans (requestRecompute _)
  · exact refl s

/-- An entry is replaced: that of a peer, or the own one by one that is OWN. -/
theorem putEntry (a : Address) (e : PeerEntry) (c : Bool) (s : State)
    (h : a = s.ownAddress → s.ownEntry.standing = .own → e.standing = .own) : Aside s (putEntry a e c s) := by
  have hput : Aside s (s.mapPvt fun v => v.set a e) := mapPvt _ s fun ho => by
    change ((s.pvt.set a e)[s.ownAddress]).standing = .own
    by_cases ha : a = s.ownAddress
    · subst ha; rw [getElem_set_self]; exact h rfl ho
    · rw [getElem_set_ne (Ne.symm ha)]; exact ho
  unfold Machine.putEntry
  cases c
  · exact hput
  · exact hput.trans (tableChanged _)

theorem closeSlot (s : State) : Aside s (closeSlot s) := mapBlc _ s

theorem openSlot (d : Bool) (rx : Option RxFrame) (s : State) : Aside s (openSlot d rx s) := mapBlc _ s

theorem releaseRefused (s : State) : Aside s (releaseRefused s) := by
  unfold Machine.releaseRefused
  split
  · exact (mapRsu _ s (.inl ⟨rfl, rfl⟩)).trans (requestRecompute _)
  · exact refl s

theorem conflictFound (s : State) : Aside s (conflictFound s) := by
  have h : Aside s (Machine.raiseAttention .addressConflict (s.mapBlc fun b => { b with conflict := true })) :=
    (mapBlc _ s).trans (raiseAttention _ _)
  unfold Machine.conflictFound
  dsimp only
  split
  · exact (h.trans (mapBlc _ _)).trans (clearReserve _)
  · exact h

theorem takeTransmission (j : Judged) (s : State) : Aside s (takeTransmission j s) := by
  unfold Machine.takeTransmission
  split
  · exact openSlot _ _ s
  · exact openSlot _ _ s
  · dsimp only
    split_ifs
    · exact openSlot _ _ s
    · exact (openSlot _ _ s).trans (conflictFound _)
    · exact openSlot _ _ s

theorem changeSchedule (f : Csc → Csc) (s : State) : Aside s (changeSchedule f s) := by
  unfold Machine.changeSchedule
  dsimp only
  split
  · exact mapCsc f s
  · exact ((mapCsc f s).trans (requestRecompute _)).trans (requestAnnounce _)

theorem beginAttempt (s : State) : Aside s (beginAttempt s) := by
  unfold Machine.beginAttempt
  split
  · exact refl s
  · dsimp only
    split
    · exact (mapBlc _ s).trans (mapRsu _ _ (.inl ⟨rfl, rfl⟩))
    · exact mapBlc _ s

theorem collide (s : State) : Aside s (collide s) := by
  unfold Machine.collide
  dsimp only
  split
  · exact (mapBlc _ s).trans (mapRsu _ _ (.inl ⟨rfl, rfl⟩))
  · exact mapBlc _ s

theorem dropFrame (e : TxEntry) (s : State) : Aside s (dropFrame e s) := by
  unfold Machine.dropFrame
  dsimp only
  split
  · exact (raiseAttention _ s).trans (mapBlc _ _)
  · exact ((((raiseAttention _ s).trans (mapBlc _ _)).trans (clearReserve _)).trans (requestRecompute _)).trans
      (releaseRefused _)
  · exact (raiseAttention _ s).trans (mapBlc _ _)

theorem collidedEnd (e : TxEntry) (s : State) : Aside s (collidedEnd e s) := by
  unfold Machine.collidedEnd
  dsimp only
  split_ifs
  · exact ((openSlot _ _ s).trans (mapBlc _ _)).trans (releaseRefused _)
  · exact (openSlot _ _ s).trans (dropFrame e _)
  · exact (openSlot _ _ s).trans (mapBlc _ _)

theorem reserveOutcome (d : Bool) (s : State) : Aside s (reserveOutcome d s) := by
  unfold Machine.reserveOutcome
  split <;> exact (mapRsu _ s (.inl ⟨rfl, rfl⟩)).trans (mapTmb _ _ rfl rfl rfl)

theorem ownSlotEnd (d : Bool) (e : TxEntry) (s : State) : Aside s (ownSlotEnd d e s) := by
  unfold Machine.ownSlotEnd
  dsimp only
  split
  · exact (mapBlc _ s).trans (mapBlc _ _)
  · refine .trans ?_ (releaseRefused _)
    split
    · exact ((mapBlc _ s).trans (mapBlc _ _)).trans (reserveOutcome d _)
    · exact (mapBlc _ s).trans (mapBlc _ _)
  · exact (mapBlc _ s).trans (mapBlc _ _)

theorem takeSample (d : Nat) (s : State) : Aside s (takeSample d s) := by
  unfold Machine.takeSample
  dsimp only
  split
  · exact ((mapMtp _ s).trans (mapMtp _ _)).trans (mapTmb _ _ rfl rfl rfl)
  · exact mapMtp _ s

theorem silenceCheck (s : State) : Aside s (silenceCheck s) := by
  have h : Aside s (s.mapPvt fun v => v.map PeerEntry.check) := mapPvt _ s fun ho => by
    have hc : (s.mapPvt fun v => v.map PeerEntry.check).ownEntry = s.ownEntry.check := by
      simp [State.ownEntry]
    rw [hc, PeerEntry.check, if_neg (by simp [ho])]
    exact ho
  unfold Machine.silenceCheck
  dsimp only
  split
  · exact h.trans (tableChanged _)
  · exact h

theorem lowerSettleCount (s : State) : Aside s (lowerSettleCount s) := by
  unfold Machine.lowerSettleCount
  dsimp only
  split_ifs
  · exact refl s
  · exact (mapHre _ s).trans (requestRecompute _)
  · exact mapHre _ s

end Aside

/-! ### Commands that are no event -/

@[simp] theorem Timer.tick_running (t : Timer) : t.tick.running = t.running := by simp [Timer.tick, Timer.running]

/-- A command that is no event, and a bit time: nothing that the invariants of the berth read has moved but the counts of
the time base, the status record, the reference word, the link and the service port. -/
structure Unmoved (s t : State) : Prop where
  bsq : t.bsq = s.bsq
  tru : t.tru = s.tru
  rsu : t.rsu = s.rsu
  hre : t.hre = s.hre
  csc : t.csc = s.csc
  mtp : t.mtp = s.mtp
  grant : t.gos = { s.gos with port := t.gos.port, updateCount := t.gos.updateCount }
  vessel : t.vlp = { s.vlp with sender := t.vlp.sender, statusCount := t.vlp.statusCount, lastSent := t.vlp.lastSent }
  sent : t.vlp.sender = .idle →
    (s.vlp.sender = .idle ∧ t.vlp.lastSent = s.vlp.lastSent) ∨ t.vlp.lastSent = some t.statusNow
  mode : t.svp.mode = s.svp.mode
  station : t.svp.station = s.svp.station
  pvt : t.pvt = s.pvt ∨ t.pvt = s.pvt.map PeerEntry.tick
  breaker : t.tmb.breaker.running = s.tmb.breaker.running
  overdraw : t.tmb.overdraw.running = s.tmb.overdraw.running
  linkLoss : t.tmb.linkLoss.running = s.tmb.linkLoss.running
  lines : 0 < s.tmb.boundary → t.pilotActive = s.pilotActive ∧ t.estopActive = s.estopActive ∧
    t.auxClosed = s.auxClosed ∧ t.warningActive = s.warningActive

namespace Unmoved

variable (s : State)

theorem refl : Unmoved s s :=
  ⟨rfl, rfl, rfl, rfl, rfl, rfl, rfl, rfl, fun h => .inl ⟨h, rfl⟩, rfl, rfl, .inl rfl, rfl, rfl, rfl,
    fun _ => ⟨rfl, rfl, rfl, rfl⟩⟩

theorem withSvp (v : Svp) (hm : v.mode = s.svp.mode) (hs : v.station = s.svp.station) :
    Unmoved s { s with svp := v } :=
  ⟨rfl, rfl, rfl, rfl, rfl, rfl, rfl, rfl, fun h => .inl ⟨h, rfl⟩, hm, hs, .inl rfl, rfl, rfl, rfl,
    fun _ => ⟨rfl, rfl, rfl, rfl⟩⟩

theorem mapBlc (f : Blc → Blc) : Unmoved s (s.mapBlc f) :=
  ⟨rfl, rfl, rfl, rfl, rfl, rfl, rfl, rfl, fun h => .inl ⟨h, rfl⟩, rfl, rfl, .inl rfl, rfl, rfl, rfl,
    fun _ => ⟨rfl, rfl, rfl, rfl⟩⟩

theorem settleLine (l : Line) (v : Bool) (h : l ≠ .pilot ∧ l ≠ .estop ∧ l ≠ .bkaux ∧ l ≠ .fdrwarn) :
    Unmoved s (settleLine l v s) :=
  have ha := Aside.settleLine l v s h
  ⟨rfl, rfl, rfl, rfl, rfl, rfl, rfl, rfl, fun h => .inl ⟨h, rfl⟩, rfl, rfl, .inl rfl, rfl, rfl, rfl,
    fun _ => ⟨ha.pilotActive, ha.estopActive, ha.auxClosed, ha.warningActive⟩⟩

theorem startStatusRecord : Unmoved s (startStatusRecord s) :=
  ⟨rfl, rfl, rfl, rfl, rfl, rfl, rfl, rfl, fun _ => .inr rfl, rfl, rfl, .inl rfl, rfl, rfl, rfl,
    fun _ => ⟨rfl, rfl, rfl, rfl⟩⟩

theorem countBoundary_mapLib (f : Lib → Lib)
    (h : 0 < s.tmb.boundary → ∀ l ∈ [Line.pilot, .estop, .bkaux, .fdrwarn],
      ((f s.lib).lines.get l).active = (s.lib.lines.get l).active) :
    Unmoved s ((countBoundary s).mapLib f) :=
  ⟨rfl, rfl, rfl, rfl, rfl, rfl, rfl, rfl, fun h => .inl ⟨h, rfl⟩, rfl, rfl, .inr rfl,
    Timer.tick_running _, Timer.tick_running _, Timer.tick_running _, fun hb =>
      ⟨h hb .pilot (by simp), h hb .estop (by simp), h hb .bkaux (by simp), h hb .fdrwarn (by simp)⟩⟩

end Unmoved

/-! ### The sequencer's events -/

/-- What an event of LISTEN or RUN does before its end. -/
inductive Event (s : State) : State → Prop
  | aside {u : State} (h : Aside s u) : Event s u
  | clearTrip (hrecord : s.tru.record.isSome = true) (h : s.mayClear = true) :
      Event s (answer 10 .accepted [] (leaveTripped s))
  | berthHold (b : Bool) :
      Event s (answer 12 .accepted [] (evaluateEntry (s.mapBsq fun q => { q with hostHold := b })))
  | plugProven (hphase : s.bsq.phase = .vacant) : Event s (plugProven (settleActive .pilot true s))
  | pilotProven (hphase : s.bsq.phase ≠ .vacant) : Event s (settleActive .pilot true s)
  | pilotLost : Event s (pilotGone (linkIdle (settleActive .pilot false s)))
  | auxClosure : Event s (auxClosure (settleActive .bkaux true s))
  | auxOpening : Event s (auxOpening (settleActive .bkaux false s))
  | estopChange (active : Bool) : Event s (settleActive .estop active s)
  | warningChange (active : Bool) : Event s (warningChange active (settleActive .fdrwarn active s))
  | takeRecord (r : ShipRecord) (h : s.invalidCombination r = false) : Event s (takeRecord r s)
  | listenExpiry :
      Event s (evaluateEntry (requestRecompute (requestAnnounce
        ((s.mapTmb fun t => { t with listen := t.listen.stop }).mapSvp fun v => { v with mode := .run }))))
  | holdExpiry (h : s.tmb.hold.due = true) :
      Event s (settleHold (s.mapTmb fun t => { t with hold := t.hold.stop }))
  | breakerExpiry (h : s.tmb.breaker.due = true) : Event s (breakerExpired s.bsq.serving (stopBreaker s))
  | inrushExpiry :
      Event s (setClaim s.bsq.firm s.bsq.flex 0 (s.mapTmb fun t => { t with inrush := t.inrush.stop }))
  | syncExpiry (h : s.bsq.phase = .awaitSync) :
      Event s (enterDeEnergising ((s.mapTmb fun t => { t with sync := t.sync.stop }).mapBsq
        fun b => { b with syncAbort := true }))
  | syncStop : Event s (s.mapTmb fun t => { t with sync := t.sync.stop })
  | parallelExpiry (h : s.bsq.phase = .parallel) :
      Event s (setPhase .transferBack ((s.mapTmb fun t => { t with parallel := t.parallel.stop }).mapBsq
        fun b => { b with parallelForced := true }))
  | parallelStop : Event s (s.mapTmb fun t => { t with parallel := t.parallel.stop })
  | rampUp (h : s.bsq.phase.pair = true) :
      Event s (rampUp (s.mapTmb fun t => { t with ramp := Timer.start s.figures.rampInterval }))
  | rampDown (h : s.bsq.phase = .transferBack) :
      Event s (rampDown (s.mapTmb fun t => { t with ramp := Timer.start s.figures.rampInterval }))
  | rampStart : Event s (s.mapTmb fun t => { t with ramp := Timer.start s.figures.rampInterval })
  | linkTimeout (h : s.vlp.link = .up) : Event s (linkLost s)
  | linkLossExpiry (h : s.tmb.linkLoss.due = true) :
      Event s (takeCause .linkLost (s.mapTmb fun t => { t with linkLoss := t.linkLoss.stop }))
  | overdrawExpiry (h : s.tmb.overdraw.due = true) :
      Event s (takeCause .overdraw (s.mapTmb fun t => { t with overdraw := t.overdraw.stop }))
  | computation (w : Working) (h : s.hre.computing = some w) : Event s (completeComputation w s)

theorem eventIf_cases {c : Bool} {f : State → State} {s t : State} (h : eventIf c f s = .next t) :
    (c = false ∧ t = s) ∨ (c = true ∧ t = settle s (f s)) := by
  cases c
  · exact .inl ⟨rfl, by simpa [eventIf] using h.symm⟩
  · exact .inr ⟨rfl, by simpa [eventIf, event] using h.symm⟩

/-- What a command taken in LISTEN or RUN leads to, RESET apart. -/
def Taken (s t : State) : Prop := Unmoved s t ∨ ∃ u, Event s u ∧ t = settle s u

namespace Taken

variable {s t : State}

theorem of_eventIf {c : Bool} {f : State → State} (h : eventIf c f s = .next t) (he : c = true → Event s (f s)) :
    Taken s t := by
  rcases eventIf_cases h with ⟨-, rfl⟩ | ⟨hc, rfl⟩
  · exact .inl (.refl _)
  · exact .inr ⟨_, he hc, rfl⟩

theorem of_event {f : State → State} (h : event f s = .next t) (he : Event s (f s)) : Taken s t :=
  .inr ⟨_, he, (Host.Outcome.next.inj h).symm⟩

theorem of_next {u : State} (h : Host.Outcome.next u = (.next t : Host.Outcome State Fault Refusal))
    (hu : Unmoved s u) : Taken s t := .inl (Host.Outcome.next.inj h ▸ hu)

theorem of_refuse {kind : Nat} {code : ResponseCode} (h : refuse kind code s = .next t) : Taken s t :=
  of_next h (.withSvp s _ rfl rfl)

end Taken

/-! ### Every command -/

section
variable {s t : State}

theorem loads_taken (hs : s.started = true) {c : Instr}
    (hc : (∃ r, c = .loadStation r) ∨ (∃ p, c = .loadProfile p) ∨ (∃ i k e, c = .loadPeriod i k e) ∨
      (∃ m, c = .setScheduleMode m) ∨ c = .start)
    (h : exec c s = .next t) : Taken s t := by
  rcases hc with ⟨r, rfl⟩ | ⟨p, rfl⟩ | ⟨i, k, e, rfl⟩ | ⟨m, rfl⟩ | rfl
  · exact .of_refuse (by simpa [exec, execLoadStation, hs] using h)
  · exact .of_refuse (by simpa [exec, execLoadProfile, hs] using h)
  · exact .of_refuse (by simpa [exec, execLoadPeriod, hs] using h)
  · exact .of_refuse (by simpa [exec, execSetScheduleMode, hs] using h)
  · exact .of_refuse (by simpa [exec, execStart, hs] using h)

theorem execLatch_taken (h : execLatch s = .next t) : Taken s t := by
  unfold execLatch at h
  split at h
  · exact .of_refuse h
  · exact .of_next h (.withSvp s _ rfl rfl)

theorem execReadSnapshot_taken (h : execReadSnapshot s = .next t) : Taken s t := by
  unfold execReadSnapshot at h
  split at h
  · exact .of_next h (.withSvp s _ rfl rfl)
  · exact .of_refuse h

theorem execReadPeer_taken (a : Nat) (h : execReadPeer a s = .next t) : Taken s t := by
  unfold execReadPeer at h
  split at h
  · exact .of_next h (.withSvp s _ rfl rfl)
  · exact .of_refuse h

theorem execClearTrip_taken (h : execClearTrip s = .next t) : Taken s t := by
  unfold execClearTrip at h
  split_ifs at h with h1 h2 h3
  · exact .of_refuse h
  · exact .of_refuse h
  · exact .of_event h (.clearTrip (by simpa [Option.isSome_iff_ne_none] using h2) h3)
  · exact .of_refuse h

theorem execForgetPeer_taken (a : Nat) (h : execForgetPeer a s = .next t) : Taken s t := by
  unfold execForgetPeer at h
  split at h
  · exact .of_refuse h
  · split at h
    · rename_i b _
      split at h
      · rename_i hknown
        refine .of_event h (.aside ((Aside.putEntry b _ true s ?_).trans (.answer _ _ _ _)))
        rintro rfl ho
        simp_all [PeerEntry.known, State.ownEntry]
      · exact .of_refuse h
    · exact .of_refuse h

theorem execBerthHold_taken (v : Nat) (h : execBerthHold v s = .next t) : Taken s t := by
  unfold execBerthHold at h
  split at h
  · exact .of_refuse h
  · split at h
    · split at h
      · exact .of_refuse h
      · exact .of_event h (.berthHold _)
    · exact .of_refuse h

theorem execProbe_taken (w : Nat) (h : execProbe w s = .next t) : Taken s t := by
  unfold execProbe at h
  split_ifs at h
  · exact .of_refuse h
  · exact .of_next h (.withSvp s _ rfl rfl)
  · exact .of_refuse h

theorem execPilotProven_taken (hs : s.started = true) (h : execPilotProven s = .next t) : Taken s t := by
  refine .of_eventIf h fun _ => ?_
  have hst : (settleActive .pilot true s).started = true := hs
  have hph : (settleActive .pilot true s).bsq.phase = s.bsq.phase := rfl
  by_cases hv : s.bsq.phase = .vacant
  · simpa [hst, hph, hv] using Event.plugProven hv
  · simpa [hst, hph, hv] using Event.pilotProven hv

/-- A line settles and the schedule may follow. -/
theorem aside_tariff (l : Line) (hl : l ≠ .pilot ∧ l ≠ .estop ∧ l ≠ .bkaux ∧ l ≠ .fdrwarn) (v b : Bool)
    (f : Csc → Csc) : Aside s (if b then changeSchedule f (settleLine l v s) else settleLine l v s) := by
  split
  · exact (Aside.settleLine l v s hl).trans (.changeSchedule f _)
  · exact .settleLine l v s hl

theorem execTariffAdvance_taken (h : execTariffAdvance s = .next t) : Taken s t := by
  refine .of_eventIf h fun _ => .aside ?_
  exact aside_tariff .tadv (by decide) (s.nextLevel .tadv) _ _

theorem execTariffRestart_taken (h : execTariffRestart s = .next t) : Taken s t := by
  refine .of_eventIf h fun _ => .aside ?_
  exact aside_tariff .trst (by decide) (s.nextLevel .trst) _ _

theorem execShipStatusRecord_taken (levels : List Level) (h : execShipStatusRecord levels s = .next t) : Taken s t := by
  unfold execShipStatusRecord at h
  split at h
  · exact .of_eventIf h fun hc => .takeRecord _ (by simp_all)
  · exact .of_next h (.refl s)

theorem execReferenceWordEnd_taken (h : execReferenceWordEnd s = .next t) : Taken s t := by
  unfold execReferenceWordEnd at h
  split at h
  · exact .of_next h (.refl s)
  · refine .of_next h ?_
    split <;> exact ⟨rfl, rfl, rfl, rfl, rfl, rfl, rfl, rfl, fun h => .inl ⟨h, rfl⟩, rfl, rfl, .inl rfl, rfl, rfl, rfl,
      fun _ => ⟨rfl, rfl, rfl, rfl⟩⟩

theorem execStatusIntervalReached_taken (h : execStatusIntervalReached s = .next t) : Taken s t := by
  unfold execStatusIntervalReached at h
  split at h
  · exact .of_next h (.startStatusRecord s)
  · exact .of_next h (.refl s)

theorem execBerthStatusRecordEnd_taken (h : execBerthStatusRecordEnd s = .next t) : Taken s t := by
  unfold execBerthStatusRecordEnd at h
  split at h
  · exact .of_next h ⟨rfl, rfl, rfl, rfl, rfl, rfl, rfl, rfl, fun h => (nomatch h), rfl, rfl, .inl rfl, rfl, rfl, rfl,
      fun _ => ⟨rfl, rfl, rfl, rfl⟩⟩
  · exact .of_next h (.refl s)

theorem execStatusRecordGapEnd_taken (h : execStatusRecordGapEnd s = .next t) : Taken s t := by
  unfold execStatusRecordGapEnd at h
  split at h
  · split at h
    · exact .of_next h (.startStatusRecord s)
    · rename_i hdue
      have hsent : s.vlp.lastSent = some s.statusNow := by simp_all [State.statusDue]
      exact .of_next h ⟨rfl, rfl, rfl, rfl, rfl, rfl, rfl, rfl, fun _ => .inr hsent, rfl, rfl, .inl rfl, rfl, rfl, rfl,
        fun _ => ⟨rfl, rfl, rfl, rfl⟩⟩
  · exact .of_next h (.refl s)

/-- A boundary after the first samples the lines and leaves each qualified state. -/
theorem execLineSampling_taken (levels : PerLine Bool) (h : execLineSampling levels s = .next t) : Taken s t := by
  have hact (b : Nat) (l : LineState) (v : Bool) : (l.sample b v).active = l.active := by
    unfold LineState.sample
    split
    · rfl
    · split
      · split <;> rfl
      · rfl
  unfold execLineSampling at h
  split at h
  · exact .of_next h (.refl s)
  · refine .of_next h (.countBoundary_mapLib s _ fun _ l hl => ?_)
    fin_cases hl <;> exact hact _ _ _

theorem execLineInitialSettle_taken (levels : PerLine Bool) (h : execLineInitialSettle levels s = .next t) :
    Taken s t := by
  unfold execLineInitialSettle at h
  split at h
  · exact .of_next h (.countBoundary_mapLib s _ (by omega))
  · exact .of_next h (.refl s)

theorem execEdgeLineSettled_taken (l : EdgeLine) (h : execEdgeLineSettled l s = .next t) : Taken s t := by
  unfold execEdgeLineSettled at h
  dsimp only at h
  split at h
  · exact .of_next h (.settleLine s _ _ (by cases l <;> decide))
  · exact .of_next h (.refl s)

theorem execPlugCodeLineChange_taken (n : Fin 4) (v : Bool) (h : execPlugCodeLineChange n v s = .next t) :
    Taken s t := by
  unfold execPlugCodeLineChange at h
  split at h
  · exact .of_next h (.settleLine s _ _ (by simp))
  · exact .of_next h (.refl s)

theorem qualifySelects_aside (s : State) : Aside s (qualifySelects s) := by
  have hone (n : Fin 4) (s : State) : Aside s (qualifySelect n s) := by
    unfold qualifySelect
    split
    · exact .settleLine _ _ s (by simp)
    · exact .refl s
  exact (((hone 0 s).trans (hone 1 _)).trans (hone 2 _)).trans (hone 3 _)

theorem execTariffSelectChange_taken (n : Fin 4) (v : Bool) (h : execTariffSelectChange n v s = .next t) :
    Taken s t := by
  refine .of_eventIf h fun _ => .aside ?_
  have hline : Aside s (qualifySelects (settleActive (.tsel n) v s)) :=
    (Aside.settleLine _ _ s (by simp)).trans (qualifySelects_aside _)
  dsimp only
  split
  · exact hline.trans (.changeSchedule _ _)
  · exact hline

/-- A slot's frame that is handed on comes from a peer. -/
theorem handsOn_peer {r : RxFrame} (h : s.handsOn r = true) : r.frame.sender ≠ s.ownAddress := by
  simp_all [State.handsOn]

theorem execAnnounceReceived_taken (h : execAnnounceReceived s = .next t) : Taken s t := by
  unfold execAnnounceReceived at h
  split at h
  · refine .of_event h (.aside ?_)
    split
    · rename_i hon
      exact (Aside.closeSlot s).trans (.putEntry _ _ _ _ fun ha => absurd ha (handsOn_peer hon))
    · exact .closeSlot s
  · exact .of_next h (.refl s)

theorem execReserveReceived_taken (levels : SlotLevels) (h : execReserveReceived levels s = .next t) : Taken s t := by
  unfold execReserveReceived at h
  split at h
  · refine .of_event h (.aside ?_)
    split
    · rename_i hon
      refine (Aside.closeSlot s).trans ?_
      unfold takeReserve
      split <;> exact .putEntry _ _ _ _ fun ha => absurd ha (handsOn_peer hon)
    · exact .closeSlot s
  · exact .of_next h (.refl s)

theorem execWithdrawReceived_taken (h : execWithdrawReceived s = .next t) : Taken s t := by
  unfold execWithdrawReceived at h
  split at h
  · refine .of_event h (.aside ?_)
    split
    · rename_i hon
      exact (Aside.closeSlot s).trans (.putEntry _ _ _ _ fun ha => absurd ha (handsOn_peer hon))
    · exact .closeSlot s
  · exact .of_next h (.refl s)

theorem execCollidedTransmissionEnd_taken (h : execCollidedTransmissionEnd s = .next t) : Taken s t := by
  unfold execCollidedTransmissionEnd at h
  split at h
  · exact .of_eventIf h fun _ => .aside (.collidedEnd _ s)
  · exact .of_next h (.refl s)

theorem execOwnSlotEnd_taken (levels : SlotLevels) (h : execOwnSlotEnd levels s = .next t) : Taken s t := by
  unfold execOwnSlotEnd at h
  split at h
  · exact .of_event h (.aside (.ownSlotEnd _ _ s))
  · exact .of_next h (.refl s)

theorem execSilentAgeingStep_taken (a : Address) (h : execSilentAgeingStep a s = .next t) : Taken s t := by
  refine .of_eventIf h fun hc => .aside (.putEntry a _ _ s ?_)
  rintro rfl ho
  simp_all [State.ownEntry]

theorem execReservedFieldAgeStep_taken (a : Address) (h : execReservedFieldAgeStep a s = .next t) : Taken s t := by
  unfold execReservedFieldAgeStep at h
  split at h
  · refine .of_eventIf h fun hc => .aside (.putEntry a _ _ s ?_)
    rintro rfl ho
    simp_all [State.ownEntry, PeerEntry.known]
  · exact .of_next h (.refl s)

theorem execComputationComplete_taken (h : execComputationComplete s = .next t) : Taken s t := by
  unfold execComputationComplete at h
  split at h
  · exact .of_event h (.computation _ ‹_›)
  · exact .of_next h (.refl s)

theorem execRampTick_taken (h : execRampTick s = .next t) : Taken s t := by
  refine .of_eventIf h fun _ => ?_
  dsimp only
  split
  · exact .rampUp ‹_›
  · split
    · exact .rampDown ‹_›
    · exact .rampStart

theorem execSyncWindowExpiry_taken (h : execSyncWindowExpiry s = .next t) : Taken s t := by
  refine .of_eventIf h fun _ => ?_
  dsimp only
  split
  · exact .syncExpiry ‹_›
  · exact .syncStop

theorem execParallelLimitExpiry_taken (h : execParallelLimitExpiry s = .next t) : Taken s t := by
  refine .of_eventIf h fun _ => ?_
  dsimp only
  split
  · exact .parallelExpiry ‹_›
  · exact .parallelStop

/-- What every command but RESET, taken in LISTEN or RUN, leads to. -/
theorem exec_taken (hs : s.started = true) {c : Instr} (hc : c ≠ .reset) (h : exec c s = .next t) : Taken s t := by
  cases c with
  | reset => exact absurd rfl hc
  | lineInitialSettle levels => exact execLineInitialSettle_taken levels h
  | loadStation r => exact loads_taken hs (.inl ⟨r, rfl⟩) h
  | loadProfile p => exact loads_taken hs (.inr (.inl ⟨p, rfl⟩)) h
  | loadPeriod i k e => exact loads_taken hs (.inr (.inr (.inl ⟨i, k, e, rfl⟩))) h
  | setScheduleMode m => exact loads_taken hs (.inr (.inr (.inr (.inl ⟨m, rfl⟩)))) h
  | start => exact loads_taken hs (.inr (.inr (.inr (.inr rfl)))) h
  | readStatus => exact .of_next h (.withSvp s _ rfl rfl)
  | latch => exact execLatch_taken h
  | readSnapshot => exact execReadSnapshot_taken h
  | readPeer a => exact execReadPeer_taken a h
  | clearTrip => exact execClearTrip_taken h
  | forgetPeer a => exact execForgetPeer_taken a h
  | berthHold v => exact execBerthHold_taken v h
  | probe w => exact execProbe_taken w h
  | transactionNotTaken bytes => exact .of_next h (.refl s)
  | pilotProven => exact execPilotProven_taken hs h
  | pilotLost => exact .of_eventIf h fun _ => (if_pos (by exact hs)).symm ▸ Event.pilotLost
  | auxReadsClosed => exact .of_eventIf h fun _ => (if_pos (by exact hs)).symm ▸ Event.auxClosure
  | auxReadsOpen => exact .of_eventIf h fun _ => (if_pos (by exact hs)).symm ▸ Event.auxOpening
  | estopChange v => exact .of_eventIf h fun _ => .estopChange v
  | feederWarningChange v => exact .of_eventIf h fun _ => (if_pos (by exact hs)).symm ▸ Event.warningChange v
  | plugCodeLineChange n v => exact execPlugCodeLineChange_taken n v h
  | tariffAdvance => exact execTariffAdvance_taken h
  | tariffRestart => exact execTariffRestart_taken h
  | tariffSelectChange n v => exact execTariffSelectChange_taken n v h
  | edgeLineSettled l => exact execEdgeLineSettled_taken l h
  | shipStatusRecord levels => exact execShipStatusRecord_taken levels h
  | meterSample bits => exact .of_eventIf h fun _ => .aside (.takeSample _ s)
  | receivedTransmissionEnd levels => exact .of_eventIf h fun _ => .aside (.takeTransmission _ s)
  | announceReceived => exact execAnnounceReceived_taken h
  | reserveReceived levels => exact execReserveReceived_taken levels h
  | withdrawReceived => exact execWithdrawReceived_taken h
  | attemptStart => exact .of_eventIf h fun _ => .aside (.beginAttempt s)
  | collision => exact .of_eventIf h fun _ => .aside (.collide s)
  | collidedTransmissionEnd => exact execCollidedTransmissionEnd_taken h
  | ownSlotEnd levels => exact execOwnSlotEnd_taken levels h
  | announceTimerExpiry =>
    exact .of_eventIf h fun _ => .aside ((((Aside.mapTmb _ s rfl rfl rfl).trans (.requestAnnounce _)).trans
      (.silenceCheck _)).trans (.lowerSettleCount _))
  | listenExpiry => exact .of_eventIf h fun _ => .listenExpiry
  | holdExpiry => exact .of_eventIf h fun hd => .holdExpiry hd
  | reserveBackoffExpiry =>
    exact .of_eventIf h fun _ => .aside (((Aside.mapTmb _ s rfl rfl rfl).trans (.clearReserve _)).trans
      (.requestRecompute _))
  | breakerTimerExpiry => exact .of_eventIf h fun hd => .breakerExpiry hd
  | inrushExpiry => exact .of_eventIf h fun _ => .inrushExpiry
  | syncWindowExpiry => exact execSyncWindowExpiry_taken h
  | parallelLimitExpiry => exact execParallelLimitExpiry_taken h
  | rampTick => exact execRampTick_taken h
  | vesselLinkTimeout => exact .of_eventIf h fun hd => .linkTimeout (by simp_all)
  | linkLossTripExpiry => exact .of_eventIf h fun hd => .linkLossExpiry hd
  | overdrawExpiry => exact .of_eventIf h fun hd => .overdrawExpiry hd
  | meterStaleExpiry =>
    exact .of_eventIf h fun _ => .aside (((Aside.mapTmb _ s rfl rfl rfl).trans (.mapMtp _ _)).trans (.raiseAttention _ _))
  | silentAgeingStep a => exact execSilentAgeingStep_taken a h
  | reservedFieldAgeStep a => exact execReservedFieldAgeStep_taken a h
  | computationComplete => exact execComputationComplete_taken h
  | referenceWordEnd => exact execReferenceWordEnd_taken h
  | statusIntervalReached => exact execStatusIntervalReached_taken h
  | statusRecordGapEnd => exact execStatusRecordGapEnd_taken h
  | lineSampling levels => exact execLineSampling_taken levels h
  | transmissionBegins => exact .of_next h (.mapBlc s _)
  | berthStatusRecordEnd => exact execBerthStatusRecordEnd_taken h

end

end Sys2Proof.Machine
end

