-- ==== Sys2Proof/Proofs/Config.lean ====
section
/-! SUPPORT. CONFIG: what a command taken there can do, and the proof that CONFIG stays quiet. -/

namespace Sys2Proof.Machine

/-- The part in CONFIG, quiet. -/
structure InConfig (s : State) : Prop where
  mode : s.svp.mode = .config
  bsq : s.bsq = { State.reset.bsq with bkOpen := s.bsq.bkOpen, serving := s.bsq.serving }
  serving : s.bsq.serving = none ∨ s.bsq.serving = some .resetPulse
  pvt : s.pvt = State.reset.pvt
  rsu : s.rsu = State.reset.rsu
  hre : s.hre = { State.reset.hre with request := s.hre.request }
  target : s.gos.target = 0
  pending : s.gos.pending = 0
  applied : s.gos.applied = 0
  stall : s.gos.stall = 0
  suspended : s.gos.suspended = false
  queue : s.blc.queue = []
  silent : s.blc.inTransmission = false
  conflict : s.blc.conflict = false
  vlp : s.vlp = { State.reset.vlp with slots := s.vlp.slots }
  stale : s.mtp.stale = false
  tru : s.tru = State.reset.tru
  tmb : s.tmb = { State.reset.tmb with boundary := s.tmb.boundary, breaker := s.tmb.breaker }
  attention : s.svp.attention = .empty
  attn : s.svp.attn = false

theorem configQuiet_iff (s : State) : ConfigQuiet s ↔ (s.svp.mode = .config → InConfig s) := by
  constructor
  · intro h hm
    obtain ⟨h1, h2, h3, h4, h5, h6, h7, h8, h9, h10, h11, h12, h13, h14, h15, h16, h17, h18, h19⟩ := h hm
    exact ⟨hm, h1, h2, h3, h4, h5, h6, h7, h8, h9, h10, h11, h12, h13, h14, h15, h16, h17, h18, h19⟩
  · intro h hm
    obtain ⟨-, h1, h2, h3, h4, h5, h6, h7, h8, h9, h10, h11, h12, h13, h14, h15, h16, h17, h18, h19⟩ := h hm
    exact ⟨h1, h2, h3, h4, h5, h6, h7, h8, h9, h10, h11, h12, h13, h14, h15, h16, h17, h18, h19⟩

/-- BKOPEN is asserted only for the reset pulse or an open, and the breaker timer runs exactly for the command that it
serves. -/
def BreakerForm (s : State) : Prop :=
  (s.bsq.bkOpen = true → s.bsq.serving = some .resetPulse ∨ s.bsq.serving = some .openCmd) ∧
  s.bsq.serving.isSome = s.tmb.breaker.running

/-- What a command but RESET and START can do in CONFIG: the part stays quiet, and the breaker outputs in form. -/
structure ConfigMove (s t : State) : Prop where
  quiet : InConfig t
  breaker : BreakerForm s → BreakerForm t

theorem BreakerForm.of_eq {s t : State} (hb : t.bsq = s.bsq) (hr : t.tmb.breaker.running = s.tmb.breaker.running)
    (h : BreakerForm s) : BreakerForm t := by
  unfold BreakerForm
  rw [hb, hr]
  exact h

namespace InConfig

variable {s t : State}

theorem started (h : InConfig s) : s.started = false := by simp [State.started, h.mode]

theorem stay (h : InConfig s) : ConfigMove s s := ⟨h, id⟩

theorem withSvp (h : InConfig s) (v : Svp) (hm : v.mode = s.svp.mode) (ha : v.attention = .empty)
    (hn : v.attn = false) : ConfigMove s { s with svp := v } :=
  ⟨⟨hm.trans h.mode, h.bsq, h.serving, h.pvt, h.rsu, h.hre, h.target, h.pending, h.applied, h.stall, h.suspended,
    h.queue, h.silent, h.conflict, h.vlp, h.stale, h.tru, h.tmb, ha, hn⟩, BreakerForm.of_eq rfl rfl⟩

theorem answer (h : InConfig s) (kind : Nat) (code : ResponseCode) (data : List Byte) :
    ConfigMove s (answer kind code data s) := h.withSvp _ rfl h.attention h.attn

theorem withLib (h : InConfig s) (l : Lib) : ConfigMove s { s with lib := l } :=
  ⟨⟨h.mode, h.bsq, h.serving, h.pvt, h.rsu, h.hre, h.target, h.pending, h.applied, h.stall, h.suspended, h.queue,
    h.silent, h.conflict, h.vlp, h.stale, h.tru, h.tmb, h.attention, h.attn⟩, BreakerForm.of_eq rfl rfl⟩

theorem withCsc (h : InConfig s) (c : Csc) : ConfigMove s { s with csc := c } :=
  ⟨⟨h.mode, h.bsq, h.serving, h.pvt, h.rsu, h.hre, h.target, h.pending, h.applied, h.stall, h.suspended, h.queue,
    h.silent, h.conflict, h.vlp, h.stale, h.tru, h.tmb, h.attention, h.attn⟩, BreakerForm.of_eq rfl rfl⟩

theorem requestRecompute (h : InConfig s) : ConfigMove s (requestRecompute s) :=
  ⟨⟨h.mode, h.bsq, h.serving, h.pvt, h.rsu, congrArg (fun x : Hre => { x with request := true }) h.hre, h.target,
    h.pending, h.applied, h.stall, h.suspended, h.queue, h.silent, h.conflict, h.vlp, h.stale, h.tru, h.tmb,
    h.attention, h.attn⟩, BreakerForm.of_eq rfl rfl⟩

theorem withSlots (h : InConfig s) (f : Table (Option Profile) → Table (Option Profile)) :
    ConfigMove s (s.mapVlp fun v => { v with slots := f v.slots }) :=
  ⟨⟨h.mode, h.bsq, h.serving, h.pvt, h.rsu, h.hre, h.target, h.pending, h.applied, h.stall, h.suspended, h.queue,
    h.silent, h.conflict, congrArg (fun x : Vlp => { x with slots := f x.slots }) h.vlp, h.stale, h.tru, h.tmb,
    h.attention, h.attn⟩, BreakerForm.of_eq rfl rfl⟩

theorem withDraw (h : InConfig s) (d : Option Nat) : ConfigMove s (s.mapMtp fun m => { m with draw := d }) :=
  ⟨⟨h.mode, h.bsq, h.serving, h.pvt, h.rsu, h.hre, h.target, h.pending, h.applied, h.stall, h.suspended, h.queue,
    h.silent, h.conflict, h.vlp, h.stale, h.tru, h.tmb, h.attention, h.attn⟩, BreakerForm.of_eq rfl rfl⟩

theorem withPort (h : InConfig s) (p : RefPort) (n : Nat) :
    ConfigMove s (s.mapGos fun g => { g with updateCount := n, port := p }) :=
  ⟨⟨h.mode, h.bsq, h.serving, h.pvt, h.rsu, h.hre, h.target, h.pending, h.applied, h.stall, h.suspended, h.queue,
    h.silent, h.conflict, h.vlp, h.stale, h.tru, h.tmb, h.attention, h.attn⟩, BreakerForm.of_eq rfl rfl⟩

theorem withBlc (h : InConfig s) (b : Blc) (hq : b.queue = []) (ht : b.inTransmission = false)
    (hc : b.conflict = false) : ConfigMove s { s with blc := b } :=
  ⟨⟨h.mode, h.bsq, h.serving, h.pvt, h.rsu, h.hre, h.target, h.pending, h.applied, h.stall, h.suspended, hq, ht, hc,
    h.vlp, h.stale, h.tru, h.tmb, h.attention, h.attn⟩, BreakerForm.of_eq rfl rfl⟩

/-- An entry after a boundary is as reset left it. -/
theorem countBoundary (h : InConfig s) : ConfigMove s (countBoundary s) := by
  refine ⟨⟨h.mode, h.bsq, h.serving, ?_, h.rsu, h.hre, h.target, h.pending, h.applied, h.stall, h.suspended, h.queue,
    h.silent, h.conflict, ?_, h.stale, h.tru, ?_, h.attention, h.attn⟩, BreakerForm.of_eq rfl (Timer.tick_running _)⟩
  · change s.pvt.map PeerEntry.tick = _
    have hblank : PeerEntry.blank.tick = PeerEntry.blank := rfl
    simp [h.pvt, State.reset, hblank]
  · exact congrArg (fun v : Vlp => { v with
      statusCount := if v.lastSent.isSome then min Config.statusInterval (v.statusCount + 1) else v.statusCount }) h.vlp
  · change s.tmb.tick = { State.reset.tmb with boundary := s.tmb.boundary + 1, breaker := s.tmb.breaker.tick }
    rw [h.tmb]
    rfl

/-- The reset pulse ends. -/
theorem endPulse (h : InConfig s) : ConfigMove s (releaseOpen s) :=
  ⟨⟨h.mode, congrArg (fun x : Bsq => { x with bkOpen := false, serving := none }) h.bsq, .inl rfl, h.pvt, h.rsu, h.hre,
    h.target, h.pending, h.applied, h.stall, h.suspended, h.queue, h.silent, h.conflict, h.vlp, h.stale, h.tru,
    congrArg (fun x : Tmb => { x with breaker := x.breaker.stop }) h.tmb, h.attention, h.attn⟩, fun _ => ⟨nofun, rfl⟩⟩

end InConfig

/-- One move in CONFIG after another. -/
theorem ConfigMove.andThen {s t u : State} (h : ConfigMove s t) (k : InConfig t → ConfigMove t u) : ConfigMove s u :=
  ⟨(k h.quiet).quiet, (k h.quiet).breaker ∘ h.breaker⟩

theorem ConfigMove.of_next {s t u : State}
    (he : Host.Outcome.next u = (.next t : Host.Outcome State Fault Refusal)) (hu : ConfigMove s u) : ConfigMove s t :=
  Host.Outcome.next.inj he ▸ hu

section
variable {s t : State} (h : InConfig s)
include h

theorem InConfig.of_eventIf {c : Bool} {f : State → State} (he : eventIf c f s = .next t)
    (hf : c = true → ConfigMove s (f s)) : ConfigMove s t := by
  rcases eventIf_cases he with ⟨-, rfl⟩ | ⟨hc, rfl⟩
  · exact h.stay
  · rw [settle_config _ _ (hf hc).quiet.started]
    exact hf hc

theorem InConfig.of_refuse {kind : Nat} {code : ResponseCode} (he : refuse kind code s = .next t) : ConfigMove s t :=
  ConfigMove.of_next he (h.answer _ _ _)

theorem InConfig.of_event {f : State → State} (he : event f s = .next t) (hf : ConfigMove s (f s)) :
    ConfigMove s t := h.of_eventIf (c := true) he fun _ => hf

/-- An event that is not due in CONFIG. -/
theorem InConfig.of_notDue {c : Bool} {f : State → State} (he : eventIf c f s = .next t) (hc : c = false) :
    ConfigMove s t := h.of_eventIf he fun hc' => by simp [hc] at hc'

/-- No timer but the breaker's runs in CONFIG. -/
theorem InConfig.timers_stopped :
    s.tmb.announce.due = false ∧ s.tmb.listen.due = false ∧ s.tmb.hold.due = false ∧
    s.tmb.reserveBackoff.due = false ∧ s.tmb.inrush.due = false ∧ s.tmb.sync.due = false ∧
    s.tmb.parallel.due = false ∧ s.tmb.ramp.due = false ∧ s.tmb.linkTimeout.due = false ∧
    s.tmb.linkLoss.due = false ∧ s.tmb.overdraw.due = false ∧ s.tmb.meterStale.due = false := by
  rw [h.tmb]
  exact ⟨rfl, rfl, rfl, rfl, rfl, rfl, rfl, rfl, rfl, rfl, rfl, rfl⟩

/-- No entry is there in CONFIG. -/
theorem InConfig.entry (a : Address) : s.pvt[a] = PeerEntry.blank := by
  simp [h.pvt, State.reset]

/-- A line's change in CONFIG settles the line alone. -/
theorem InConfig.of_line {c : Bool} {f : State → State} (he : eventIf c f s = .next t) {l : Lib}
    (hu : f s = { s with lib := l }) : ConfigMove s t :=
  h.of_eventIf he fun _ => hu ▸ h.withLib l

theorem InConfig.openSlot (d : Bool) (rx : Option RxFrame) : ConfigMove s (openSlot d rx s) :=
  h.withBlc _ h.queue rfl h.conflict

theorem InConfig.closeSlot : ConfigMove s (closeSlot s) := h.withBlc _ h.queue rfl h.conflict

theorem InConfig.handsOn (r : RxFrame) : s.handsOn r = false := by simp [State.handsOn, h.started]

/-- A driven bit time leaves the empty queue and begins no attempt. -/
theorem InConfig.driven : ConfigMove s (s.mapBlc Blc.driven) := by
  have hlink := h.silent
  refine h.withBlc _ ?_ ?_ ?_ <;> rw [Blc.driven_frame]
  · exact h.queue
  · unfold Blc.driven
    cases hl : s.blc.link <;> simp_all [Blc.inTransmission, LinkPhase.attempting, LinkPhase.colliding]
  · exact h.conflict

/-- So does a bit time. -/
theorem InConfig.bitTime : ConfigMove s (bitTime s) := by
  have hlink := h.silent
  refine h.withBlc _ ?_ ?_ ?_ <;> rw [Blc.bitTime_frame]
  · exact h.queue
  · unfold Blc.bitTime
    cases hl : s.blc.link with
    | slot d n =>
      by_cases hc : n ≤ 1 ∧ s.blc.rx = none <;>
        simp [hc, Blc.inTransmission, LinkPhase.attempting, LinkPhase.colliding]
    | _ => simp_all [Blc.inTransmission, LinkPhase.attempting, LinkPhase.colliding]
  · exact h.conflict

theorem execLoadStation_config (r : StationRecord) (he : execLoadStation r s = .next t) : ConfigMove s t := by
  unfold execLoadStation at he
  rw [if_neg (by simp [h.started])] at he
  split at he
  · exact .of_next he (((h.withSvp { s.svp with station := some r } rfl h.attention h.attn).andThen
      fun h => h.withLib _).andThen fun h => h.answer _ _ _)
  · exact h.of_refuse he

theorem execLoadProfile_config (p : ProfileArgs) (he : execLoadProfile p s = .next t) : ConfigMove s t := by
  unfold execLoadProfile at he
  rw [if_neg (by simp [h.started])] at he
  split at he
  · exact .of_next he ((h.withSlots fun v => v.set (Fin.ofNat 16 p.slot) (some (profileOfArgs p))).andThen fun h => h.answer _ _ _)
  · exact h.of_refuse he

theorem execLoadPeriod_config (i k e : Nat) (he : execLoadPeriod i k e s = .next t) : ConfigMove s t := by
  unfold execLoadPeriod at he
  rw [if_neg (by simp [h.started])] at he
  dsimp only at he
  have hload := h.withCsc (Csc.load i { capacity := k, executions := e } s.csc)
  split at he
  · refine .of_next he (.andThen ?_ fun h => h.answer _ _ _)
    split
    · exact hload
    · exact hload.andThen fun h => h.requestRecompute
  · exact h.of_refuse he

theorem execSetScheduleMode_config (m : Nat) (he : execSetScheduleMode m s = .next t) : ConfigMove s t := by
  unfold execSetScheduleMode at he
  rw [if_neg (by simp [h.started])] at he
  split at he
  · exact .of_next he ((h.withCsc _).andThen fun h => h.answer _ _ _)
  · exact h.of_refuse he

theorem execLatch_config (he : execLatch s = .next t) : ConfigMove s t := by
  unfold execLatch at he
  split at he
  · exact h.of_refuse he
  · exact .of_next he (h.withSvp _ rfl h.attention h.attn)

theorem execReadSnapshot_config (he : execReadSnapshot s = .next t) : ConfigMove s t := by
  unfold execReadSnapshot at he
  split at he
  · exact .of_next he (h.withSvp _ rfl h.attention h.attn)
  · exact h.of_refuse he

theorem execReadPeer_config (a : Nat) (he : execReadPeer a s = .next t) : ConfigMove s t := by
  unfold execReadPeer at he
  split at he
  · exact .of_next he (h.answer _ _ _)
  · exact h.of_refuse he

theorem execPlugCodeLineChange_config (n : Fin 4) (v : Bool) (he : execPlugCodeLineChange n v s = .next t) :
    ConfigMove s t := by
  unfold execPlugCodeLineChange at he
  split at he
  · exact .of_next he (h.withLib _)
  · exact .of_next he h.stay

theorem execEdgeLineSettled_config (l : EdgeLine) (he : execEdgeLineSettled l s = .next t) : ConfigMove s t := by
  unfold execEdgeLineSettled at he
  dsimp only at he
  split at he
  · exact .of_next he (h.withLib _)
  · exact .of_next he h.stay

theorem execLineInitialSettle_config (levels : PerLine Bool) (he : execLineInitialSettle levels s = .next t) :
    ConfigMove s t := by
  unfold execLineInitialSettle at he
  split at he
  · exact .of_next he (h.countBoundary.andThen fun h => h.withLib _)
  · exact .of_next he h.stay

theorem execLineSampling_config (levels : PerLine Bool) (he : execLineSampling levels s = .next t) :
    ConfigMove s t := by
  unfold execLineSampling at he
  split at he
  · exact .of_next he h.stay
  · exact .of_next he (h.countBoundary.andThen fun h => h.withLib _)

theorem execTariffSelectChange_config (n : Fin 4) (v : Bool) (he : execTariffSelectChange n v s = .next t) :
    ConfigMove s t := by
  refine h.of_eventIf he fun _ => ?_
  have hq : ConfigMove s (qualifySelects (settleActive (.tsel n) v s)) := by
    rw [qualifySelects_frame]
    exact (h.withLib _).andThen fun h => h.withLib _
  simpa [State.takesTariff, hq.quiet.started] using hq

theorem execShipStatusRecord_config (levels : List Level) (he : execShipStatusRecord levels s = .next t) :
    ConfigMove s t := by
  unfold execShipStatusRecord at he
  split at he
  · exact h.of_notDue he (by simp [h.started])
  · exact .of_next he h.stay

theorem execMeterSample_config (bits : List Bool) (he : execMeterSample bits s = .next t) : ConfigMove s t := by
  refine h.of_eventIf he fun _ => ?_
  have hd := h.withDraw (some (drawOf bits))
  simpa [takeSample, h.started] using hd

theorem execReceivedTransmissionEnd_config (levels : List Level)
    (he : execReceivedTransmissionEnd levels s = .next t) : ConfigMove s t := by
  refine h.of_eventIf he fun _ => ?_
  unfold takeTransmission
  split
  · exact h.openSlot _ _
  · exact h.openSlot _ _
  · rw [if_neg (by simp [h.started])]
    exact h.openSlot _ _

theorem execAnnounceReceived_config (he : execAnnounceReceived s = .next t) : ConfigMove s t := by
  unfold execAnnounceReceived at he
  split at he
  · refine h.of_event he ?_
    simpa [h.handsOn] using h.closeSlot
  · exact .of_next he h.stay

theorem execReserveReceived_config (levels : SlotLevels) (he : execReserveReceived levels s = .next t) :
    ConfigMove s t := by
  unfold execReserveReceived at he
  split at he
  · refine h.of_event he ?_
    simpa [h.handsOn] using h.closeSlot
  · exact .of_next he h.stay

theorem execWithdrawReceived_config (he : execWithdrawReceived s = .next t) : ConfigMove s t := by
  unfold execWithdrawReceived at he
  split at he
  · refine h.of_event he ?_
    simpa [h.handsOn] using h.closeSlot
  · exact .of_next he h.stay

theorem execReferenceWordEnd_config (he : execReferenceWordEnd s = .next t) : ConfigMove s t := by
  unfold execReferenceWordEnd at he
  split at he
  · exact .of_next he h.stay
  · refine .of_next he ?_
    split
    · exact h.withPort _ _
    · exact (h.withPort .idle _).andThen fun h => h.withPort _ _

theorem execBreakerTimerExpiry_config (he : execBreakerTimerExpiry s = .next t) : ConfigMove s t := by
  refine h.of_eventIf he fun _ => ?_
  rcases h.serving with hv | hv <;> rw [hv]
  · refine ⟨⟨h.mode, congrArg (fun x : Bsq => { x with serving := none }) h.bsq, .inl rfl, h.pvt, h.rsu, h.hre, h.target,
      h.pending, h.applied, h.stall, h.suspended, h.queue, h.silent, h.conflict, h.vlp, h.stale, h.tru,
      congrArg (fun x : Tmb => { x with breaker := x.breaker.stop }) h.tmb, h.attention, h.attn⟩, fun hf => ⟨?_, rfl⟩⟩
    intro ho
    simpa [hv] using hf.1 ho
  · have hend : breakerExpired (some .resetPulse) (stopBreaker s) = releaseOpen s :=
      if_neg (by simp [stopBreaker, h.started])
    rw [hend]
    exact h.endPulse

/-- What every command but RESET and START, taken in CONFIG, leads to. -/
theorem exec_config {c : Instr} (hc : c ≠ .reset) (hc' : c ≠ .start) (he : exec c s = .next t) : ConfigMove s t := by
  obtain ⟨hannounce, hlisten, hhold, hbackoff, hinrush, hsync, hparallel, hramp, htimeout, hloss, hoverdraw, hstale⟩ :=
    h.timers_stopped
  have hns := h.started
  cases c with
  | reset => exact absurd rfl hc
  | start => exact absurd rfl hc'
  | lineInitialSettle levels => exact execLineInitialSettle_config h levels he
  | loadStation r => exact execLoadStation_config h r he
  | loadProfile p => exact execLoadProfile_config h p he
  | loadPeriod i k e => exact execLoadPeriod_config h i k e he
  | setScheduleMode m => exact execSetScheduleMode_config h m he
  | readStatus => exact .of_next he (h.withSvp _ rfl rfl rfl)
  | latch => exact execLatch_config h he
  | readSnapshot => exact execReadSnapshot_config h he
  | readPeer a => exact execReadPeer_config h a he
  | clearTrip => exact h.of_refuse (by simpa [exec, execClearTrip, hns] using he)
  | forgetPeer a => exact h.of_refuse (by simpa [exec, execForgetPeer, hns] using he)
  | berthHold v => exact h.of_refuse (by simpa [exec, execBerthHold, hns] using he)
  | probe w => exact h.of_refuse (by simpa [exec, execProbe, hns] using he)
  | transactionNotTaken bytes => exact .of_next he h.stay
  | pilotProven => exact h.of_line he (if_neg (by simp [settleActive, settleLine, hns]))
  | pilotLost => exact h.of_line he (if_neg (by simp [settleActive, settleLine, hns]))
  | auxReadsClosed => exact h.of_line he (if_neg (by simp [settleActive, settleLine, hns]))
  | auxReadsOpen => exact h.of_line he (if_neg (by simp [settleActive, settleLine, hns]))
  | estopChange v => exact h.of_line he rfl
  | feederWarningChange v => exact h.of_line he (if_neg (by simp [settleActive, settleLine, hns]))
  | plugCodeLineChange n v => exact execPlugCodeLineChange_config h n v he
  | tariffAdvance => exact h.of_line he (if_neg (by simp [State.takesTariff, settleLine, hns]))
  | tariffRestart => exact h.of_line he (if_neg (by simp [State.takesTariff, settleLine, hns]))
  | tariffSelectChange n v => exact execTariffSelectChange_config h n v he
  | edgeLineSettled l => exact execEdgeLineSettled_config h l he
  | shipStatusRecord levels => exact execShipStatusRecord_config h levels he
  | meterSample bits => exact execMeterSample_config h bits he
  | receivedTransmissionEnd levels => exact execReceivedTransmissionEnd_config h levels he
  | announceReceived => exact execAnnounceReceived_config h he
  | reserveReceived levels => exact execReserveReceived_config h levels he
  | withdrawReceived => exact execWithdrawReceived_config h he
  | attemptStart => exact h.of_notDue he (by simp [hns])
  | collision => exact h.of_notDue he (by simp [h.queue])
  | collidedTransmissionEnd => exact .of_next (by simpa [exec, execCollidedTransmissionEnd, h.queue] using he) h.stay
  | ownSlotEnd levels => exact .of_next (by simpa [exec, execOwnSlotEnd, h.queue] using he) h.stay
  | announceTimerExpiry => exact h.of_notDue he hannounce
  | listenExpiry => exact h.of_notDue he hlisten
  | holdExpiry => exact h.of_notDue he hhold
  | reserveBackoffExpiry => exact h.of_notDue he hbackoff
  | breakerTimerExpiry => exact execBreakerTimerExpiry_config h he
  | inrushExpiry => exact h.of_notDue he hinrush
  | syncWindowExpiry => exact h.of_notDue he hsync
  | parallelLimitExpiry => exact h.of_notDue he hparallel
  | rampTick => exact h.of_notDue he hramp
  | vesselLinkTimeout => exact h.of_notDue he (by simp [htimeout])
  | linkLossTripExpiry => exact h.of_notDue he hloss
  | overdrawExpiry => exact h.of_notDue he hoverdraw
  | meterStaleExpiry => exact h.of_notDue he hstale
  | silentAgeingStep a => exact h.of_notDue he (by simp [h.entry, PeerEntry.blank])
  | reservedFieldAgeStep a =>
    exact .of_next (by simpa [exec, execReservedFieldAgeStep, h.entry, PeerEntry.blank] using he) h.stay
  | computationComplete =>
    have hidle : s.hre.computing = none := by rw [h.hre]; rfl
    exact .of_next (by simpa [exec, execComputationComplete, hidle] using he) h.stay
  | referenceWordEnd => exact execReferenceWordEnd_config h he
  | statusIntervalReached => exact .of_next (by simpa [exec, execStatusIntervalReached, hns] using he) h.stay
  | statusRecordGapEnd =>
    have hsender : s.vlp.sender = .idle := by rw [h.vlp]; rfl
    exact .of_next (by simpa [exec, execStatusRecordGapEnd, hsender] using he) h.stay
  | lineSampling levels => exact execLineSampling_config h levels he
  | transmissionBegins => exact .of_next he h.driven
  | berthStatusRecordEnd =>
    have hsender : s.vlp.sender = .idle := by rw [h.vlp]; rfl
    exact .of_next (by simpa [exec, execBerthStatusRecordEnd, hsender] using he) h.stay

end

end Sys2Proof.Machine
end

