-- ==== Sys2Proof/Proofs/EventFrames.lean ====
section
/-! SUPPORT. What the sequencer's events leave as it was, each said once. -/

namespace Sys2Proof.Machine

section
variable (s : State)

theorem compareVessel_sequencerFrame (r : ShipRecord) : SequencerFrame s (compareVessel r s) := by
  unfold compareVessel
  split <;> constructor <;> rfl

theorem clearAbortFlags_sequencerFrame (r : ShipRecord) : SequencerFrame s (clearAbortFlags r s) := by
  unfold clearAbortFlags
  split <;> constructor <;> rfl

theorem takeRequest_sequencerFrame (m : Marks) (r : ShipRecord) : SequencerFrame s (takeRequest m r s) := by
  unfold takeRequest
  split_ifs
  · exact enterDeEnergising_sequencerFrame s
  · exact setPhase_sequencerFrame s _
  · exact .refl s
  · exact .refl s

theorem takeBreaker_sequencerFrame (m : Marks) (r : ShipRecord) : SequencerFrame s (takeBreaker m r s) := by
  unfold takeBreaker
  split_ifs
  · exact enterParallel_sequencerFrame s
  · exact enterDeEnergising_sequencerFrame s
  · exact .refl s
  · exact .refl s

theorem takeGenerators_sequencerFrame (m : Marks) (r : ShipRecord) : SequencerFrame s (takeGenerators m r s) := by
  unfold takeGenerators
  split_ifs
  · constructor <;> rfl
  · exact setPhase_sequencerFrame s _
  · exact .refl s

theorem deliverRecord_sequencerFrame (m : Marks) (r : ShipRecord) : SequencerFrame s (deliverRecord m r s) := by
  refine (clearAbortFlags_sequencerFrame s r).trans ?_
  unfold deliverRecord
  generalize clearAbortFlags r s = t
  dsimp only
  have hmove : SequencerFrame t (takeGenerators m r (takeBreaker m r (takeRequest m r t))) :=
    ((takeRequest_sequencerFrame t m r).trans (takeBreaker_sequencerFrame _ m r)).trans
      (takeGenerators_sequencerFrame _ m r)
  cases t.bsq.phase
  case plugged => exact (compareVessel_sequencerFrame t r).trans (evaluateEntry_sequencerFrame _)
  case queued =>
    dsimp only
    split
    · exact (compareVessel_sequencerFrame t r).trans (enterPlugged_sequencerFrame _)
    · exact compareVessel_sequencerFrame t r
  case awaitSync => exact hmove
  case parallel => exact hmove
  case onShore => exact hmove
  case transferBack => exact hmove
  all_goals exact .refl t

theorem auxClosure_sequencerFrame : SequencerFrame s (auxClosure s) := by
  unfold auxClosure
  split
  · exact enterAwaitSync_sequencerFrame s
  · exact uncommandedClose_sequencerFrame s
  · exact uncommandedClose_sequencerFrame s
  · exact uncommandedClose_sequencerFrame s
  · split
    · exact uncommandedClose_sequencerFrame s
    · exact .refl s
  · exact .refl s

theorem auxOpening_sequencerFrame : SequencerFrame s (auxOpening s) := by
  have hr : SequencerFrame s (if s.bsq.serving = some .resetPulse then releaseOpen s else s) := by
    split
    · exact releaseOpen_sequencerFrame s
    · exact .refl s
  refine hr.trans ?_
  unfold auxOpening
  generalize (if s.bsq.serving = some .resetPulse then releaseOpen s else s) = t
  dsimp only
  split
  · exact enterDeEnergising_sequencerFrame t
  · exact enterDeEnergising_sequencerFrame t
  · exact enterDeEnergising_sequencerFrame t
  · exact enterDeEnergising_sequencerFrame t
  · exact completeDeEnergise_sequencerFrame t
  · exact (releaseOpen_sequencerFrame t).trans (confirmOpen_sequencerFrame _)
  · exact .refl t

theorem warningChange_sequencerFrame (v : Bool) : SequencerFrame s (warningChange v s) := by
  unfold warningChange
  split_ifs
  · exact enterPlugged_sequencerFrame s
  · exact .refl s
  · exact evaluateEntry_sequencerFrame s

theorem breakerExpired_sequencerFrame (c : Option BreakerCommand) : SequencerFrame s (breakerExpired c s) := by
  have ho : SequencerFrame s (s.mapBsq fun b => { b with bkOpen := false }) := by constructor <;> rfl
  unfold breakerExpired
  split
  · exact takeCause_sequencerFrame s _
  · dsimp only
    split
    · exact ho.trans (addLater_sequencerFrame _ _)
    · exact ho
  · dsimp only
    split_ifs
    · exact ho.trans (startTrip_sequencerFrame _ _ _)
    · exact ho.trans (addLater_sequencerFrame _ _)
    · exact ho
  · exact .refl s

theorem commitEnergise_sequencerFrame (n : Nat) : SequencerFrame s (commitEnergise n s) :=
  (((clearReserve_sequencerFrame s).trans (setPhase_sequencerFrame _ _)).trans (setClaim_sequencerFrame _ _ _ _)).trans
    (commandClose_sequencerFrame _)

theorem settleHold_sequencerFrame : SequencerFrame s (settleHold s) := by
  unfold settleHold
  split
  · exact (((clearReserve_sequencerFrame s).trans (setClaim_sequencerFrame _ _ _ _)).trans
      (requestAnnounce_sequencerFrame _)).trans (requestRecompute_sequencerFrame _)
  · split
    · exact commitEnergise_sequencerFrame s _
    · constructor <;> rfl
  · exact .refl s

theorem rampUp_sequencerFrame : SequencerFrame s (rampUp s) := by
  unfold rampUp
  dsimp only
  split <;> constructor <;> rfl

theorem rampDown_sequencerFrame : SequencerFrame s (rampDown s) := by
  rcases rampDown_cases s with ⟨-, h⟩ | ⟨-, h⟩ <;> rw [h]
  · exact requestAnnounce_sequencerFrame s
  · exact .trans (by constructor <;> rfl) ((setClaim_sequencerFrame _ _ _ _).trans (requestAnnounce_sequencerFrame _))

end

@[simp] theorem Timer.stop_running (t : Timer) : t.stop.running = false := rfl
@[simp] theorem Timer.start_running (n : Nat) : (Timer.start n).running = true := rfl

/-! ### What every event leaves -/

/-- What every event leaves as it was before its end: the mode of a started station but for RUN, the monitor and its
timer, the station record and the standing of the own entry. -/
structure EventFrame (s u : State) : Prop where
  started : s.started = true → u.started = true
  monitor : u.tru.monitor = s.tru.monitor
  overdraw : u.tmb.overdraw.running = true → s.tmb.overdraw.running = true
  station : u.svp.station = s.svp.station
  own : s.ownEntry.standing = .own → u.ownEntry.standing = .own

namespace EventFrame

variable {s t u : State}

theorem trans (h : EventFrame s t) (k : EventFrame t u) : EventFrame s u :=
  ⟨k.started ∘ h.started, k.monitor.trans h.monitor, h.overdraw ∘ k.overdraw, k.station.trans h.station, k.own ∘ h.own⟩

theorem refl (s : State) : EventFrame s s := ⟨id, rfl, id, rfl, id⟩

end EventFrame

theorem SequencerFrame.event {s u : State} (h : SequencerFrame s u) : EventFrame s u :=
  ⟨h.started.trans, h.monitor, fun ho => h.overdraw ▸ ho, h.station, fun ho => h.ownEntry ▸ ho⟩

theorem Aside.event {s u : State} (h : Aside s u) : EventFrame s u :=
  ⟨fun hs => by simpa only [State.started, h.mode] using hs, congrArg Tru.monitor h.tru, fun ho => h.overdraw ▸ ho,
    h.station, h.own⟩

namespace EventFrame

theorem mapBsq (f : Bsq → Bsq) (s : State) : EventFrame s (s.mapBsq f) := ⟨id, rfl, id, rfl, id⟩
theorem mapVlp (f : Vlp → Vlp) (s : State) : EventFrame s (s.mapVlp f) := ⟨id, rfl, id, rfl, id⟩
theorem mapLib (f : Lib → Lib) (s : State) : EventFrame s (s.mapLib f) := ⟨id, rfl, id, rfl, id⟩
theorem mapHre (f : Hre → Hre) (s : State) : EventFrame s (s.mapHre f) := ⟨id, rfl, id, rfl, id⟩
theorem mapTmb (f : Tmb → Tmb) (s : State)
    (h : (f s.tmb).overdraw.running = true → s.tmb.overdraw.running = true) : EventFrame s (s.mapTmb f) :=
  ⟨id, rfl, h, rfl, id⟩
theorem answer (kind : Nat) (code : ResponseCode) (data : List Byte) (s : State) :
    EventFrame s (answer kind code data s) := ⟨id, rfl, id, rfl, id⟩
theorem raiseAttention (r : Reason) (s : State) : EventFrame s (raiseAttention r s) := ⟨id, rfl, id, rfl, id⟩

theorem settleActive (l : Line) (v : Bool) (s : State) : EventFrame s (settleActive l v s) := ⟨id, rfl, id, rfl, id⟩

theorem formClamps (s : State) : EventFrame s (formClamps s) := by
  unfold Machine.formClamps
  dsimp only
  split_ifs <;> exact ⟨id, rfl, id, rfl, id⟩

theorem plugProven (s : State) : EventFrame s (plugProven s) :=
  ((mapBsq _ s).trans (formClamps _)).trans (enterPlugged_sequencerFrame _).event

theorem leaveTripped (s : State) : EventFrame s (leaveTripped s) := by
  have ht : EventFrame s (dropProfile (s.mapTru fun u => { u with record := none })) := ⟨id, rfl, id, rfl, id⟩
  unfold Machine.leaveTripped
  dsimp only
  split
  · refine .trans ?_ (((formClamps _)).trans (enterPlugged_sequencerFrame _).event)
    split
    · exact (ht.trans (mapBsq _ _)).trans (compareVessel_sequencerFrame _ _).event
    · exact ht.trans (mapBsq _ _)
  · exact (ht.trans (formClamps _)).trans (setPhase_sequencerFrame _ _).event

theorem linkIdle (s : State) : EventFrame s (linkIdle s) :=
  ((mapVlp _ s).trans (mapTmb _ _ id)).trans (formClamps _)

theorem pilotGone (s : State) : EventFrame s (pilotGone s) := by
  unfold Machine.pilotGone
  split_ifs
  · exact (setPhase_sequencerFrame s _).event.trans (mapBsq _ _)
  · exact (takeCause_sequencerFrame s _).event
  · exact (addLater_sequencerFrame s _).event
  · exact refl s

theorem linkHeard (s : State) : EventFrame s (linkHeard s) := by
  unfold Machine.linkHeard
  dsimp only
  split <;> exact ⟨id, rfl, id, rfl, id⟩

theorem takeRecord (r : ShipRecord) (s : State) : EventFrame s (takeRecord r s) := by
  have h : EventFrame s (Machine.formClamps ((Machine.linkHeard s).mapVlp fun v => { v with held := some r })) :=
    ((linkHeard s).trans (mapVlp _ _)).trans (formClamps _)
  refine .trans ?_ (deliverRecord_sequencerFrame _ _ _).event
  exact h.trans ⟨id, rfl, id, rfl, id⟩

theorem linkLost (s : State) : EventFrame s (linkLost s) := by
  unfold Machine.linkLost
  have ht : EventFrame s ((s.mapVlp fun v => { v with link := .lost }).mapTmb
      fun b => { b with linkTimeout := b.linkTimeout.stop }) := ⟨id, rfl, id, rfl, id⟩
  dsimp only
  split_ifs
  · exact ht.trans (enterPlugged_sequencerFrame _).event
  · exact ht.trans (enterDeEnergising_sequencerFrame _).event
  · exact ((ht.trans (setClaim_sequencerFrame _ _ _ _).event).trans (requestAnnounce_sequencerFrame _).event).trans
      (mapTmb _ _ id)
  · exact ht

theorem handOn (v : Bool) (a : Action) (s : State) : EventFrame s (handOn v a s) := by
  have hlast (r : LastResult) (s : State) : EventFrame s (setLast r s) := mapHre _ s
  have hwant (c : ReserveClass) (n : Nat) : EventFrame s (wantReserve c n s) := by
    rw [wantReserve_frame]
    exact ⟨id, rfl, id, rfl, id⟩
  unfold Machine.handOn
  cases a
  case none => exact hlast _ s
  case release => exact (setClaim_sequencerFrame s _ _ _).event.trans (hlast _ _)
  case cut => exact ((setClaim_sequencerFrame s _ _ _).event.trans (mapHre _ _)).trans (hlast _ _)
  case cutWithheld => exact hlast _ s
  case raise =>
    dsimp only
    split
    · exact hlast _ s
    · exact (hwant _ _).trans (hlast _ _)
  case energise =>
    dsimp only
    split
    · exact hlast _ s
    · exact (hwant _ _).trans (hlast _ _)
  case energiseWait => exact hlast _ s

theorem completeComputation (w : Working) (s : State) : EventFrame s (completeComputation w s) := by
  have ht : EventFrame s ({ s with freeCount := s.freeCount + 1 }.mapHre fun h => { h with computing := none }) :=
    ⟨id, rfl, id, rfl, id⟩
  have hfig (g : Figures) (s : State) : EventFrame s (storeFigures g s) := by
    unfold storeFigures
    dsimp only
    split <;> exact ⟨id, rfl, id, rfl, id⟩
  have hover (g : Figures) (s : State) : EventFrame s (storeOverload g s) := by
    unfold storeOverload
    dsimp only
    split
    · exact refl s
    · split <;> exact ⟨id, rfl, id, rfl, id⟩
  unfold Machine.completeComputation
  dsimp only
  split
  · exact ht.trans ⟨id, rfl, id, rfl, id⟩
  · exact ((ht.trans (hfig _ _)).trans (hover _ _)).trans (handOn _ _ _)

end EventFrame

/-- What every event leaves as it was. -/
theorem Event.frame {s u : State} (h : Event s u) : EventFrame s u := by
  cases h with
  | aside h => exact h.event
  | clearTrip => exact (EventFrame.leaveTripped s).trans (.answer _ _ _ _)
  | berthHold b =>
    exact ((EventFrame.mapBsq _ s).trans (evaluateEntry_sequencerFrame _).event).trans (.answer _ _ _ _)
  | plugProven => exact (EventFrame.settleActive _ _ s).trans (.plugProven _)
  | pilotProven => exact .settleActive _ _ s
  | pilotLost => exact ((EventFrame.settleActive _ _ s).trans (.linkIdle _)).trans (.pilotGone _)
  | auxClosure => exact (EventFrame.settleActive _ _ s).trans (auxClosure_sequencerFrame _).event
  | auxOpening => exact (EventFrame.settleActive _ _ s).trans (auxOpening_sequencerFrame _).event
  | estopChange v => exact .settleActive _ _ s
  | warningChange v => exact (EventFrame.settleActive _ _ s).trans (warningChange_sequencerFrame _ v).event
  | takeRecord r => exact .takeRecord r s
  | listenExpiry =>
    refine .trans ?_ (evaluateEntry_sequencerFrame _).event
    exact ⟨fun _ => rfl, rfl, id, rfl, id⟩
  | holdExpiry => exact (EventFrame.mapTmb _ s id).trans (settleHold_sequencerFrame _).event
  | breakerExpiry =>
    exact (stopBreaker_sequencerFrame s).event.trans (breakerExpired_sequencerFrame _ _).event
  | inrushExpiry => exact (EventFrame.mapTmb _ s id).trans (setClaim_sequencerFrame _ _ _ _).event
  | syncExpiry =>
    exact ((EventFrame.mapTmb _ s id).trans (.mapBsq _ _)).trans (enterDeEnergising_sequencerFrame _).event
  | syncStop => exact .mapTmb _ s id
  | parallelExpiry => exact ((EventFrame.mapTmb _ s id).trans (.mapBsq _ _)).trans (setPhase_sequencerFrame _ _).event
  | parallelStop => exact .mapTmb _ s id
  | rampUp => exact (EventFrame.mapTmb _ s id).trans (rampUp_sequencerFrame _).event
  | rampDown => exact (EventFrame.mapTmb _ s id).trans (rampDown_sequencerFrame _).event
  | rampStart => exact .mapTmb _ s id
  | linkTimeout => exact .linkLost s
  | linkLossExpiry => exact (EventFrame.mapTmb _ s id).trans (takeCause_sequencerFrame _ _).event
  | overdrawExpiry => exact (EventFrame.mapTmb _ s fun h => by simp at h).trans (takeCause_sequencerFrame _ _).event
  | computation w => exact .completeComputation w s

/-! ### One step -/

/-- RESET leaves CONFIG quiet. -/
theorem reset_inConfig (p : List Instr) (n : Nat) : InConfig { State.reset with pending := p, freeCount := n } :=
  ⟨rfl, rfl, .inr rfl, rfl, rfl, rfl, rfl, rfl, rfl, rfl, rfl, rfl, rfl, rfl, rfl, rfl, rfl, rfl, rfl, rfl⟩

/-- START moves a quiet part to LISTEN, or is refused. -/
theorem execStart_cases {s t : State} (h : execStart s = .next t) :
    (∃ code, t = answer 5 code [] s) ∨
    (s.started = false ∧ s.svp.station.isSome = true ∧ t = settle s (answer 5 .accepted [] (startStation s))) := by
  unfold execStart at h
  split_ifs at h with h1 h2
  · exact .inl ⟨_, (Host.Outcome.next.inj h).symm⟩
  · exact .inl ⟨_, (Host.Outcome.next.inj h).symm⟩
  · refine .inr ⟨by simpa using h1, ?_, (Host.Outcome.next.inj h).symm⟩
    simp_all [Option.isSome_iff_ne_none]

/-- A station that START has moved to LISTEN, before the sequencer takes its START event (R182). -/
def State.listening (s : State) : State :=
  let t := s.mapSvp fun v => { v with mode := .listen }
  let u := t.mapTmb fun b =>
    { b with listen := Timer.start (Config.listenMultiple * s.station.announceInterval)
             announce := Timer.start s.station.announceInterval
             meterStale := Timer.start s.station.meterStaleInterval }
  requestAnnounce (requestRecompute ((u.mapCsc (Csc.begin s.selectCode)).mapPvt
    fun p => p.set s.ownAddress { s.ownEntry with standing := .own }))

theorem startStation_eq (s : State) : startStation s = sequencerStart s.listening := rfl

/-- The sequencer's START event is an uncommanded close, the proof of a pilot, or nothing (R2). -/
theorem sequencerStart_cases (s : State) :
    (s.auxClosed = true ∧ sequencerStart s = uncommandedClose s) ∨
    (s.auxClosed = false ∧ s.pilotActive = true ∧ sequencerStart s = plugProven s) ∨
    (s.auxClosed = false ∧ s.pilotActive = false ∧ sequencerStart s = s) := by
  unfold sequencerStart
  cases s.auxClosed <;> cases s.pilotActive <;> simp

theorem EventFrame.sequencerStart (s : State) : EventFrame s (sequencerStart s) := by
  rcases sequencerStart_cases s with ⟨-, h⟩ | ⟨-, -, h⟩ | ⟨-, -, h⟩ <;> rw [h]
  · exact (uncommandedClose_sequencerFrame s).event
  · exact .plugProven s
  · exact .refl s

/-- After START the station is in LISTEN, and its own entry is OWN. -/
theorem startStation_frame (s : State) : EventFrame s.listening (answer 5 .accepted [] (startStation s)) :=
  (EventFrame.sequencerStart s.listening).trans (.answer _ _ _ _)

/-- The end of an event leaves the mode. -/
theorem settle_started {before u : State} (h : u.started = true) : (settle before u).started = true := by
  obtain ⟨-, -, -, -, -, -, -, -, -, -, -, -, hsvp, -⟩ := settle_ends u before h
  simpa only [State.started, hsvp] using (tripsTaken_sequencerFrame u).started.trans h

/-- What a step leads to: reset, what a command or a bit time does in LISTEN or RUN, a move within CONFIG, or an accepted
START. -/
inductive Leads (s t : State) : Prop
  | reset (p : List Instr) (n : Nat) (h : t = { State.reset with pending := p, freeCount := n })
  | taken (hs : s.started = true) (h : Taken s t)
  | config (hs : InConfig s) (h : ConfigMove s t)
  | start (hs : InConfig s) (h : t = settle s (answer 5 .accepted [] (startStation s)))

theorem exec_leads {c : Instr} {s t : State} (hq : ConfigQuiet s) (h : exec c s = .next t) : Leads s t := by
  by_cases hr : c = .reset
  · subst hr
    exact .reset _ _ (Host.Outcome.next.inj h).symm
  by_cases hs : s.started = true
  · exact .taken hs (exec_taken hs hr h)
  have hc : InConfig s := (configQuiet_iff s).1 hq (by simpa [State.started] using hs)
  by_cases hst : c = .start
  · subst hst
    rcases execStart_cases h with ⟨code, rfl⟩ | ⟨-, -, rfl⟩
    · exact .config hc (hc.answer _ _ _)
    · exact .start hc rfl
  · exact .config hc (exec_config hc hr hst h)

theorem bitTime_leads {s : State} (hq : ConfigQuiet s) : Leads s (bitTime s) := by
  by_cases hs : s.started = true
  · exact .taken hs (.inl (.mapBlc s _))
  · have hc : InConfig s := (configQuiet_iff s).1 hq (by simpa [State.started] using hs)
    exact .config hc hc.bitTime

/-- What a step leads to. The queue of commands is read by the step alone, so this is said of the state with the rest of
the queue. -/
theorem step_leads {s t : State} (hq : ConfigQuiet s) (h : step s = .next t) : ∃ p, Leads { s with pending := p } t := by
  unfold step at h
  split at h
  · exact ⟨s.pending, Host.Outcome.next.inj h ▸ bitTime_leads hq⟩
  · rename_i c rest _
    exact ⟨rest, exec_leads (s := { s with pending := rest }) hq h⟩

/-- In LISTEN and RUN a step of a started station leads to one. -/
theorem Taken.started {s t : State} (h : Taken s t) (hs : s.started = true) : t.started = true := by
  rcases h with h | ⟨u, hu, rfl⟩
  · simpa only [State.started, h.mode] using hs
  · exact settle_started (hu.frame.started hs)

/-- What a step leads to is quiet where it is in CONFIG. -/
theorem Leads.quiet {s t : State} (h : Leads s t) : ConfigQuiet t := by
  rw [configQuiet_iff]
  cases h with
  | reset p n h => exact fun _ => h ▸ reset_inConfig p n
  | taken hs h => exact fun hm => by simpa [State.started, hm] using h.started hs
  | config _ h => exact fun _ => h.quiet
  | start _ h =>
    have ht : t.started = true := h ▸ settle_started ((startStation_frame s).started rfl)
    exact fun hm => by simp [State.started, hm] at ht

/-- Settles O48: a step from CONFIG moves within it, resets the part or starts the station, and one from LISTEN or RUN
stays there or resets the part. -/
theorem everyStepKeepsConfigQuiet : Obligations.EveryStepKeepsConfigQuiet := by
  refine ⟨fun s t hq h => ?_, fun s hq hm n => ?_⟩
  · obtain ⟨_, hl⟩ := step_leads hq h
    exact hl.quiet
  · have hv := ((configQuiet_iff s).1 hq hm).vlp
    exact Vlp.vtx_idle s.vlp (by rw [hv]; rfl) n

end Sys2Proof.Machine
end

