-- ==== Sys2Proof/Proofs/BreakerOutputs.lean ====
section
/-! SUPPORT. The interlock of the breaker outputs, operation by operation and event by event. -/

namespace Sys2Proof.Machine

/-! ### Changes that leave the outputs -/

/-- `t` has the breaker outputs, the phase, the command served and a held record as `s` has them. -/
structure OutputsFrame (s t : State) : Prop where
  phase : t.bsq.phase = s.bsq.phase
  bkClose : t.bsq.bkClose = s.bsq.bkClose
  bkOpen : t.bsq.bkOpen = s.bsq.bkOpen
  serving : t.bsq.serving = s.bsq.serving
  running : t.tmb.breaker.running = s.tmb.breaker.running
  recorded : t.tru.record.isSome = s.tru.record.isSome

namespace OutputsFrame

variable {s t u : State}

theorem refl (s : State) : OutputsFrame s s := ⟨rfl, rfl, rfl, rfl, rfl, rfl⟩

theorem trans (h : OutputsFrame s t) (k : OutputsFrame t u) : OutputsFrame s u :=
  ⟨k.phase.trans h.phase, k.bkClose.trans h.bkClose, k.bkOpen.trans h.bkOpen, k.serving.trans h.serving,
    k.running.trans h.running, k.recorded.trans h.recorded⟩

theorem of_eq (hb : t.bsq = s.bsq) (ht : t.tmb.breaker = s.tmb.breaker) (hr : t.tru.record = s.tru.record) :
    OutputsFrame s t := by
  constructor <;> simp only [hb, ht, hr]

theorem outputs (h : OutputsFrame s t) (ho : Outputs s) : Outputs t := by
  unfold Outputs
  rw [h.phase, h.bkClose, h.bkOpen, h.serving, h.running, h.recorded]
  exact ho

theorem setClaim (f x r : Nat) (s : State) : OutputsFrame s (setClaim f x r s) := by
  constructor <;> simp

theorem zeroClaim (s : State) : OutputsFrame s (zeroClaim s) := by constructor <;> simp

theorem formClamps (s : State) : OutputsFrame s (formClamps s) := by
  unfold Machine.formClamps
  dsimp only
  split_ifs <;> exact ⟨rfl, rfl, rfl, rfl, rfl, rfl⟩

theorem addLater (c : TripCause) (s : State) : OutputsFrame s (addLater c s) := by
  unfold Machine.addLater
  split
  · exact refl s
  · rename_i r hr
    split
    · exact refl s
    · exact ⟨rfl, rfl, rfl, rfl, rfl, by simp [Machine.raiseAttention, hr]⟩

theorem confirmOpen (s : State) : OutputsFrame s (confirmOpen s) := by
  constructor <;> simp [setConfirmed]

end OutputsFrame

/-! ### The berth with no breaker command but an open -/

/-- The berth neither closes nor is tripped: BKCLOSE is not asserted, no record is held, and BKOPEN and the breaker timer
are in form. -/
structure Resting (s : State) : Prop where
  bkClose : s.bsq.bkClose = false
  record : s.tru.record = none
  form : BreakerForm s

theorem Outputs.form {s : State} (h : Outputs s) : BreakerForm s := by
  obtain ⟨-, -, hopen, hserving, -⟩ := h
  exact ⟨hopen, hserving⟩

theorem Outputs.resting {s : State} (h : Outputs s) (he : s.bsq.phase ≠ .energising) (ht : s.bsq.phase ≠ .tripped) :
    Resting s := by
  obtain ⟨-, hclose, hopen, hserving, hrecord⟩ := h
  exact ⟨by simpa using fun hc => he (hclose.1 hc), by simpa using fun hc => ht (hrecord.1 hc), hopen, hserving⟩

/-- A berth that neither closes nor is tripped has its outputs in form. -/
theorem Resting.outputs {s : State} (h : Resting s) (he : s.bsq.phase ≠ .energising) (ht : s.bsq.phase ≠ .tripped) :
    Outputs s := by
  obtain ⟨hopen, hserving⟩ := h.form
  refine ⟨?_, ?_, hopen, hserving, ?_⟩ <;> simp [h.bkClose, h.record, he, ht]

section
variable {s : State}

theorem Resting.setPhase (h : Resting s) (next : Phase) : Resting (setPhase next s) where
  bkClose := by rw [setPhase_bsq]; exact h.bkClose
  record := by simpa using h.record
  form := by
    unfold BreakerForm
    rw [setPhase_bsq, setPhase_breaker]
    exact h.form

/-- A change to a phase in which nothing closes and nothing is tripped. -/
theorem Resting.setPhase_outputs (h : Resting s) {next : Phase} (he : next ≠ .energising) (ht : next ≠ .tripped) :
    Outputs (Machine.setPhase next s) :=
  (h.setPhase next).outputs (by simpa using he) (by simpa using ht)

theorem Resting.of_frame {t : State} (hf : OutputsFrame s t) (h : Resting s) : Resting t where
  bkClose := hf.bkClose.trans h.bkClose
  record := by simpa [h.record] using hf.recorded
  form := by
    unfold BreakerForm
    rw [hf.bkOpen, hf.serving, hf.running]
    exact h.form

theorem Resting.releaseOpen (h : Resting s) : Resting (releaseOpen s) := ⟨h.bkClose, h.record, nofun, rfl⟩

theorem Resting.commandOpen (h : Resting s) : Resting (commandOpen s) := ⟨rfl, h.record, fun _ => .inr rfl, rfl⟩

/-! ### Trips -/

/-- A trip before its open is commanded or confirmed has its outputs in form. -/
theorem tripping_form (hf : BreakerForm s) : BreakerForm s.tripping := by
  have hopen : s.tripping.bsq.bkOpen = s.bsq.bkOpen := by
    change (setPhase .tripped s).bsq.bkOpen = _
    rw [setPhase_bsq]
  obtain ⟨hf1, hf2⟩ := hf
  unfold BreakerForm
  rw [hopen]
  by_cases hc : s.bsq.serving = some .close
  · simp_all [State.tripping]
  · simpa [State.tripping, hc] using ⟨hf1, hf2⟩

/-- After a trip nothing but an open or the reset pulse is served. -/
theorem tripping_serving (s : State) : s.tripping.bsq.serving ≠ some .close := by
  simp [State.tripping]

/-- A trip that is carried out with its record held leaves the outputs in form. -/
theorem carryOutTrip_outputs (b : Bool) (hf : BreakerForm s) (hr : s.tru.record.isSome = true) :
    Outputs (carryOutTrip b s) := by
  obtain ⟨hopen, hserving⟩ := tripping_form hf
  have hphase := tripping_phase s
  have hrecord : s.tripping.tru.record.isSome = true := by rw [← hr]; exact congrArg (·.record.isSome) (setPhase_tru s _)
  have hbase : Outputs s.tripping := ⟨nofun, by simp [hphase]; rfl, hopen, hserving, by simp [hphase, hrecord]⟩
  rw [carryOutTrip_eq]
  split_ifs with haux hb hsome
  · exact hbase
  · refine ⟨nofun, by simp [hphase]; rfl, fun _ => ?_, hserving, by simp [hphase, hrecord]⟩
    have hne := tripping_serving s
    change s.tripping.bsq.serving = _ ∨ s.tripping.bsq.serving = _
    cases h : s.tripping.bsq.serving with
    | none => simp [h] at hsome
    | some c => cases c <;> simp_all
  · exact ⟨nofun, by simp [commandOpen, hphase], fun _ => .inr rfl, rfl, by simp [commandOpen, hphase, hrecord]⟩
  · exact (OutputsFrame.confirmOpen _).outputs hbase

theorem startTrip_outputs (b : Bool) (c : TripCause) (hf : BreakerForm s) : Outputs (startTrip b c s) :=
  carryOutTrip_outputs b hf rfl

theorem takeCause_outputs (c : TripCause) (h : Outputs s) : Outputs (takeCause c s) := by
  unfold takeCause
  split
  · exact (OutputsFrame.addLater c s).outputs h
  · exact startTrip_outputs false c h.form

theorem checkEstop_outputs (h : Outputs s) : Outputs (checkEstop s) := by
  rcases checkEstop_cases s with ⟨-, -, h'⟩ | ⟨-, h'⟩ <;> rw [h']
  · exact takeCause_outputs _ h
  · exact h

theorem checkFeeder_outputs (h : Outputs s) : Outputs (checkFeeder s) := by
  rcases checkFeeder_cases s with ⟨-, -, h'⟩ | ⟨-, h'⟩ <;> rw [h']
  · exact takeCause_outputs _ h
  · exact h

theorem tripsTaken_outputs (h : Outputs s) : Outputs s.tripsTaken :=
  checkEstop_outputs (checkFeeder_outputs (checkEstop_outputs h))

theorem settle_outputs {before : State} (hs : s.started = true) (h : Outputs s) : Outputs (settle before s) := by
  obtain ⟨hbsq, -, -, -, -, -, -, -, -, htru, htmb, -⟩ := settle_ends s before hs
  have hf : OutputsFrame s.tripsTaken (settle before s) := by
    constructor <;> simp only [hbsq, htru, htmb]
  exact hf.outputs (tripsTaken_outputs h)

/-! ### Passages between phases -/

theorem evaluateEntry_outputs (h : Outputs s) : Outputs (evaluateEntry s) := by
  rcases evaluateEntry_cases s with ⟨hq, h'⟩ | ⟨-, h'⟩ <;> rw [h']
  · have hp := ((mayQueue_iff s).1 hq).1
    exact (h.resting (by simp [hp]) (by simp [hp])).setPhase_outputs nofun nofun
  · exact h

theorem enterPlugged_outputs (h : Resting s) : Outputs (enterPlugged s) :=
  evaluateEntry_outputs (tripsTaken_outputs (s := setPhase .plugged s) (h.setPhase_outputs nofun nofun))

theorem completeDeEnergise_outputs (h : Resting s) : Outputs (completeDeEnergise s) :=
  enterPlugged_outputs (h.releaseOpen.of_frame (.zeroClaim _))

theorem enterDeEnergising_outputs (h : Resting s) : Outputs (enterDeEnergising s) := by
  unfold enterDeEnergising
  dsimp only
  split
  · exact (h.setPhase _).commandOpen.outputs (by simp [commandOpen]) (by simp [commandOpen])
  · exact completeDeEnergise_outputs (h.setPhase _)

theorem enterParallel_outputs (h : Resting s) : Outputs (enterParallel s) := by
  unfold enterParallel
  dsimp only
  split
  · exact (h.setPhase _).setPhase_outputs nofun nofun
  · exact h.setPhase_outputs nofun nofun

theorem startInrush_outputsFrame (s : State) : OutputsFrame s (startInrush s) := by
  rcases startInrush_cases s with ⟨-, h⟩ | ⟨p, -, -, h⟩ | ⟨p, -, -, h⟩ <;> rw [h]
  · exact .refl s
  · refine .trans ?_ (.setClaim _ _ _ _)
    exact ⟨rfl, rfl, rfl, rfl, rfl, rfl⟩
  · exact ⟨rfl, rfl, rfl, rfl, rfl, rfl⟩

/-- The close ends with BKCLOSE released and the timer stopped. -/
theorem enterAwaitSync_outputs (h : Outputs s) (hp : s.bsq.phase = .energising) : Outputs (enterAwaitSync s) := by
  obtain ⟨hboth, hclose, -, -, hrecord⟩ := h
  have hnone : s.tru.record = none := by simpa [hp] using hrecord
  have hopen : s.bsq.bkOpen = false := by simpa [hclose.2 hp] using hboth
  have hstop : Resting (stopBreaker (s.mapBsq fun b => { b with bkClose := false })) :=
    ⟨rfl, hnone, fun ho => by simp [stopBreaker, hopen] at ho, rfl⟩
  have hw := (hstop.of_frame (startInrush_outputsFrame _)).setPhase .awaitSync
  unfold enterAwaitSync
  dsimp only
  split_ifs
  · exact enterDeEnergising_outputs hw
  · exact enterParallel_outputs hw
  · exact hw.outputs (by simp) (by simp)

theorem uncommandedClose_outputs (h : Outputs s) : Outputs (uncommandedClose s) := by
  have hc := (OutputsFrame.setClaim s.station.stuckBreakerClaim 0 0 s).outputs h
  unfold uncommandedClose
  dsimp only
  split
  · rename_i hp
    obtain ⟨-, -, -, -, hrecord⟩ := (OutputsFrame.addLater .breakerUncommanded _).outputs hc
    have hp' : (addLater .breakerUncommanded (setClaim s.station.stuckBreakerClaim 0 0 s)).bsq.phase = .tripped := by
      rw [addLater_frame]; exact hp
    have hsome := hrecord.2 hp'
    exact ⟨nofun, by simp [commandOpen, setConfirmed, hp'], fun _ => .inr rfl, rfl,
      by simp [commandOpen, setConfirmed, hp', hsome]⟩
  · exact startTrip_outputs _ _ hc.form

/-! ### The vessel's record and the plug -/

theorem compareVessel_outputsFrame (r : ShipRecord) (s : State) : OutputsFrame s (compareVessel r s) := by
  unfold compareVessel
  split <;> exact ⟨rfl, rfl, rfl, rfl, rfl, rfl⟩

theorem selectProfile_outputsFrame (s : State) : OutputsFrame s (selectProfile s) := ⟨rfl, rfl, rfl, rfl, rfl, rfl⟩

theorem plugProven_outputs (h : Resting s) : Outputs (plugProven s) :=
  enterPlugged_outputs (h.of_frame ((selectProfile_outputsFrame s).trans (.formClamps _)))

theorem leaveTripped_outputs (h : Outputs s) (hr : s.tru.record.isSome = true) : Outputs (leaveTripped s) := by
  have hform := h.form
  obtain ⟨-, hclose, -, -, hrecord⟩ := h
  have ht := hrecord.1 hr
  have hbk : s.bsq.bkClose = false := by simpa [ht] using hclose
  have hdrop : Resting (dropProfile (s.mapTru fun u => { u with record := none })) := ⟨hbk, rfl, hform⟩
  unfold leaveTripped
  dsimp only
  split
  · refine enterPlugged_outputs (hdrop.of_frame (.trans ?_ (.formClamps _)))
    split
    · exact (selectProfile_outputsFrame _).trans (compareVessel_outputsFrame _ _)
    · exact selectProfile_outputsFrame _
  · exact (hdrop.of_frame (.formClamps _)).setPhase_outputs nofun nofun

theorem pilotGone_outputs (h : Outputs s) : Outputs (pilotGone s) := by
  unfold pilotGone
  split_ifs with hp
  · have hr : Resting s := h.resting (by rcases hp with hp | hp <;> simp [hp]) (by rcases hp with hp | hp <;> simp [hp])
    exact OutputsFrame.outputs ⟨rfl, rfl, rfl, rfl, rfl, rfl⟩ (hr.setPhase_outputs (next := .vacant) nofun nofun)
  · exact takeCause_outputs _ h
  · exact (OutputsFrame.addLater _ _).outputs h
  · exact h

theorem takeRequest_outputs (m : Marks) (r : ShipRecord) (h : Outputs s) : Outputs (takeRequest m r s) := by
  unfold takeRequest
  split_ifs with _ ha hp
  · exact enterDeEnergising_outputs (h.resting (by simp [ha]) (by simp [ha]))
  · rw [Phase.pair_iff] at hp
    exact (h.resting (by rcases hp with hp | hp <;> simp [hp]) (by rcases hp with hp | hp <;> simp [hp])).setPhase_outputs
      nofun nofun
  · exact h
  · exact h

theorem takeBreaker_outputs (m : Marks) (r : ShipRecord) (h : Outputs s) : Outputs (takeBreaker m r s) := by
  unfold takeBreaker
  split_ifs with _ ha hp
  · exact enterParallel_outputs (h.resting (by simp [ha.1]) (by simp [ha.1]))
  · have hc := (Phase.connected_iff _).1 hp.1
    exact enterDeEnergising_outputs
      (h.resting (by rcases hc with hc | hc | hc <;> simp [hc]) (by rcases hc with hc | hc | hc <;> simp [hc]))
  · exact h
  · exact h

theorem takeGenerators_outputs (m : Marks) (r : ShipRecord) (h : Outputs s) : Outputs (takeGenerators m r s) := by
  unfold takeGenerators
  split_ifs with _ hp
  · exact OutputsFrame.outputs ⟨rfl, rfl, rfl, rfl, rfl, rfl⟩ h
  · exact (h.resting (by simp [hp.1]) (by simp [hp.1])).setPhase_outputs nofun nofun
  · exact h

theorem deliverRecord_outputs (m : Marks) (r : ShipRecord) (h : Outputs s) : Outputs (deliverRecord m r s) := by
  have hc : Outputs (clearAbortFlags r s) := by
    unfold clearAbortFlags
    split
    · exact OutputsFrame.outputs ⟨rfl, rfl, rfl, rfl, rfl, rfl⟩ h
    · exact h
  unfold deliverRecord
  generalize clearAbortFlags r s = t at hc
  have hmove := takeGenerators_outputs m r (takeBreaker_outputs m r (takeRequest_outputs m r hc))
  have hv := (compareVessel_outputsFrame r t).outputs hc
  dsimp only
  cases hp : t.bsq.phase
  case plugged => exact evaluateEntry_outputs hv
  case queued =>
    dsimp only
    split
    · have hp' := (compareVessel_outputsFrame r t).phase.trans hp
      exact enterPlugged_outputs (hv.resting (by simp [hp']) (by simp [hp']))
    · exact hv
  case awaitSync => exact hmove
  case parallel => exact hmove
  case onShore => exact hmove
  case transferBack => exact hmove
  all_goals exact hc

/-! ### Events -/

/-- What a lost link does in a connected phase leaves the outputs. -/
theorem OutputsFrame.dropFlex (l : Timer) (t : State) : OutputsFrame t
    ((requestAnnounce (Machine.setClaim t.bsq.firm 0 t.bsq.transient t)).mapTmb fun b => { b with linkLoss := l }) :=
  (OutputsFrame.setClaim t.bsq.firm 0 t.bsq.transient t).trans ⟨rfl, rfl, rfl, rfl, rfl, rfl⟩

theorem linkLost_outputs (h : Outputs s) : Outputs (linkLost s) := by
  have ht : Outputs ((s.mapVlp fun v => { v with link := .lost }).mapTmb
      fun b => { b with linkTimeout := b.linkTimeout.stop }) := OutputsFrame.outputs ⟨rfl, rfl, rfl, rfl, rfl, rfl⟩ h
  unfold linkLost
  dsimp only
  split_ifs with hq ha
  · have hp : s.bsq.phase = .queued := hq
    exact enterPlugged_outputs (ht.resting (by simp [hp]) (by simp [hp]))
  · have hp : s.bsq.phase = .awaitSync := ha
    exact enterDeEnergising_outputs (ht.resting (by simp [hp]) (by simp [hp]))
  · exact (OutputsFrame.dropFlex _ _).outputs ht
  · exact ht

theorem linkHeard_outputsFrame (s : State) : OutputsFrame s (linkHeard s) := by
  unfold linkHeard
  dsimp only
  split <;> exact ⟨rfl, rfl, rfl, rfl, rfl, rfl⟩

theorem takeRecord_outputs (r : ShipRecord) (h : Outputs s) : Outputs (takeRecord r s) := by
  have hh : OutputsFrame s ((linkHeard s).mapVlp fun v => { v with held := some r }) :=
    (linkHeard_outputsFrame s).trans ⟨rfl, rfl, rfl, rfl, rfl, rfl⟩
  refine deliverRecord_outputs _ r (OutputsFrame.outputs ?_ h)
  exact (hh.trans (.formClamps _)).trans ⟨rfl, rfl, rfl, rfl, rfl, rfl⟩

theorem linkIdle_outputsFrame (s : State) : OutputsFrame s (linkIdle s) := by
  refine .trans ?_ (.formClamps _)
  exact ⟨rfl, rfl, rfl, rfl, rfl, rfl⟩

theorem auxClosure_outputs (h : Outputs s) : Outputs (auxClosure s) := by
  unfold auxClosure
  split
  · exact enterAwaitSync_outputs h ‹_›
  · exact uncommandedClose_outputs h
  · exact uncommandedClose_outputs h
  · exact uncommandedClose_outputs h
  · split
    · exact uncommandedClose_outputs h
    · exact h
  · exact h

/-- Releasing the open keeps the outputs in form. -/
theorem releaseOpen_outputs (h : Outputs s) : Outputs (releaseOpen s) := by
  obtain ⟨-, hclose, -, -, hrecord⟩ := h
  exact ⟨by simp [releaseOpen, stopBreaker], hclose, nofun, rfl, hrecord⟩

theorem auxOpening_outputs (h : Outputs s) : Outputs (auxOpening s) := by
  have hr : Outputs (if s.bsq.serving = some .resetPulse then releaseOpen s else s) := by
    split
    · exact releaseOpen_outputs h
    · exact h
  unfold auxOpening
  generalize (if s.bsq.serving = some .resetPulse then releaseOpen s else s) = t at hr
  dsimp only
  split
  case h_5 hp => exact completeDeEnergise_outputs (hr.resting (by simp [hp]) (by simp [hp]))
  case h_6 => exact (OutputsFrame.confirmOpen _).outputs (releaseOpen_outputs hr)
  case h_7 => exact hr
  all_goals
    rename_i hp
    exact enterDeEnergising_outputs (hr.resting (by simp [hp]) (by simp [hp]))

theorem warningChange_outputs (v : Bool) (h : Outputs s) : Outputs (warningChange v s) := by
  unfold warningChange
  split_ifs with _ hq
  · exact enterPlugged_outputs (h.resting (by simp [hq]) (by simp [hq]))
  · exact h
  · exact evaluateEntry_outputs h

theorem breakerExpired_outputs (h : Outputs s) : Outputs (breakerExpired s.bsq.serving (stopBreaker s)) := by
  obtain ⟨-, hclose, hopen, hserving, hrecord⟩ := h
  have ho : Outputs ((stopBreaker s).mapBsq fun b => { b with bkOpen := false }) :=
    ⟨by simp, hclose, nofun, rfl, hrecord⟩
  have hs (hb : s.bsq.bkOpen = false) : Outputs (stopBreaker s) :=
    ⟨by simp [stopBreaker, hb], hclose, fun h => by simp [stopBreaker, hb] at h, rfl, hrecord⟩
  unfold breakerExpired
  split
  · rename_i hc
    exact takeCause_outputs _ (hs (by simpa [hc] using hopen))
  · dsimp only
    split
    · exact (OutputsFrame.addLater _ _).outputs ho
    · exact ho
  · dsimp only
    split_ifs
    · exact startTrip_outputs _ _ ho.form
    · exact (OutputsFrame.addLater _ _).outputs ho
    · exact ho
  · rename_i hc
    exact hs (by simpa [hc] using hopen)

theorem commitFlex_outputsFrame (c : Nat) (s : State) : OutputsFrame s (commitFlex c s) := by
  have hc := OutputsFrame.setClaim s.bsq.firm (s.bsq.flex + c) s.bsq.transient (clearReserve s)
  exact ⟨hc.phase, hc.bkClose, hc.bkOpen, hc.serving, hc.running, hc.recorded⟩

theorem settleHold_outputs (h : Outputs s) : Outputs (settleHold s) := by
  unfold settleHold
  split
  · exact (commitFlex_outputsFrame _ s).outputs h
  · split
    · rename_i hq
      have hr := h.resting (by simp [hq.2]) (by simp [hq.2])
      have hnone : (clearReserve s).tru.record = none := hr.record
      exact ⟨by simp [commitEnergise, commandClose], by simp [commitEnergise, commandClose],
        by simp [commitEnergise, commandClose], rfl, by simp [commitEnergise, commandClose, hnone]⟩
    · exact OutputsFrame.outputs ⟨rfl, rfl, rfl, rfl, rfl, rfl⟩ h
  · exact h

theorem rampUp_outputsFrame (s : State) : OutputsFrame s (rampUp s) := by
  unfold rampUp
  dsimp only
  split <;> exact ⟨rfl, rfl, rfl, rfl, rfl, rfl⟩

theorem rampDown_outputsFrame (s : State) : OutputsFrame s (rampDown s) := by
  rcases rampDown_cases s with ⟨-, h⟩ | ⟨-, h⟩ <;> rw [h]
  · exact .of_eq rfl rfl rfl
  · have hc := OutputsFrame.setClaim s.bsq.firm (s.gos.applied - s.figures.downrampStep - s.bsq.firm) s.bsq.transient
      { s with gos := { s.gos with pending := s.gos.applied - s.figures.downrampStep
                                   applied := s.gos.applied - s.figures.downrampStep } }
    exact ⟨hc.phase, hc.bkClose, hc.bkOpen, hc.serving, hc.running, hc.recorded⟩

theorem handOn_outputsFrame (v : Bool) (a : Action) (s : State) : OutputsFrame s (handOn v a s) := by
  have hw (c : ReserveClass) (n : Nat) (r : LastResult) : OutputsFrame s (setLast r (wantReserve c n s)) := by
    unfold wantReserve
    split_ifs <;> exact .of_eq rfl rfl rfl
  cases a with
  | release want => exact (OutputsFrame.setClaim s.bsq.firm want s.bsq.transient s).trans (.of_eq rfl rfl rfl)
  | cut n => exact (OutputsFrame.setClaim s.bsq.firm (s.bsq.flex - n) s.bsq.transient s).trans (.of_eq rfl rfl rfl)
  | raise n =>
    simp only [handOn]
    split
    · exact .of_eq rfl rfl rfl
    · exact hw _ _ _
  | energise n =>
    simp only [handOn]
    split
    · exact .of_eq rfl rfl rfl
    · exact hw _ _ _
  | none | cutWithheld n | energiseWait n => exact .of_eq rfl rfl rfl

theorem completeComputation_outputsFrame (w : Working) (s : State) : OutputsFrame s (completeComputation w s) := by
  have hf (g : Figures) (s : State) : OutputsFrame s (storeFigures g s) := by
    unfold storeFigures
    dsimp only
    split <;> exact .of_eq rfl rfl rfl
  have ho (g : Figures) (s : State) : OutputsFrame s (storeOverload g s) := by
    unfold storeOverload
    dsimp only
    split_ifs <;> exact .of_eq rfl rfl rfl
  unfold completeComputation
  dsimp only
  split
  · exact .of_eq rfl rfl rfl
  · refine .trans (.trans (.trans ?_ (hf _ _)) (ho _ _)) (handOn_outputsFrame _ _ _)
    exact .of_eq rfl rfl rfl

/-- Every event of the berth leaves its outputs in form before its end. -/
theorem Event.outputs {u : State} (he : Event s u) (h : Outputs s) : Outputs u := by
  have hl (l : Line) (v : Bool) : Outputs (settleActive l v s) := OutputsFrame.outputs (.of_eq rfl rfl rfl) h
  cases he with
  | aside ha => exact OutputsFrame.outputs (.of_eq ha.bsq ha.breaker (congrArg _ ha.tru)) h
  | clearTrip hr _ => exact OutputsFrame.outputs (.of_eq rfl rfl rfl) (leaveTripped_outputs h hr)
  | berthHold b =>
    have hb : Outputs (s.mapBsq fun q => { q with hostHold := b }) := OutputsFrame.outputs ⟨rfl, rfl, rfl, rfl, rfl, rfl⟩ h
    exact OutputsFrame.outputs (.of_eq rfl rfl rfl) (evaluateEntry_outputs hb)
  | plugProven hp =>
    have hp' : (settleActive .pilot true s).bsq.phase = .vacant := hp
    exact plugProven_outputs ((hl _ _).resting (by simp [hp']) (by simp [hp']))
  | pilotProven _ => exact hl _ _
  | pilotLost => exact pilotGone_outputs ((linkIdle_outputsFrame _).outputs (hl _ _))
  | auxClosure => exact auxClosure_outputs (hl _ _)
  | auxOpening => exact auxOpening_outputs (hl _ _)
  | estopChange v => exact hl _ _
  | warningChange v => exact warningChange_outputs _ (hl _ _)
  | takeRecord r _ => exact takeRecord_outputs r h
  | listenExpiry => exact evaluateEntry_outputs (OutputsFrame.outputs (.of_eq rfl rfl rfl) h)
  | holdExpiry _ => exact settleHold_outputs (OutputsFrame.outputs (.of_eq rfl rfl rfl) h)
  | breakerExpiry _ => exact breakerExpired_outputs h
  | inrushExpiry => exact (OutputsFrame.setClaim _ _ _ _).outputs (OutputsFrame.outputs (.of_eq rfl rfl rfl) h)
  | syncExpiry hp =>
    have hr := h.resting (by simp [hp]) (by simp [hp])
    exact enterDeEnergising_outputs (.of_frame (s := s) ⟨rfl, rfl, rfl, rfl, rfl, rfl⟩ hr)
  | parallelExpiry hp =>
    have hr := h.resting (by simp [hp]) (by simp [hp])
    refine Resting.setPhase_outputs ?_ (next := .transferBack) nofun nofun
    exact .of_frame (s := s) ⟨rfl, rfl, rfl, rfl, rfl, rfl⟩ hr
  | syncStop | parallelStop | rampStart => exact OutputsFrame.outputs (.of_eq rfl rfl rfl) h
  | rampUp _ => exact (rampUp_outputsFrame _).outputs (OutputsFrame.outputs (.of_eq rfl rfl rfl) h)
  | rampDown _ => exact (rampDown_outputsFrame _).outputs (OutputsFrame.outputs (.of_eq rfl rfl rfl) h)
  | linkTimeout _ => exact linkLost_outputs h
  | linkLossExpiry _ | overdrawExpiry _ => exact takeCause_outputs _ (OutputsFrame.outputs (.of_eq rfl rfl rfl) h)
  | computation w _ => exact (completeComputation_outputsFrame w s).outputs h

end

/-! ### Every step -/

/-- In CONFIG the outputs are in form where BKOPEN and the breaker timer are. -/
theorem InConfig.outputs {s : State} (h : InConfig s) (hf : BreakerForm s) : Outputs s := by
  have hb := h.bsq
  have hphase : s.bsq.phase = .vacant := by rw [hb]; rfl
  have hr : Resting s := ⟨by rw [hb]; rfl, by rw [h.tru]; rfl, hf⟩
  exact hr.outputs (by simp [hphase]) (by simp [hphase])

theorem startStation_outputs {s : State} (h : Outputs s.listening) (hp : s.listening.bsq.phase = .vacant) :
    Outputs (startStation s) := by
  rw [startStation_eq]
  rcases sequencerStart_cases s.listening with ⟨-, h'⟩ | ⟨-, -, h'⟩ | ⟨-, -, h'⟩ <;> rw [h']
  · exact uncommandedClose_outputs h
  · exact plugProven_outputs (h.resting (by simp [hp]) (by simp [hp]))
  · exact h

/-- What a step leads to has its outputs in form. -/
theorem Leads.outputs {s t : State} (h : Leads s t) (ho : Outputs s) : Outputs t := by
  cases h with
  | reset p n h => exact h ▸ OutputsFrame.outputs (.of_eq rfl rfl rfl) (by decide : Outputs State.reset)
  | taken hs h =>
    rcases h with h | ⟨u, hu, rfl⟩
    · exact OutputsFrame.outputs (by constructor <;> simp only [h.bsq, h.tru, h.breaker]) ho
    · exact settle_outputs (hu.frame.started hs) (hu.outputs ho)
  | config _ h => exact h.quiet.outputs (h.breaker ho.form)
  | start hc h =>
    have hp : s.bsq.phase = .vacant := by rw [hc.bsq]; rfl
    have hl : Outputs s.listening := OutputsFrame.outputs (.of_eq rfl rfl rfl) ho
    have hst : Outputs (answer 5 .accepted [] (startStation s)) :=
      OutputsFrame.outputs (.of_eq rfl rfl rfl) (startStation_outputs hl hp)
    exact h ▸ settle_outputs ((startStation_frame s).started rfl) hst

/-- Settles O49: every event leaves the outputs in form, and so does what follows it. -/
theorem everyStepKeepsTheBreakerInterlock : Obligations.EveryStepKeepsTheBreakerInterlock := by
  intro s t hq ho h
  obtain ⟨_, hl⟩ := step_leads hq h
  exact hl.outputs ho

end Sys2Proof.Machine
end

