-- ==== Sys2Proof/Proofs/Settling.lean ====
section
/-! SUPPORT. What the end of an event, or no event at all, leaves of the readings that the invariants are about; and that
every event ends settled. -/

namespace Sys2Proof.Machine

/-! ### States that are read alike -/

/-- `t` differs from `s` at most in what the end of an event can touch beside the conditions, the timers and the own
entry, and in how the computation, the transmit queue, the two ports and the service port stand. -/
structure Alike (s t : State) : Prop where
  bsq : t.bsq = { s.bsq with voltagePresent := t.bsq.voltagePresent }
  record : t.tru.record = s.tru.record
  reserveClass : t.rsu.cls = s.rsu.cls
  amount : t.rsu.amount = s.rsu.amount
  grant : t.gos = { s.gos with port := t.gos.port, updateCount := t.gos.updateCount }
  vessel : t.vlp = { s.vlp with sender := t.vlp.sender, statusCount := t.vlp.statusCount, lastSent := t.vlp.lastSent }
  csc : t.csc = s.csc
  mtp : t.mtp = s.mtp
  firmOverload : t.hre.firmOverload = s.hre.firmOverload
  mode : t.svp.mode = s.svp.mode
  station : t.svp.station = s.svp.station
  pilotActive : t.pilotActive = s.pilotActive
  estopActive : t.estopActive = s.estopActive
  auxClosed : t.auxClosed = s.auxClosed
  warningActive : t.warningActive = s.warningActive

theorem Unmoved.alike {s t : State} (h : Unmoved s t) (hb : 0 < s.tmb.boundary) : Alike s t := by
  obtain ⟨hp, he, ha, hw⟩ := h.lines hb
  exact ⟨by rw [h.bsq], by rw [h.tru], by rw [h.rsu], by rw [h.rsu], h.grant, h.vessel, h.csc, h.mtp, by rw [h.hre],
    h.mode, h.station, hp, he, ha, hw⟩

/-- The end of an event is read as the event left the state. -/
theorem EndsAs.alike {s u t : State} (h : EndsAs s u t) : Alike u t := by
  obtain ⟨hbsq, -, hrsu, ⟨hhre, -⟩, hgos, hcsc, -, hvlp, hmtp, htru, -, hlib, hsvp, -⟩ := h
  exact {
    bsq := by rw [hbsq]
    record := by rw [htru]
    reserveClass := by rw [hrsu]; split <;> rfl
    amount := by rw [hrsu]; split <;> rfl
    grant := by rw [hgos]; split <;> rfl
    vessel := by rw [hvlp]; split <;> rfl
    csc := hcsc
    mtp := hmtp
    firmOverload := by rw [hhre]
    mode := by rw [hsvp]
    station := by rw [hsvp]
    pilotActive := by simp only [State.pilotActive, hlib]
    estopActive := by simp only [State.estopActive, hlib]
    auxClosed := by simp only [State.auxClosed, hlib]
    warningActive := by simp only [State.warningActive, hlib] }

namespace Alike

variable {s t : State}

theorem phase (h : Alike s t) : t.bsq.phase = s.bsq.phase := by rw [h.bsq]
theorem firm (h : Alike s t) : t.bsq.firm = s.bsq.firm := by rw [h.bsq]
theorem flex (h : Alike s t) : t.bsq.flex = s.bsq.flex := by rw [h.bsq]
theorem transient (h : Alike s t) : t.bsq.transient = s.bsq.transient := by rw [h.bsq]
theorem started (h : Alike s t) : t.started = s.started := by simp only [State.started, h.mode]
theorem station_eq (h : Alike s t) : t.station = s.station := by simp only [State.station, h.station]
theorem ownAddress (h : Alike s t) : t.ownAddress = s.ownAddress := by simp only [State.ownAddress, h.station_eq]

theorem profile (h : Alike s t) : t.profile = s.profile := by
  have hc : t.bsq.profileCode = s.bsq.profileCode := by rw [h.bsq]
  have hs : t.vlp.slots = s.vlp.slots := by rw [h.vessel]
  simp only [State.profile, hc, hs]

theorem figures (h : Alike s t) : t.figures = s.figures := by simp only [State.figures, h.profile]

theorem applied (h : Alike s t) : t.gos.applied = s.gos.applied := by rw [h.grant]
theorem suspended (h : Alike s t) : t.gos.suspended = s.gos.suspended := by rw [h.grant]
theorem held (h : Alike s t) : t.vlp.held = s.vlp.held := by rw [h.vessel]
theorem link (h : Alike s t) : t.vlp.link = s.vlp.link := by rw [h.vessel]
theorem clampedFirm (h : Alike s t) : t.vlp.clampedFirm = s.vlp.clampedFirm := by rw [h.vessel]
theorem clampedFlex (h : Alike s t) : t.vlp.clampedFlex = s.vlp.clampedFlex := by rw [h.vessel]

theorem requests (h : Alike s t) (r : ShipRequest) : t.requests r = s.requests r := by
  simp only [State.requests, h.held]

theorem monitorNow (h : Alike s t) : t.monitorNow = s.monitorNow := by
  have hd : t.currentDraw = s.currentDraw := by simp only [State.currentDraw, h.mtp]
  have hth : t.threshold = s.threshold := by simp only [State.threshold, h.applied, h.figures]
  rw [State.monitorNow, h.phase, hd, hth, State.monitorNow]

theorem mirrored (h : Alike s t) (e : PeerEntry) : t.mirrored e = s.mirrored e := by
  simp only [State.mirrored, h.phase, h.firm, h.flex, h.transient, h.csc, h.firmOverload, h.mode]

theorem estopCondition (h : Alike s t) : t.estopCondition = s.estopCondition := by
  simp only [State.estopCondition, h.estopActive, h.phase]

theorem feederCondition (h : Alike s t) : t.feederCondition = s.feederCondition := by
  simp only [State.feederCondition, h.warningActive, h.auxClosed, h.phase]

end Alike

/-! ### Settled at the end of an event -/

/-- The own entry after an event mirrors what is announced. -/
theorem EndsAs.ownEntry_mirrored {s u t : State} (h : EndsAs s u t) (ho : u.ownEntry.standing = .own) :
    t.ownEntry = t.mirrored t.ownEntry := by
  obtain ⟨-, hpvt, -⟩ := id h
  have ho' : u.pvt[u.ownAddress].standing = .own := ho
  have he : t.ownEntry = u.entryAfter t u.ownAddress := by
    simp only [State.ownEntry, h.alike.ownAddress]
    exact hpvt u.ownAddress
  rw [he]
  unfold State.entryAfter
  dsimp only
  rw [if_pos (c := u.ownAddress = u.ownAddress ∧ _) ⟨rfl, ho'⟩]
  split <;> rfl

/-- Every event ends settled, where the own entry is at the own address and the overdraw timer has run under EXCESS
only. -/
theorem EndsAs.settled {s u t : State} (h : EndsAs s u t) (ho : u.ownEntry.standing = .own)
    (hover : u.tmb.overdraw.running = true → u.tru.monitor = .excess) : Settled t := by
  have hread := h.alike
  have hown := h.ownEntry_mirrored ho
  obtain ⟨hbsq, -, -, ⟨-, hworking, hbegins, hidle⟩, -, -, -, hvlp, -, htru, htmb, -⟩ := h
  intro hs
  have hs' : u.started = true := hread.started ▸ hs
  refine ⟨?_, ?_, hown, ?_, ?_, ?_, ?_, ?_, ?_, ?_⟩
  · rw [hbsq, hread.auxClosed]
    simp [State.voltageNow, hs']
  · rw [hread.monitorNow, htru]
  · intro hr
    cases hc : u.hre.computing with
    | some w =>
      obtain ⟨-, x, hx, -⟩ := hworking w hc
      simp [Option.mem_def.1 hx]
    | none =>
      cases hq : u.hre.request
      · rw [hidle hc hq, hq] at hr
        exact absurd hr nofun
      · rw [(hbegins (by simp [State.begins, hc, hq])).2]
        rfl
  · intro x hx hstale
    cases hc : u.hre.computing with
    | some w =>
      obtain ⟨-, y, hy, hin, hst, -⟩ := hworking w hc
      obtain rfl : y = x := Option.some.inj ((Option.mem_def.1 hy).symm.trans hx)
      rw [hst, Bool.or_eq_false_iff] at hstale
      simpa [hin] using hstale.2
    | none =>
      cases hq : u.hre.request
      · rw [hidle hc hq, hc] at hx
        exact absurd hx nofun
      · rw [(hbegins (by simp [State.begins, hc, hq])).2, Option.mem_some_iff] at hx
        exact hx ▸ rfl
  · rw [hvlp]
    split_ifs with hsend
    · exact nofun
    · exact fun hi => by_contra fun hne => hsend ⟨hi, hne⟩
  · rw [hread.estopCondition, htru]
  · rw [hread.feederCondition, htru]
  · rw [htmb, hread.link, hread.phase, State.linkLossAfter]
    split_ifs with hl
    · exact fun _ => hl
    · exact nofun
  · rw [htmb, htru, State.overdrawAfter]
    split_ifs with he hm hm
    · exact fun _ => he
    · exact fun _ => he
    · exact nofun
    · exact fun hr => absurd (hover hr) hm

theorem settle_settled {before u : State} (hs : u.started = true) (ho : u.ownEntry.standing = .own)
    (hover : u.tmb.overdraw.running = true → u.tru.monitor = .excess) : Settled (settle before u) := by
  have hf := tripsTaken_sequencerFrame u
  refine (settle_ends u before hs).settled (hf.ownEntry ▸ ho) fun hr => ?_
  rw [hf.monitor]
  exact hover (hf.overdraw ▸ hr)

/-! ### Settled where there is no event -/

/-- A table entry that carries no reserve and is not SILENT stays as it is in a tick of its ages. -/
theorem tick_of_own {e : PeerEntry} (ho : e.standing = .own) (hr : e.reserved = none) : e.tick = e := by
  have hn : e.standing ≠ .silent := by simp [ho]
  unfold PeerEntry.tick
  rw [if_neg hn, hr]
  cases e
  simp_all

theorem Unmoved.ownEntry {s t : State} (h : Unmoved s t) (hf : TableForm s) (hs : s.started = true) :
    t.ownEntry = s.ownEntry := by
  have ha : t.ownAddress = s.ownAddress := by simp only [State.ownAddress, State.station, h.station]
  obtain ⟨hown, hentry, -⟩ := hf
  have ho : s.ownEntry.standing = .own := (hown s.ownAddress).2 ⟨hs, rfl⟩
  obtain ⟨-, hform, -⟩ := hentry s.ownAddress
  obtain ⟨-, -, -, -, hreserved⟩ := hform ho
  rcases h.pvt with hp | hp <;> simp only [State.ownEntry, ha, hp]
  · have htick := tick_of_own ho hreserved
    simpa [State.ownEntry] using htick

/-- What is no event leaves a settled state settled. -/
theorem Unmoved.settled {s t : State} (h : Unmoved s t) (hb : 0 < s.tmb.boundary) (hf : TableForm s)
    (hset : Settled s) : Settled t := by
  have hread := h.alike hb
  intro ht
  have hs : s.started = true := hread.started ▸ ht
  obtain ⟨hvolt, hmon, hown, hreq, hinputs, hlast, hestop, hfeeder, hloss, hover⟩ := hset hs
  have hcode : t.statusNow = s.statusNow := by
    simp only [State.statusNow, State.shownCause, h.bsq, h.tru, h.hre, hread.applied, hread.suspended]
  have hin : t.ownInputs = s.ownInputs := by
    simp only [State.ownInputs, h.mode, h.bsq, h.rsu, h.csc, hread.station_eq, hread.profile, hread.clampedFirm,
      hread.clampedFlex, hread.link, h.hre]
  refine ⟨?_, ?_, ?_, ?_, ?_, ?_, ?_, ?_, ?_, ?_⟩
  · rw [h.bsq, hread.auxClosed, hvolt]
  · rw [h.tru, hread.monitorNow, hmon]
  · rw [h.ownEntry hf hs, hread.mirrored]
    exact hown
  · rw [h.hre]
    exact hreq
  · rw [h.hre, hin]
    exact hinputs
  · intro hi
    rcases h.sent hi with ⟨hi', hl⟩ | hl
    · rw [hl, hlast hi', hcode]
    · exact hl
  · rw [h.tru, hread.estopCondition, hestop]
  · rw [h.tru, hread.feederCondition, hfeeder]
  · rw [h.linkLoss, hread.link, h.bsq]
    exact hloss
  · rw [h.overdraw, h.tru]
    exact hover

/-! ### Every step -/

/-- What a step leads to is settled. -/
theorem Leads.settled {s t : State} (h : Leads s t) (hb : 0 < s.tmb.boundary) (hf : TableForm s) (hset : Settled s) :
    Settled t := by
  cases h with
  | reset p n h => exact fun ht => by rw [h] at ht; exact absurd ht nofun
  | taken hs h =>
    rcases h with h | ⟨u, hu, rfl⟩
    · exact h.settled hb hf hset
    · obtain ⟨-, -, -, -, -, -, -, -, -, hover⟩ := hset hs
      have hfr := hu.frame
      exact settle_settled (hfr.started hs) (hfr.own ((hf.1 _).2 ⟨hs, rfl⟩)) fun hr =>
        hfr.monitor ▸ hover (hfr.overdraw hr)
  | config _ h => exact fun ht => by simp [State.started, h.quiet.mode] at ht
  | start hc h =>
    have hfr := startStation_frame s
    have ho : s.listening.ownEntry.standing = .own := congrArg PeerEntry.standing (getElem_set_self _ _)
    refine h ▸ settle_settled (hfr.started rfl) (hfr.own ho) fun hr => ?_
    have hr' := hfr.overdraw hr
    have hstop : s.listening.tmb.overdraw.running = s.tmb.overdraw.running := rfl
    rw [hstop, hc.tmb] at hr'
    exact absurd hr' nofun

/-- Settles O54: every event ends settled, whatever it does, and what is no event touches nothing that this is about. -/
theorem everyEventEndsSettled : Obligations.EveryEventEndsSettled := by
  intro s t hb hq hf hset h
  obtain ⟨_, hl⟩ := step_leads hq h
  exact hl.settled hb hf hset

end Sys2Proof.Machine
end

