-- ==== Sys2Proof/Proofs/LinesBehind.lean ====
section
/-! SUPPORT. The lines that a phase stands on, passage by passage and event by event. -/

namespace Sys2Proof.Machine

/-! ### The lines that suit a phase -/

/-- The lines of `s` suit the phase `p`. -/
structure LinesFor (p : Phase) (s : State) : Prop where
  safe : p ≠ .vacant ∧ p ≠ .tripped → s.pilotActive = true ∧ s.estopActive = false
  waits : p = .vacant ∨ p = .plugged ∨ p = .queued ∨ p = .energising → s.auxClosed = false
  calm : p = .queued ∨ p = .energising → s.warningActive = false
  carries : p = .awaitSync ∨ p.connected = true ∨ p = .deEnergising → s.auxClosed = true

/-- The lines of `s` suit its phase. -/
def LinesHold (s : State) : Prop := LinesFor s.bsq.phase s

theorem linesBehindPhase_iff (s : State) : LinesBehindPhase s ↔ (s.started = true → LinesHold s) := by
  constructor
  · intro h hs
    obtain ⟨h1, h2, h3, h4⟩ := h hs
    exact ⟨h1, h2, h3, h4⟩
  · intro h hs
    obtain ⟨h1, h2, h3, h4⟩ := h hs
    exact ⟨h1, h2, h3, h4⟩

section
variable {s t : State} {p : Phase}

theorem LinesFor.of_active (h : LinesFor p s) (hp : t.pilotActive = s.pilotActive) (he : t.estopActive = s.estopActive)
    (ha : t.auxClosed = s.auxClosed) (hw : t.warningActive = s.warningActive) : LinesFor p t := by
  obtain ⟨h1, h2, h3, h4⟩ := h
  constructor <;> simpa only [hp, he, ha, hw]

theorem LinesFor.of_lib (h : LinesFor p s) (hl : t.lib = s.lib) : LinesFor p t := by
  apply h.of_active <;> simp only [State.pilotActive, State.estopActive, State.auxClosed, State.warningActive, hl]

/-- The lines suit TRIPPED, whatever they are. -/
theorem LinesFor.tripped : LinesFor .tripped s := ⟨by simp, by simp, by simp, by simp [Phase.connected]⟩

theorem LinesFor.vacant (ha : s.auxClosed = false) : LinesFor .vacant s :=
  ⟨by simp, fun _ => ha, by simp, by simp [Phase.connected]⟩

theorem LinesFor.plugged (hp : s.pilotActive = true) (he : s.estopActive = false) (ha : s.auxClosed = false) :
    LinesFor .plugged s :=
  ⟨fun _ => ⟨hp, he⟩, fun _ => ha, by simp, by simp [Phase.connected]⟩

/-- The phases with the aux closed. -/
theorem LinesFor.carrying (hp : s.pilotActive = true) (he : s.estopActive = false) (ha : s.auxClosed = true)
    (h : p = .awaitSync ∨ p.connected = true ∨ p = .deEnergising) : LinesFor p s := by
  rw [Phase.connected_iff] at h
  exact ⟨fun _ => ⟨hp, he⟩, by rintro (rfl | rfl | rfl | rfl) <;> simp at h, by rintro (rfl | rfl) <;> simp at h,
    fun _ => ha⟩

/-- What leaves the lines and the phase leaves the lines suiting the phase. -/
theorem LinesHold.of_lib (h : LinesHold s) (hl : t.lib = s.lib) (hp : t.bsq.phase = s.bsq.phase) : LinesHold t := by
  unfold LinesHold
  rw [hp]
  exact LinesFor.of_lib h hl

theorem LinesHold.of_tripped (h : s.bsq.phase = .tripped) : LinesHold s := by
  unfold LinesHold
  rw [h]
  exact .tripped

theorem LinesFor.setPhase (h : LinesFor p s) : LinesHold (setPhase p s) := by
  unfold LinesHold
  rw [setPhase_phase]
  exact h.of_lib (setPhase_sequencerFrame s p).lib

/-! ### Trips -/

/-- Taking the conditions trips the berth or does nothing. -/
theorem State.tripsTaken_cases (s : State) : s.tripsTaken.bsq.phase = .tripped ∨ s.tripsTaken = s := by
  have he (u : State) : (checkEstop u).bsq.phase = .tripped ∨ checkEstop u = u := by
    rcases checkEstop_cases u with ⟨-, -, h⟩ | ⟨-, h⟩
    · exact .inl (by rw [h]; exact takeCause_phase u .estop)
    · exact .inr h
  have hf (u : State) : (checkFeeder u).bsq.phase = .tripped ∨ checkFeeder u = u := by
    rcases checkFeeder_cases u with ⟨-, -, h⟩ | ⟨-, h⟩
    · exact .inl (by rw [h]; exact takeCause_phase u .feederLost)
    · exact .inr h
  have ht (u v : State) (hu : u.bsq.phase = .tripped) (hv : v.bsq.phase = .tripped ∨ v = u) : v.bsq.phase = .tripped :=
    hv.elim id fun h => h ▸ hu
  unfold State.tripsTaken
  rcases he s with h | h
  · exact .inl (ht _ _ (ht _ _ h (hf _)) (he _))
  · rw [h]
    rcases hf s with h' | h'
    · exact .inl (ht _ _ h' (he _))
    · rw [h']
      exact he s

theorem LinesHold.tripsTaken (h : LinesHold s) : LinesHold s.tripsTaken := by
  rcases s.tripsTaken_cases with ht | ht
  · exact .of_tripped ht
  · rwa [ht]

/-- An e-stop condition or a feeder condition that has not been taken trips the berth. -/
theorem State.tripsTaken_of_not_calm (h : s.calm = false) : s.tripsTaken.bsq.phase = .tripped := by
  rcases s.tripsTaken_cases with ht | ht
  · exact ht
  · have hc := s.tripsTaken_calm
    rw [ht, h] at hc
    exact absurd hc nofun

/-- The lines suit what the conditions lead to where they suit the phase but for an e-stop newly active. -/
theorem linesHold_tripsTaken_of_estop (h : s.estopActive = false → LinesHold s)
    (he : s.estopActive = true → s.bsq.phase = .vacant ∨ s.tru.estopHeld = false) (hv : s.bsq.phase = .vacant → LinesHold s) :
    LinesHold s.tripsTaken := by
  cases ha : s.estopActive with
  | false => exact (h ha).tripsTaken
  | true =>
    by_cases hp : s.bsq.phase = .vacant
    · exact (hv hp).tripsTaken
    · have hh := (he ha).resolve_left hp
      exact .of_tripped (s.tripsTaken_of_not_calm (by simp [State.calm, State.estopCondition, ha, hh, hp]))

/-! ### Passages between phases -/

theorem evaluateEntry_lines (h : LinesHold s) : LinesHold (evaluateEntry s) := by
  rcases evaluateEntry_cases s with ⟨hq, h'⟩ | ⟨-, h'⟩ <;> rw [h']
  · obtain ⟨hp, -, -, -, -, -, -, -, -, -, hw⟩ := (mayQueue_iff s).1 hq
    unfold LinesHold at h
    rw [hp] at h
    exact LinesFor.setPhase ⟨fun _ => h.safe (by simp), fun _ => h.waits (by simp), fun _ => hw, by simp [Phase.connected]⟩
  · exact h

/-- PLUGGED is entered with the pilot proven and the aux open; an e-stop newly active trips the berth there. -/
theorem enterPlugged_lines (hp : s.pilotActive = true) (ha : s.auxClosed = false)
    (he : s.estopActive = true → s.tru.estopHeld = false) : LinesHold (enterPlugged s) := by
  have hf := setPhase_sequencerFrame s .plugged
  have hlines (h : (setPhase .plugged s).estopActive = false) : LinesHold (setPhase .plugged s) :=
    LinesFor.setPhase (.plugged hp (hf.estopActive ▸ h) ha)
  have htaken : LinesHold (setPhase .plugged s).tripsTaken :=
    linesHold_tripsTaken_of_estop hlines (fun h => .inr (by rw [setPhase_tru]; exact he (hf.estopActive ▸ h)))
      (by simp)
  exact evaluateEntry_lines (htaken.of_lib rfl rfl)

/-- The pilot is proven and no e-stop is active. -/
structure Safe (s : State) : Prop where
  pilot : s.pilotActive = true
  estop : s.estopActive = false

theorem Safe.of_lib (h : Safe s) (hl : t.lib = s.lib) : Safe t := by
  obtain ⟨h1, h2⟩ := h
  constructor <;> simpa only [State.pilotActive, State.estopActive, hl]

theorem LinesHold.isSafe (h : LinesHold s) (hv : s.bsq.phase ≠ .vacant) (ht : s.bsq.phase ≠ .tripped) : Safe s := by
  obtain ⟨hp, he⟩ := h.safe ⟨hv, ht⟩
  exact ⟨hp, he⟩

theorem Safe.enterPlugged (h : Safe s) (ha : s.auxClosed = false) : LinesHold (enterPlugged s) :=
  enterPlugged_lines h.pilot ha fun he => by simp [h.estop] at he

theorem Safe.completeDeEnergise (h : Safe s) (ha : s.auxClosed = false) : LinesHold (completeDeEnergise s) := by
  have hf := (releaseOpen_sequencerFrame s).trans (zeroClaim_sequencerFrame _)
  exact (h.of_lib hf.lib).enterPlugged (hf.auxClosed.trans ha)

theorem Safe.enterDeEnergising (h : Safe s) : LinesHold (enterDeEnergising s) := by
  have hf := setPhase_sequencerFrame s .deEnergising
  unfold Machine.enterDeEnergising
  dsimp only
  split
  · rename_i ha
    exact (LinesFor.setPhase (p := .deEnergising) (.carrying h.pilot h.estop (hf.auxClosed ▸ ha) (by simp))).of_lib rfl rfl
  · rename_i ha
    exact (h.of_lib hf.lib).completeDeEnergise (by simpa using ha)

theorem Safe.enterParallel (h : Safe s) (ha : s.auxClosed = true) : LinesHold (enterParallel s) := by
  have hf := setPhase_sequencerFrame s .parallel
  unfold Machine.enterParallel
  dsimp only
  split
  · exact LinesFor.setPhase (.carrying (h.of_lib hf.lib).pilot (h.of_lib hf.lib).estop (hf.auxClosed.trans ha) (by simp [Phase.connected]))
  · exact LinesFor.setPhase (.carrying h.pilot h.estop ha (by simp [Phase.connected]))

theorem Safe.enterAwaitSync (h : Safe s) (ha : s.auxClosed = true) : LinesHold (enterAwaitSync s) := by
  have hstop : SequencerFrame s (stopBreaker (s.mapBsq fun b => { b with bkClose := false })) := by constructor <;> rfl
  have hi := hstop.trans (startInrush_sequencerFrame _)
  have hf := hi.trans (setPhase_sequencerFrame _ .awaitSync)
  unfold Machine.enterAwaitSync
  dsimp only
  split_ifs
  · exact (h.of_lib hf.lib).enterDeEnergising
  · exact (h.of_lib hf.lib).enterParallel (hf.auxClosed.trans ha)
  · exact LinesFor.setPhase (.carrying (h.of_lib hi.lib).pilot (h.of_lib hi.lib).estop (hi.auxClosed.trans ha) (by simp))

theorem uncommandedClose_phase (s : State) : (uncommandedClose s).bsq.phase = .tripped := by
  unfold uncommandedClose
  dsimp only
  split
  · rename_i h
    change (addLater _ _).bsq.phase = _
    rw [addLater_frame]
    exact h
  · exact carryOutTrip_phase _ false

theorem uncommandedClose_lines : LinesHold (uncommandedClose s) := .of_tripped (uncommandedClose_phase s)

/-! ### The vessel's record and the plug -/

theorem compareVessel_lines (r : ShipRecord) (h : LinesHold s) : LinesHold (compareVessel r s) :=
  h.of_lib (compareVessel_sequencerFrame s r).lib (compareVessel_outputsFrame r s).phase

theorem takeRequest_lines (m : Marks) (r : ShipRecord) (h : LinesHold s) : LinesHold (takeRequest m r s) := by
  unfold takeRequest
  split_ifs with _ ha hp
  · exact (h.isSafe (by simp [ha]) (by simp [ha])).enterDeEnergising
  · have hc : s.bsq.phase.connected = true :=
      (Phase.connected_iff _).2 (((Phase.pair_iff _).1 hp).elim .inl fun h => .inr (.inl h))
    have hsafe : Safe s := h.isSafe (by rintro hv; simp [hv, Phase.connected] at hc)
      (by rintro hv; simp [hv, Phase.connected] at hc)
    exact LinesFor.setPhase (.carrying hsafe.pilot hsafe.estop (h.carries (.inr (.inl hc))) (by simp [Phase.connected]))
  · exact h
  · exact h

theorem takeBreaker_lines (m : Marks) (r : ShipRecord) (h : LinesHold s) : LinesHold (takeBreaker m r s) := by
  unfold takeBreaker
  split_ifs with _ ha hc
  · exact (h.isSafe (by simp [ha.1]) (by simp [ha.1])).enterParallel (h.carries (.inl ha.1))
  · have hc' := hc.1
    exact (h.isSafe (by rintro hv; simp [hv, Phase.connected] at hc')
      (by rintro hv; simp [hv, Phase.connected] at hc')).enterDeEnergising
  · exact h
  · exact h

theorem takeGenerators_lines (m : Marks) (r : ShipRecord) (h : LinesHold s) : LinesHold (takeGenerators m r s) := by
  unfold takeGenerators
  split_ifs with _ hp
  · exact h.of_lib rfl rfl
  · have hsafe : Safe s := h.isSafe (by simp [hp.1]) (by simp [hp.1])
    exact LinesFor.setPhase (.carrying hsafe.pilot hsafe.estop (h.carries (by simp [hp.1, Phase.connected]))
      (by simp [Phase.connected]))
  · exact h

theorem clearAbortFlags_lines (r : ShipRecord) (h : LinesHold s) : LinesHold (clearAbortFlags r s) := by
  refine h.of_lib (clearAbortFlags_sequencerFrame s r).lib ?_
  unfold clearAbortFlags
  split <;> rfl

theorem deliverRecord_lines (m : Marks) (r : ShipRecord) (h : LinesHold s) : LinesHold (deliverRecord m r s) := by
  have hc := clearAbortFlags_lines r h
  unfold deliverRecord
  generalize clearAbortFlags r s = t at hc
  have hmove := takeGenerators_lines m r (takeBreaker_lines m r (takeRequest_lines m r hc))
  have hv := compareVessel_lines r hc
  dsimp only
  cases hp : t.bsq.phase
  case plugged => exact evaluateEntry_lines hv
  case queued =>
    dsimp only
    have hp' := (compareVessel_outputsFrame r t).phase.trans hp
    split
    · exact (hv.isSafe (by simp [hp']) (by simp [hp'])).enterPlugged (hv.waits (by simp [hp']))
    · exact hv
  case awaitSync => exact hmove
  case parallel => exact hmove
  case onShore => exact hmove
  case transferBack => exact hmove
  all_goals exact hc

theorem formClamps_lib (s : State) : (formClamps s).lib = s.lib := by
  unfold formClamps
  dsimp only
  split_ifs <;> rfl

theorem formClamps_tru (s : State) : (formClamps s).tru = s.tru := by
  unfold formClamps
  dsimp only
  split_ifs <;> rfl

theorem takeRecord_lines (r : ShipRecord) (h : LinesHold s) : LinesHold (takeRecord r s) := by
  have hl : (linkHeard s).lib = s.lib := by
    unfold linkHeard
    dsimp only
    split <;> rfl
  have hheld : LinesHold ((linkHeard s).mapVlp fun v => { v with held := some r }) :=
    h.of_lib hl (linkHeard_outputsFrame s).phase
  refine deliverRecord_lines _ r ?_
  exact hheld.of_lib (formClamps_lib _) (OutputsFrame.formClamps _).phase

/-- The pilot is lost: the berth is freed, tripped, or stays in VACANT or TRIPPED. -/
theorem pilotGone_lines (ha : s.bsq.phase = .vacant ∨ s.bsq.phase = .plugged ∨ s.bsq.phase = .queued →
    s.auxClosed = false) : LinesHold (pilotGone s) := by
  unfold pilotGone
  split_ifs with hp he ht
  · exact (LinesFor.setPhase (LinesFor.vacant (ha (.inr hp)))).of_lib rfl rfl
  · exact .of_tripped (takeCause_phase s _)
  · exact .of_tripped (by rw [addLater_frame]; exact ht.1)
  · have hph : s.bsq.phase = .vacant ∨ s.bsq.phase = .tripped := by
      rw [Phase.energised_iff, Phase.connected_iff] at he
      cases h : s.bsq.phase <;> simp_all
    rcases hph with hph | hph
    · unfold LinesHold
      rw [hph]
      exact .vacant (ha (.inl hph))
    · exact .of_tripped hph

theorem linkLost_lines (h : LinesHold s) : LinesHold (linkLost s) := by
  have ht : LinesHold ((s.mapVlp fun v => { v with link := .lost }).mapTmb
      fun b => { b with linkTimeout := b.linkTimeout.stop }) := h.of_lib rfl rfl
  unfold linkLost
  dsimp only
  split_ifs with hq ha
  · have hp : s.bsq.phase = .queued := hq
    exact Safe.enterPlugged (.of_lib (h.isSafe (by simp [hp]) (by simp [hp])) rfl) (h.waits (by simp [hp]))
  · have hp : s.bsq.phase = .awaitSync := ha
    exact Safe.enterDeEnergising (.of_lib (h.isSafe (by simp [hp]) (by simp [hp])) rfl)
  · refine ht.of_lib ?_ (OutputsFrame.dropFlex _ _).phase
    exact (setClaim_sequencerFrame _ _ _ _).lib
  · exact ht

/-! ### The breaker -/

/-- The aux reads closed: it ends the close, trips the berth, or finds it carrying a ship. -/
theorem auxClosure_lines (h : Safe s ∨ s.bsq.phase = .vacant ∨ s.bsq.phase = .tripped) (ha : s.auxClosed = true) :
    LinesHold (auxClosure s) := by
  unfold auxClosure
  split
  case h_1 hp => exact (h.resolve_right (by simp [hp])).enterAwaitSync ha
  case h_5 hp =>
    split
    · exact uncommandedClose_lines
    · exact .of_tripped hp
  case h_6 h1 h2 h3 h4 h5 =>
    have hsafe := h.resolve_right (not_or.2 ⟨h2, h5⟩)
    refine .carrying hsafe.pilot hsafe.estop ha ?_
    cases hp : s.bsq.phase <;> simp_all [Phase.connected]
  all_goals exact uncommandedClose_lines

/-- The aux reads open: a de-energise completes, or the phase is one that waits or TRIPPED. -/
theorem auxOpening_lines (h : s.bsq.phase ≠ .vacant → s.bsq.phase ≠ .tripped → Safe s) (ha : s.auxClosed = false)
    (hw : s.bsq.phase = .queued ∨ s.bsq.phase = .energising → s.warningActive = false) : LinesHold (auxOpening s) := by
  have hr : SequencerFrame s (if s.bsq.serving = some .resetPulse then releaseOpen s else s) := by
    split
    · exact releaseOpen_sequencerFrame s
    · exact .refl s
  have hph : (if s.bsq.serving = some .resetPulse then releaseOpen s else s).bsq.phase = s.bsq.phase := by
    split <;> rfl
  unfold auxOpening
  generalize (if s.bsq.serving = some .resetPulse then releaseOpen s else s) = t at hr hph
  have hsafe (hv : t.bsq.phase ≠ .vacant) (htr : t.bsq.phase ≠ .tripped) : Safe t :=
    (h (hph ▸ hv) (hph ▸ htr)).of_lib hr.lib
  have hat := hr.auxClosed.trans ha
  dsimp only
  split
  case h_5 hp => exact (hsafe (by simp [hp]) (by simp [hp])).completeDeEnergise hat
  case h_6 hp => exact .of_tripped (by simpa [releaseOpen, stopBreaker] using hp)
  case h_7 h1 h2 h3 h4 h5 h6 =>
    refine ⟨fun hp => ?_, fun _ => hat, fun hp => ?_, fun hp => ?_⟩
    · exact ⟨(hsafe hp.1 hp.2).pilot, (hsafe hp.1 hp.2).estop⟩
    · rw [hr.warningActive]
      exact hw (hph ▸ hp)
    · rw [Phase.connected_iff] at hp
      simp_all
  all_goals
    rename_i hp
    exact (hsafe (by simp [hp]) (by simp [hp])).enterDeEnergising

theorem breakerExpired_lines (c : Option BreakerCommand) (h : LinesHold s) : LinesHold (breakerExpired c s) := by
  have ho : LinesHold (s.mapBsq fun b => { b with bkOpen := false }) := h.of_lib rfl rfl
  have hl (c : TripCause) (t : State) (ht : LinesHold t) : LinesHold (addLater c t) :=
    ht.of_lib (addLater_sequencerFrame t c).lib (OutputsFrame.addLater c t).phase
  unfold breakerExpired
  split
  · exact .of_tripped (takeCause_phase s _)
  · dsimp only
    split
    · exact hl _ _ ho
    · exact ho
  · dsimp only
    split_ifs
    · exact .of_tripped (carryOutTrip_phase _ true)
    · exact hl _ _ ho
    · exact ho
  · exact h

theorem settleHold_lines (h : LinesHold s) : LinesHold (settleHold s) := by
  have hlib := (settleHold_sequencerFrame s).lib
  unfold settleHold at hlib ⊢
  split
  · exact h.of_lib (by simpa only [*] using hlib) (commitFlex_outputsFrame _ s).phase
  · split
    · rename_i hq
      have hp := hq.2
      have hsafe := h.safe (by simp [hp])
      have ha := h.waits (by simp [hp])
      have hw := h.calm (by simp [hp])
      have hset : LinesHold (setPhase .energising (clearReserve s)) :=
        LinesFor.setPhase ⟨fun _ => hsafe, fun _ => ha, fun _ => hw, by simp [Phase.connected]⟩
      refine hset.of_lib ?_ (OutputsFrame.setClaim _ _ _ _).phase
      exact (setClaim_sequencerFrame _ _ _ _).lib
    · exact h.of_lib rfl rfl
  · exact h

/-! ### Events -/

/-- A level line is settled at the level that makes it active or not, as asked. -/
theorem activeAt_levelFor {k : LineKind} (h : k = .levelHigh ∨ k = .levelLow) (v : Bool) :
    k.activeAt (k.levelFor v) = v := by
  rcases h with rfl | rfl
  · rfl
  · exact Bool.not_not v

theorem settleActive_pilot (h : LevelKinds s) (v : Bool) : (settleActive .pilot v s).pilotActive = v :=
  activeAt_levelFor (h s.lib.settings.pilot (by simp)) v

theorem settleActive_bkaux (h : LevelKinds s) (v : Bool) : (settleActive .bkaux v s).auxClosed = v :=
  activeAt_levelFor (h s.lib.settings.bkaux (by simp)) v

theorem settleActive_fdrwarn (h : LevelKinds s) (v : Bool) : (settleActive .fdrwarn v s).warningActive = v :=
  activeAt_levelFor (h s.lib.settings.fdrwarn (by simp)) v

/-- An e-stop newly active trips a berth past VACANT. -/
theorem estopChange_lines (v : Bool) (h : LinesHold s) (hheld : s.tru.estopHeld = s.estopCondition) :
    LinesHold (settleActive .estop v s).tripsTaken := by
  by_cases ht : s.bsq.phase = .tripped
  · exact (LinesHold.of_tripped (s := settleActive .estop v s) ht).tripsTaken
  refine linesHold_tripsTaken_of_estop (fun he => ?_) (fun _ => ?_) (fun hv => ?_)
  · exact ⟨fun hp => ⟨(h.safe hp).1, he⟩, h.waits, h.calm, h.carries⟩
  · by_cases hv : s.bsq.phase = .vacant
    · exact .inl hv
    · have he := (h.safe ⟨hv, ht⟩).2
      exact .inr (hheld.trans (by simp [State.estopCondition, he]))
  · have hv' : s.bsq.phase = .vacant := hv
    unfold LinesHold
    rw [hv]
    exact .vacant (h.waits (.inl hv'))

/-- A feeder warning newly active returns a queued berth and trips an energising one. -/
theorem warningChange_lines (v : Bool) (h : LinesHold s) (hk : LevelKinds s)
    (hheld : s.tru.feederHeld = s.feederCondition) :
    LinesHold (warningChange v (settleActive .fdrwarn v s)).tripsTaken := by
  have hlines (hc : s.bsq.phase = .queued ∨ s.bsq.phase = .energising → (settleActive .fdrwarn v s).warningActive = false) :
      LinesHold (settleActive .fdrwarn v s) := ⟨h.safe, h.waits, hc, h.carries⟩
  unfold warningChange
  split_ifs with hv hq
  · have hp : s.bsq.phase = .queued := hq
    have hsafe : Safe (settleActive .fdrwarn v s) :=
      ⟨(h.safe (by simp [hp])).1, (h.safe (by simp [hp])).2⟩
    exact (hsafe.enterPlugged (h.waits (by simp [hp]))).tripsTaken
  · by_cases hp : s.bsq.phase = .energising
    · have hw := h.calm (.inr hp)
      have hf : (settleActive .fdrwarn v s).tru.feederHeld = false := hheld.trans (by simp [State.feederCondition, hw])
      have hc : (settleActive .fdrwarn v s).feederCondition = true := by
        have hp' : (settleActive .fdrwarn v s).bsq.phase = .energising := hp
        simp only [State.feederCondition, settleActive_fdrwarn hk, hv] at hp' ⊢
        simp [hp']
      exact .of_tripped (State.tripsTaken_of_not_calm (by simp [State.calm, hf, hc]))
    · exact (hlines fun hc => (hc.elim hq hp).elim).tripsTaken
  · refine (evaluateEntry_lines (hlines fun _ => ?_)).tripsTaken
    rw [settleActive_fdrwarn hk]
    simpa using hv

theorem leaveTripped_lines (hm : s.mayClear = true) : LinesHold (leaveTripped s) := by
  have hm' : s.auxClosed = false ∧ s.estopActive = false := by
    simp only [State.mayClear, Bool.and_eq_true, Bool.not_eq_true'] at hm
    exact ⟨hm.1.1.1.1, hm.1.1.2⟩
  obtain ⟨ha, he⟩ := hm'
  unfold leaveTripped
  dsimp only
  split
  · rename_i hp
    have hplug (t : State) (hl : t.lib = s.lib) : LinesHold (enterPlugged (formClamps t)) := by
      have hl' := (formClamps_lib t).trans hl
      refine Safe.enterPlugged (Safe.of_lib ⟨hp, he⟩ hl') ?_
      simpa only [State.auxClosed, hl'] using ha
    split
    · exact hplug _ (compareVessel_sequencerFrame _ _).lib
    · exact hplug _ rfl
  · exact LinesFor.setPhase (LinesFor.of_lib (.vacant ha) (formClamps_lib _))

theorem handOn_lib (v : Bool) (a : Action) (s : State) : (handOn v a s).lib = s.lib := by
  have hw (c : ReserveClass) (n : Nat) (r : LastResult) : (setLast r (wantReserve c n s)).lib = s.lib := by
    unfold wantReserve
    split_ifs <;> rfl
  cases a with
  | release want => exact (setClaim_sequencerFrame s _ _ _).lib
  | cut n => exact (setClaim_sequencerFrame s _ _ _).lib
  | raise n =>
    simp only [handOn]
    split
    · rfl
    · exact hw _ _ _
  | energise n =>
    simp only [handOn]
    split
    · rfl
    · exact hw _ _ _
  | none | cutWithheld n | energiseWait n => rfl

theorem completeComputation_lib (w : Working) (s : State) : (completeComputation w s).lib = s.lib := by
  have hf (g : Figures) (s : State) : (storeFigures g s).lib = s.lib := by
    unfold storeFigures
    dsimp only
    split <;> rfl
  have ho (g : Figures) (s : State) : (storeOverload g s).lib = s.lib := by
    unfold storeOverload
    dsimp only
    split_ifs <;> rfl
  unfold completeComputation
  dsimp only
  split
  · rfl
  · rw [handOn_lib, ho, hf]
    rfl

/-- Every event, with the trips at its end, leaves the lines suiting the phase. -/
theorem Event.lines {u : State} (he : Event s u) (hs : s.started = true) (hk : LevelKinds s) (hset : Settled s)
    (h : LinesHold s) : LinesHold u.tripsTaken := by
  obtain ⟨-, -, -, -, -, -, hestop, hfeeder, -⟩ := hset hs
  have hframe {t : State} (hf : SequencerFrame s t) (hp : t.bsq.phase = s.bsq.phase) : LinesHold t.tripsTaken :=
    (h.of_lib hf.lib hp).tripsTaken
  have hsafe (hv : s.bsq.phase ≠ .vacant) (ht : s.bsq.phase ≠ .tripped) : Safe s := h.isSafe hv ht
  cases he with
  | aside ha =>
    refine LinesHold.tripsTaken ?_
    unfold LinesHold
    rw [ha.bsq]
    exact LinesFor.of_active h ha.pilotActive ha.estopActive ha.auxClosed ha.warningActive
  | clearTrip _ hm => exact LinesHold.tripsTaken (.of_lib (leaveTripped_lines hm) rfl rfl)
  | berthHold b =>
    have hb : LinesHold (s.mapBsq fun q => { q with hostHold := b }) := h.of_lib rfl rfl
    exact LinesHold.tripsTaken (.of_lib (evaluateEntry_lines hb) rfl rfl)
  | plugProven hp =>
    have hl : (formClamps (selectProfile (settleActive .pilot true s))).lib = (settleActive .pilot true s).lib :=
      formClamps_lib _
    refine LinesHold.tripsTaken (enterPlugged_lines ?_ ?_ fun _ => ?_)
    · simpa only [State.pilotActive, hl] using settleActive_pilot hk true
    · have ha : (settleActive .pilot true s).auxClosed = false := h.waits (.inl hp)
      simpa only [State.auxClosed, hl] using ha
    · rw [formClamps_tru]
      exact hestop.trans (by simp [State.estopCondition, hp])
  | pilotProven _ =>
    exact LinesHold.tripsTaken ⟨fun hp => ⟨settleActive_pilot hk true, (h.safe hp).2⟩, h.waits, h.calm, h.carries⟩
  | pilotLost =>
    refine LinesHold.tripsTaken (pilotGone_lines fun hp => ?_)
    have hl : (linkIdle (settleActive .pilot false s)).lib = (settleActive .pilot false s).lib := formClamps_lib _
    have hph : (linkIdle (settleActive .pilot false s)).bsq.phase = s.bsq.phase := (linkIdle_outputsFrame _).phase
    rw [hph] at hp
    have ha : (settleActive .pilot false s).auxClosed = false := h.waits (by rcases hp with hp | hp | hp <;> simp [hp])
    simpa only [State.auxClosed, hl] using ha
  | auxClosure =>
    refine LinesHold.tripsTaken (auxClosure_lines ?_ (settleActive_bkaux hk true))
    by_cases hv : s.bsq.phase = .vacant
    · exact .inr (.inl hv)
    by_cases ht : s.bsq.phase = .tripped
    · exact .inr (.inr ht)
    · exact .inl ⟨(hsafe hv ht).pilot, (hsafe hv ht).estop⟩
  | auxOpening =>
    exact LinesHold.tripsTaken (auxOpening_lines (fun hv ht => ⟨(hsafe hv ht).pilot, (hsafe hv ht).estop⟩)
      (settleActive_bkaux hk false) h.calm)
  | estopChange v => exact estopChange_lines v h hestop
  | warningChange v => exact warningChange_lines v h hk hfeeder
  | takeRecord r _ => exact (takeRecord_lines r h).tripsTaken
  | listenExpiry => exact LinesHold.tripsTaken (evaluateEntry_lines (.of_lib h rfl rfl))
  | holdExpiry _ => exact LinesHold.tripsTaken (settleHold_lines (.of_lib h rfl rfl))
  | breakerExpiry _ => exact LinesHold.tripsTaken (breakerExpired_lines _ (.of_lib h rfl rfl))
  | inrushExpiry =>
    refine LinesHold.tripsTaken (h.of_lib ?_ (by simp))
    exact (setClaim_sequencerFrame _ _ _ _).lib
  | syncExpiry hp =>
    exact LinesHold.tripsTaken (Safe.enterDeEnergising (.of_lib (hsafe (by simp [hp]) (by simp [hp])) rfl))
  | parallelExpiry hp =>
    have hs' := hsafe (by simp [hp]) (by simp [hp])
    refine LinesHold.tripsTaken (LinesFor.setPhase (.carrying ?_ ?_ ?_ (by simp [Phase.connected])))
    · exact hs'.pilot
    · exact hs'.estop
    · exact h.carries (by simp [hp, Phase.connected])
  | syncStop | parallelStop | rampStart => exact LinesHold.tripsTaken (.of_lib h rfl rfl)
  | rampUp _ =>
    refine LinesHold.tripsTaken (h.of_lib ?_ (rampUp_outputsFrame _).phase)
    exact (rampUp_sequencerFrame _).lib
  | rampDown _ =>
    refine LinesHold.tripsTaken (h.of_lib ?_ (rampDown_outputsFrame _).phase)
    exact (rampDown_sequencerFrame _).lib
  | linkTimeout _ => exact (linkLost_lines h).tripsTaken
  | linkLossExpiry _ | overdrawExpiry _ => exact LinesHold.tripsTaken (.of_tripped (takeCause_phase _ _))
  | computation w _ =>
    exact LinesHold.tripsTaken (.of_lib h (completeComputation_lib w s) (completeComputation_outputsFrame w s).phase)

end

/-! ### Every step -/

theorem settle_lines {before u : State} (hs : u.started = true) (h : LinesHold u.tripsTaken) :
    LinesHold (settle before u) := by
  have hr := (settle_ends u before hs).alike
  unfold LinesHold
  rw [hr.phase]
  exact h.of_active hr.pilotActive hr.estopActive hr.auxClosed hr.warningActive

theorem startStation_lines {s : State} (hp : s.bsq.phase = .vacant) (he : s.tru.estopHeld = false) :
    LinesHold (startStation s) := by
  rw [startStation_eq]
  rcases sequencerStart_cases s.listening with ⟨-, h'⟩ | ⟨ha, hpil, h'⟩ | ⟨ha, -, h'⟩ <;> rw [h']
  · exact uncommandedClose_lines
  · have hl : (formClamps (selectProfile s.listening)).lib = s.listening.lib := formClamps_lib _
    refine enterPlugged_lines ?_ ?_ fun _ => ?_
    · simpa only [State.pilotActive, hl] using hpil
    · simpa only [State.auxClosed, hl] using ha
    · rw [formClamps_tru]
      exact he
  · have hv : s.listening.bsq.phase = .vacant := hp
    unfold LinesHold
    rw [hv]
    exact .vacant ha

/-- What a step leads to has the lines behind its phase. -/
theorem Leads.lines {s t : State} (h : Leads s t) (hb : 0 < s.tmb.boundary) (hk : LevelKinds s) (hset : Settled s)
    (hl : LinesBehindPhase s) : LinesBehindPhase t := by
  rw [linesBehindPhase_iff] at hl ⊢
  intro ht
  cases h with
  | reset p n h => rw [h] at ht; exact absurd ht nofun
  | taken hs h =>
    rcases h with h | ⟨u, hu, rfl⟩
    · have hr := h.alike hb
      unfold LinesHold
      rw [hr.phase]
      exact (hl hs).of_active hr.pilotActive hr.estopActive hr.auxClosed hr.warningActive
    · exact settle_lines (hu.frame.started hs) (hu.lines hs hk hset (hl hs))
  | config _ h => simp [State.started, h.quiet.mode] at ht
  | start hc h =>
    have hp : s.bsq.phase = .vacant := by rw [hc.bsq]; rfl
    have he : s.tru.estopHeld = false := by rw [hc.tru]; rfl
    rw [h]
    exact settle_lines ((startStation_frame s).started rfl)
      (LinesHold.tripsTaken (.of_lib (startStation_lines hp he) rfl rfl))

/-- Settles O56: every passage between phases is made with the lines of the phase that it leads to, and what changes in
the lines moves the phase or trips the berth. -/
theorem everyStepKeepsTheLinesBehindThePhase : Obligations.EveryStepKeepsTheLinesBehindThePhase := by
  intro s t hb hq hk hset hl h
  obtain ⟨_, hlead⟩ := step_leads hq h
  exact hlead.lines hb hk hset hl

end Sys2Proof.Machine
end

