-- ==== Sys2Proof/Proofs/ClaimPassages.lean ====
section
/-! SUPPORT. The bounds that a phase gives the own claim, and what the passages between phases and the trips keep of
them. -/

namespace Sys2Proof.Machine

/-! ### The claim of a phase -/

/-- The own claim is zero. -/
def NoClaim (s : State) : Prop := s.bsq.firm = 0 ∧ s.bsq.flex = 0 ∧ s.bsq.transient = 0

/-- The own claim is the one of an uncommanded close (R28). -/
def StuckClaim (s : State) : Prop := s.bsq.firm = s.station.stuckBreakerClaim ∧ s.bsq.flex = 0 ∧ s.bsq.transient = 0

/-- A profile is in use and the own claim lies within it. -/
structure InProfile (s : State) : Prop where
  least : s.figures.minFirm ≤ s.bsq.firm
  firm : s.bsq.firm ≤ s.figures.maxFirm
  flex : s.bsq.flex ≤ s.figures.maxFlex
  transient : s.bsq.transient ≤ s.figures.inrushAllowance
  used : s.profile.isSome = true

/-- The own claim suits the phase `p`, and the aux is open where a berth in that phase waits. -/
structure ClaimFor (p : Phase) (s : State) : Prop where
  waits : p = .vacant ∨ p = .plugged ∨ p = .queued ∨ p = .energising → s.auxClosed = false
  zero : p = .vacant ∨ p = .plugged ∨ p = .queued → NoClaim s
  noFlex : p = .energising ∨ p = .awaitSync → s.bsq.flex = 0
  inProfile : p.energised = true → InProfile s

/-- What holds of the reserve, the clamped demands and the loaded figures in every phase. -/
structure Sound (s : State) : Prop where
  slots : ∀ a : Address, ∀ p ∈ s.vlp.slots[a], p.inRange = true
  stuck : s.station.stuckBreakerClaim ≤ 16383
  firmReserve : s.rsu.cls = some .firmEnergise →
    s.figures.minFirm + s.figures.inrushAllowance ≤ s.rsu.amount ∧
      s.rsu.amount ≤ s.figures.maxFirm + s.figures.inrushAllowance
  flexReserve : s.rsu.cls = some .flexRaise → s.bsq.flex + s.rsu.amount ≤ s.figures.maxFlex
  clamped : s.vlp.clampedFirm = (s.vlp.held.map fun r => clampFirm s.profile r.firmDemand).getD 0 ∧
    s.vlp.clampedFlex = (s.vlp.held.map fun r => clampFlex s.profile r.flexDemand).getD 0
  held : s.vlp.held.isNone = true ↔ s.vlp.link = .idle

/-- A ship waits for shore power. -/
def Wanted (s : State) : Prop := s.vlp.link = .up ∧ s.requests .shore = true

/-- What holds of a trip record: the claim is zero exactly with the open confirmed, which is with the aux open. -/
def RecordForm (s : State) (r : TripRecord) : Prop :=
  (r.openConfirmed = true → NoClaim s) ∧
  (r.openConfirmed = false → if r.uncommanded then StuckClaim s else InProfile s) ∧
  r.openConfirmed = !s.auxClosed

/-- The own claim and what it comes from stand in form, the ship's request apart. -/
structure ClaimStands (s : State) : Prop where
  sound : Sound s
  claim : ClaimFor s.bsq.phase s
  tripped : s.tru.record.isSome = true ↔ s.bsq.phase = .tripped
  record : ∀ r ∈ s.tru.record, RecordForm s r

/-- The own claim and all that it comes from stand in form. -/
structure ClaimHolds (s : State) : Prop extends ClaimStands s where
  wanted : s.bsq.phase = .queued → Wanted s

section
variable {s t : State} {p : Phase}

/-! ### Changes that leave what the claim comes from -/

/-- The reserve has been let go, or kept beside a flex that has not grown. -/
def ReserveKept (s t : State) : Prop :=
  t.rsu.cls = none ∨ (t.rsu.cls = s.rsu.cls ∧ t.rsu.amount = s.rsu.amount ∧ t.bsq.flex ≤ s.bsq.flex)

theorem ReserveKept.of_eq (hr : t.rsu = s.rsu) (hx : t.bsq.flex ≤ s.bsq.flex) : ReserveKept s t :=
  .inr ⟨by rw [hr], by rw [hr], hx⟩

theorem Sound.of_frame (h : Sound s) (hf : SequencerFrame s t) (hk : ReserveKept s t) : Sound t where
  slots := hf.vlp ▸ h.slots
  stuck := hf.station_eq ▸ h.stuck
  firmReserve := by
    rw [hf.figures]
    rcases hk with hn | ⟨hc, ha, -⟩
    · simp [hn]
    · rw [hc, ha]
      exact h.firmReserve
  flexReserve := by
    rw [hf.figures]
    rcases hk with hn | ⟨hc, ha, hx⟩
    · simp [hn]
    · rw [hc, ha]
      exact fun hs => (Nat.add_le_add_right hx _).trans (h.flexReserve hs)
  clamped := by rw [hf.vlp, hf.profile]; exact h.clamped
  held := by rw [hf.vlp]; exact h.held

theorem InProfile.of_frame (h : InProfile s) (hf : SequencerFrame s t) (h1 : t.bsq.firm = s.bsq.firm)
    (h2 : t.bsq.flex ≤ s.bsq.flex) (h3 : t.bsq.transient ≤ s.bsq.transient) : InProfile t where
  least := by rw [hf.figures, h1]; exact h.least
  firm := by rw [hf.figures, h1]; exact h.firm
  flex := by rw [hf.figures]; exact h2.trans h.flex
  transient := by rw [hf.figures]; exact h3.trans h.transient
  used := by rw [hf.profile]; exact h.used

/-- `t` has the claim of `s`, and the reserve as `s` has it or none. -/
structure ClaimKept (s t : State) : Prop where
  frame : SequencerFrame s t
  firm : t.bsq.firm = s.bsq.firm
  flex : t.bsq.flex = s.bsq.flex
  transient : t.bsq.transient = s.bsq.transient
  reserve : ReserveKept s t

namespace ClaimKept

theorem of_eq (hf : SequencerFrame s t) (hb : t.bsq.firm = s.bsq.firm ∧ t.bsq.flex = s.bsq.flex ∧
    t.bsq.transient = s.bsq.transient) (hr : t.rsu = s.rsu) : ClaimKept s t :=
  ⟨hf, hb.1, hb.2.1, hb.2.2, .of_eq hr hb.2.1.le⟩

theorem sound (h : ClaimKept s t) (hs : Sound s) : Sound t := hs.of_frame h.frame h.reserve

theorem inProfile (h : ClaimKept s t) (hs : InProfile s) : InProfile t :=
  hs.of_frame h.frame h.firm h.flex.le h.transient.le

theorem noClaim (h : ClaimKept s t) (hs : NoClaim s) : NoClaim t := by
  unfold NoClaim
  rw [h.firm, h.flex, h.transient]
  exact hs

theorem stuckClaim (h : ClaimKept s t) (hs : StuckClaim s) : StuckClaim t := by
  unfold StuckClaim
  rw [h.firm, h.flex, h.transient, h.frame.station_eq]
  exact hs

theorem claimFor (h : ClaimKept s t) (hs : ClaimFor p s) : ClaimFor p t where
  waits := by rw [h.frame.auxClosed]; exact hs.waits
  zero := fun hp => h.noClaim (hs.zero hp)
  noFlex := by rw [h.flex]; exact hs.noFlex
  inProfile := fun hp => h.inProfile (hs.inProfile hp)

theorem recordForm (h : ClaimKept s t) {r : TripRecord} (hr : RecordForm s r) : RecordForm t r := by
  obtain ⟨h1, h2, h3⟩ := hr
  refine ⟨fun hc => h.noClaim (h1 hc), fun hc => ?_, by rw [h.frame.auxClosed]; exact h3⟩
  have h2' := h2 hc
  split_ifs at h2' ⊢
  · exact h.stuckClaim h2'
  · exact h.inProfile h2'

theorem wanted (h : ClaimKept s t) (hw : Wanted s) : Wanted t := by
  unfold Wanted
  rw [h.frame.vlp, h.frame.requests]
  exact hw

theorem trans {u : State} (h : ClaimKept s t) (k : ClaimKept t u) : ClaimKept s u where
  frame := h.frame.trans k.frame
  firm := k.firm.trans h.firm
  flex := k.flex.trans h.flex
  transient := k.transient.trans h.transient
  reserve := by
    rcases k.reserve with hn | ⟨hc, ha, hx⟩
    · exact .inl hn
    · rcases h.reserve with hn | ⟨hc', ha', hx'⟩
      · exact .inl (hc.trans hn)
      · exact .inr ⟨hc.trans hc', ha.trans ha', hx.trans hx'⟩

/-- Letting the phase, the claim and the record be leaves the claim standing. -/
theorem claimStands (h : ClaimKept s t) (hp : t.bsq.phase = s.bsq.phase) (hr : t.tru.record = s.tru.record)
    (hs : ClaimStands s) : ClaimStands t where
  sound := h.sound hs.sound
  claim := by rw [hp]; exact h.claimFor hs.claim
  tripped := by rw [hp, hr]; exact hs.tripped
  record := fun r hm => h.recordForm (hs.record r (hr ▸ hm))

/-- Letting the phase, the claim and the record be leaves the claim in form. -/
theorem claimHolds (h : ClaimKept s t) (hp : t.bsq.phase = s.bsq.phase) (hr : t.tru.record = s.tru.record)
    (hs : ClaimHolds s) : ClaimHolds t where
  toClaimStands := h.claimStands hp hr hs.toClaimStands
  wanted := fun hq => h.wanted (hs.wanted (hp ▸ hq))

end ClaimKept

/-! ### A change of phase -/

theorem abandonReserve_reserve (s : State) :
    abandonReserve s = s ∧ s.rsu.state = .none ∨ (abandonReserve s).rsu.cls = none := by
  unfold abandonReserve
  split
  · exact .inl ⟨rfl, ‹_›⟩
  all_goals exact .inr rfl

theorem setPhase_rsu (next : Phase) (s : State) (h : next ≠ s.bsq.phase) :
    (setPhase next s).rsu = (phaseLeft next s).rsu := by
  unfold setPhase
  rw [if_neg h]
  dsimp only
  have ht (u : State) : (phaseTimers next u).rsu = u.rsu := by rw [phaseTimers_eq]
  split_ifs <;> exact ht _

theorem setPhase_claimKept (next : Phase) (s : State) : ClaimKept s (setPhase next s) := by
  refine ⟨setPhase_sequencerFrame s next, by rw [setPhase_bsq], by rw [setPhase_bsq], by rw [setPhase_bsq], ?_⟩
  have hx : (setPhase next s).bsq.flex ≤ s.bsq.flex := by rw [setPhase_bsq]
  by_cases hn : next = s.bsq.phase
  · exact .of_eq (by rw [setPhase, if_pos hn]) hx
  · rcases phaseLeft_cases s next with hl | hl
    · rcases abandonReserve_reserve s with ⟨ha, -⟩ | ha
      · exact .of_eq (by rw [setPhase_rsu next s hn, hl, ha]) hx
      · exact .inl (by rw [setPhase_rsu next s hn, hl, ha])
    · exact .of_eq (by rw [setPhase_rsu next s hn, hl]) hx

/-- A change to a phase that the claim suits, of a berth that is not tripped. -/
theorem setPhase_claimHolds (hs : Sound s) (hc : ClaimFor p s) (hr : s.tru.record = none) (hp : p ≠ .tripped)
    (hw : p = .queued → Wanted s) : ClaimHolds (setPhase p s) where
  sound := (setPhase_claimKept p s).sound hs
  claim := by rw [setPhase_phase]; exact (setPhase_claimKept p s).claimFor hc
  wanted := fun hq => (setPhase_claimKept p s).wanted (hw (by simpa using hq))
  tripped := by simp [hr, hp]
  record := by simp [hr]

/-- The phases that carry a ship with the aux closed ask of the claim that it lies in the profile. -/
theorem ClaimFor.carrying (h : InProfile s) (hp : p.connected = true ∨ p = .deEnergising) : ClaimFor p s := by
  rw [Phase.connected_iff] at hp
  refine ⟨?_, ?_, ?_, fun _ => h⟩ <;> rcases hp with (rfl | rfl | rfl) | rfl <;> simp

theorem ClaimFor.waiting (hz : NoClaim s) (ha : s.auxClosed = false)
    (hp : p = .vacant ∨ p = .plugged ∨ p = .queued) : ClaimFor p s := by
  obtain ⟨-, hflex, -⟩ := id hz
  exact ⟨fun _ => ha, fun _ => hz, fun _ => hflex, by rcases hp with rfl | rfl | rfl <;> simp [Phase.energised, Phase.connected]⟩

theorem ClaimFor.awaiting (h : InProfile s) (hx : s.bsq.flex = 0) : ClaimFor .awaitSync s :=
  ⟨by simp, by simp, fun _ => hx, fun _ => h⟩

/-- A berth that is not tripped holds no record. -/
theorem ClaimStands.record_none (h : ClaimStands s) (ht : s.bsq.phase ≠ .tripped) : s.tru.record = none := by
  simpa [ht] using h.tripped

/-! ### Trips -/

theorem tripping_claimKept (s : State) : ClaimKept s s.tripping := by
  have h := setPhase_claimKept .tripped s
  exact ⟨h.frame.trans (by constructor <;> rfl), h.firm, h.flex, h.transient, h.reserve⟩

theorem zeroClaim_noClaim (s : State) : NoClaim (zeroClaim s) := by simp [NoClaim]

theorem confirmOpen_noClaim (s : State) : NoClaim (confirmOpen s) := by simp [NoClaim]

theorem confirmOpen_sound (h : Sound s) : Sound (confirmOpen s) :=
  h.of_frame (confirmOpen_sequencerFrame s) (.of_eq (by simp [confirmOpen, setConfirmed]) (by simp))

theorem zeroClaim_sound (h : Sound s) : Sound (zeroClaim s) :=
  h.of_frame (zeroClaim_sequencerFrame s) (.of_eq (by simp) (by simp))

/-- The claim suits TRIPPED, whatever it is. -/
theorem ClaimFor.tripped : ClaimFor .tripped s :=
  ⟨by simp, by simp, by simp, by simp [Phase.energised, Phase.connected]⟩

theorem ClaimHolds.of_tripped (hs : Sound s) (hp : s.bsq.phase = .tripped) (hr : s.tru.record.isSome = true)
    (hf : ∀ r ∈ s.tru.record, RecordForm s r) : ClaimHolds s where
  sound := hs
  claim := hp ▸ ClaimFor.tripped
  wanted := by simp [hp]
  tripped := by simp [hp, hr]
  record := hf

/-- The open of a trip is confirmed with the aux open. -/
theorem confirmOpen_claimHolds (hs : Sound s) (hp : s.bsq.phase = .tripped) (hr : s.tru.record.isSome = true)
    (ha : s.auxClosed = false) : ClaimHolds (confirmOpen s) := by
  refine .of_tripped (confirmOpen_sound hs) (by simpa using hp) ?_ fun r hm => ?_
  · simpa [setConfirmed] using hr
  · have hc : r.openConfirmed = true := by
      simp only [confirmOpen_tru, setConfirmed, State.mapTru_tru, Option.mem_def, Option.map_eq_some_iff] at hm
      obtain ⟨a, -, rfl⟩ := hm
      rfl
    refine ⟨fun _ => confirmOpen_noClaim s, by simp [hc], ?_⟩
    rw [hc, (confirmOpen_sequencerFrame s).auxClosed, ha]
    rfl

/-- A trip with the record of its cause: with the aux open the claim goes, and with the aux closed it stays. -/
theorem carryOutTrip_claimHolds (b : Bool) (hs : Sound s) {r : TripRecord} (hr : s.tru.record = some r)
    (hn : r.openConfirmed = false)
    (hc : s.auxClosed = true → if r.uncommanded then StuckClaim s else InProfile s) : ClaimHolds (carryOutTrip b s) := by
  have hk := tripping_claimKept s
  have hrec : s.tripping.tru.record = some r := (congrArg (·.record) (setPhase_tru s _)).trans hr
  have hbase (ha : s.auxClosed = true) : ClaimHolds s.tripping := by
    refine .of_tripped (hk.sound hs) (tripping_phase s) (by rw [hrec]; rfl) fun q hq => ?_
    obtain rfl : r = q := by simpa [hrec] using hq
    refine ⟨by simp [hn], fun _ => ?_, by rw [hk.frame.auxClosed, ha, hn]; rfl⟩
    have hc' := hc ha
    split_ifs at hc' ⊢
    · exact hk.stuckClaim hc'
    · exact hk.inProfile hc'
  rw [carryOutTrip_eq]
  split_ifs with ha
  · exact hbase ha
  · refine ClaimKept.claimHolds (s := s.tripping) ?_ rfl rfl (hbase ha)
    exact .of_eq (by constructor <;> rfl) ⟨rfl, rfl, rfl⟩ rfl
  · exact ClaimKept.claimHolds (.of_eq (commandOpen_sequencerFrame _) ⟨rfl, rfl, rfl⟩ rfl) rfl rfl (hbase ha)
  · exact confirmOpen_claimHolds (hk.sound hs) (tripping_phase s) (by rw [hrec]; rfl)
      (hk.frame.auxClosed.trans (by simpa using ha))

theorem startTrip_claimHolds (b : Bool) {c : TripCause} (hs : Sound s)
    (hc : s.auxClosed = true → if c = .breakerUncommanded then StuckClaim s else InProfile s) :
    ClaimHolds (startTrip b c s) := by
  have hk : ClaimKept s (raiseAttention .trip (s.mapTru fun t => { t with record := some (s.newRecord c) })) :=
    .of_eq (by constructor <;> rfl) ⟨rfl, rfl, rfl⟩ rfl
  have hu : (s.newRecord c).uncommanded = decide (c = .breakerUncommanded) := by
    cases c <;> rfl
  refine carryOutTrip_claimHolds b (hk.sound hs) rfl rfl fun ha => ?_
  have hc' := hc ha
  by_cases h : c = .breakerUncommanded
  · rw [hu, if_pos (by simpa using h)]
    exact hk.stuckClaim (by simpa [h] using hc')
  · rw [hu, if_neg (by simpa using h)]
    exact hk.inProfile (by simpa [h] using hc')

/-- A later cause other than an uncommanded close leaves the claim in form. -/
theorem addLater_claimKept (c : TripCause) (s : State) : ClaimKept s (addLater c s) := by
  refine .of_eq (addLater_sequencerFrame s c) ?_ ?_ <;> rw [addLater_frame]
  exact ⟨rfl, rfl, rfl⟩

theorem CauseSet.add_uncommanded (k : CauseSet) {c : TripCause} (h : c ≠ .breakerUncommanded) :
    (k.add c).breakerUncommanded = k.breakerUncommanded := by
  cases c
  case breakerUncommanded => exact absurd rfl h
  all_goals rfl

theorem addLater_claimHolds {c : TripCause} (hc : c ≠ .breakerUncommanded) (h : ClaimHolds s) :
    ClaimHolds (addLater c s) := by
  have hk := addLater_claimKept c s
  have hp : (addLater c s).bsq.phase = s.bsq.phase := (OutputsFrame.addLater c s).phase
  refine ⟨⟨hk.sound h.sound, by rw [hp]; exact hk.claimFor h.claim, ?_, ?_⟩, fun hq => hk.wanted (h.wanted (hp ▸ hq))⟩
  · rw [hp, (OutputsFrame.addLater c s).recorded]
    exact h.tripped
  · intro q hq
    cases hr : s.tru.record with
    | none => simp [addLater, hr] at hq
    | some r =>
      have hform := hk.recordForm (h.record r hr)
      by_cases hl : r.later.has c = true
      · obtain rfl : r = q := by simpa [addLater, hr, hl] using hq
        exact hform
      · obtain rfl : { r with later := r.later.add c } = q := by simpa [addLater, hr, hl, raiseAttention] using hq
        obtain ⟨h1, h2, h3⟩ := hform
        refine ⟨h1, fun hcon => ?_, h3⟩
        have hu : ({ r with later := r.later.add c } : TripRecord).uncommanded = r.uncommanded := by
          simp only [TripRecord.uncommanded, CauseSet.add_uncommanded _ hc]
        rw [hu]
        exact h2 hcon

/-- With the aux closed and no trip the claim lies in the profile. -/
theorem ClaimStands.inProfile (h : ClaimStands s) (ht : s.bsq.phase ≠ .tripped) (ha : s.auxClosed = true) : InProfile s := by
  refine h.claim.inProfile ?_
  have hw : ¬(s.bsq.phase = .vacant ∨ s.bsq.phase = .plugged ∨ s.bsq.phase = .queued ∨ s.bsq.phase = .energising) :=
    fun hw => by simp [h.claim.waits hw] at ha
  rw [Phase.energised_iff, Phase.connected_iff]
  cases hp : s.bsq.phase <;> simp_all

theorem takeCause_claimHolds {c : TripCause} (hc : c ≠ .breakerUncommanded) (h : ClaimHolds s) :
    ClaimHolds (takeCause c s) := by
  unfold takeCause
  split
  · exact addLater_claimHolds hc h
  · rename_i ht
    exact startTrip_claimHolds false h.sound fun ha => by rw [if_neg hc]; exact h.inProfile ht ha

theorem remember_claimHolds (e f : Bool) (h : ClaimHolds s) : ClaimHolds (s.remember e f) :=
  ClaimKept.claimHolds (.of_eq (remember_sequencerFrame s e f) ⟨rfl, rfl, rfl⟩ rfl) rfl rfl h

theorem ClaimHolds.tripsTaken (h : ClaimHolds s) : ClaimHolds s.tripsTaken := by
  have he (u : State) (hu : ClaimHolds u) : ClaimHolds (checkEstop u) := by
    rcases checkEstop_cases u with ⟨-, -, h'⟩ | ⟨-, h'⟩ <;> rw [h']
    · exact remember_claimHolds _ _ (takeCause_claimHolds nofun hu)
    · exact hu
  have hf (u : State) (hu : ClaimHolds u) : ClaimHolds (checkFeeder u) := by
    rcases checkFeeder_cases u with ⟨-, -, h'⟩ | ⟨-, h'⟩ <;> rw [h']
    · exact remember_claimHolds _ _ (takeCause_claimHolds nofun hu)
    · exact hu
  exact he _ (hf _ (he _ h))

/-! ### Passages between phases -/

theorem evaluateEntry_claimHolds (h : ClaimHolds s) : ClaimHolds (evaluateEntry s) := by
  rcases evaluateEntry_cases s with ⟨hq, h'⟩ | ⟨-, h'⟩ <;> rw [h']
  · obtain ⟨hp, -, hreq, hlost, -⟩ := (mayQueue_iff s).1 hq
    have hz := h.claim.zero (by simp [hp])
    have ha := h.claim.waits (by simp [hp])
    refine setPhase_claimHolds h.sound (.waiting hz ha (by simp)) (h.record_none (by simp [hp])) nofun fun _ => ⟨?_, hreq⟩
    have hheld : s.vlp.held.isNone = false := by
      cases hh : s.vlp.held <;> simp_all [State.requests]
    have hidle : s.vlp.link ≠ .idle := fun hi => by simp [h.sound.held.2 hi] at hheld
    cases hl : s.vlp.link <;> simp_all
  · exact h

/-- PLUGGED is entered with no claim, the aux open and no record. -/
theorem enterPlugged_claimHolds (hs : Sound s) (hz : NoClaim s) (ha : s.auxClosed = false) (hr : s.tru.record = none) :
    ClaimHolds (enterPlugged s) := by
  have hp : ClaimHolds (setPhase .plugged s) := setPhase_claimHolds hs (.waiting hz ha (by simp)) hr nofun nofun
  exact evaluateEntry_claimHolds (remember_claimHolds _ _ hp.tripsTaken)

theorem releaseOpen_claimKept (s : State) : ClaimKept s (releaseOpen s) :=
  .of_eq (releaseOpen_sequencerFrame s) ⟨rfl, rfl, rfl⟩ rfl

theorem completeDeEnergise_claimHolds (hs : Sound s) (ha : s.auxClosed = false) (hr : s.tru.record = none) :
    ClaimHolds (completeDeEnergise s) := by
  have hk := releaseOpen_claimKept s
  refine enterPlugged_claimHolds (zeroClaim_sound (hk.sound hs)) (zeroClaim_noClaim _) ?_ ?_
  · rw [(zeroClaim_sequencerFrame _).auxClosed, hk.frame.auxClosed, ha]
  · simpa [releaseOpen, stopBreaker] using hr

theorem enterDeEnergising_claimHolds (hs : Sound s) (hi : InProfile s) (hr : s.tru.record = none) :
    ClaimHolds (enterDeEnergising s) := by
  have hk := setPhase_claimKept .deEnergising s
  unfold enterDeEnergising
  dsimp only
  split
  · refine ClaimKept.claimHolds (s := setPhase .deEnergising s) ?_ rfl rfl
      (setPhase_claimHolds hs (.carrying hi (by simp)) hr nofun nofun)
    exact .of_eq (commandOpen_sequencerFrame _) ⟨rfl, rfl, rfl⟩ rfl
  · rename_i ha
    exact completeDeEnergise_claimHolds (hk.sound hs) (by simpa using ha) (by simpa using hr)

theorem enterParallel_claimHolds (hs : Sound s) (hi : InProfile s) (hr : s.tru.record = none) :
    ClaimHolds (enterParallel s) := by
  have hk := setPhase_claimKept .parallel s
  unfold enterParallel
  dsimp only
  split
  · exact setPhase_claimHolds (hk.sound hs) (.carrying (hk.inProfile hi) (by simp [Phase.connected])) (by simpa using hr)
      nofun nofun
  · exact setPhase_claimHolds hs (.carrying hi (by simp [Phase.connected])) hr nofun nofun

/-- A claim set to no more flex and transient than it had stays in the profile, and leaves the reserve in form. -/
theorem setClaim_sound {f x n : Nat} (hs : Sound s) (hx : x ≤ s.bsq.flex) : Sound (setClaim f x n s) :=
  hs.of_frame (setClaim_sequencerFrame s f x n) (.of_eq (by simp) (by simpa using hx))

theorem setClaim_inProfile {x n : Nat} (hi : InProfile s) (hx : x ≤ s.bsq.flex) (hn : n ≤ s.bsq.transient) :
    InProfile (setClaim s.bsq.firm x n s) :=
  hi.of_frame (setClaim_sequencerFrame s _ x n) (by simp) (by simpa using hx) (by simpa using hn)

theorem startInrush_kept (hs : Sound s) (hi : InProfile s) (hx : s.bsq.flex = 0) :
    Sound (startInrush s) ∧ InProfile (startInrush s) ∧ (startInrush s).bsq.flex = 0 := by
  have hk (i : Timer) : ClaimKept s { s with tmb := { s.tmb with inrush := i } } :=
    .of_eq (by constructor <;> rfl) ⟨rfl, rfl, rfl⟩ rfl
  rcases startInrush_cases s with ⟨-, h⟩ | ⟨p, -, -, h⟩ | ⟨p, -, -, h⟩ <;> rw [h]
  · exact ⟨hs, hi, hx⟩
  · have hk0 := hk { interval := 0, left := none }
    exact ⟨setClaim_sound (hk0.sound hs) le_rfl, setClaim_inProfile (hk0.inProfile hi) le_rfl (Nat.zero_le _),
      by simp [hx]⟩
  · have hk1 := hk (Timer.start p.inrushWindow)
    exact ⟨hk1.sound hs, hk1.inProfile hi, hx⟩

theorem enterAwaitSync_claimHolds (hs : Sound s) (hi : InProfile s) (hx : s.bsq.flex = 0) (hr : s.tru.record = none) :
    ClaimHolds (enterAwaitSync s) := by
  have hk : ClaimKept s (stopBreaker (s.mapBsq fun b => { b with bkClose := false })) :=
    .of_eq (by constructor <;> rfl) ⟨rfl, rfl, rfl⟩ rfl
  obtain ⟨hs', hi', hx'⟩ := startInrush_kept (hk.sound hs) (hk.inProfile hi) hx
  have hr' : (startInrush (stopBreaker (s.mapBsq fun b => { b with bkClose := false }))).tru.record = none := by
    have := (startInrush_outputsFrame (stopBreaker (s.mapBsq fun b => { b with bkClose := false }))).recorded
    have hr'' : (stopBreaker (s.mapBsq fun b => { b with bkClose := false })).tru.record = none := hr
    simpa [hr''] using this
  have hw := setPhase_claimKept .awaitSync (startInrush (stopBreaker (s.mapBsq fun b => { b with bkClose := false })))
  unfold enterAwaitSync
  dsimp only
  split_ifs
  · exact enterDeEnergising_claimHolds (hw.sound hs') (hw.inProfile hi') (by simpa using hr')
  · exact enterParallel_claimHolds (hw.sound hs') (hw.inProfile hi') (by simpa using hr')
  · exact setPhase_claimHolds hs' (.awaiting hi' hx') hr' nofun nofun

/-- The record of a berth that is tripped after an uncommanded close shows it. -/
theorem addLater_uncommanded {r : TripRecord} (h : (addLater .breakerUncommanded s).tru.record = some r) :
    r.uncommanded = true := by
  unfold addLater at h
  split at h
  · simp_all
  · rename_i q hq
    split at h
    · rename_i hl
      obtain rfl : q = r := Option.some.inj (hq.symm.trans h)
      simp only [TripRecord.uncommanded, Bool.or_eq_true]
      exact .inr hl
    · obtain rfl : { q with later := q.later.add .breakerUncommanded } = r := by simpa [raiseAttention] using h
      simp [TripRecord.uncommanded, CauseSet.add]

theorem uncommandedClose_claimHolds (hs : Sound s) (ha : s.auxClosed = true)
    (hr : s.bsq.phase = .tripped → s.tru.record.isSome = true) : ClaimHolds (uncommandedClose s) := by
  have hset : Sound (setClaim s.station.stuckBreakerClaim 0 0 s) := setClaim_sound hs (Nat.zero_le _)
  have hf := setClaim_sequencerFrame s s.station.stuckBreakerClaim 0 0
  have hstuck : StuckClaim (setClaim s.station.stuckBreakerClaim 0 0 s) := by
    simp [StuckClaim, hf.station_eq]
  have haux := hf.auxClosed.trans ha
  unfold uncommandedClose
  dsimp only
  split
  · rename_i hp
    have hk := addLater_claimKept .breakerUncommanded (setClaim s.station.stuckBreakerClaim 0 0 s)
    have hk' : ClaimKept (addLater .breakerUncommanded (setClaim s.station.stuckBreakerClaim 0 0 s))
        (commandOpen (setConfirmed false (addLater .breakerUncommanded (setClaim s.station.stuckBreakerClaim 0 0 s)))) :=
      .of_eq (by constructor <;> rfl) ⟨rfl, rfl, rfl⟩ rfl
    have hkk := hk.trans hk'
    have hp' : s.bsq.phase = .tripped := by simpa using hp
    refine .of_tripped (hkk.sound hset) ?_ ?_ fun q hq => ?_
    · exact (OutputsFrame.addLater _ _).phase.trans hp
    · have := (OutputsFrame.addLater .breakerUncommanded (setClaim s.station.stuckBreakerClaim 0 0 s)).recorded
      simpa [commandOpen, setConfirmed, this] using hr hp'
    · simp only [commandOpen, setConfirmed, State.mapTmb_tru, State.mapBsq_tru, State.mapTru_tru, Option.mem_def,
        Option.map_eq_some_iff] at hq
      obtain ⟨r, hr', rfl⟩ := hq
      have hu := addLater_uncommanded hr'
      refine ⟨by simp, fun _ => ?_, by rw [hkk.frame.auxClosed, haux]; rfl⟩
      rw [if_pos (by simpa [TripRecord.uncommanded] using hu)]
      exact hkk.stuckClaim hstuck
  · exact startTrip_claimHolds false hset fun _ => by simpa using hstuck

end

end Sys2Proof.Machine
end

