-- ==== Sys2Proof/Proofs/ClaimEvents.lean ====
section
/-! SUPPORT. What each event keeps of the own claim and of what it comes from; and that every step keeps it in form. -/

namespace Sys2Proof.Machine

section
variable {s t : State}

/-! ### Changes of the vessel link and of the profile in use -/

/-- What forming the clamped demands touches (R143, R144). -/
theorem formClamps_eq (s : State) : ∃ q v, formClamps s =
    { s with
      vlp := { s.vlp with
        clampedFirm := (s.vlp.held.map fun r => clampFirm s.profile r.firmDemand).getD 0
        clampedFlex := (s.vlp.held.map fun r => clampFlex s.profile r.flexDemand).getD 0
        demandClamped := (formClamps s).vlp.demandClamped }
      hre := { s.hre with request := q }
      svp := v } ∧ v.station = s.svp.station := by
  unfold formClamps
  dsimp only
  split_ifs <;> exact ⟨_, _, rfl, rfl⟩

/-- `t` has what the claim is compared with as `s` has it, and the claim, the phase and the record. -/
structure SameClaim (s t : State) : Prop where
  bsq : t.bsq = s.bsq
  slots : t.vlp.slots = s.vlp.slots
  station : t.svp.station = s.svp.station
  auxClosed : t.auxClosed = s.auxClosed
  record : t.tru.record = s.tru.record

namespace SameClaim

theorem station_eq (h : SameClaim s t) : t.station = s.station := by simp only [State.station, h.station]
theorem profile (h : SameClaim s t) : t.profile = s.profile := by simp only [State.profile, h.bsq, h.slots]
theorem figures (h : SameClaim s t) : t.figures = s.figures := by simp only [State.figures, h.profile]

theorem trans {u : State} (h : SameClaim s t) (k : SameClaim t u) : SameClaim s u :=
  ⟨k.bsq.trans h.bsq, k.slots.trans h.slots, k.station.trans h.station, k.auxClosed.trans h.auxClosed,
    k.record.trans h.record⟩

theorem formClamps (s : State) : SameClaim s (formClamps s) := by
  obtain ⟨q, v, h, hv⟩ := formClamps_eq s
  rw [h]
  exact ⟨rfl, rfl, hv, rfl, rfl⟩

theorem noClaim (h : SameClaim s t) (hz : NoClaim s) : NoClaim t := by
  unfold NoClaim
  rw [h.bsq]
  exact hz

theorem inProfile (h : SameClaim s t) (hi : InProfile s) : InProfile t := by
  obtain ⟨h1, h2, h3, h4, h5⟩ := hi
  constructor <;> simpa only [h.figures, h.bsq, h.profile]

theorem stuckClaim (h : SameClaim s t) (hs : StuckClaim s) : StuckClaim t := by
  unfold StuckClaim
  rw [h.bsq, h.station_eq]
  exact hs

theorem sound (h : SameClaim s t) (hs : Sound s)
    (hr : (t.rsu.cls = s.rsu.cls ∧ t.rsu.amount = s.rsu.amount) ∨ t.rsu.cls = none)
    (hc : t.vlp.clampedFirm = (t.vlp.held.map fun r => clampFirm t.profile r.firmDemand).getD 0 ∧
      t.vlp.clampedFlex = (t.vlp.held.map fun r => clampFlex t.profile r.flexDemand).getD 0)
    (hl : t.vlp.held.isNone = true ↔ t.vlp.link = .idle) : Sound t where
  slots := h.slots ▸ hs.slots
  stuck := h.station_eq ▸ hs.stuck
  firmReserve := by
    rcases hr with ⟨hc, ha⟩ | hn
    · rw [hc, ha, h.figures]
      exact hs.firmReserve
    · simp [hn]
  flexReserve := by
    rcases hr with ⟨hc, ha⟩ | hn
    · rw [hc, ha, h.figures, h.bsq]
      exact hs.flexReserve
    · simp [hn]
  clamped := hc
  held := hl

theorem stands (h : SameClaim s t) (hs : ClaimStands s) (ht : Sound t) : ClaimStands t where
  sound := ht
  claim := by
    obtain ⟨h1, h2, h3, h4⟩ := hs.claim
    rw [h.bsq]
    exact ⟨h.auxClosed ▸ h1, fun hp => h.noClaim (h2 hp), h.bsq ▸ h3, fun hp => h.inProfile (h4 hp)⟩
  tripped := by rw [h.bsq, h.record]; exact hs.tripped
  record := fun r hr => by
    obtain ⟨h1, h2, h3⟩ := hs.record r (h.record ▸ hr)
    refine ⟨fun hc => h.noClaim (h1 hc), fun hc => ?_, h.auxClosed ▸ h3⟩
    have h2' := h2 hc
    split_ifs at h2' ⊢
    · exact h.stuckClaim h2'
    · exact h.inProfile h2'

end SameClaim

/-- What leaves the claim, the reserve and the vessel link leaves the claim in form. -/
theorem ClaimHolds.of_same (h : ClaimHolds s) (hc : SameClaim s t)
    (hr : (t.rsu.cls = s.rsu.cls ∧ t.rsu.amount = s.rsu.amount) ∨ t.rsu.cls = none) (hv : t.vlp = s.vlp) :
    ClaimHolds t where
  toClaimStands := hc.stands h.toClaimStands
    (hc.sound h.sound hr (by rw [hv, hc.profile]; exact h.sound.clamped) (by rw [hv]; exact h.sound.held))
  wanted := by
    unfold Wanted State.requests
    rw [hc.bsq, hv]
    exact h.wanted

/-- With no reserve, forming the clamped demands makes all sound but the link. -/
theorem formClamps_sound (hslots : ∀ a : Address, ∀ p ∈ s.vlp.slots[a], p.inRange = true)
    (hstuck : s.station.stuckBreakerClaim ≤ 16383) (hcls : s.rsu.cls = none)
    (hl : s.vlp.held.isNone = true ↔ s.vlp.link = .idle) : Sound (formClamps s) := by
  have hv := SameClaim.formClamps s
  have hprofile := hv.profile
  obtain ⟨q, v, h, -⟩ := formClamps_eq s
  have hr : (formClamps s).rsu = s.rsu := by rw [h]
  refine ⟨hv.slots ▸ hslots, hv.station_eq ▸ hstuck, by rw [hr, hcls]; exact nofun, by rw [hr, hcls]; exact nofun, ?_, ?_⟩
  · rw [hprofile, h]
    exact ⟨rfl, rfl⟩
  · rw [h]
    exact hl

/-- With the reserve in form, forming the clamped demands makes all sound but the link. -/
theorem formClamps_sound_of (hs : Sound t) (hv : SameClaim t s) (hr : s.rsu = t.rsu)
    (hl : s.vlp.held.isNone = true ↔ s.vlp.link = .idle) :
    Sound (formClamps s) := by
  have hv' := SameClaim.formClamps s
  have hprofile := hv'.profile
  obtain ⟨q, v, h, -⟩ := formClamps_eq s
  refine (hv.trans hv').sound hs ?_ ?_ ?_
  · rw [h, ← hr]
    exact .inl ⟨rfl, rfl⟩
  · rw [hprofile, h]
    exact ⟨rfl, rfl⟩
  · rw [h]
    exact hl

theorem ClaimStands.holds (h : ClaimStands s) (hq : s.bsq.phase ≠ .queued) : ClaimHolds s := ⟨h, fun hp => absurd hp hq⟩

/-- Flex and transient brought down leave the claim in form. -/
theorem ClaimHolds.lower (h : ClaimHolds s) {x n : Nat} (hx : x ≤ s.bsq.flex) (hn : n ≤ s.bsq.transient) :
    ClaimHolds (setClaim s.bsq.firm x n s) := by
  have hf := setClaim_sequencerFrame s s.bsq.firm x n
  have hp : (setClaim s.bsq.firm x n s).bsq.phase = s.bsq.phase := by simp
  have hzero (hz : NoClaim s) : NoClaim (setClaim s.bsq.firm x n s) := by
    obtain ⟨h1, h2, h3⟩ := hz
    simp only [NoClaim, setClaim_bsq]
    omega
  have hin (hi : InProfile s) : InProfile (setClaim s.bsq.firm x n s) := setClaim_inProfile hi hx hn
  refine ⟨⟨setClaim_sound h.sound hx, ?_, by rw [hp, setClaim_tru]; exact h.tripped, fun r hr => ?_⟩, fun hq => ?_⟩
  · rw [hp]
    refine ⟨hf.auxClosed ▸ h.claim.waits, fun hw => hzero (h.claim.zero hw), fun hw => ?_, fun hw => hin (h.claim.inProfile hw)⟩
    have := h.claim.noFlex hw
    simp only [setClaim_bsq]
    omega
  · obtain ⟨h1, h2, h3⟩ := h.record r (by simpa using hr)
    refine ⟨fun hc => hzero (h1 hc), fun hc => ?_, hf.auxClosed ▸ h3⟩
    have h2' := h2 hc
    split_ifs at h2' ⊢
    · obtain ⟨k1, k2, k3⟩ := h2'
      simp only [StuckClaim, setClaim_bsq, hf.station_eq]
      omega
    · exact hin h2'
  · have hw := h.wanted (hp ▸ hq)
    unfold Wanted
    rw [hf.vlp, hf.requests]
    exact hw

/-! ### The vessel's record -/

theorem clearAbortFlags_claimKept (r : ShipRecord) (s : State) : ClaimKept s (clearAbortFlags r s) := by
  refine .of_eq (clearAbortFlags_sequencerFrame s r) ?_ ?_ <;> unfold clearAbortFlags <;> split
  · exact ⟨rfl, rfl, rfl⟩
  · exact ⟨rfl, rfl, rfl⟩
  · rfl
  · rfl

theorem compareVessel_claimKept (r : ShipRecord) (s : State) : ClaimKept s (compareVessel r s) := by
  refine .of_eq (compareVessel_sequencerFrame s r) ?_ ?_ <;> unfold compareVessel <;> split
  · exact ⟨rfl, rfl, rfl⟩
  · exact ⟨rfl, rfl, rfl⟩
  · rfl
  · rfl

theorem takeRequest_claimHolds (m : Marks) (r : ShipRecord) (h : ClaimHolds s) : ClaimHolds (takeRequest m r s) := by
  unfold takeRequest
  split_ifs with _ ha hp
  · exact enterDeEnergising_claimHolds h.sound (h.claim.inProfile (by simp [ha, Phase.energised]))
      (h.record_none (by simp [ha]))
  · have hi : InProfile s := h.claim.inProfile
      (by rcases (Phase.pair_iff _).1 hp with hp | hp <;> simp [hp, Phase.energised, Phase.connected])
    exact setPhase_claimHolds h.sound (.carrying hi (by simp [Phase.connected]))
      (h.record_none (by rcases (Phase.pair_iff _).1 hp with hp | hp <;> simp [hp])) nofun nofun
  · exact h
  · exact h

theorem takeBreaker_claimHolds (m : Marks) (r : ShipRecord) (h : ClaimHolds s) : ClaimHolds (takeBreaker m r s) := by
  unfold takeBreaker
  split_ifs with _ ha hc
  · exact enterParallel_claimHolds h.sound (h.claim.inProfile (by simp [ha.1, Phase.energised]))
      (h.record_none (by simp [ha.1]))
  · exact enterDeEnergising_claimHolds h.sound (h.claim.inProfile (by simp [hc.1, Phase.energised]))
      (h.record_none (by rintro hv; simp [hv, Phase.connected] at hc))
  · exact h
  · exact h

theorem takeGenerators_claimHolds (m : Marks) (r : ShipRecord) (h : ClaimHolds s) : ClaimHolds (takeGenerators m r s) := by
  unfold takeGenerators
  split_ifs with _ hp
  · exact h.of_same ⟨rfl, rfl, rfl, rfl, rfl⟩ (.inl ⟨rfl, rfl⟩) rfl
  · exact setPhase_claimHolds h.sound
      (.carrying (h.claim.inProfile (by simp [hp.1, Phase.energised, Phase.connected])) (by simp [Phase.connected]))
      (h.record_none (by simp [hp.1])) nofun nofun
  · exact h

/-- A record delivered with the link UP and the record held. -/
theorem deliverRecord_claimHolds (m : Marks) (r : ShipRecord) (h : ClaimStands s) (hl : s.vlp.link = .up)
    (hh : s.vlp.held = some r) : ClaimHolds (deliverRecord m r s) := by
  have hk := clearAbortFlags_claimKept r s
  have hp : (clearAbortFlags r s).bsq.phase = s.bsq.phase := by
    unfold clearAbortFlags
    split <;> rfl
  have ht : (clearAbortFlags r s).tru.record = s.tru.record := by
    unfold clearAbortFlags
    split <;> rfl
  have hc := hk.claimStands hp ht h
  have hl' : (clearAbortFlags r s).vlp.link = .up := by rw [hk.frame.vlp, hl]
  have hh' : (clearAbortFlags r s).vlp.held = some r := by rw [hk.frame.vlp, hh]
  unfold deliverRecord
  generalize clearAbortFlags r s = t at hc hl' hh'
  have hv := compareVessel_claimKept r t
  have hvp := (compareVessel_outputsFrame r t).phase
  have hvr : (compareVessel r t).tru.record = t.tru.record := by
    unfold compareVessel
    split <;> rfl
  have hmove (hq : t.bsq.phase ≠ .queued) : ClaimHolds (takeGenerators m r (takeBreaker m r (takeRequest m r t))) :=
    takeGenerators_claimHolds m r (takeBreaker_claimHolds m r (takeRequest_claimHolds m r (hc.holds hq)))
  dsimp only
  cases hph : t.bsq.phase
  case plugged => exact evaluateEntry_claimHolds (hv.claimHolds hvp hvr (hc.holds (by simp [hph])))
  case queued =>
    have hs := hv.claimStands hvp hvr hc
    have hq := hvp.trans hph
    dsimp only
    split_ifs with hr
    · exact enterPlugged_claimHolds hs.sound (hs.claim.zero (by simp [hq])) (hs.claim.waits (by simp [hq]))
        (hs.record_none (by simp [hq]))
    · have hreq : r.request = .shore := by
        by_contra hn
        exact hr (.inl hn)
      refine ⟨hs, fun _ => ⟨by rw [hv.frame.vlp, hl'], ?_⟩⟩
      rw [hv.frame.requests, State.requests, hh']
      simp [hreq]
  case awaitSync => exact hmove (by simp [hph])
  case parallel => exact hmove (by simp [hph])
  case onShore => exact hmove (by simp [hph])
  case transferBack => exact hmove (by simp [hph])
  all_goals exact hc.holds (by simp [hph])

theorem takeRecord_claimHolds (r : ShipRecord) (h : ClaimStands s) : ClaimHolds (takeRecord r s) := by
  have hheard : SameClaim s ((linkHeard s).mapVlp fun v => { v with held := some r }) := by
    unfold linkHeard
    dsimp only
    split <;> exact ⟨rfl, rfl, rfl, rfl, rfl⟩
  have hrsu : ((linkHeard s).mapVlp fun v => { v with held := some r }).rsu = s.rsu := by
    unfold linkHeard
    dsimp only
    split <;> rfl
  have hlink : ((linkHeard s).mapVlp fun v => { v with held := some r }).vlp.link = .up := by
    unfold linkHeard
    dsimp only
    split <;> rfl
  have hvc := hheard.trans (.formClamps _)
  have hs : Sound (formClamps ((linkHeard s).mapVlp fun v => { v with held := some r })) :=
    formClamps_sound_of h.sound hheard hrsu (by rw [hlink]; simp)
  obtain ⟨q, v, hf, -⟩ := formClamps_eq ((linkHeard s).mapVlp fun v => { v with held := some r })
  unfold takeRecord
  refine deliverRecord_claimHolds _ r ?_ ?_ ?_
  · have hstands := hvc.stands h hs
    refine SameClaim.stands (s := formClamps _) ⟨rfl, rfl, rfl, rfl, rfl⟩ hstands ?_
    exact SameClaim.sound (s := formClamps _) ⟨rfl, rfl, rfl, rfl, rfl⟩ hs (.inl ⟨rfl, rfl⟩) hs.clamped hs.held
  · rw [hf]
    exact hlink
  · rw [hf]
    rfl

/-- The link lost from UP. -/
theorem linkLost_claimHolds (h : ClaimHolds s) (hu : s.vlp.link = .up) : ClaimHolds (linkLost s) := by
  have hv : SameClaim s ((s.mapVlp fun v => { v with link := .lost }).mapTmb
      fun b => { b with linkTimeout := b.linkTimeout.stop }) := ⟨rfl, rfl, rfl, rfl, rfl⟩
  have hheld : s.vlp.held.isNone = true ↔ VesselLink.lost = .idle := by
    simpa [hu] using h.sound.held
  have hs := hv.stands h.toClaimStands (hv.sound h.sound (.inl ⟨rfl, rfl⟩) h.sound.clamped hheld)
  unfold linkLost
  dsimp only
  split_ifs with hq ha hc
  · have hp : s.bsq.phase = .queued := hq
    exact enterPlugged_claimHolds hs.sound (hs.claim.zero (.inr (.inr hq))) (hs.claim.waits (.inr (.inr (.inl hq))))
      (h.record_none (by simp [hp]))
  · have hp : s.bsq.phase = .awaitSync := ha
    exact enterDeEnergising_claimHolds hs.sound (hv.inProfile (h.claim.inProfile (by simp [hp, Phase.energised])))
      (h.record_none (by simp [hp]))
  · have hlow := (hs.holds hq).lower (Nat.zero_le _) le_rfl
    exact hlow.of_same ⟨rfl, rfl, rfl, rfl, rfl⟩ (.inl ⟨rfl, rfl⟩) rfl
  · exact hs.holds hq

/-! ### The computation and the reserve -/

theorem actionOf_release {w : OwnInputs} {g : Figures} {n : Nat} (h : actionOf w g = .release n) : n ≤ w.flex := by
  unfold actionOf at h
  split at h
  · exact absurd h nofun
  · dsimp only at h
    split_ifs at h
    simp at h
    omega

theorem actionOf_raise {w : OwnInputs} {g : Figures} {n : Nat} (h : actionOf w g = .raise n) :
    ∃ p, w.profile = some p ∧ w.flex + n ≤ p.maxFlex := by
  unfold actionOf at h
  split at h
  · exact absurd h nofun
  · rename_i p hp
    refine ⟨p, hp, ?_⟩
    dsimp only at h
    split_ifs at h
    simp at h
    rename_i hflex _
    subst h
    have hfloor : raiseAmount p (w.wantFlex p) w.flex g.h ≤ w.wantFlex p - w.flex := by
      refine (Nat.div_mul_le_self _ _).trans ?_
      exact (min_le_left _ _).trans (min_le_left _ _)
    have hwant : w.wantFlex p ≤ p.maxFlex := min_le_left _ _
    obtain ⟨-, -, hlt⟩ := hflex
    omega

theorem actionOf_energise {w : OwnInputs} {g : Figures} {n : Nat} (h : actionOf w g = .energise n) :
    w.phase = .queued ∧ ∃ p, w.profile = some p ∧ n = w.clampedFirm + p.inrushAllowance := by
  unfold actionOf at h
  split at h
  · exact absurd h nofun
  · rename_i p hp
    dsimp only at h
    split_ifs at h
    simp at h
    rename_i hq _
    exact ⟨hq.1, p, hp, h.symm⟩

/-- A reserve within the bounds of its class is taken, refused or dropped. -/
theorem wantReserve_claimHolds {c : ReserveClass} {n : Nat} (r : LastResult) (h : ClaimHolds s)
    (hf : c = .firmEnergise → s.figures.minFirm + s.figures.inrushAllowance ≤ n ∧
      n ≤ s.figures.maxFirm + s.figures.inrushAllowance)
    (hx : c = .flexRaise → s.bsq.flex + n ≤ s.figures.maxFlex) : ClaimHolds (setLast r (wantReserve c n s)) := by
  unfold wantReserve
  split_ifs
  · exact h.of_same ⟨rfl, rfl, rfl, rfl, rfl⟩ (.inl ⟨rfl, rfl⟩) rfl
  · refine ⟨SameClaim.stands (s := s) ⟨rfl, rfl, rfl, rfl, rfl⟩ h.toClaimStands ?_, h.wanted⟩
    exact ⟨h.sound.slots, h.sound.stuck, fun hc => hf (Option.some.inj hc), fun hc => hx (Option.some.inj hc),
      h.sound.clamped, h.sound.held⟩
  · exact h.of_same ⟨rfl, rfl, rfl, rfl, rfl⟩ (.inl ⟨rfl, rfl⟩) rfl

/-- The figures of a loaded profile in the order of their ranges. -/
theorem Profile.inRange_bounds {p : Profile} (h : p.inRange = true) :
    p.minFirm ≤ p.maxFirm ∧ p.maxFirm ≤ 16383 ∧ p.maxFlex ≤ 16383 ∧ p.inrushAllowance ≤ 4095 := by
  simp only [Profile.inRange, Machine.inRange, Bool.and_eq_true, decide_eq_true_eq] at h
  omega

theorem Sound.profile_inRange (h : Sound s) {p : Profile} (hp : s.profile = some p) : p.inRange = true := by
  unfold State.profile at hp
  split at hp
  · exact h.slots _ p hp
  · exact absurd hp nofun

/-- A ship that waits has its clamped firm demand within the profile (R143). -/
theorem Sound.clampedFirm_bounds (h : Sound s) (hw : Wanted s) {p : Profile} (hp : s.profile = some p) :
    p.minFirm ≤ s.vlp.clampedFirm ∧ s.vlp.clampedFirm ≤ p.maxFirm := by
  obtain ⟨hmin, -⟩ := Profile.inRange_bounds (h.profile_inRange hp)
  obtain ⟨hfirm, -⟩ := h.clamped
  obtain ⟨-, hreq⟩ := hw
  cases hh : s.vlp.held with
  | none => simp [State.requests, hh] at hreq
  | some r =>
    simp only [hfirm, hh, hp, Option.map_some, Option.getD_some, clampFirm]
    omega

theorem handOn_claimHolds {g : Figures} (v : Bool) {w : OwnInputs} (h : ClaimHolds s) (hw : w = s.ownInputs) :
    ClaimHolds (handOn v (actionOf w g) s) := by
  have hlast (r : LastResult) : ClaimHolds (setLast r s) :=
    h.of_same ⟨rfl, rfl, rfl, rfl, rfl⟩ (.inl ⟨rfl, rfl⟩) rfl
  have hprofile {f : ProfileFigures} (hp : w.profile = some f) : ∃ p, s.profile = some p ∧ p.figures = f := by
    rw [hw] at hp
    exact Option.map_eq_some_iff.1 hp
  cases ha : actionOf w g with
  | none | cutWithheld n | energiseWait n => exact hlast _
  | release n =>
    have hn := actionOf_release ha
    rw [hw] at hn
    exact (h.lower hn le_rfl).of_same ⟨rfl, rfl, rfl, rfl, rfl⟩ (.inl ⟨rfl, rfl⟩) rfl
  | cut n =>
    exact (h.lower (Nat.sub_le _ n) le_rfl).of_same ⟨rfl, rfl, rfl, rfl, rfl⟩ (.inl ⟨rfl, rfl⟩) rfl
  | raise n =>
    simp only [handOn]
    split
    · exact hlast _
    · obtain ⟨f, hf, hn⟩ := actionOf_raise ha
      obtain ⟨p, hp, rfl⟩ := hprofile hf
      refine wantReserve_claimHolds _ h nofun fun _ => ?_
      have hfig : s.figures = p := by simp [State.figures, hp]
      rw [hw] at hn
      rw [hfig]
      exact hn
  | energise n =>
    simp only [handOn]
    split
    · exact hlast _
    · obtain ⟨hq, f, hf, hn⟩ := actionOf_energise ha
      obtain ⟨p, hp, rfl⟩ := hprofile hf
      rw [hw] at hq hn
      have hb := h.sound.clampedFirm_bounds (h.wanted hq) hp
      refine wantReserve_claimHolds _ h (fun _ => ?_) nofun
      have hn' : n = s.vlp.clampedFirm + p.inrushAllowance := hn
      have hfig : s.figures = p := by simp [State.figures, hp]
      rw [hfig, hn']
      omega

theorem completeComputation_claimHolds (w : Working) (h : ClaimHolds s) (hw : w.stale = false → w.inputs = s.ownInputs) :
    ClaimHolds (completeComputation w s) := by
  have hf (g : Figures) (t : State) (ht : ClaimHolds t) :
      ClaimHolds (storeFigures g t) ∧ (storeFigures g t).ownInputs = t.ownInputs := by
    unfold storeFigures
    dsimp only
    split <;> exact ⟨ht.of_same ⟨rfl, rfl, rfl, rfl, rfl⟩ (.inl ⟨rfl, rfl⟩) rfl, rfl⟩
  have ho (g : Figures) (t : State) (ht : ClaimHolds t) :
      ClaimHolds (storeOverload g t) ∧ (storeOverload g t).ownInputs = t.ownInputs := by
    unfold storeOverload
    dsimp only
    split_ifs <;> exact ⟨ht.of_same ⟨rfl, rfl, rfl, rfl, rfl⟩ (.inl ⟨rfl, rfl⟩) rfl, rfl⟩
  have hidle : ClaimHolds ({ s with freeCount := s.freeCount + 1 }.mapHre fun h => { h with computing := none }) :=
    h.of_same ⟨rfl, rfl, rfl, rfl, rfl⟩ (.inl ⟨rfl, rfl⟩) rfl
  unfold completeComputation
  dsimp only
  split
  · exact h.of_same ⟨rfl, rfl, rfl, rfl, rfl⟩ (.inl ⟨rfl, rfl⟩) rfl
  · rename_i hstale
    generalize figuresOf w.inputs _ = g
    obtain ⟨h1, e1⟩ := hf g _ hidle
    obtain ⟨h2, e2⟩ := ho g _ h1
    have hin : w.inputs = (storeOverload g (storeFigures g
        ({ s with freeCount := s.freeCount + 1 }.mapHre fun h => { h with computing := none }))).ownInputs := by
      rw [e2, e1]
      exact hw (by simpa using hstale)
    exact handOn_claimHolds _ h2 hin

/-- A FLEX_RAISE commit of no more than was reserved. -/
theorem commitFlex_claimHolds {c : Nat} (h : ClaimHolds s) (hp : s.bsq.phase.pair = true)
    (hx : s.bsq.flex + c ≤ s.figures.maxFlex) : ClaimHolds (commitFlex c s) := by
  have hc := setClaim_sequencerFrame (clearReserve s) s.bsq.firm (s.bsq.flex + c) s.bsq.transient
  have hf := (clearReserve_sequencerFrame s).trans hc
  rw [Phase.pair_iff] at hp
  have hconn : s.bsq.phase.connected = true := (Phase.connected_iff _).2 (by tauto)
  have hi := h.claim.inProfile (by simp [Phase.energised, hconn])
  have hset : ClaimHolds (setClaim s.bsq.firm (s.bsq.flex + c) s.bsq.transient (clearReserve s)) := by
    have hph : (setClaim s.bsq.firm (s.bsq.flex + c) s.bsq.transient (clearReserve s)).bsq.phase = s.bsq.phase := by
      rw [setClaim_bsq]
      rfl
    have hnone : (clearReserve s).tru.record = none := h.record_none (by rcases hp with hp | hp <;> simp [hp])
    have hin : InProfile (setClaim s.bsq.firm (s.bsq.flex + c) s.bsq.transient (clearReserve s)) := by
      refine ⟨?_, ?_, ?_, ?_, hf.profile ▸ hi.used⟩ <;> rw [hf.figures, setClaim_bsq]
      · exact hi.least
      · exact hi.firm
      · exact hx
      · exact hi.transient
    refine ⟨⟨h.sound.of_frame hf (.inl (by rw [setClaim_rsu]; rfl)), ?_, ?_, ?_⟩, ?_⟩
    · rw [hph]
      exact .carrying hin (.inl hconn)
    · rw [hph, setClaim_tru]
      exact h.tripped
    · simp [setClaim_tru, hnone]
    · rw [hph]
      rcases hp with hp | hp <;> simp [hp]
  exact hset.of_same ⟨rfl, rfl, rfl, rfl, rfl⟩ (.inl ⟨rfl, rfl⟩) rfl

/-- A FIRM_ENERGISE commit of an amount within the bounds of its class. -/
theorem commitEnergise_claimHolds {n : Nat} (h : ClaimHolds s) (hp : s.bsq.phase = .queued)
    (hu : s.profile.isSome = true)
    (hn : s.figures.minFirm + s.figures.inrushAllowance ≤ n ∧ n ≤ s.figures.maxFirm + s.figures.inrushAllowance) :
    ClaimHolds (commitEnergise n s) := by
  have hf := ((clearReserve_sequencerFrame s).trans (setPhase_sequencerFrame _ .energising)).trans
    (setClaim_sequencerFrame _ (n - s.figures.inrushAllowance) 0 s.figures.inrushAllowance)
  have hnone := h.record_none (by simp [hp])
  have hset : ClaimHolds (setClaim (n - s.figures.inrushAllowance) 0 s.figures.inrushAllowance
      (setPhase .energising (clearReserve s))) := by
    have hk := setPhase_claimKept .energising (clearReserve s)
    have hr : (setPhase .energising (clearReserve s)).rsu.cls = none := by
      rcases hk.reserve with hr | ⟨hr, -⟩
      · exact hr
      · exact hr
    have hin : InProfile (setClaim (n - s.figures.inrushAllowance) 0 s.figures.inrushAllowance
        (setPhase .energising (clearReserve s))) := by
      refine ⟨?_, ?_, ?_, ?_, hf.profile ▸ hu⟩ <;> rw [hf.figures, setClaim_bsq] <;> dsimp only <;> omega
    refine ⟨⟨h.sound.of_frame hf (.inl (by rw [setClaim_rsu, hr])), ?_, ?_, ?_⟩, ?_⟩
    · rw [setClaim_bsq, setPhase_phase]
      refine ⟨fun _ => ?_, by simp, fun _ => by rw [setClaim_bsq], fun _ => hin⟩
      rw [hf.auxClosed]
      exact h.claim.waits (by simp [hp])
    · rw [setClaim_bsq, setPhase_phase, setClaim_tru, setPhase_tru]
      simpa [clearReserve] using hnone
    · rw [setClaim_tru, setPhase_tru]
      simp [clearReserve, hnone]
    · rw [setClaim_bsq, setPhase_phase]
      exact nofun
  exact ClaimKept.claimHolds (s := setClaim _ _ _ _) (.of_eq (commandClose_sequencerFrame _) ⟨rfl, rfl, rfl⟩ rfl) rfl rfl hset

theorem settleHold_claimHolds (h : ClaimHolds s) (hq : s.bsq.phase = .queued → s.profile.isSome = true)
    (hp : s.rsu.cls = some .flexRaise → s.bsq.phase.pair = true) : ClaimHolds (settleHold s) := by
  unfold settleHold
  split
  · rename_i hc
    have hle : s.flexCommitNow ≤ s.rsu.amount := by
      unfold State.flexCommitNow flexCommit
      split_ifs <;> omega
    have hx := h.sound.flexReserve hc
    exact commitFlex_claimHolds h (hp hc) (by omega)
  · rename_i hc
    split
    · rename_i hcom
      exact commitEnergise_claimHolds h hcom.2 (hq hcom.2) (h.sound.firmReserve hc)
    · have hclear : ClaimKept s (clearReserve s) :=
        ⟨clearReserve_sequencerFrame s, rfl, rfl, rfl, .inl rfl⟩
      have hcl := hclear.claimHolds rfl rfl h
      exact hcl.of_same ⟨rfl, rfl, rfl, rfl, rfl⟩ (.inl ⟨rfl, rfl⟩) rfl
  · exact h

/-! ### The plug and the trip -/

/-- Outside QUEUED and the pair there is no reserve. -/
theorem ReserveForm.cls_none (h : ReserveForm s) (hq : s.bsq.phase ≠ .queued) (hp : s.bsq.phase.pair = false) :
    s.rsu.cls = none := by
  obtain ⟨-, -, -, -, -, -, -, -, hfirm, hflex, -⟩ := h
  cases hc : s.rsu.cls with
  | none => rfl
  | some c =>
    cases c with
    | firmEnergise => exact absurd (hfirm hc) hq
    | flexRaise => simp [hflex hc] at hp

/-- A plug proven with no claim, no reserve and no record, the aux open. -/
theorem plugProven_claimHolds (hslots : ∀ a : Address, ∀ p ∈ s.vlp.slots[a], p.inRange = true)
    (hstuck : s.station.stuckBreakerClaim ≤ 16383) (hl : s.vlp.held.isNone = true ↔ s.vlp.link = .idle)
    (hc : s.rsu.cls = none) (hz : NoClaim s) (ha : s.auxClosed = false) (hr : s.tru.record = none) :
    ClaimHolds (plugProven s) := by
  have hf := SameClaim.formClamps (selectProfile s)
  refine enterPlugged_claimHolds (formClamps_sound hslots hstuck hc hl) (hf.noClaim hz) ?_ ?_
  · rw [hf.auxClosed]
    exact ha
  · rw [hf.record]
    exact hr

theorem leaveTripped_claimHolds (h : ClaimHolds s) (hrec : s.tru.record.isSome = true) (hm : s.mayClear = true)
    (hc : s.rsu.cls = none) : ClaimHolds (leaveTripped s) := by
  simp only [State.mayClear, Bool.and_eq_true, Bool.not_eq_true'] at hm
  have ha := hm.1.1.1.1
  obtain ⟨r, hr⟩ := Option.isSome_iff_exists.1 hrec
  obtain ⟨hconf, -⟩ := h.record r hr
  have hz : NoClaim s := hconf (by simpa [State.openConfirmed, hr] using hm.1.1.1.2)
  have hplug (t : State) (hv : t.vlp = s.vlp) (hs : t.svp = s.svp) (hrsu : t.rsu = s.rsu) (hn : NoClaim t)
      (hat : t.auxClosed = false) (hrt : t.tru.record = none) :
      Sound (formClamps t) ∧ NoClaim (formClamps t) ∧ (formClamps t).auxClosed = false ∧ (formClamps t).tru.record = none := by
    have hf := SameClaim.formClamps t
    refine ⟨formClamps_sound (hv ▸ h.sound.slots) ?_ (hrsu ▸ hc) (hv ▸ h.sound.held), hf.noClaim hn, hf.auxClosed ▸ hat,
      hf.record ▸ hrt⟩
    simp only [State.station, hs]
    exact h.sound.stuck
  unfold leaveTripped
  dsimp only
  split
  · have hplug' (t : State) (hv : t.vlp = s.vlp) (hs : t.svp = s.svp) (hrsu : t.rsu = s.rsu) (hn : NoClaim t)
        (hat : t.auxClosed = false) (hrt : t.tru.record = none) : ClaimHolds (enterPlugged (formClamps t)) := by
      obtain ⟨h1, h2, h3, h4⟩ := hplug t hv hs hrsu hn hat hrt
      exact enterPlugged_claimHolds h1 h2 h3 h4
    split
    · unfold compareVessel
      split
      · exact hplug' _ rfl rfl rfl hz ha rfl
      · exact hplug' _ rfl rfl rfl hz ha rfl
    · exact hplug' _ rfl rfl rfl hz ha rfl
  · obtain ⟨h1, h2, h3, h4⟩ := hplug (dropProfile (s.mapTru fun u => { u with record := none })) rfl rfl rfl hz ha rfl
    exact setPhase_claimHolds h1 (.waiting h2 h3 (by simp)) h4 nofun nofun

/-- The berth freed by a lost pilot has no reserve left. -/
theorem setPhase_vacant_cls (h : ReserveForm s) (hp : s.bsq.phase = .plugged ∨ s.bsq.phase = .queued) :
    (setPhase .vacant s).rsu.cls = none := by
  have hne : Phase.vacant ≠ s.bsq.phase := by rcases hp with hp | hp <;> simp [hp]
  have hform := id h
  obtain ⟨hnone, -⟩ := h
  rw [setPhase_rsu _ _ hne]
  rcases hp with hp | hp
  · have hc := hform.cls_none (by simp [hp]) (by simp [hp, Phase.pair])
    rcases phaseLeft_cases s .vacant with hl | hl <;> rw [hl]
    · rcases abandonReserve_reserve s with ⟨ha, -⟩ | ha
      · rw [ha, hc]
      · exact ha
    · exact hc
  · by_cases hc : s.rsu.cls = some .firmEnergise
    · have hl : phaseLeft .vacant s = abandonReserve s := by simp [phaseLeft, hp, hc]
      rw [hl]
      rcases abandonReserve_reserve s with ⟨ha, hst⟩ | ha
      · rw [ha]
        exact (hnone hst).2
      · exact ha
    · obtain ⟨-, -, -, -, -, -, -, -, -, hflex, -⟩ := hform
      have hc' : s.rsu.cls = none := by
        cases hcls : s.rsu.cls with
        | none => rfl
        | some c =>
          cases c with
          | firmEnergise => exact absurd hcls hc
          | flexRaise => simpa [hp, Phase.pair] using hflex hcls
      rcases phaseLeft_cases s .vacant with hl | hl <;> rw [hl]
      · rcases abandonReserve_reserve s with ⟨ha, -⟩ | ha
        · rw [ha, hc']
        · exact ha
      · exact hc'

/-- A lost pilot, with the record gone and the link IDLE. -/
theorem pilotGone_claimHolds (h : ClaimStands s) (hr : ReserveForm s) (hh : s.vlp.held = none) : ClaimHolds (pilotGone s) := by
  unfold pilotGone
  split_ifs with hp he ht
  · have hk := setPhase_claimKept .vacant s
    have hcls := setPhase_vacant_cls hr hp
    have hz : NoClaim s := h.claim.zero (.inr hp)
    have ha := h.claim.waits (.inr (hp.imp_right .inl))
    have hrec := h.record_none (by rcases hp with hp | hp <;> simp [hp])
    have hph : (dropProfile (setPhase .vacant s)).bsq.phase = .vacant := setPhase_phase s .vacant
    have hrec' : (setPhase .vacant s).tru.record = none := (congrArg (·.record) (setPhase_tru s .vacant)).trans hrec
    generalize setPhase .vacant s = t at hk hcls hph hrec'
    have hclamped : t.vlp.clampedFirm = 0 ∧ t.vlp.clampedFlex = 0 := by
      rw [hk.frame.vlp]
      simpa [hh] using h.sound.clamped
    have hheld : t.vlp.held = none := hk.frame.vlp ▸ hh
    have hs : Sound (dropProfile t) := by
      refine ⟨hk.frame.vlp ▸ h.sound.slots, hk.frame.station_eq ▸ h.sound.stuck, fun hc => ?_, fun hc => ?_, ?_,
        hk.frame.vlp ▸ h.sound.held⟩
      · exact absurd (hcls.symm.trans hc) (by simp)
      · exact absurd (hcls.symm.trans hc) (by simp)
      · simpa [dropProfile, hheld] using hclamped
    refine ClaimStands.holds ⟨hs, ?_, ?_, ?_⟩ (by simp [hph])
    · rw [hph]
      exact .waiting (hk.noClaim hz) (hk.frame.auxClosed.trans ha) (by simp)
    · rw [hph]
      simp [dropProfile, hrec']
    · simp [dropProfile, hrec']
  · exact takeCause_claimHolds nofun (h.holds fun hq => hp (.inr hq))
  · exact addLater_claimHolds nofun (h.holds fun hq => hp (.inr hq))
  · exact h.holds fun hq => hp (.inr hq)

/-! ### The breaker -/

theorem auxClosure_claimHolds (hs : Sound s) (ha : s.auxClosed = true)
    (ht : s.tru.record.isSome = true ↔ s.bsq.phase = .tripped)
    (hi : s.bsq.phase.energised = true → InProfile s) (hx : s.bsq.phase = .energising → s.bsq.flex = 0)
    (hh : s.bsq.phase ≠ .vacant → s.bsq.phase ≠ .plugged → s.bsq.phase ≠ .queued → s.bsq.phase ≠ .energising →
      (s.bsq.phase = .tripped → s.openConfirmed = false) → ClaimHolds s) : ClaimHolds (auxClosure s) := by
  unfold auxClosure
  split
  case h_1 hp =>
    exact enterAwaitSync_claimHolds hs (hi (by simp [hp, Phase.energised])) (hx hp) (by simpa [hp] using ht)
  case h_5 hp =>
    split
    · exact uncommandedClose_claimHolds hs ha ht.2
    · rename_i hc
      exact hh (by simp [hp]) (by simp [hp]) (by simp [hp]) (by simp [hp]) fun _ => by simpa using hc
  case h_6 h1 h2 h3 h4 h5 => exact hh h2 h3 h4 h1 fun hp => absurd hp h5
  all_goals exact uncommandedClose_claimHolds hs ha ht.2

theorem auxOpening_claimHolds (hs : Sound s) (ha : s.auxClosed = false)
    (ht : s.tru.record.isSome = true ↔ s.bsq.phase = .tripped)
    (hi : s.bsq.phase.energised = true → InProfile s)
    (hh : s.bsq.phase ≠ .tripped → s.bsq.phase = .vacant ∨ s.bsq.phase = .plugged ∨ s.bsq.phase = .queued ∨
      s.bsq.phase = .energising → ClaimHolds s) : ClaimHolds (auxOpening s) := by
  have hk : ClaimKept s (if s.bsq.serving = some .resetPulse then releaseOpen s else s) := by
    split
    · exact releaseOpen_claimKept s
    · exact .of_eq (.refl s) ⟨rfl, rfl, rfl⟩ rfl
  have hp : (if s.bsq.serving = some .resetPulse then releaseOpen s else s).bsq.phase = s.bsq.phase := by
    split <;> rfl
  have hr : (if s.bsq.serving = some .resetPulse then releaseOpen s else s).tru.record = s.tru.record := by
    split <;> rfl
  unfold auxOpening
  generalize (if s.bsq.serving = some .resetPulse then releaseOpen s else s) = t at hk hp hr
  have hst := hk.sound hs
  have hat := hk.frame.auxClosed.trans ha
  have hnone (hn : t.bsq.phase ≠ .tripped) : t.tru.record = none := by
    rw [hr]
    simpa [hp ▸ hn] using ht
  have hit (he : t.bsq.phase.energised = true) : InProfile t := hk.inProfile (hi (hp ▸ he))
  dsimp only
  split
  case h_5 hph => exact completeDeEnergise_claimHolds hst hat (hnone (by simp [hph]))
  case h_6 hph =>
    have hrk := releaseOpen_claimKept t
    have hsome : t.tru.record.isSome = true := by
      rw [hr]
      exact ht.2 (hp ▸ hph)
    exact confirmOpen_claimHolds (hrk.sound hst) hph hsome (hrk.frame.auxClosed.trans hat)
  case h_7 h1 h2 h3 h4 h5 h6 =>
    refine hk.claimHolds hp hr (hh (hp ▸ h6) ?_)
    rw [← hp]
    cases hph : t.bsq.phase <;> simp_all
  all_goals
    rename_i hph
    exact enterDeEnergising_claimHolds hst (hit (by simp [hph, Phase.energised, Phase.connected])) (hnone (by simp [hph]))

theorem breakerExpired_claimHolds (c : Option BreakerCommand) (h : ClaimHolds s) : ClaimHolds (breakerExpired c s) := by
  have ho : ClaimHolds (s.mapBsq fun b => { b with bkOpen := false }) :=
    ClaimKept.claimHolds (s := s) (.of_eq (by constructor <;> rfl) ⟨rfl, rfl, rfl⟩ rfl) rfl rfl h
  unfold breakerExpired
  split
  · exact takeCause_claimHolds nofun h
  · dsimp only
    split
    · exact addLater_claimHolds nofun ho
    · exact ho
  · dsimp only
    split_ifs with hd
    · have hp : s.bsq.phase = .deEnergising := hd
      refine startTrip_claimHolds true ho.sound fun ha => ?_
      rw [if_neg nofun]
      exact ho.inProfile (by simp [hp]) ha
    · exact addLater_claimHolds nofun ho
    · exact ho
  · exact h

/-- A tick of the ramp down takes flex with it. -/
theorem rampDown_claimHolds (h : ClaimHolds s) (hg : s.gos.applied ≤ s.bsq.firm + s.bsq.flex) :
    ClaimHolds (rampDown s) := by
  unfold rampDown
  split
  · exact h.of_same ⟨rfl, rfl, rfl, rfl, rfl⟩ (.inl ⟨rfl, rfl⟩) rfl
  · have ht : ClaimHolds (s.mapGos (Gos.downTick s.figures.downrampStep)) :=
      h.of_same ⟨rfl, rfl, rfl, rfl, rfl⟩ (.inl ⟨rfl, rfl⟩) rfl
    have hx : s.gos.applied - s.figures.downrampStep - s.bsq.firm ≤ s.bsq.flex := by omega
    exact (ht.lower hx le_rfl).of_same ⟨rfl, rfl, rfl, rfl, rfl⟩ (.inl ⟨rfl, rfl⟩) rfl

/-! ### Events -/

/-- What holds before an event in LISTEN and RUN. -/
structure BeforeEvent (s : State) : Prop where
  started : s.started = true
  kinds : LevelKinds s
  settled : Settled s
  reserve : ReserveForm s
  grant : GrantBounds s
  profile : ProfileInUse s
  claim : ClaimHolds s

/-- A line settled leaves the claim, where it is not the aux that it is about. -/
theorem settleActive_claimHolds {l : Line} (v : Bool) (hl : l ≠ .bkaux) (h : ClaimHolds s) :
    ClaimHolds (settleActive l v s) := by
  refine h.of_same ⟨rfl, rfl, rfl, ?_, rfl⟩ (.inl ⟨rfl, rfl⟩) rfl
  cases l with
  | bkaux => exact absurd rfl hl
  | pcode n => fin_cases n <;> rfl
  | tsel n => fin_cases n <;> rfl
  | pilot | estop | fdrwarn | tadv | trst => rfl

theorem settleActive_inProfile {l : Line} (v : Bool) (h : InProfile s) : InProfile (settleActive l v s) := by
  obtain ⟨h1, h2, h3, h4, h5⟩ := h
  exact ⟨h1, h2, h3, h4, h5⟩

theorem settleActive_sound {l : Line} (v : Bool) (h : Sound s) : Sound (settleActive l v s) := by
  obtain ⟨h1, h2, h3, h4, h5, h6⟩ := h
  exact ⟨h1, h2, h3, h4, h5, h6⟩

/-- The aux reads closed in a phase that carries a ship or in a trip that awaits its open: it did already. -/
theorem BeforeEvent.auxClosed_claimHolds (h : BeforeEvent s) (hl : LinesHold s) (hv : s.bsq.phase ≠ .vacant)
    (hp : s.bsq.phase ≠ .plugged) (hq : s.bsq.phase ≠ .queued) (he : s.bsq.phase ≠ .energising)
    (ht : s.bsq.phase = .tripped → s.openConfirmed = false) : ClaimHolds (settleActive .bkaux true s) := by
  have ha : s.auxClosed = true := by
    by_cases htr : s.bsq.phase = .tripped
    · obtain ⟨r, hr⟩ := Option.isSome_iff_exists.1 (h.claim.tripped.2 htr)
      obtain ⟨-, -, hconf⟩ := h.claim.record r hr
      have hn : r.openConfirmed = false := by simpa [State.openConfirmed, hr] using ht htr
      simpa [hn] using hconf
    · refine hl.carries ?_
      rw [Phase.connected_iff]
      cases hph : s.bsq.phase <;> simp_all
  refine h.claim.of_same ⟨rfl, rfl, rfl, ?_, rfl⟩ (.inl ⟨rfl, rfl⟩) rfl
  rw [settleActive_bkaux h.kinds, ha]

/-- Every event leaves the claim in form before its end. -/
theorem Event.claimHolds {u : State} (he : Event s u) (h : BeforeEvent s) (hl : LinesHold s) : ClaimHolds u := by
  obtain ⟨hs, hk, hset, hr, hg, hu, hc⟩ := id h
  obtain ⟨htarget, happlied, hpending, -⟩ := hg
  obtain ⟨-, -, -, -, hinputs, -⟩ := hset hs
  have hused (hp : s.bsq.phase.pastPlugged = true) : s.profile.isSome = true := hu.2.2.1 hp
  have htmb (f : Tmb → Tmb) : ClaimHolds (s.mapTmb f) := hc.of_same ⟨rfl, rfl, rfl, rfl, rfl⟩ (.inl ⟨rfl, rfl⟩) rfl
  cases he with
  | aside ha =>
    refine hc.of_same ⟨ha.bsq, congrArg _ ha.vlp, ha.station, ha.auxClosed, congrArg _ ha.tru⟩ ha.reserve ha.vlp
  | clearTrip hrec hm =>
    have hp := hc.tripped.1 hrec
    exact (leaveTripped_claimHolds hc hrec hm (hr.cls_none (by simp [hp]) (by simp [hp, Phase.pair]))).of_same
      ⟨rfl, rfl, rfl, rfl, rfl⟩ (.inl ⟨rfl, rfl⟩) rfl
  | berthHold b =>
    have hb : ClaimHolds (s.mapBsq fun q => { q with hostHold := b }) :=
      ClaimKept.claimHolds (s := s) (.of_eq (by constructor <;> rfl) ⟨rfl, rfl, rfl⟩ rfl) rfl rfl hc
    exact (evaluateEntry_claimHolds hb).of_same ⟨rfl, rfl, rfl, rfl, rfl⟩ (.inl ⟨rfl, rfl⟩) rfl
  | plugProven hp =>
    exact plugProven_claimHolds (s := settleActive .pilot true s) hc.sound.slots hc.sound.stuck hc.sound.held
      (hr.cls_none (by simp [hp]) (by simp [hp, Phase.pair])) (hc.claim.zero (by simp [hp])) (hc.claim.waits (by simp [hp]))
      (hc.record_none (by simp [hp]))
  | pilotProven _ => exact settleActive_claimHolds _ nofun hc
  | pilotLost =>
    have hsl := settleActive_claimHolds (l := .pilot) false nofun hc
    have hv : SameClaim (settleActive .pilot false s) (linkIdle (settleActive .pilot false s)) := by
      refine SameClaim.trans ?_ (.formClamps _)
      exact ⟨rfl, rfl, rfl, rfl, rfl⟩
    have hso : Sound (linkIdle (settleActive .pilot false s)) :=
      formClamps_sound_of hsl.sound ⟨rfl, rfl, rfl, rfl, rfl⟩ rfl ⟨fun _ => rfl, fun _ => rfl⟩
    obtain ⟨q, v, hf, -⟩ := formClamps_eq (((settleActive .pilot false s).mapVlp
      fun v => { v with link := .idle, held := none }).mapTmb fun b => { b with linkTimeout := b.linkTimeout.stop })
    refine pilotGone_claimHolds (hv.stands hsl.toClaimStands hso) ?_ ?_
    · unfold linkIdle
      rw [hf]
      exact hr
    · unfold linkIdle
      rw [hf]
      rfl
  | auxClosure =>
    refine auxClosure_claimHolds (settleActive_sound _ hc.sound) (settleActive_bkaux hk true) hc.tripped
      (fun hp => settleActive_inProfile _ (hc.claim.inProfile hp)) (fun hp => hc.claim.noFlex (.inl hp)) ?_
    exact h.auxClosed_claimHolds hl
  | auxOpening =>
    refine auxOpening_claimHolds (settleActive_sound _ hc.sound) (settleActive_bkaux hk false) hc.tripped
      (fun hp => settleActive_inProfile _ (hc.claim.inProfile hp)) fun _ hp => ?_
    refine hc.of_same ⟨rfl, rfl, rfl, ?_, rfl⟩ (.inl ⟨rfl, rfl⟩) rfl
    rw [settleActive_bkaux hk]
    exact (hc.claim.waits hp).symm
  | estopChange v => exact settleActive_claimHolds _ nofun hc
  | warningChange v =>
    have hw := settleActive_claimHolds (l := .fdrwarn) v nofun hc
    unfold Machine.warningChange
    split_ifs with _ hq
    · have hq' : s.bsq.phase = .queued := hq
      exact enterPlugged_claimHolds hw.sound (hw.claim.zero (.inr (.inr hq))) (hw.claim.waits (.inr (.inr (.inl hq))))
        (hc.record_none (by simp [hq']))
    · exact hw
    · exact evaluateEntry_claimHolds hw
  | takeRecord r _ => exact takeRecord_claimHolds r hc.toClaimStands
  | listenExpiry =>
    exact evaluateEntry_claimHolds (hc.of_same ⟨rfl, rfl, rfl, rfl, rfl⟩ (.inl ⟨rfl, rfl⟩) rfl)
  | holdExpiry _ =>
    refine settleHold_claimHolds (htmb _) (fun hq => ?_) (fun hcls => ?_)
    · have hq' : s.bsq.phase = .queued := hq
      exact hused (by simp [hq', Phase.pastPlugged])
    · obtain ⟨-, -, -, -, -, -, -, -, -, hflex, -⟩ := hr
      exact hflex hcls
  | breakerExpiry _ =>
    exact breakerExpired_claimHolds _
      (ClaimKept.claimHolds (s := s) (.of_eq (stopBreaker_sequencerFrame s) ⟨rfl, rfl, rfl⟩ rfl) rfl rfl hc)
  | inrushExpiry => exact (htmb _).lower (x := s.bsq.flex) le_rfl (Nat.zero_le _)
  | syncExpiry hp =>
    have hb : ClaimHolds ((s.mapTmb fun t => { t with sync := t.sync.stop }).mapBsq fun b => { b with syncAbort := true }) :=
      ClaimKept.claimHolds (s := s) (.of_eq (by constructor <;> rfl) ⟨rfl, rfl, rfl⟩ rfl) rfl rfl hc
    exact enterDeEnergising_claimHolds hb.sound (hb.claim.inProfile (by simp [hp, Phase.energised]))
      (hb.record_none (by simp [hp]))
  | parallelExpiry hp =>
    have hb : ClaimHolds ((s.mapTmb fun t => { t with parallel := t.parallel.stop }).mapBsq
        fun b => { b with parallelForced := true }) :=
      ClaimKept.claimHolds (s := s) (.of_eq (by constructor <;> rfl) ⟨rfl, rfl, rfl⟩ rfl) rfl rfl hc
    exact setPhase_claimHolds hb.sound
      (.carrying (hb.claim.inProfile (by simp [hp, Phase.energised, Phase.connected])) (by simp [Phase.connected]))
      (hb.record_none (by simp [hp])) nofun nofun
  | syncStop | parallelStop | rampStart => exact htmb _
  | rampUp _ =>
    have ht := htmb fun t => { t with ramp := Timer.start s.figures.rampInterval }
    unfold Machine.rampUp
    dsimp only
    split <;> exact ht.of_same ⟨rfl, rfl, rfl, rfl, rfl⟩ (.inl ⟨rfl, rfl⟩) rfl
  | rampDown _ =>
    have ht := htmb fun t => { t with ramp := Timer.start s.figures.rampInterval }
    exact rampDown_claimHolds ht (by simpa using (by omega : s.gos.applied ≤ s.bsq.firm + s.bsq.flex))
  | linkTimeout hup => exact linkLost_claimHolds hc hup
  | linkLossExpiry _ => exact takeCause_claimHolds nofun (htmb _)
  | overdrawExpiry _ => exact takeCause_claimHolds nofun (htmb _)
  | computation w hw => exact completeComputation_claimHolds w hc (hinputs w hw)

end

/-! ### Every step -/

theorem LoadedForm.stuckBreakerClaim {s : State} (h : LoadedForm s) : s.station.stuckBreakerClaim ≤ 16383 := by
  obtain ⟨hranges, -⟩ := h
  unfold State.station
  cases hr : s.svp.station with
  | none => simp [stationBlank]
  | some r =>
    obtain ⟨-, -, -, -, -, -, -, -, -, -, hb, -⟩ := hranges r hr
    exact hb.2

/-- The invariants of a started berth give the claim in form. -/
theorem ClaimForm.holds {s : State} (h : ClaimForm s) (ho : Outputs s) (hu : ProfileInUse s) (hl : LinesHold s)
    (hst : LoadedForm s) : ClaimHolds s := by
  obtain ⟨-, hzero, hnoFlex, hin, hrec, hfirm, hflex, hclamped, hheld, hwanted⟩ := h
  obtain ⟨-, -, -, -, htripped⟩ := ho
  obtain ⟨hslots, -, hused, -⟩ := hu
  have hstuck := hst.stuckBreakerClaim
  refine ⟨⟨⟨hslots, hstuck, hfirm, hflex, hclamped, hheld⟩, ⟨hl.waits, hzero, hnoFlex, fun he => ?_⟩, htripped, ?_⟩, hwanted⟩
  · obtain ⟨h1, h2, h3, h4⟩ := hin he
    exact ⟨h1, h2, h3, h4, hused (by simp [Phase.pastPlugged, he])⟩
  · intro r hr
    obtain ⟨h1, h2, h3⟩ := hrec r hr
    refine ⟨h1, fun hc => ?_, h3⟩
    have h2' := h2 hc
    split_ifs at h2' ⊢
    · exact h2'
    · obtain ⟨k1, k2, k3, k4, k5⟩ := h2'
      exact ⟨k1, k2, k3, k4, k5⟩

/-- The parts of the claim lie in their ranges, whatever gives them (R21). -/
theorem ClaimHolds.bounds {s : State} (h : ClaimHolds s) :
    s.bsq.firm ≤ 16383 ∧ s.bsq.flex ≤ 16383 ∧ s.bsq.transient ≤ 4095 := by
  have hin (hi : InProfile s) : s.bsq.firm ≤ 16383 ∧ s.bsq.flex ≤ 16383 ∧ s.bsq.transient ≤ 4095 := by
    obtain ⟨h1, h2, h3, h4, h5⟩ := hi
    obtain ⟨p, hp⟩ := Option.isSome_iff_exists.1 h5
    have hfig : s.figures = p := by simp [State.figures, hp]
    obtain ⟨-, k1, k2, k3⟩ := Profile.inRange_bounds (h.sound.profile_inRange hp)
    rw [hfig] at h2 h3 h4
    omega
  have hno (hz : NoClaim s) : s.bsq.firm ≤ 16383 ∧ s.bsq.flex ≤ 16383 ∧ s.bsq.transient ≤ 4095 := by
    obtain ⟨h1, h2, h3⟩ := hz
    omega
  by_cases ht : s.bsq.phase = .tripped
  · obtain ⟨r, hr⟩ := Option.isSome_iff_exists.1 (h.tripped.2 ht)
    obtain ⟨h1, h2, -⟩ := h.record r hr
    cases hc : r.openConfirmed with
    | true => exact hno (h1 hc)
    | false =>
      have h2' := h2 hc
      split_ifs at h2'
      · obtain ⟨k1, k2, k3⟩ := h2'
        have := h.sound.stuck
        omega
      · exact hin h2'
  · by_cases he : s.bsq.phase.energised = true
    · exact hin (h.claim.inProfile he)
    · refine hno (h.claim.zero ?_)
      rw [Phase.energised_iff, Phase.connected_iff] at he
      cases hp : s.bsq.phase <;> simp_all

theorem ClaimHolds.form {s : State} (h : ClaimHolds s) : ClaimForm s := by
  refine ⟨h.bounds, h.claim.zero, h.claim.noFlex, fun he => ?_, fun r hr => ?_, h.sound.firmReserve, h.sound.flexReserve,
    h.sound.clamped, h.sound.held, h.wanted⟩
  · obtain ⟨h1, h2, h3, h4, -⟩ := h.claim.inProfile he
    exact ⟨h1, h2, h3, h4⟩
  · obtain ⟨h1, h2, h3⟩ := h.record r hr
    refine ⟨h1, fun hc => ?_, h3⟩
    have h2' := h2 hc
    split_ifs at h2' ⊢
    · exact h2'
    · obtain ⟨k1, k2, k3, k4, k5⟩ := h2'
      exact ⟨k1, k2, k3, k4, k5⟩

theorem Alike.claimForm {s t : State} (h : Alike s t) (hf : ClaimForm s) : ClaimForm t := by
  unfold ClaimForm
  rw [h.firm, h.flex, h.transient, h.phase, h.figures, h.record, h.station_eq, h.profile, h.auxClosed, h.reserveClass,
    h.amount, h.clampedFirm, h.clampedFlex, h.held, h.link, h.requests]
  exact hf

/-- In CONFIG there is nothing to claim. -/
theorem InConfig.claimForm {s : State} (h : InConfig s) : ClaimForm s := by
  have hb := h.bsq
  have hphase : s.bsq.phase = .vacant := by rw [hb]; rfl
  have hfirm : s.bsq.firm = 0 := by rw [hb]; rfl
  have hflex : s.bsq.flex = 0 := by rw [hb]; rfl
  have htransient : s.bsq.transient = 0 := by rw [hb]; rfl
  have hrecord : s.tru.record = none := by rw [h.tru]; rfl
  have hcls : s.rsu.cls = none := by rw [h.rsu]; rfl
  have hheld : s.vlp.held = none := by rw [h.vlp]; rfl
  have hlink : s.vlp.link = .idle := by rw [h.vlp]; rfl
  have hcf : s.vlp.clampedFirm = 0 := by rw [h.vlp]; rfl
  have hcx : s.vlp.clampedFlex = 0 := by rw [h.vlp]; rfl
  simp [ClaimForm, hphase, hfirm, hflex, htransient, hrecord, hcls, hheld, hlink, hcf, hcx, Phase.energised, Phase.connected]

theorem startStation_claimHolds {s : State} (h : InConfig s) (hu : ProfileInUse s) (hst : LoadedForm s) :
    ClaimHolds (startStation s) := by
  have hb := h.bsq
  have hphase : s.listening.bsq.phase = .vacant := by
    change s.bsq.phase = _
    rw [hb]
    rfl
  have hzero : NoClaim s.listening := by
    change NoClaim s
    unfold NoClaim
    rw [hb]
    exact ⟨rfl, rfl, rfl⟩
  have hrecord : s.listening.tru.record = none := congrArg (·.record) h.tru
  have hcls : s.listening.rsu.cls = none := congrArg (·.cls) h.rsu
  have hvlp := h.vlp
  have hheld : s.listening.vlp.held.isNone = true ↔ s.listening.vlp.link = .idle := by
    change s.vlp.held.isNone = true ↔ s.vlp.link = .idle
    rw [hvlp]
    exact ⟨fun _ => rfl, fun _ => rfl⟩
  have hclamped : s.listening.vlp.clampedFirm = (s.listening.vlp.held.map fun r => clampFirm s.listening.profile r.firmDemand).getD 0 ∧
      s.listening.vlp.clampedFlex = (s.listening.vlp.held.map fun r => clampFlex s.listening.profile r.flexDemand).getD 0 := by
    have hn : s.listening.vlp.held = none := congrArg (·.held) hvlp
    have h1 : s.listening.vlp.clampedFirm = 0 := congrArg (·.clampedFirm) hvlp
    have h2 : s.listening.vlp.clampedFlex = 0 := congrArg (·.clampedFlex) hvlp
    rw [hn, h1, h2]
    exact ⟨rfl, rfl⟩
  have hsound : Sound s.listening :=
    ⟨hu.1, hst.stuckBreakerClaim, fun hc => absurd (hcls.symm.trans hc) (by simp), fun hc => absurd (hcls.symm.trans hc) (by simp), hclamped, hheld⟩
  rw [startStation_eq]
  rcases sequencerStart_cases s.listening with ⟨ha, h'⟩ | ⟨ha, -, h'⟩ | ⟨ha, -, h'⟩ <;> rw [h']
  · exact uncommandedClose_claimHolds hsound ha (by simp [hphase])
  · exact plugProven_claimHolds hu.1 hsound.stuck hheld hcls hzero ha hrecord
  · refine ⟨⟨hsound, ?_, ?_, ?_⟩, ?_⟩
    · rw [hphase]
      exact .waiting hzero ha (by simp)
    · simp [hphase, hrecord]
    · simp [hrecord]
    · simp [hphase]

theorem settle_claimForm {before u : State} (hs : u.started = true) (h : ClaimHolds u) : ClaimForm (settle before u) :=
  (settle_ends u before hs).alike.claimForm h.tripsTaken.form

/-- Settles O59: every event keeps the claim in the bounds of the phase that it leads to, and the trips that follow it
leave or confirm the claim as the aux reads. -/
theorem everyStepKeepsTheClaimForm : Obligations.EveryStepKeepsTheClaimForm := by
  intro s t hq _ hset _ hr hst hu ho hg hk hlines hb hc h
  obtain ⟨p, hlead⟩ := step_leads hq h
  cases hlead with
  | reset p n h => exact h ▸ (reset_inConfig p n).claimForm
  | taken hs h =>
    rcases h with h | ⟨u, hev, rfl⟩
    · exact (h.alike hb).claimForm hc
    · have hl : LinesHold { s with pending := p } := ((linesBehindPhase_iff s).1 hlines hs).of_lib rfl rfl
      have hbefore : BeforeEvent { s with pending := p } := ⟨hs, hk, hset, hr, hg, hu, ClaimForm.holds hc ho hu hl hst⟩
      exact settle_claimForm (hev.frame.started hs) (hev.claimHolds hbefore hl)
  | config _ h => exact h.quiet.claimForm
  | start hcfg h =>
    rw [h]
    refine settle_claimForm ((startStation_frame _).started rfl) ?_
    exact (startStation_claimHolds hcfg hu hst).of_same ⟨rfl, rfl, rfl, rfl, rfl⟩ (.inl ⟨rfl, rfl⟩) rfl

end Sys2Proof.Machine
end

