-- ==== Sys2Proof/Proofs/Completions.lean ====
section
/-! SUPPORT. What an event leads to once its trips are taken, for the passages between phases; and the statements about
the expiries of the sequencer's timers. -/

namespace Sys2Proof.Machine

/-! ### An event that ends calm -/

/-- An event that leaves `u` ends as `v`: its trips lead there, but for what is remembered of the conditions. -/
structure TakenAs (u v : State) : Prop where
  started : u.started = true
  trips : ∃ e f, u.tripsTaken = v.remember e f

theorem TakenAs.completes {c : Instr} {s u v : State} (h : TakenAs u v) (hx : exec c s = .next (settle s u)) :
    CompletesAs c s v := by
  obtain ⟨hs, e, f, ht⟩ := h
  exact completesAs_of_tripsTaken hx hs ht

section
variable {s t : State}

theorem TakenAs.of_calm (hs : s.started = true) (hc : s.calm = true) : TakenAs s s :=
  ⟨hs, _, _, s.tripsTaken_of_calm hc⟩

/-- What is remembered just as the conditions stand leaves nothing to take. -/
theorem TakenAs.remembered (hs : s.started = true) : TakenAs (s.remember s.estopCondition s.feederCondition) s :=
  ⟨hs, _, _, State.tripsTaken_of_calm _ ((State.calm_iff _).2 ⟨id, id⟩)⟩

/-- A state in which no condition stands that did not stand before is calm. -/
theorem State.calm_mono (hc : s.calm = true) (he : t.estopCondition = true → s.estopCondition = true)
    (hf : t.feederCondition = true → s.feederCondition = true) (heh : t.tru.estopHeld = s.tru.estopHeld)
    (hfh : t.tru.feederHeld = s.tru.feederHeld) : t.calm = true := by
  obtain ⟨h1, h2⟩ := s.calm_iff.1 hc
  exact t.calm_iff.2 ⟨fun h => heh ▸ h1 (he h), fun h => hfh ▸ h2 (hf h)⟩

/-- A condition of ESTOP stands in every phase but VACANT. -/
theorem State.estopCondition_iff (s : State) :
    s.estopCondition = true ↔ s.estopActive = true ∧ s.bsq.phase ≠ .vacant := by
  simp [State.estopCondition]

theorem State.feederCondition_iff (s : State) :
    s.feederCondition = true ↔ s.warningActive = true ∧ (s.bsq.phase = .energising ∨ s.auxClosed = true) := by
  simp [State.feederCondition]

/-- A phase other than ENERGISING takes no condition that another than VACANT does not. -/
theorem State.calm_of_phase (hc : s.calm = true) (hl : t.lib = s.lib) (hp : s.bsq.phase ≠ .vacant)
    (hn : t.bsq.phase ≠ .energising) (heh : t.tru.estopHeld = s.tru.estopHeld)
    (hfh : t.tru.feederHeld = s.tru.feederHeld) : t.calm = true := by
  refine State.calm_mono hc (fun he => ?_) (fun hf => ?_) heh hfh
  · rw [State.estopCondition_iff, State.estopActive, hl] at he
    exact s.estopCondition_iff.2 ⟨he.1, hp⟩
  · rw [State.feederCondition_iff, State.warningActive, State.auxClosed, hl] at hf
    exact s.feederCondition_iff.2 ⟨hf.1, .inr (hf.2.resolve_left hn)⟩

/-- The conditions are those of the lines and the phase. -/
theorem State.calm_congr (hc : s.calm = true) (hl : t.lib = s.lib) (hp : t.bsq.phase = s.bsq.phase)
    (heh : t.tru.estopHeld = s.tru.estopHeld) (hfh : t.tru.feederHeld = s.tru.feederHeld) : t.calm = true := by
  simp only [State.calm, State.estopCondition, State.feederCondition, State.estopActive, State.warningActive,
    State.auxClosed, hl, hp, heh, hfh] at hc ⊢
  exact hc

theorem setPhase_calm (hc : s.calm = true) (hp : s.bsq.phase ≠ .vacant) {next : Phase} (hn : next ≠ .energising) :
    (setPhase next s).calm = true :=
  State.calm_of_phase hc (setPhase_sequencerFrame s next).lib hp (by simpa using hn) (by simp) (by simp)

/-- Taking a cause past VACANT makes no condition newly true. -/
theorem takeCause_calm (hc : s.calm = true) (hp : s.bsq.phase ≠ .vacant) (c : TripCause) : (takeCause c s).calm = true :=
  State.calm_of_phase hc (takeCause_sequencerFrame s c).lib hp (by simp) (takeCause_held s c).1 (takeCause_held s c).2

/-! ### Passages between phases -/

/-- In PLUGGED the entry conditions decide alone. -/
theorem evaluateEntry_eq_entered (h : s.bsq.phase = .plugged) : evaluateEntry s = s.entered := by
  have hiff := mayQueue_iff s
  simp only [h, true_and] at hiff
  rcases evaluateEntry_cases s with ⟨hq, h'⟩ | ⟨hq, h'⟩ <;> rw [h', State.entered]
  · exact (if_pos (hiff.1 hq)).symm
  · exact (if_neg fun hc => by simp [hiff.2 hc] at hq).symm

theorem evaluateEntry_remember (e f : Bool) (s : State) : evaluateEntry (s.remember e f) = (evaluateEntry s).remember e f := by
  have hq : (s.remember e f).mayQueue = s.mayQueue := rfl
  unfold evaluateEntry
  rw [hq]
  split
  · exact setPhase_remember e f s .queued
  · rfl

theorem State.entered_frame (h : s.bsq.phase = .plugged) :
    SequencerFrame s s.entered ∧ s.entered.tru = s.tru ∧
      (s.entered.bsq.phase = .plugged ∨ s.entered.bsq.phase = .queued) := by
  unfold State.entered
  split
  · exact ⟨setPhase_sequencerFrame s _, setPhase_tru s _, .inr (setPhase_phase s .queued)⟩
  · exact ⟨.refl s, rfl, .inl h⟩

/-- The entry conditions make no condition newly true. -/
theorem State.entered_calm (hc : s.calm = true) (h : s.bsq.phase = .plugged) : s.entered.calm = true := by
  obtain ⟨hf, ht, hp⟩ := State.entered_frame h
  exact State.calm_of_phase hc hf.lib (by simp [h]) (by rcases hp with hp | hp <;> simp [hp]) (by rw [ht]) (by rw [ht])

theorem entered_takenAs (hs : s.started = true) (hc : s.calm = true) (h : s.bsq.phase = .plugged) :
    TakenAs s.entered s.entered :=
  .of_calm ((State.entered_frame h).1.started.trans hs) (State.entered_calm hc h)

/-- PLUGGED entered with no condition newly true ends there, or in QUEUED where the entry conditions hold. -/
theorem enterPlugged_takenAs (hs : s.started = true) (hc : (setPhase .plugged s).calm = true) :
    TakenAs (enterPlugged s) (setPhase .plugged s).entered := by
  have hp := setPhase_phase s .plugged
  have hst : (setPhase .plugged s).started = true := (setPhase_sequencerFrame s .plugged).started.trans hs
  unfold enterPlugged
  rw [checkConditions_eq, State.tripsTaken_of_calm _ hc, evaluateEntry_remember, evaluateEntry_eq_entered hp]
  generalize setPhase .plugged s = t at hp hst
  obtain ⟨hf, -, hphase⟩ := State.entered_frame hp
  refine ⟨hf.started.trans hst, t.estopCondition, t.feederCondition, State.tripsTaken_of_calm _ ?_⟩
  have hr : (t.remember t.estopCondition t.feederCondition).calm = true := (State.calm_iff _).2 ⟨id, id⟩
  exact State.calm_of_phase hr hf.lib (by simp [hp]) (by rcases hphase with h | h <;> simp [h]) rfl rfl

/-- A de-energise from a phase past VACANT. -/
theorem enterDeEnergising_takenAs (hs : s.started = true) (hc : s.calm = true) (hp : s.bsq.phase ≠ .vacant) :
    TakenAs (enterDeEnergising s) s.deEnergised := by
  have hf := setPhase_sequencerFrame s .deEnergising
  have hst := hf.started.trans hs
  have hd := setPhase_calm hc hp (next := .deEnergising) nofun
  have hph := setPhase_phase s .deEnergising
  unfold enterDeEnergising State.deEnergised
  dsimp only
  rw [hf.auxClosed]
  split
  · rw [commandOpen_eq]
    exact .of_calm hst hd
  · refine enterPlugged_takenAs (s := zeroClaim (releaseOpen (setPhase .deEnergising s))) ?_ ?_
    · exact ((releaseOpen_sequencerFrame _).trans (zeroClaim_sequencerFrame _)).started.trans hst
    · refine State.calm_of_phase hd ?_ (by simp) (by simp) (by simp [releaseOpen, stopBreaker]) (by simp [releaseOpen, stopBreaker])
      exact (((releaseOpen_sequencerFrame _).trans (zeroClaim_sequencerFrame _)).trans (setPhase_sequencerFrame _ _)).lib

end

/-! ### The expiries -/

theorem Timer.due_iff (t : Timer) : t.due = true ↔ t.left = some 0 := by
  simp [Timer.due]

theorem eventIf_of_due {s : State} {t : Timer} {f : State → State} (h : t.left = some 0) :
    eventIf t.due f s = .next (settle s (f s)) := by
  rw [(Timer.due_iff t).2 h]
  rfl

theorem eventIf_of_not_due {s : State} {t : Timer} {f : State → State} (h : t.left ≠ some 0) :
    eventIf t.due f s = .next s := by
  have hd : t.due = false := Bool.eq_false_iff.2 fun hd => h ((Timer.due_iff t).1 hd)
  rw [hd]
  rfl

theorem TakenAs.completes_of_due {c : Instr} {s u v : State} {t : Timer} {f : State → State}
    (hx : exec c s = eventIf t.due f s) (hd : t.left = some 0) (hu : f s = u) (h : TakenAs u v) : CompletesAs c s v :=
  h.completes (by rw [hx, eventIf_of_due hd, hu])

/-- Settles O38: each expiry is one event, and de-energising is the passage of that name. -/
theorem inrushSyncAndParallelExpiries : Obligations.InrushSyncAndParallelExpiries := by
  intro s hs hc
  refine ⟨fun hd => ?_, fun hd => eventIf_of_not_due hd, fun hd hp => ?_, fun hd hp => ?_, fun hd => eventIf_of_not_due hd,
    fun hd hp => ?_, fun hd hp => ?_, fun hd => eventIf_of_not_due hd⟩
  · refine TakenAs.completes_of_due rfl hd rfl (.of_calm ?_ ?_)
    · exact (setClaim_sequencerFrame _ _ _ _).started.trans hs
    · refine State.calm_congr hc ?_ (by simp) (by simp) (by simp)
      exact (setClaim_sequencerFrame _ _ _ _).lib
  · exact TakenAs.completes_of_due rfl hd (if_pos hp) (enterDeEnergising_takenAs hs hc fun hv => nomatch hp.symm.trans hv)
  · exact TakenAs.completes_of_due rfl hd (if_neg hp) (.of_calm hs hc)
  · refine TakenAs.completes_of_due rfl hd (if_pos hp) (.of_calm ?_ ?_)
    · exact (setPhase_sequencerFrame _ _).started.trans hs
    · refine setPhase_calm (next := .transferBack) ?_ ?_ nofun
      · exact hc
      · exact fun hv => nomatch hp.symm.trans hv
  · exact TakenAs.completes_of_due rfl hd (if_neg hp) (.of_calm hs hc)

/-- A trip of a berth with no breaker command served keeps it so. -/
theorem tripping_of_idle {s : State} (h : s.bsq.serving = none) :
    s.tripping = { setPhase .tripped s with bsq := { (setPhase .tripped s).bsq with bkClose := false } } := by
  have hserving : (setPhase .tripped s).bsq.serving = s.bsq.serving := by rw [setPhase_bsq]
  have hne : ¬s.bsq.serving = some .close := by simp [h]
  unfold State.tripping
  rw [if_neg hne, if_neg hne, ← setPhase_breaker s .tripped, ← hserving]

/-- In TRIPPED a cause is a later one. -/
theorem takeCause_of_tripped {s : State} (h : s.bsq.phase = .tripped) (c : TripCause) : takeCause c s = addLater c s :=
  if_pos h

section
variable (k : State)

/-- The reset pulse, and an open outside DE_ENERGISING, end with BKOPEN deasserted; in TRIPPED with the aux closed the
cause is taken. -/
theorem breakerExpired_release {c : BreakerCommand}
    (hc : c = .resetPulse ∧ k.started = true ∨ c = .openCmd ∧ k.bsq.phase ≠ .deEnergising) :
    breakerExpired (some c) k =
      if k.bsq.phase = .tripped ∧ k.auxClosed = true then
        takeCause .breakerFail (k.mapBsq fun b => { b with bkOpen := false })
      else k.mapBsq fun b => { b with bkOpen := false } := by
  have hlater (h : k.bsq.phase = .tripped ∧ k.auxClosed = true) :=
    takeCause_of_tripped (s := k.mapBsq fun b => { b with bkOpen := false }) h.1 .breakerFail
  have ho : (k.mapBsq fun b => { b with bkOpen := false }).started = k.started := rfl
  have ha : (k.mapBsq fun b => { b with bkOpen := false }).auxClosed = k.auxClosed := rfl
  rcases hc with ⟨rfl, hs⟩ | ⟨rfl, hp⟩
  · unfold breakerExpired
    simp only [State.mapBsq_bsq, ho, ha, hs, Bool.true_and, Bool.and_eq_true, beq_iff_eq]
    split_ifs with h1
    · exact (hlater h1).symm
    · rfl
  · unfold breakerExpired
    simp only [State.mapBsq_bsq, ha, hp, if_false]
    split_ifs with h1
    · exact (hlater h1).symm
    · rfl

/-- An unanswered open in DE_ENERGISING starts a trip that commands no further open. -/
theorem breakerExpired_failedOpen (hp : k.bsq.phase = .deEnergising) :
    breakerExpired (some .openCmd) k = startTrip true .breakerFail (k.mapBsq fun b => { b with bkOpen := false }) :=
  if_pos hp

end

/-- In CONFIG the reset pulse ends and no more. -/
theorem breakerExpired_pulse_config {k : State} (h : k.started = false) :
    breakerExpired (some .resetPulse) k = k.mapBsq fun b => { b with bkOpen := false } := by
  have ho : (k.mapBsq fun b => { b with bkOpen := false }).started = false := h
  simp [breakerExpired, ho]

/-- In CONFIG nothing follows an event. -/
theorem settle_of_not_started {before u : State} (h : u.started = false) : settle before u = u := by
  simp [settle, h]

/-- The state that a failed open leads to with the aux closed: TRIPPED with the record of it, and BKCLOSE deasserted. -/
def State.failedOpen (s : State) : State :=
  let p := setPhase .tripped
    { s with
      tru := { s.tru with
        record := some { first := .breakerFail, phaseAtTrip := .deEnergising, appliedAtTrip := s.gos.applied
                         later := .empty, openConfirmed := false } }
      svp := { s.svp with attention := { s.svp.attention with trip := true }, attn := true } }
  { p with bsq := { p.bsq with bkClose := false } }

theorem failedOpen_takenAs {s : State} (hs : s.started = true) (hc : s.calm = true) (hp : s.bsq.phase = .deEnergising)
    (hi : s.bsq.serving = none) :
    TakenAs (startTrip true .breakerFail s) (if s.auxClosed then s.failedOpen else confirmOpen s.failedOpen) := by
  have hr : s.newRecord .breakerFail =
      { first := .breakerFail, phaseAtTrip := .deEnergising, appliedAtTrip := s.gos.applied, later := .empty
        openConfirmed := false } := by rw [State.newRecord, hp]
  have h : startTrip true .breakerFail s = if s.auxClosed then s.failedOpen else confirmOpen s.failedOpen := by
    have ht : (raiseAttention .trip (s.mapTru fun t => { t with record := some (s.newRecord .breakerFail) })).tripping =
        s.failedOpen := by
      rw [hr]
      exact tripping_of_idle hi
    unfold startTrip
    rw [carryOutTrip_eq, ht]
    rfl
  have hf := startTrip_sequencerFrame s true .breakerFail
  have hheld : (startTrip true .breakerFail s).tru.estopHeld = s.tru.estopHeld ∧
      (startTrip true .breakerFail s).tru.feederHeld = s.tru.feederHeld := carryOutTrip_held _ true
  have hph : (startTrip true .breakerFail s).bsq.phase = .tripped := carryOutTrip_phase _ true
  have ht : TakenAs (startTrip true .breakerFail s) (startTrip true .breakerFail s) :=
    .of_calm (hf.started.trans hs)
      (State.calm_of_phase hc hf.lib (by simp [hp]) (by rw [hph]; exact nofun) hheld.1 hheld.2)
  rw [← h]
  exact ht

/-- Settles O37: the command that the timer served decides, and a failed open starts a trip of its own. -/
theorem breakerTimerExpiryFailsItsCommand : Obligations.BreakerTimerExpiryFailsItsCommand := by
  intro s
  refine ⟨fun hs hc hd hp => ?_, fun hm hd hsv => ?_, fun hd => eventIf_of_not_due hd⟩
  · intro k o record p f
    have ho : k.mapBsq (fun b => { b with bkOpen := false }) = o := rfl
    have hend {c : Option BreakerCommand} {v : State} (hsv : s.bsq.serving = c) (h : TakenAs (breakerExpired c k) v) :
        CompletesAs .breakerTimerExpiry s v :=
      TakenAs.completes_of_due rfl hd (congrArg (breakerExpired · k) hsv) h
    have hkc : k.calm = true := hc
    have hks : k.started = true := hs
    have hoc : o.calm = true := hc
    have hos : o.started = true := hs
    have hop : o.bsq.phase = s.bsq.phase := rfl
    have hoa : o.auxClosed = s.auxClosed := rfl
    have hrelease {c : BreakerCommand} (hsv : s.bsq.serving = some c)
        (hcase : c = .resetPulse ∧ k.started = true ∨ c = .openCmd ∧ k.bsq.phase ≠ .deEnergising) :
        CompletesAs .breakerTimerExpiry s
          (if s.bsq.phase = .tripped ∧ s.auxClosed = true then takeCause .breakerFail o else o) := by
      refine hend hsv ?_
      rw [breakerExpired_release k hcase, ho]
      change TakenAs (if s.bsq.phase = .tripped ∧ s.auxClosed = true then _ else _) _
      split_ifs with h
      · exact .of_calm ((takeCause_sequencerFrame o _).started.trans hos) (takeCause_calm hoc (by simp [hop, h.1]) _)
      · exact .of_calm hos hoc
    have hfail (hsv : s.bsq.serving = some .openCmd) (hph : s.bsq.phase = .deEnergising) :
        CompletesAs .breakerTimerExpiry s (if s.auxClosed then o.failedOpen else confirmOpen o.failedOpen) := by
      refine hend hsv ?_
      rw [breakerExpired_failedOpen k hph, ho, ← hoa]
      exact failedOpen_takenAs hos hoc (hop.trans hph) rfl
    refine ⟨fun hsv => ?_, fun hsv => hrelease hsv (.inl ⟨rfl, hks⟩), fun hsv hph ha => ?_, fun hsv hph ha => ?_,
      fun hsv hph => hrelease hsv (.inr ⟨rfl, hph⟩), fun hsv => hend hsv (.of_calm hks hkc)⟩
    · refine hend hsv (.of_calm ?_ ?_)
      · exact (takeCause_sequencerFrame k _).started.trans hks
      · exact takeCause_calm hkc (hp.resolve_right (not_not.2 hsv)) _
    · have h := hfail hsv hph
      rw [if_pos ha] at h
      exact h
    · have h := hfail hsv hph
      rw [if_neg (by simp [ha])] at h
      exact h
  · have hstop : (stopBreaker s).started = false := by simp [State.started, stopBreaker, hm]
    have hx : exec .breakerTimerExpiry s = .next (settle s (breakerExpired s.bsq.serving (stopBreaker s))) :=
      eventIf_of_due hd
    rw [hx, hsv, breakerExpired_pulse_config hstop, settle_of_not_started (u := (stopBreaker s).mapBsq _) hstop]
    rfl

end Sys2Proof.Machine
end

