-- ==== Sys2Proof/Proofs/ShipRecords.lean ====
section
/-! SUPPORT. What a valid ship record does to the sequencer; and the statements about it. -/

namespace Sys2Proof.Machine

section
variable {s : State} {r : ShipRecord} {m : Marks}

/-! ### The record heard -/

/-- What hearing a record leaves of what the sequencer reads, and what it brings. -/
structure Heard (s : State) (r : ShipRecord) (h : State) : Prop where
  phase : h.bsq.phase = s.bsq.phase
  profileCode : h.bsq.profileCode = s.bsq.profileCode
  vesselMismatch : h.bsq.vesselMismatch = s.bsq.vesselMismatch
  slots : h.vlp.slots = s.vlp.slots
  held : h.vlp.held = some r
  lib : h.lib = s.lib
  tru : h.tru = s.tru
  mode : h.svp.mode = s.svp.mode

theorem formClamps_mode (s : State) : (formClamps s).svp.mode = s.svp.mode := by
  unfold formClamps
  dsimp only
  split_ifs <;> rfl

theorem State.heard_spec (s : State) (r : ShipRecord) : Heard s r (s.heard r) := by
  have hbsq : (s.heard r).bsq =
      if r.request = .none then { s.bsq with syncAbort := false, parallelForced := false } else s.bsq := rfl
  obtain ⟨q, v, hf, -⟩ := formClamps_eq
    { s with
      vlp := { s.vlp with link := .up, held := some r }
      tmb := { s.tmb with
        linkTimeout := { interval := s.station.vesselLinkTimeout, left := some s.station.vesselLinkTimeout } }
      hre := { s.hre with request := s.hre.request || s.vlp.link == .lost } }
  refine ⟨?_, ?_, ?_, ?_, ?_, ?_, ?_, formClamps_mode _⟩
  · rw [hbsq]
    split <;> rfl
  · rw [hbsq]
    split <;> rfl
  · rw [hbsq]
    split <;> rfl
  all_goals
    unfold State.heard
    rw [hf]

namespace Heard

variable {h : State}

theorem started (hh : Heard s r h) (hs : s.started = true) : h.started = true := by
  simpa only [State.started, hh.mode] using hs

theorem profile (hh : Heard s r h) : h.profile = s.profile := by
  simp only [State.profile, hh.profileCode, hh.slots]

theorem figures (hh : Heard s r h) : h.figures = s.figures := by simp only [State.figures, hh.profile]

theorem calm (hh : Heard s r h) (hc : s.calm = true) : h.calm = true :=
  State.calm_congr hc hh.lib hh.phase (by rw [hh.tru]) (by rw [hh.tru])

end Heard

theorem Gos.takeEcho_eq (pair : Bool) (echo : Nat) (g : Gos) :
    Gos.takeEcho pair echo g =
      if g.suspended = true ∧ pair = true ∧ g.applied ≤ echo then { g with suspended := false, stall := 0 } else g := by
  simp [Gos.takeEcho, and_assoc]

theorem linkHeard_held (s : State) (r : ShipRecord) :
    (linkHeard s).mapVlp (fun v => { v with held := some r }) =
      { s with
        vlp := { s.vlp with link := .up, held := some r }
        tmb := { s.tmb with
          linkTimeout := { interval := s.station.vesselLinkTimeout, left := some s.station.vesselLinkTimeout } }
        hre := { s.hre with request := s.hre.request || s.vlp.link == .lost } } := by
  unfold linkHeard
  dsimp only
  split
  · rename_i hl
    simp only [hl, beq_self_eq_true, Bool.or_true]
    rfl
  · rename_i hl
    have hne : (s.vlp.link == .lost) = false := by simpa using hl
    simp only [hne, Bool.or_false]
    rfl

/-- The record is heard before the sequencer takes its fields. -/
theorem clearAbortFlags_heard (s : State) (r : ShipRecord) :
    clearAbortFlags r
      ((formClamps ((linkHeard s).mapVlp fun v => { v with held := some r })).mapGos
        (Gos.takeEcho (formClamps ((linkHeard s).mapVlp fun v => { v with held := some r })).bsq.phase.pair r.echo)) =
      s.heard r := by
  rw [linkHeard_held]
  unfold State.heard
  dsimp only
  obtain ⟨q, v, hf, -⟩ := formClamps_eq
    { s with
      vlp := { s.vlp with link := .up, held := some r }
      tmb := { s.tmb with
        linkTimeout := { interval := s.station.vesselLinkTimeout, left := some s.station.vesselLinkTimeout } }
      hre := { s.hre with request := s.hre.request || s.vlp.link == .lost } }
  have hgos := congrArg State.gos hf
  have hbsq := congrArg State.bsq hf
  dsimp only at hgos hbsq
  clear hf
  generalize formClamps _ = x at hgos hbsq
  rw [← hgos, ← hbsq]
  unfold clearAbortFlags
  split <;> simp only [State.mapGos, State.mapBsq, Gos.takeEcho_eq]

/-- In PLUGGED a record judges the vessel id, and the entry conditions are evaluated. -/
theorem takeRecord_plugged (hp : s.bsq.phase = .plugged) :
    takeRecord r s = evaluateEntry (compareVessel r (s.heard r)) := by
  unfold takeRecord deliverRecord
  dsimp only
  rw [clearAbortFlags_heard, (s.heard_spec r).phase, hp]

/-- In QUEUED a record judges the vessel id, and may return the berth. -/
theorem takeRecord_queued (hp : s.bsq.phase = .queued) :
    takeRecord r s =
      if r.request ≠ .shore ∨ (compareVessel r (s.heard r)).bsq.vesselMismatch then
        enterPlugged (compareVessel r (s.heard r))
      else compareVessel r (s.heard r) := by
  unfold takeRecord deliverRecord
  dsimp only
  rw [clearAbortFlags_heard, (s.heard_spec r).phase, hp]

/-- From AWAIT_SYNC to TRANSFER_BACK a record's fields are taken in their order. -/
theorem takeRecord_moving (hp : s.bsq.phase = .awaitSync ∨ s.bsq.phase.connected = true) :
    takeRecord r s =
      takeGenerators (marksOf s.vlp.held r) r
        (takeBreaker (marksOf s.vlp.held r) r (takeRequest (marksOf s.vlp.held r) r (s.heard r))) := by
  rw [Phase.connected_iff] at hp
  unfold takeRecord deliverRecord
  dsimp only
  rw [clearAbortFlags_heard, (s.heard_spec r).phase]
  rcases hp with hp | hp | hp | hp <;> rw [hp]

theorem execShipStatusRecord_of {levels : List Level} (hr : r ∈ shipRecordIn levels) (hs : s.started = true)
    (hi : s.invalidCombination r = false) : exec (.shipStatusRecord levels) s = .next (settle s (takeRecord r s)) := by
  change execShipStatusRecord levels s = _
  unfold execShipStatusRecord
  rw [Option.mem_def.1 hr]
  simp [hs, hi, eventIf, event]

/-! ### The vessel id -/

/-- The vessel id is judged by the expected id of the profile in use (R8, R151). -/
theorem compareVessel_of_some {id : Nat} (h : s.figures.expectedId = some id) :
    compareVessel r s = { s with bsq := { s.bsq with vesselMismatch := r.vesselId != id } } := by
  simp [compareVessel, h, State.mapBsq]

theorem compareVessel_of_none (h : s.figures.expectedId = none) : compareVessel r s = s := by
  simp [compareVessel, h]

/-- Settles O26: in PLUGGED and QUEUED the record is heard, the vessel id judged, and the berth enters or is returned. -/
theorem shipRecordsQueueAndReturnTheBerth : Obligations.ShipRecordsQueueAndReturnTheBerth := by
  intro levels s hs hc r hr h v back
  have hh := s.heard_spec r
  have hv : compareVessel r h = v := by
    cases he : s.figures.expectedId with
    | some id =>
      rw [compareVessel_of_some (hh.figures ▸ he)]
      simp only [v, he]
    | none =>
      rw [compareVessel_of_none (hh.figures ▸ he)]
      have hm : h.bsq.vesselMismatch = s.bsq.vesselMismatch := hh.vesselMismatch
      simp only [v, he]
      rw [← hm]
  have hvs : v.started = true := hh.started hs
  have hvc : v.calm = true := hh.calm hc
  have hvp : v.bsq.phase = s.bsq.phase := hh.phase
  have hvh : v.vlp.held = some r := hh.held
  clear_value v
  refine ⟨fun hp => ?_, fun hp hi => ?_⟩
  · have hx := execShipStatusRecord_of hr hs (by simp [State.invalidCombination, hp])
    rw [takeRecord_plugged hp, hv, evaluateEntry_eq_entered (hvp.trans hp)] at hx
    exact (entered_takenAs hvs hvc (hvp.trans hp)).completes hx
  · have hx := execShipStatusRecord_of hr hs (r := r) (by
      cases hb : r.breakerClosed <;> simp_all [State.invalidCombination])
    rw [takeRecord_queued hp, hv] at hx
    refine ⟨fun hret => ?_, fun hreq hm => ?_⟩
    · rw [if_pos hret] at hx
      have ht := enterPlugged_takenAs hvs (setPhase_calm hvc (next := .plugged) (by simp [hvp, hp]) nofun)
      have hback : (setPhase .plugged v).entered = setPhase .plugged v := by
        refine if_neg fun hcond => ?_
        obtain ⟨-, hshore, -, -, -, hnomatch, -⟩ := hcond
        rw [(setPhase_sequencerFrame v _).requests, State.requests, hvh] at hshore
        rw [setPhase_bsq] at hnomatch
        rcases hret with hret | hret
        · simp [hret] at hshore
        · exact absurd (hret.symm.trans hnomatch) nofun
      rw [hback] at ht
      exact ht.completes hx
    · rw [if_neg (by simp [hreq, hm])] at hx
      exact (TakenAs.of_calm hvs hvc).completes hx

/-! ### The fields taken -/

theorem marksOf_request : (marksOf s.vlp.held r).request = true ↔ ∀ x ∈ s.vlp.held, x.request ≠ r.request := by
  cases h : s.vlp.held <;> simp [marksOf]

theorem marksOf_breaker : (marksOf s.vlp.held r).breaker = true ↔ ∀ x ∈ s.vlp.held, x.breakerClosed ≠ r.breakerClosed := by
  cases h : s.vlp.held <;> simp [marksOf]

theorem marksOf_generators :
    (marksOf s.vlp.held r).generators = true ↔ ∀ x ∈ s.vlp.held, x.generators ≠ r.generators := by
  cases h : s.vlp.held <;> simp [marksOf]

/-- The request marks a change to other than SHORE. -/
def Marks.asks (m : Marks) (r : ShipRecord) : Bool := m.request && r.request != .shore

/-- The breaker marks a change to CLOSED. -/
def Marks.closes (m : Marks) (r : ShipRecord) : Bool := m.breaker && r.breakerClosed

/-- The breaker marks a change to OPEN. -/
def Marks.opens (m : Marks) (r : ShipRecord) : Bool := m.breaker && !r.breakerClosed

/-- The generators mark a change to OFF. -/
def Marks.stops (m : Marks) (r : ShipRecord) : Bool := m.generators && r.generators == .off

theorem marksOf_asks : (marksOf s.vlp.held r).asks r = true ↔
    r.request ≠ .shore ∧ ∀ x ∈ s.vlp.held, x.request ≠ r.request := by
  simp only [Marks.asks, Bool.and_eq_true, marksOf_request, bne_iff_ne]
  exact and_comm

theorem marksOf_closes : (marksOf s.vlp.held r).closes r = true ↔
    r.breakerClosed = true ∧ ∀ x ∈ s.vlp.held, x.breakerClosed = false := by
  simp only [Marks.closes, Bool.and_eq_true, marksOf_breaker]
  cases r.breakerClosed <;> simp

theorem marksOf_opens : (marksOf s.vlp.held r).opens r = true ↔
    r.breakerClosed = false ∧ ∀ x ∈ s.vlp.held, x.breakerClosed = true := by
  simp only [Marks.opens, Bool.and_eq_true, marksOf_breaker]
  cases r.breakerClosed <;> simp

theorem marksOf_stops : (marksOf s.vlp.held r).stops r = true ↔
    r.generators = .off ∧ ∀ x ∈ s.vlp.held, x.generators ≠ .off := by
  simp only [Marks.stops, Bool.and_eq_true, marksOf_generators, beq_iff_eq]
  constructor
  · rintro ⟨h1, h2⟩
    exact ⟨h2, h2 ▸ h1⟩
  · rintro ⟨h1, h2⟩
    exact ⟨h1 ▸ h2, h1⟩

/-- The request field: what it does by the phase, and nothing where it does not ask. -/
theorem takeRequest_eq : takeRequest m r s =
    if m.asks r then
      if s.bsq.phase = .awaitSync then enterDeEnergising s
      else if s.bsq.phase.pair then setPhase .transferBack s
      else s
    else s := rfl

theorem takeRequest_of_not (h : m.asks r = false) : takeRequest m r s = s := by simp [takeRequest_eq, h]

/-- The breaker field closing: AWAIT_SYNC ends in PARALLEL. -/
theorem takeBreaker_closes (h : m.closes r = true) (hp : s.bsq.phase = .awaitSync) : takeBreaker m r s = enterParallel s := by
  simp only [Marks.closes, Bool.and_eq_true] at h
  simp [takeBreaker, h.1, h.2, hp]

/-- The breaker field opening: the berth de-energises. -/
theorem takeBreaker_opens (h : m.opens r = true) (hp : s.bsq.phase.connected = true) : takeBreaker m r s = enterDeEnergising s := by
  simp only [Marks.opens, Bool.and_eq_true, Bool.not_eq_true'] at h
  simp [takeBreaker, h.1, h.2, hp]

/-- The breaker field does nothing where it does not close in AWAIT_SYNC or open in a connected phase. -/
theorem takeBreaker_of_not (hc : s.bsq.phase = .awaitSync → m.closes r = false)
    (ho : s.bsq.phase.connected = true → m.opens r = false) : takeBreaker m r s = s := by
  unfold takeBreaker
  split_ifs with hm h1 h2
  · have := hc h1.1
    simp [Marks.closes, hm, h1.2] at this
  · have := ho h2.1
    simp [Marks.opens, hm] at this
    simp [this] at h2
  · rfl
  · rfl

/-- The generators field does nothing outside AWAIT_SYNC with SYNCING and PARALLEL with a change to OFF. -/
theorem takeGenerators_of_not (ha : s.bsq.phase = .awaitSync → r.generators ≠ .syncing)
    (hp : s.bsq.phase = .parallel → m.stops r = false) : takeGenerators m r s = s := by
  unfold takeGenerators
  rw [if_neg (fun h => ha h.1 h.2.1), if_neg]
  rintro ⟨h1, h2, h3⟩
  have := hp h1
  simp [Marks.stops, h2, h3] at this

/-- Where a change of the request or the breaker has de-energised the berth no later field does more. -/
theorem enterDeEnergising_apart (s : State) :
    (enterDeEnergising s).bsq.phase ≠ .awaitSync ∧ (enterDeEnergising s).bsq.phase.connected = false := by
  have hplug (t : State) : (enterPlugged t).bsq.phase ≠ .awaitSync ∧ (enterPlugged t).bsq.phase.connected = false := by
    unfold enterPlugged
    rcases evaluateEntry_cases (checkConditions (setPhase .plugged t)) with ⟨-, h⟩ | ⟨-, h⟩ <;> rw [h]
    · simp [Phase.connected]
    · rw [checkConditions_eq, State.remember_bsq]
      rcases (setPhase .plugged t).tripsTaken_cases with h | h <;> simp [h, Phase.connected]
  unfold enterDeEnergising
  dsimp only
  split
  · simp [commandOpen, Phase.connected]
  · exact hplug _

theorem takeBreaker_enterDeEnergising (s : State) : takeBreaker m r (enterDeEnergising s) = enterDeEnergising s := by
  obtain ⟨h1, h2⟩ := enterDeEnergising_apart s
  exact takeBreaker_of_not (fun h => absurd h h1) (fun h => by simp [h2] at h)

theorem takeGenerators_enterDeEnergising (s : State) : takeGenerators m r (enterDeEnergising s) = enterDeEnergising s := by
  obtain ⟨h1, h2⟩ := enterDeEnergising_apart s
  exact takeGenerators_of_not (fun h => absurd h h1) (fun h => by simp [h, Phase.connected] at h2)

/-- PARALLEL entered with the record held, and ON_SHORE at once with the generators OFF. -/
theorem enterParallel_eq (h : s.vlp.held = some r) :
    enterParallel s = if r.generators = .off then setPhase .onShore (setPhase .parallel s) else setPhase .parallel s := by
  have hv : (setPhase .parallel s).vlp.held = some r := by rw [(setPhase_sequencerFrame s _).vlp, h]
  unfold enterParallel
  dsimp only
  rw [hv]
  simp

theorem setPhase_takenAs {next : Phase} (hs : s.started = true) (hc : s.calm = true) (hp : s.bsq.phase ≠ .vacant)
    (hn : next ≠ .energising) : TakenAs (setPhase next s) (setPhase next s) :=
  .of_calm ((setPhase_sequencerFrame s next).started.trans hs) (setPhase_calm hc hp hn)

theorem enterParallel_takenAs (hs : s.started = true) (hc : s.calm = true) (hp : s.bsq.phase ≠ .vacant)
    (h : s.vlp.held = some r) :
    TakenAs (enterParallel s)
      (if r.generators = .off then setPhase .onShore (setPhase .parallel s) else setPhase .parallel s) := by
  have hst := (setPhase_sequencerFrame s .parallel).started.trans hs
  have hcalm := setPhase_calm hc hp (next := .parallel) nofun
  rw [enterParallel_eq h]
  split
  · exact setPhase_takenAs hst hcalm (by simp) nofun
  · exact .of_calm hst hcalm

/-- After PARALLEL has been entered the generators field does nothing more. -/
theorem takeGenerators_enterParallel (h : s.vlp.held = some r) : takeGenerators m r (enterParallel s) = enterParallel s := by
  rw [enterParallel_eq h]
  split
  · exact takeGenerators_of_not (by simp) (by simp)
  · rename_i hg
    exact takeGenerators_of_not (by simp) (fun _ => by simp [Marks.stops, hg])

/-- Settles O27: the fields are taken in their order, and once one has moved the berth a later one acts in the phase
that it led to. -/
theorem shipRecordsMoveTheChangeover : Obligations.ShipRecordsMoveTheChangeover := by
  intro levels s hs hc r hr h asks closes opens stops p b
  have hh : Heard s r h := s.heard_spec r
  have hhs := hh.started hs
  have hhc := hh.calm hc
  have hheld := hh.held
  have hend {u v : State} (hp : s.bsq.phase = .awaitSync ∨ s.bsq.phase.connected = true)
      (hu : takeGenerators (marksOf s.vlp.held r) r (takeBreaker (marksOf s.vlp.held r) r
        (takeRequest (marksOf s.vlp.held r) r h)) = u) (ht : TakenAs u v) : CompletesAs (.shipStatusRecord levels) s v := by
    refine ht.completes ?_
    rw [execShipStatusRecord_of hr hs, takeRecord_moving hp, hu]
    have hq : s.bsq.phase ≠ .queued := by
      rw [Phase.connected_iff] at hp
      rcases hp with hp | hp | hp | hp <;> simp [hp]
    simp [State.invalidCombination, hq]
  have hasks : asks ↔ (marksOf s.vlp.held r).asks r = true := marksOf_asks.symm
  have hcloses : closes ↔ (marksOf s.vlp.held r).closes r = true := marksOf_closes.symm
  have hopens : opens ↔ (marksOf s.vlp.held r).opens r = true := marksOf_opens.symm
  have hstops : stops ↔ (marksOf s.vlp.held r).stops r = true := marksOf_stops.symm
  have hph := hh.phase
  clear_value asks closes opens stops
  rw [hasks, hcloses, hopens, hstops]
  generalize marksOf s.vlp.held r = m at hend
  clear hasks hcloses hopens hstops
  simp only [Bool.not_eq_true]
  refine ⟨fun hp => ?_, fun hp => ?_, fun hp => ?_⟩
  · have hp' : h.bsq.phase = .awaitSync := hph.trans hp
    have hv : h.bsq.phase ≠ .vacant := by simp [hp']
    refine ⟨fun ha => ?_, fun ha hcl => ?_, fun ha hcl hg hprof => ?_, fun ha hcl hg => ?_⟩
    · refine hend (.inl hp) ?_ (enterDeEnergising_takenAs hhs hhc hv)
      rw [takeRequest_eq, if_pos ha, if_pos hp', takeBreaker_enterDeEnergising, takeGenerators_enterDeEnergising]
    · refine hend (.inl hp) ?_ (enterParallel_takenAs hhs hhc hv hheld)
      rw [takeRequest_of_not ha, takeBreaker_closes hcl hp', takeGenerators_enterParallel hheld]
    · refine hend (.inl hp) ?_ (.of_calm hhs hhc)
      rw [takeRequest_of_not ha, takeBreaker_of_not (fun _ => hcl) (fun hcon => by simp [hp', Phase.connected] at hcon)]
      have hsome : h.profile.isSome = true := by
        rw [hh.profile]
        exact Option.isSome_iff_ne_none.2 hprof
      unfold takeGenerators
      rw [if_pos ⟨hp', hg, hsome⟩, hh.figures]
      rfl
    · refine hend (.inl hp) ?_ (.of_calm hhs hhc)
      rw [takeRequest_of_not ha, takeBreaker_of_not (fun _ => hcl) (fun hcon => by simp [hp', Phase.connected] at hcon),
        takeGenerators_of_not (fun _ => hg) (by simp [hp'])]
  · have hp' : h.bsq.phase = .parallel ∨ h.bsq.phase = .onShore := by rwa [hph]
    have hpair : h.bsq.phase.pair = true := (Phase.pair_iff _).2 hp'
    have hcon : h.bsq.phase.connected = true := (Phase.connected_iff _).2 (hp'.imp_right .inl)
    have hcon' : s.bsq.phase = .awaitSync ∨ s.bsq.phase.connected = true := .inr (hph ▸ hcon)
    have hv : h.bsq.phase ≠ .vacant := by rcases hp' with hp' | hp' <;> simp [hp']
    have ha' : h.bsq.phase ≠ .awaitSync := by rcases hp' with hp' | hp' <;> simp [hp']
    have hb : takeRequest m r h = if m.asks r then b else h := by
      rw [takeRequest_eq, if_neg ha', if_pos hpair]
    have hbt := setPhase_takenAs (next := .transferBack) hhs hhc hv nofun
    have hbp : b.bsq.phase = .transferBack := setPhase_phase h _
    have hbc : b.calm = true := setPhase_calm hhc hv nofun
    refine ⟨fun ha ho => ?_, fun ha ho => ?_, fun ha ho => ?_, fun ha ho hpar hst => ?_, fun ha ho hst => ?_⟩
    · refine hend hcon' ?_ (enterDeEnergising_takenAs hbt.started hbc (by simp [hbp]))
      rw [hb, if_pos ha, takeBreaker_opens ho (by simp [hbp, Phase.connected]), takeGenerators_enterDeEnergising]
    · refine hend hcon' ?_ hbt
      rw [hb, if_pos ha, takeBreaker_of_not (by simp [hbp]) (fun _ => ho), takeGenerators_of_not (by simp [hbp]) (by simp [hbp])]
    · refine hend hcon' ?_ (enterDeEnergising_takenAs hhs hhc hv)
      rw [takeRequest_of_not ha, takeBreaker_opens ho hcon, takeGenerators_enterDeEnergising]
    · refine hend hcon' ?_ (setPhase_takenAs (next := .onShore) hhs hhc hv nofun)
      rw [takeRequest_of_not ha, takeBreaker_of_not (fun h => absurd h ha') (fun _ => ho)]
      simp only [Marks.stops, Bool.and_eq_true, beq_iff_eq] at hst
      unfold takeGenerators
      rw [if_neg (fun h => ha' h.1), if_pos ⟨hph.trans hpar, hst⟩]
    · refine hend hcon' ?_ (.of_calm hhs hhc)
      rw [takeRequest_of_not ha, takeBreaker_of_not (fun h => absurd h ha') (fun _ => ho),
        takeGenerators_of_not (fun h => absurd h ha') fun hpar => ?_]
      rcases hst with hst | hst
      · exact absurd (hst.symm.trans (hph.symm.trans hpar)) nofun
      · exact hst
  · have hp' : h.bsq.phase = .transferBack := hph.trans hp
    have hcon' : s.bsq.phase = .awaitSync ∨ s.bsq.phase.connected = true := .inr (by simp [hp, Phase.connected])
    have hv : h.bsq.phase ≠ .vacant := by simp [hp']
    have hreq : takeRequest m r h = h := by
      rw [takeRequest_eq, hp']
      simp [Phase.pair]
    refine ⟨fun ho => ?_, fun ho => ?_⟩
    · refine hend hcon' ?_ (enterDeEnergising_takenAs hhs hhc hv)
      rw [hreq, takeBreaker_opens ho (by simp [hp', Phase.connected]), takeGenerators_enterDeEnergising]
    · refine hend hcon' ?_ (.of_calm hhs hhc)
      rw [hreq, takeBreaker_of_not (by simp [hp']) (fun _ => ho), takeGenerators_of_not (by simp [hp']) (by simp [hp'])]

end

end Sys2Proof.Machine
end

