-- ==== Sys2Proof/Proofs/PilotChanges.lean ====
section
/-! SUPPORT. The pilot proven and lost: the statement about them. -/

namespace Sys2Proof.Machine

section
variable {s : State}

/-- An event with a condition that stands ends as what its effect leads to. -/
theorem TakenAs.completes_of_if {c : Instr} {s u v : State} {b : Bool} {f : State → State}
    (hx : exec c s = eventIf b f s) (hb : b = true) (hu : f s = u) (h : TakenAs u v) : CompletesAs c s v :=
  h.completes (by rw [hx, hb, ← hu]; rfl)

/-! ### The pilot -/

/-- With no record held the clamped demands are 0, and a recompute is requested where they were not (R144). -/
theorem formClamps_of_none (h : s.vlp.held = none) :
    formClamps s =
      { s with
        vlp := { s.vlp with clampedFirm := 0, clampedFlex := 0, demandClamped := false }
        hre := { s.hre with request := s.hre.request || s.vlp.clampedFirm != 0 || s.vlp.clampedFlex != 0 } } := by
  unfold formClamps
  simp only [h, Option.map_none, Option.getD_none, Option.any_none, Bool.false_and, Bool.false_eq_true, if_false]
  split
  · rename_i h0
    have hz : (s.vlp.clampedFirm != 0) = false ∧ (s.vlp.clampedFlex != 0) = false := by
      rw [← h0.1, ← h0.2]
      exact ⟨rfl, rfl⟩
    simp only [hz.1, hz.2, Bool.or_false, State.mapVlp, h]
  · rename_i h0
    have hz : (s.hre.request || s.vlp.clampedFirm != 0 || s.vlp.clampedFlex != 0) = true := by
      simp only [Bool.or_eq_true, bne_iff_ne]
      omega
    simp only [hz, requestRecompute, State.mapHre, State.mapVlp, h]

/-- The plug leaves the ship: no record, no clamped demand, and a recompute where there was one (R140, R144). -/
theorem linkIdle_eq (s : State) :
    linkIdle s =
      { s with
        vlp := { s.vlp with link := .idle, held := none, clampedFirm := 0, clampedFlex := 0, demandClamped := false }
        tmb := { s.tmb with linkTimeout := s.tmb.linkTimeout.stop }
        hre := { s.hre with request := s.hre.request || s.vlp.clampedFirm != 0 || s.vlp.clampedFlex != 0 } } :=
  formClamps_of_none rfl

/-- Where ESTOP is to be taken it is taken first, and the rest follows as of the state that it leads to. -/
theorem tripsTaken_of_estop (he : s.estopCondition = true) (hh : s.tru.estopHeld = false) :
    s.tripsTaken = ((takeCause .estop s).remember true s.tru.feederHeld).tripsTaken := by
  have h1 : checkEstop s = (takeCause .estop s).remember true s.tru.feederHeld := by
    rcases checkEstop_cases s with ⟨-, -, h⟩ | ⟨h, -⟩
    · exact h
    · simp [he, hh] at h
  have h2 : checkEstop ((takeCause .estop s).remember true s.tru.feederHeld) =
      (takeCause .estop s).remember true s.tru.feederHeld := by
    rcases checkEstop_cases ((takeCause .estop s).remember true s.tru.feederHeld) with ⟨-, hn, -⟩ | ⟨-, h⟩
    · exact absurd hn nofun
    · exact h
  unfold State.tripsTaken
  rw [h1, h2]

/-- An e-stop newly active past VACANT trips the berth with ESTOP, and with that alone where the feeder is calm. -/
theorem tripsTaken_estop (he : s.estopActive = true) (hp : s.bsq.phase ≠ .vacant) (hh : s.tru.estopHeld = false)
    (hf : s.warningActive = true → s.auxClosed = true → s.tru.feederHeld = true) :
    s.tripsTaken = (takeCause .estop s).remember true s.tru.feederHeld := by
  rw [tripsTaken_of_estop (s.estopCondition_iff.2 ⟨he, hp⟩) hh]
  refine State.tripsTaken_of_calm _ ((State.calm_iff _).2 ⟨fun _ => rfl, fun hc => ?_⟩)
  rw [State.remember_feederCondition, takeCause_feederCondition, Bool.and_eq_true] at hc
  exact hf hc.1 hc.2

/-- A feeder warning with the aux closed trips the berth with FEEDER_LOST, where no e-stop is to be taken. -/
theorem tripsTaken_feeder (hc : s.feederCondition = true) (hh : s.tru.feederHeld = false)
    (he : s.estopActive = true → s.tru.estopHeld = true) :
    s.tripsTaken = (takeCause .feederLost s).remember s.tru.estopHeld true := by
  have h1 : checkEstop s = s := by
    rcases checkEstop_cases s with ⟨ha, hn, -⟩ | ⟨-, h⟩
    · rw [he (s.estopCondition_iff.1 ha).1] at hn
      exact absurd hn nofun
    · exact h
  have h2 : checkFeeder s = (takeCause .feederLost s).remember s.tru.estopHeld true := by
    rcases checkFeeder_cases s with ⟨-, -, h⟩ | ⟨h, -⟩
    · exact h
    · simp [hc, hh] at h
  have h3 : checkEstop ((takeCause .feederLost s).remember s.tru.estopHeld true) =
      (takeCause .feederLost s).remember s.tru.estopHeld true := by
    rcases checkEstop_cases ((takeCause .feederLost s).remember s.tru.estopHeld true) with ⟨ha, hn, -⟩ | ⟨-, h⟩
    · rw [State.remember_estopCondition, takeCause_estopCondition] at ha
      rw [State.remember_estopHeld, he ha] at hn
      exact absurd hn nofun
    · exact h
  unfold State.tripsTaken
  rw [h1, h2, h3]

/-- With both to be taken ESTOP comes first. -/
theorem tripsTaken_both (he : s.estopActive = true) (hp : s.bsq.phase ≠ .vacant) (hh : s.tru.estopHeld = false)
    (hw : s.warningActive = true) (ha : s.auxClosed = true) (hf : s.tru.feederHeld = false) :
    s.tripsTaken = (takeCause .feederLost (takeCause .estop s)).remember true true := by
  have hc : ((takeCause .estop s).remember true s.tru.feederHeld).feederCondition = true := by
    rw [State.remember_feederCondition, takeCause_feederCondition, hw, ha]
    rfl
  rw [tripsTaken_of_estop (s.estopCondition_iff.2 ⟨he, hp⟩) hh, tripsTaken_feeder hc hf (fun _ => rfl), takeCause_remember]
  rfl

/-- PLUGGED entered with a condition newly true ends tripped, and the entry conditions do nothing. -/
theorem enterPlugged_tripped {u : State} {e f : Bool} (hs : s.started = true) (hu : u.bsq.phase = .tripped)
    (h : (setPhase .plugged s).tripsTaken = u.remember e f) : TakenAs (enterPlugged s) u := by
  have hst := ((setPhase_sequencerFrame s .plugged).trans (tripsTaken_sequencerFrame _)).started.trans hs
  have hentry (q : State) (hq : q.bsq.phase = .tripped) : evaluateEntry q = q := by
    rcases evaluateEntry_cases q with ⟨hm, -⟩ | ⟨-, h⟩
    · exact absurd (((mayQueue_iff q).1 hm).1.symm.trans hq) nofun
    · exact h
  unfold enterPlugged
  rw [checkConditions_eq, h] at *
  rw [hentry _ (by simpa using hu)]
  obtain ⟨h1, e', f', h2⟩ := TakenAs.remembered (s := u.remember e f) hst
  exact ⟨h1, e', f', h2⟩

end

/-- Settles O18: a proven pilot enters PLUGGED or trips from it, and a lost one drops the record before the phase is
judged. -/
theorem pilotProvenPlugsAndPilotLostUnplugsOrTrips : Obligations.PilotProvenPlugsAndPilotLostUnplugsOrTrips := by
  intro s hs hc
  have hfeed (h1 : s.warningActive = true) (h2 : s.auxClosed = true) : s.tru.feederHeld = true :=
    (s.calm_iff.1 hc).2 (s.feederCondition_iff.2 ⟨h1, .inr h2⟩)
  have hls (v : Bool) : (settleActive .pilot v s).started = true := hs
  refine ⟨fun hd hp => ?_, fun hd hp => ?_, fun hd => ?_⟩
  · refine TakenAs.completes_of_if (u := settleActive .pilot true s) rfl hd ?_ (.of_calm hs hc)
    exact if_neg (by simp [hls, show (settleActive .pilot true s).bsq.phase ≠ .vacant from hp])
  · intro l p
    have hlp : l.bsq.phase = .vacant := hp
    have hplug {w : State} (h : TakenAs (plugProven l) w) : CompletesAs .pilotProven s w :=
      TakenAs.completes_of_if rfl hd (if_pos (by simp [hls, show (settleActive .pilot true s).bsq.phase = .vacant from hp])) h
    have hprep : plugProven l = enterPlugged (formClamps (selectProfile l)) := rfl
    have hp' : setPhase .plugged (formClamps (selectProfile l)) = p := rfl
    have hfs : (formClamps (selectProfile l)).started = true := by
      simp only [State.started, formClamps_mode]
      exact hs
    have hlib : (formClamps (selectProfile l)).lib = l.lib := formClamps_lib _
    have htru : (formClamps (selectProfile l)).tru = s.tru := formClamps_tru _
    rw [hprep] at hplug
    generalize formClamps (selectProfile l) = x at hplug hp' hfs hlib htru
    have hpf := hp' ▸ setPhase_sequencerFrame x .plugged
    have hpt : p.tru = s.tru := by rw [← hp', setPhase_tru, htru]
    have hpp : p.bsq.phase = .plugged := by rw [← hp', setPhase_phase]
    have hpe : p.estopActive = s.estopActive := by
      rw [hpf.estopActive, State.estopActive, hlib]
      rfl
    have hpw : p.warningActive = s.warningActive := by
      rw [hpf.warningActive, State.warningActive, hlib]
      rfl
    have hpa : p.auxClosed = s.auxClosed := by
      rw [hpf.auxClosed, State.auxClosed, hlib]
      rfl
    have hps := hpf.started.trans hfs
    clear_value p
    refine ⟨fun he => ?_, fun he hh => ?_⟩
    · have hpc : p.calm = true := by
        refine p.calm_iff.2 ⟨fun hcon => ?_, fun hcon => ?_⟩
        · simp [State.estopCondition, hpe, he] at hcon
        · rw [p.feederCondition_iff, hpw, hpa, hpp] at hcon
          rw [hpt]
          exact hfeed hcon.1 (hcon.2.resolve_left nofun)
      rw [← hp'] at hpc ⊢
      exact hplug (enterPlugged_takenAs hfs hpc)
    · have htrip := tripsTaken_estop (hpe.trans he) (by simp [hpp]) (by rw [hpt]; exact hh)
        (by rw [hpw, hpa, hpt]; exact hfeed)
      rw [← hp'] at htrip ⊢
      exact hplug (enterPlugged_tripped hfs (takeCause_phase _ _) htrip)
  · intro l k v
    have hk : linkIdle l = k := linkIdle_eq l
    have hend {u w : State} (hu : pilotGone k = u) (ht : TakenAs u w) : CompletesAs .pilotLost s w := by
      refine TakenAs.completes_of_if (u := u) rfl hd ?_ ht
      rw [← hu, ← hk]
      exact if_pos (hls false)
    have hks : k.started = true := hs
    have hkc : k.calm = true := hc
    have hkp : k.bsq.phase = s.bsq.phase := rfl
    have hko : k.openConfirmed = s.openConfirmed := rfl
    have hv : setPhase .vacant k = v := rfl
    clear_value v k
    refine ⟨fun hp => ?_, fun hp => ?_, fun hp => ?_⟩
    · have hne : k.bsq.phase ≠ .vacant := by rcases hp with hp | hp <;> simp [hkp, hp]
      have hvt := setPhase_takenAs (next := .vacant) hks hkc hne nofun
      refine hend (u := dropProfile (setPhase .vacant k)) (by simp [pilotGone, hkp, hp]) ?_
      rw [← hv]
      exact .of_calm hvt.started (setPhase_calm hkc hne (next := .vacant) nofun)
    · have hnp : ¬(k.bsq.phase = .plugged ∨ k.bsq.phase = .queued) := by
        rw [hkp]
        rintro (h | h) <;> simp [h, Phase.energised, Phase.connected] at hp
      have hne : k.bsq.phase ≠ .vacant := by
        rw [hkp]
        rintro h
        simp [h, Phase.energised, Phase.connected] at hp
      refine hend (u := takeCause .pilotLost k) ?_
        (.of_calm ((takeCause_sequencerFrame k _).started.trans hks) (takeCause_calm hkc hne _))
      rw [pilotGone, if_neg hnp, hkp, hko]
      rcases hp with hp | hp
      · rw [if_pos hp]
      · rw [if_neg (by simp [hp.1, Phase.energised, Phase.connected]), if_pos (by simp [hp]),
          takeCause_of_tripped (hkp.trans hp.1)]
    · refine hend (u := k) ?_ (.of_calm hks hkc)
      rw [pilotGone, hkp, hko, if_neg, if_neg, if_neg]
      · rcases hp with hp | hp <;> simp [hp]
      · rcases hp with hp | hp <;> simp [hp, Phase.energised, Phase.connected]
      · rcases hp with hp | hp <;> simp [hp]

end Sys2Proof.Machine
end

