-- ==== Sys2Proof/Proofs/AuxChanges.lean ====
section
/-! SUPPORT. The aux closing and opening: the statements about them. -/

namespace Sys2Proof.Machine

section
variable {s : State}

/-- A line settled inactive is so whatever its kind. -/
theorem settleActive_bkaux_false (s : State) : (settleActive .bkaux false s).auxClosed = false := by
  change LineKind.activeAt _ (LineKind.levelFor _ false) = false
  cases (s.lib.settings.get .bkaux).kind <;> rfl

/-- The reset pulse has ended where it was served (R3, R4). -/
def State.pulseEnded (s : State) : State := if s.bsq.serving = some .resetPulse then releaseOpen s else s

theorem State.pulseEnded_spec (s : State) :
    SequencerFrame s s.pulseEnded ∧ s.pulseEnded.bsq.phase = s.bsq.phase ∧ s.pulseEnded.tru = s.tru := by
  unfold State.pulseEnded
  split
  · exact ⟨releaseOpen_sequencerFrame s, rfl, rfl⟩
  · exact ⟨.refl s, rfl, rfl⟩

theorem auxOpening_moving (h : s.bsq.phase = .awaitSync ∨ s.bsq.phase.connected = true) :
    auxOpening s = enterDeEnergising s.pulseEnded := by
  have hp := s.pulseEnded_spec.2.1
  unfold State.pulseEnded at hp ⊢
  rw [Phase.connected_iff] at h
  unfold auxOpening
  dsimp only
  rcases h with h | h | h | h <;> rw [hp, h]

theorem auxOpening_deEnergising (h : s.bsq.phase = .deEnergising) :
    auxOpening s = completeDeEnergise s.pulseEnded := by
  have hp := s.pulseEnded_spec.2.1
  unfold State.pulseEnded at hp ⊢
  unfold auxOpening
  dsimp only
  rw [hp, h]

theorem auxOpening_tripped (h : s.bsq.phase = .tripped) : auxOpening s = confirmOpen (releaseOpen s.pulseEnded) := by
  have hp := s.pulseEnded_spec.2.1
  unfold State.pulseEnded at hp ⊢
  unfold auxOpening
  dsimp only
  rw [hp, h]

theorem auxOpening_waiting
    (h : s.bsq.phase = .vacant ∨ s.bsq.phase = .plugged ∨ s.bsq.phase = .queued ∨ s.bsq.phase = .energising) :
    auxOpening s = s.pulseEnded := by
  have hp := s.pulseEnded_spec.2.1
  unfold State.pulseEnded at hp ⊢
  unfold auxOpening
  dsimp only
  rcases h with h | h | h | h <;> rw [hp, h]

end

/-- Settles O20: the reset pulse ends first, and then the open completes by the phase. -/
theorem auxOpeningCompletesTheOpen : Obligations.AuxOpeningCompletesTheOpen := by
  intro s hs hc hd l r release
  have hl : l.auxClosed = false := settleActive_bkaux_false s
  have hlc : l.calm = true := by
    refine State.calm_mono hc id (fun hf => ?_) rfl rfl
    obtain ⟨hw, hph⟩ := l.feederCondition_iff.1 hf
    exact s.feederCondition_iff.2 ⟨hw, .inl (hph.resolve_right (by simp [hl]))⟩
  have hr : l.pulseEnded = r := rfl
  obtain ⟨hrf, hrp, hrt⟩ := hr ▸ l.pulseEnded_spec
  have hrp' : r.bsq.phase = s.bsq.phase := hrp
  have hrs : r.started = true := hrf.started.trans hs
  have hrc : r.calm = true := State.calm_congr hlc hrf.lib hrp (by rw [hrt]) (by rw [hrt])
  have hra : r.auxClosed = false := hrf.auxClosed.trans hl
  have hrelease (u : State) : zeroClaim (releaseOpen u) = setClaim 0 0 0 (release u) := rfl
  have hend {u v : State} (hu : auxOpening l = u) (ht : TakenAs u v) : CompletesAs .auxReadsOpen s v :=
    TakenAs.completes_of_if rfl hd ((if_pos hs).trans hu) ht
  clear_value release r
  refine ⟨fun hp => ?_, fun hp => ?_, fun hp => ?_, fun hp => ?_⟩
  · have hcalm : (setPhase .plugged (zeroClaim (releaseOpen r))).calm = true := by
      refine State.calm_of_phase hrc ?_ (by simp [hrp', hp]) (by simp) (by simp [releaseOpen, stopBreaker])
        (by simp [releaseOpen, stopBreaker])
      exact (((releaseOpen_sequencerFrame r).trans (zeroClaim_sequencerFrame _)).trans (setPhase_sequencerFrame _ _)).lib
    have ht : TakenAs (completeDeEnergise r) (setPhase .plugged (zeroClaim (releaseOpen r))).entered := enterPlugged_takenAs
      (((releaseOpen_sequencerFrame r).trans (zeroClaim_sequencerFrame (releaseOpen r))).started.trans hrs) hcalm
    rw [← hrelease]
    exact hend (by rw [auxOpening_deEnergising (s := l) hp, hr]) ht
  · have hne : r.bsq.phase ≠ .vacant := by
      rw [hrp']
      rintro h
      simp [h, Phase.connected] at hp
    have hopen : r.deEnergised = (setPhase .plugged (zeroClaim (releaseOpen (setPhase .deEnergising r)))).entered := by
      unfold State.deEnergised
      dsimp only
      rw [if_neg (by simp [hra])]
      rfl
    have ht := enterDeEnergising_takenAs hrs hrc hne
    rw [hopen] at ht
    rw [← hrelease]
    exact hend (by rw [auxOpening_moving (s := l) hp, hr]) ht
  · have hf := (releaseOpen_sequencerFrame r).trans (confirmOpen_sequencerFrame _)
    have hconf : confirmOpen (releaseOpen r) = setClaim 0 0 0 (release
        { r with tru := { r.tru with record := r.tru.record.map fun x => { x with openConfirmed := true } } }) := by
      rw [← hrelease]
      rfl
    rw [← hconf]
    refine hend (by rw [auxOpening_tripped (s := l) hp, hr]) (.of_calm (hf.started.trans hrs) ?_)
    exact State.calm_congr hrc hf.lib (by simp [releaseOpen, stopBreaker])
      (by simp [releaseOpen, stopBreaker, setConfirmed]) (by simp [releaseOpen, stopBreaker, setConfirmed])
  · exact hend (by rw [auxOpening_waiting (s := l) hp, hr]) (.of_calm hrs hrc)

/-! ### The aux closing -/

section
variable {s u : State}

/-- The inrush timer takes the window of the profile in use, which at 0 zeroes transient instead (R24). -/
theorem startInrush_eq (s : State) :
    startInrush s =
      if s.profile = none then s
      else if s.figures.inrushWindow = 0 then
        setClaim s.bsq.firm s.bsq.flex 0 { s with tmb := { s.tmb with inrush := { interval := 0, left := none } } }
      else
        { s with
          tmb := { s.tmb with inrush := { interval := s.figures.inrushWindow, left := some s.figures.inrushWindow } } } := by
  rcases startInrush_cases s with ⟨hn, h⟩ | ⟨p, hp, hw, h⟩ | ⟨p, hp, hw, h⟩ <;> rw [h]
  · exact (if_pos hn).symm
  · simp [State.figures, hp, hw]
  · simp [State.figures, hp, hw, Timer.start]

/-- The state in which AWAIT_SYNC is entered, before the latest record is evaluated (R13, R24). -/
def State.awaiting (s : State) : State :=
  setPhase .awaitSync (startInrush (stopBreaker (s.mapBsq fun b => { b with bkClose := false })))

theorem State.awaiting_frame (s : State) : SequencerFrame s s.awaiting := by
  have hstop : SequencerFrame s (stopBreaker (s.mapBsq fun b => { b with bkClose := false })) := by constructor <;> rfl
  exact (hstop.trans (startInrush_sequencerFrame _)).trans (setPhase_sequencerFrame _ .awaitSync)

theorem State.awaiting_held (s : State) : s.awaiting.tru = s.tru := by
  unfold State.awaiting
  rw [setPhase_tru, startInrush_eq]
  split_ifs
  · rfl
  · exact setClaim_tru ..
  · rfl

theorem enterAwaitSync_eq (s : State) :
    enterAwaitSync s =
      if s.awaiting.vlp.link = .lost ∨ !s.awaiting.requests .shore then enterDeEnergising s.awaiting
      else if s.awaiting.vlp.held.any (·.breakerClosed) then enterParallel s.awaiting
      else s.awaiting := rfl

/-- A de-energise with the aux closed ends with the open commanded. -/
theorem enterDeEnergising_opening (hs : s.started = true) (hc : s.calm = true) (hp : s.bsq.phase ≠ .vacant)
    (ha : s.auxClosed = true) : TakenAs (enterDeEnergising s) (setPhase .deEnergising s).opening := by
  have h : s.deEnergised = (setPhase .deEnergising s).opening := if_pos ha
  rw [← h]
  exact enterDeEnergising_takenAs hs hc hp

/-- The latest record leads on from AWAIT_SYNC: the request and the link first, then the breaker (R13, R14). -/
theorem enterAwaitSync_takenAs {w : State} (hw : s.awaiting = w) (hs : s.started = true) (hc : w.calm = true)
    (ha : s.auxClosed = true) :
    (s.vlp.link = .lost ∨ s.requests .shore = false →
      TakenAs (enterAwaitSync s) (setPhase .deEnergising w).opening) ∧
    (s.vlp.link ≠ .lost → ∀ r ∈ s.vlp.held, r.request = .shore →
      TakenAs (enterAwaitSync s)
        (if r.breakerClosed then
          if r.generators = .off then setPhase .onShore (setPhase .parallel w) else setPhase .parallel w
        else w)) := by
  have hf := hw ▸ s.awaiting_frame
  have hp : w.bsq.phase = .awaitSync := hw ▸ setPhase_phase _ _
  have hv : w.bsq.phase ≠ .vacant := by simp [hp]
  have hws := hf.started.trans hs
  rw [enterAwaitSync_eq, hw, hf.requests, hf.vlp]
  refine ⟨fun h => ?_, fun hl r hr hq => ?_⟩
  · rw [if_pos (h.imp_right fun h => by simp [h])]
    exact enterDeEnergising_opening hws hc hv (hf.auxClosed.trans ha)
  · have hheld : s.vlp.held = some r := hr
    rw [if_neg (by simp [hl, State.requests, hheld, hq]), hheld, Option.any_some]
    split
    · exact enterParallel_takenAs hws hc hv (hf.vlp ▸ hheld)
    · exact .of_calm hws hc

/-- An uncommanded close outside TRIPPED starts a trip, with firm at the stuck-breaker claim. -/
theorem uncommandedClose_untripped (h : s.bsq.phase ≠ .tripped) :
    uncommandedClose s = takeCause .breakerUncommanded (setClaim s.station.stuckBreakerClaim 0 0 s) := by
  unfold uncommandedClose takeCause
  simp [h]

/-- An uncommanded close in TRIPPED joins the later causes, and the open is commanded again (R28). -/
theorem uncommandedClose_tripped (h : s.bsq.phase = .tripped) :
    uncommandedClose s =
      commandOpen (setConfirmed false
        (takeCause .breakerUncommanded (setClaim s.station.stuckBreakerClaim 0 0 s))) := by
  unfold uncommandedClose takeCause
  simp [h]

/-- With the aux closed and ESTOP taken FEEDER_LOST is taken where the warning newly stands, and nothing else. -/
theorem closed_takenAs (hs : u.started = true) (ha : u.auxClosed = true)
    (he : u.estopActive = true → u.tru.estopHeld = true) :
    (u.warningActive = false ∨ u.tru.feederHeld = true → TakenAs u u) ∧
    (u.warningActive = true → u.tru.feederHeld = false → TakenAs u (takeCause .feederLost u)) := by
  refine ⟨fun hw => .of_calm hs (u.calm_iff.2 ⟨fun h => ?_, fun h => ?_⟩), fun hw hh => ?_⟩
  · exact he (u.estopCondition_iff.1 h).1
  · exact hw.resolve_left (by simp [(u.feederCondition_iff.1 h).1])
  · exact ⟨hs, _, _, tripsTaken_feeder (u.feederCondition_iff.2 ⟨hw, .inr ha⟩) hh he⟩

/-- What the stuck-breaker claim and the cause leave of the conditions. -/
theorem uncommanded_conditions {l u : State}
    (hu : takeCause .breakerUncommanded (setClaim l.station.stuckBreakerClaim 0 0 l) = u) :
    SequencerFrame l u ∧ u.bsq.phase = .tripped ∧ u.tru.estopHeld = l.tru.estopHeld ∧
      u.tru.feederHeld = l.tru.feederHeld := by
  subst hu
  obtain ⟨he, hf⟩ := takeCause_held (setClaim l.station.stuckBreakerClaim 0 0 l) .breakerUncommanded
  rw [setClaim_tru] at he hf
  exact ⟨(setClaim_sequencerFrame l _ _ _).trans (takeCause_sequencerFrame _ _), takeCause_phase _ _, he, hf⟩

end

/-- Settles O19: the phase decides what the closed aux is, and the conditions behind trips are judged after it. -/
theorem auxClosureEndsTheCloseOrTripsTheBerth : Obligations.AuxClosureEndsTheCloseOrTripsTheBerth := by
  intro s hs hc hk hd
  have hla : (settleActive .bkaux true s).auxClosed = true := settleActive_bkaux hk true
  have hend {u v : State} (hu : auxClosure (settleActive .bkaux true s) = u) (ht : TakenAs u v) :
      CompletesAs .auxReadsClosed s v :=
    TakenAs.completes_of_if rfl hd ((if_pos hs).trans hu) ht
  obtain ⟨hestop, hfeeder⟩ := s.calm_iff.1 hc
  have hestop' (h : s.bsq.phase = .vacant → s.estopActive = false) (he : s.estopActive = true) :
      s.tru.estopHeld = true :=
    hestop (s.estopCondition_iff.2 ⟨he, fun hv => by simp [h hv] at he⟩)
  refine ⟨fun hp => ?_, fun hp hopen => ?_, fun r hr hp hconf hopen => ?_, fun hp hw => ?_⟩
  · intro l b w d p
    have hw : l.awaiting = w := by
      change setPhase .awaitSync (startInrush b) = w
      rw [startInrush_eq]
      rfl
    have hf : SequencerFrame l w := hw ▸ l.awaiting_frame
    have htru : w.tru = s.tru := hw ▸ l.awaiting_held
    have hwc : w.calm = true := by
      refine w.calm_iff.2 ⟨fun h => ?_, fun h => ?_⟩ <;> rw [htru]
      · exact hestop' (by simp [hp]) (hf.estopActive.symm.trans (w.estopCondition_iff.1 h).1)
      · exact hfeeder (s.feederCondition_iff.2
          ⟨hf.warningActive.symm.trans (w.feederCondition_iff.1 h).1, .inl hp⟩)
    have hu : auxClosure l = enterAwaitSync l := by
      unfold auxClosure
      rw [show l.bsq.phase = .energising from hp]
    have hstation : d.station = s.station := (hf.trans (setPhase_sequencerFrame w _)).station_eq
    obtain ⟨hdown, hon⟩ := enterAwaitSync_takenAs hw hs hwc hla
    refine ⟨fun h => ?_, fun h r hr hq hb => ?_, fun h r hr hq hb => ?_⟩
    · have ht := hdown h
      rw [State.opening, show (setPhase .deEnergising w).station = s.station from hstation] at ht
      exact hend hu ht
    · have ht := hon h r hr hq
      rw [if_pos hb] at ht
      exact hend hu ht
    · have ht := hon h r hr hq
      rw [if_neg (by simp [hb])] at ht
      exact hend hu ht
  · intro u
    obtain ⟨hf, hup, heh, hfh⟩ := uncommanded_conditions (l := settleActive .bkaux true s) (u := u) rfl
    have hu : auxClosure (settleActive .bkaux true s) = u := by
      have hne : (settleActive .bkaux true s).bsq.phase ≠ .tripped := by
        rintro h
        simp [show s.bsq.phase = .tripped from h] at hp
      refine Eq.trans ?_ (uncommandedClose_untripped hne)
      unfold auxClosure
      rcases hp with hp | hp | hp <;> rw [show (settleActive .bkaux true s).bsq.phase = _ from hp]
    have hus := hf.started.trans hs
    have hua := hf.auxClosed.trans hla
    have hue : u.estopActive = s.estopActive := hf.estopActive
    have huw : u.warningActive = s.warningActive := hf.warningActive
    clear_value u
    have hheld (h : s.bsq.phase = .vacant → s.estopActive = false) (he : u.estopActive = true) : u.tru.estopHeld = true :=
      heh.trans (hestop' h (hue.symm.trans he))
    refine ⟨fun ⟨hw, he⟩ => ?_, fun hw hh he => ?_, fun hw ⟨_, he⟩ hh => ?_, fun hw hfh' ⟨_, he⟩ hh => ?_⟩
    · exact hend hu ((closed_takenAs hus hua (hheld he)).1 (.inl (huw.trans hw)))
    · exact hend hu ((closed_takenAs hus hua (hheld he)).2 (huw.trans hw) (hfh.trans hh))
    · exact hend hu ⟨hus, _, _, tripsTaken_estop (hue.trans he) (by simp [hup]) (heh.trans hh) (by simp [huw, hw])⟩
    · exact hend hu
        ⟨hus, _, _, tripsTaken_both (hue.trans he) (by simp [hup]) (heh.trans hh) (huw.trans hw) hua (hfh.trans hfh')⟩
  · intro u v hh
    have hlp : (settleActive .bkaux true s).bsq.phase = .tripped := hp
    have hlo : (settleActive .bkaux true s).openConfirmed = true := by
      change s.tru.record.any (·.openConfirmed) = true
      rw [show s.tru.record = some r from hr, Option.any_some, hconf]
    obtain ⟨hf, -, heh, hfh⟩ := uncommanded_conditions (l := settleActive .bkaux true s) (u := u) rfl
    have hv : commandOpen (setConfirmed false u) = v := by
      have hstation : u.station = s.station := hf.station_eq
      change (setConfirmed false u).opening = v
      rw [State.opening, show (setConfirmed false u).station = s.station from hstation]
      rfl
    have hu : auxClosure (settleActive .bkaux true s) = v := by
      refine Eq.trans ?_ ((uncommandedClose_tripped hlp).trans hv)
      unfold auxClosure
      rw [hlp, hlo]
      rfl
    have hvs : v.started = true := hf.started.trans hs
    have hva : v.auxClosed = true := hf.auxClosed.trans hla
    have hve : v.estopActive = s.estopActive := hf.estopActive
    have hvw : v.warningActive = s.warningActive := hf.warningActive
    have hveh : v.tru.estopHeld = s.tru.estopHeld := heh
    have hvfh : v.tru.feederHeld = s.tru.feederHeld := hfh
    clear_value v u
    obtain ⟨hcalm, hfeed⟩ := closed_takenAs hvs hva
      fun he => hveh.trans (hestop' (by simp [hp]) (hve.symm.trans he))
    split
    · rename_i hw
      exact hend hu (hfeed (hvw.trans hw) (hvfh.trans hh))
    · rename_i hw
      exact hend hu (hcalm (.inl (hvw.trans (Bool.not_eq_true _ ▸ hw))))
  · have hu : auxClosure (settleActive .bkaux true s) = settleActive .bkaux true s := by
      rw [Phase.connected_iff] at hp
      unfold auxClosure
      rcases hp with hp | (hp | hp | hp) | hp | ⟨hp, ho⟩ <;>
        rw [show (settleActive .bkaux true s).bsq.phase = _ from hp]
      exact if_neg (by simp [show (settleActive .bkaux true s).openConfirmed = false from ho])
    refine hend hu (.of_calm hs ((State.calm_iff _).2 ⟨fun h => hestop h, fun h => ?_⟩))
    exact hw.resolve_left (by simp [show s.warningActive = true from ((State.feederCondition_iff _).1 h).1])

end Sys2Proof.Machine
end

