-- ==== Sys2Proof/Proofs/TableFrame.lean ====
section
/-! SUPPORT. What the sequencer, the trips, the claim and the vessel link leave of the Peer View Table, of the receive
buffer and of what the table's form is read against, in one relation with one lemma for each operation. -/

namespace Sys2Proof.Machine

/-! ### The receive buffer and the queue -/

@[simp] theorem Blc.join_rx (c : TxContent) (b : Blc) : (b.join c).rx = b.rx := by rw [Blc.join_eq]

@[simp] theorem Blc.requestAnnounce_rx (b : Blc) : b.requestAnnounce.rx = b.rx := by rw [Blc.requestAnnounce_eq]

@[simp] theorem Blc.abandonReserve_rx (b : Blc) : b.abandonReserve.rx = b.rx := by rw [Blc.abandonReserve_eq]

@[simp] theorem Blc.mapHead_rx (f : TxEntry → TxEntry) (b : Blc) : (b.mapHead f).rx = b.rx := by
  unfold Blc.mapHead
  split <;> rfl

@[simp] theorem Blc.requeueHead_rx (b : Blc) : b.requeueHead.rx = b.rx := by
  unfold Blc.requeueHead
  split <;> rfl

/-! ### Changes that leave the table -/

/-- `t` has the table, the receive buffer, the station record and CONFIG or not as `s` has them. -/
structure TableFrame (s t : State) : Prop where
  pvt : t.pvt = s.pvt
  rx : t.blc.rx = s.blc.rx
  started : t.started = s.started
  station : t.svp.station = s.svp.station

/-- What the sequencer's frame leaves, where the receive buffer is left too. -/
theorem SequencerFrame.table {s t : State} (h : SequencerFrame s t) (hr : t.blc.rx = s.blc.rx) : TableFrame s t :=
  ⟨h.pvt, hr, h.started, h.station⟩

namespace TableFrame

variable {s t u : State}

theorem refl (s : State) : TableFrame s s := ⟨rfl, rfl, rfl, rfl⟩

theorem trans (h : TableFrame s t) (k : TableFrame t u) : TableFrame s u :=
  ⟨k.pvt.trans h.pvt, k.rx.trans h.rx, k.started.trans h.started, k.station.trans h.station⟩

/-- The second of two changes first, so that it says which state the first leaves. -/
theorem after (k : TableFrame t u) (h : TableFrame s t) : TableFrame s u := h.trans k

theorem ownAddress (h : TableFrame s t) : t.ownAddress = s.ownAddress := by
  simp only [State.ownAddress, State.station, h.station]

end TableFrame

/-! ### The claim, the phase and the breaker -/

section
variable (s : State)

@[simp] theorem abandonReserve_rx : (abandonReserve s).blc.rx = s.blc.rx := by
  unfold abandonReserve
  split <;> simp [clearReserve, requestWithdraw, requestRecompute]

@[simp] theorem phaseLeft_rx (next : Phase) : (phaseLeft next s).blc.rx = s.blc.rx := by
  rcases phaseLeft_cases s next with h | h <;> simp [h]

@[simp] theorem setPhase_rx (next : Phase) : (setPhase next s).blc.rx = s.blc.rx := by
  by_cases h : next = s.bsq.phase
  · simp [setPhase, h]
  · simp [setPhase_eq next s h]

@[simp] theorem setClaim_rx (firm flex transient : Nat) : (setClaim firm flex transient s).blc.rx = s.blc.rx := by
  by_cases h : firm = s.bsq.firm ∧ flex = s.bsq.flex ∧ transient = s.bsq.transient
  · simp [setClaim, h]
  · simp [setClaim_of_ne _ _ _ s h]

@[simp] theorem zeroClaim_rx : (zeroClaim s).blc.rx = s.blc.rx := by simp [zeroClaim]

@[simp] theorem confirmOpen_rx : (confirmOpen s).blc.rx = s.blc.rx := by simp [confirmOpen, setConfirmed]

@[simp] theorem commandOpen_rx : (commandOpen s).blc.rx = s.blc.rx := rfl

@[simp] theorem commandClose_rx : (commandClose s).blc.rx = s.blc.rx := rfl

@[simp] theorem stopBreaker_rx : (stopBreaker s).blc.rx = s.blc.rx := rfl

@[simp] theorem releaseOpen_rx : (releaseOpen s).blc.rx = s.blc.rx := rfl

/-! ### Trips -/

@[simp] theorem addLater_rx (c : TripCause) : (addLater c s).blc.rx = s.blc.rx := by rw [addLater_frame]

@[simp] theorem tripping_rx : s.tripping.blc.rx = s.blc.rx := setPhase_rx s .tripped

@[simp] theorem carryOutTrip_rx (b : Bool) : (carryOutTrip b s).blc.rx = s.blc.rx := by
  rw [carryOutTrip_eq]
  split_ifs <;> simp

@[simp] theorem startTrip_rx (b : Bool) (c : TripCause) : (startTrip b c s).blc.rx = s.blc.rx := carryOutTrip_rx _ b

@[simp] theorem takeCause_rx (c : TripCause) : (takeCause c s).blc.rx = s.blc.rx := by
  unfold takeCause
  split <;> simp

@[simp] theorem checkEstop_rx : (checkEstop s).blc.rx = s.blc.rx := by
  rcases checkEstop_cases s with ⟨-, -, h⟩ | ⟨-, h⟩ <;> rw [h]
  exact takeCause_rx s _

@[simp] theorem checkFeeder_rx : (checkFeeder s).blc.rx = s.blc.rx := by
  rcases checkFeeder_cases s with ⟨-, -, h⟩ | ⟨-, h⟩ <;> rw [h]
  exact takeCause_rx s _

@[simp] theorem tripsTaken_rx : s.tripsTaken.blc.rx = s.blc.rx := by simp [State.tripsTaken]

@[simp] theorem checkConditions_rx : (checkConditions s).blc.rx = s.blc.rx := tripsTaken_rx s

/-! ### Passages between phases -/

@[simp] theorem evaluateEntry_rx : (evaluateEntry s).blc.rx = s.blc.rx := by
  rcases evaluateEntry_cases s with ⟨-, h⟩ | ⟨-, h⟩ <;> simp [h]

@[simp] theorem enterPlugged_rx : (enterPlugged s).blc.rx = s.blc.rx := by simp [enterPlugged]

@[simp] theorem completeDeEnergise_rx : (completeDeEnergise s).blc.rx = s.blc.rx := by simp [completeDeEnergise]

@[simp] theorem enterDeEnergising_rx : (enterDeEnergising s).blc.rx = s.blc.rx := by
  unfold enterDeEnergising
  dsimp only
  split <;> simp

@[simp] theorem enterParallel_rx : (enterParallel s).blc.rx = s.blc.rx := by
  unfold enterParallel
  dsimp only
  split <;> simp

@[simp] theorem startInrush_rx : (startInrush s).blc.rx = s.blc.rx := by
  rcases startInrush_cases s with ⟨-, h⟩ | ⟨p, -, -, h⟩ | ⟨p, -, -, h⟩ <;> simp [h]

@[simp] theorem enterAwaitSync_rx : (enterAwaitSync s).blc.rx = s.blc.rx := by
  unfold enterAwaitSync
  dsimp only
  split_ifs <;> simp

@[simp] theorem uncommandedClose_rx : (uncommandedClose s).blc.rx = s.blc.rx := by
  unfold uncommandedClose
  dsimp only
  split <;> simp [setConfirmed]

/-! ### The sequencer's events -/

@[simp] theorem compareVessel_rx (r : ShipRecord) : (compareVessel r s).blc.rx = s.blc.rx := by
  unfold compareVessel
  split <;> rfl

@[simp] theorem clearAbortFlags_rx (r : ShipRecord) : (clearAbortFlags r s).blc.rx = s.blc.rx := by
  unfold clearAbortFlags
  split <;> rfl

@[simp] theorem takeRequest_rx (m : Marks) (r : ShipRecord) : (takeRequest m r s).blc.rx = s.blc.rx := by
  unfold takeRequest
  split_ifs <;> simp

@[simp] theorem takeBreaker_rx (m : Marks) (r : ShipRecord) : (takeBreaker m r s).blc.rx = s.blc.rx := by
  unfold takeBreaker
  split_ifs <;> simp

@[simp] theorem takeGenerators_rx (m : Marks) (r : ShipRecord) : (takeGenerators m r s).blc.rx = s.blc.rx := by
  unfold takeGenerators
  split_ifs <;> simp

@[simp] theorem deliverRecord_rx (m : Marks) (r : ShipRecord) : (deliverRecord m r s).blc.rx = s.blc.rx := by
  unfold deliverRecord
  dsimp only
  split
  case h_2 => split <;> simp
  all_goals simp

@[simp] theorem auxClosure_rx : (auxClosure s).blc.rx = s.blc.rx := by
  unfold auxClosure
  split
  case h_5 => split <;> simp
  all_goals simp

@[simp] theorem auxOpening_rx : (auxOpening s).blc.rx = s.blc.rx := by
  have hr : (if s.bsq.serving = some .resetPulse then releaseOpen s else s).blc.rx = s.blc.rx := by
    split <;> simp
  unfold auxOpening
  dsimp only
  split <;> simp [hr]

@[simp] theorem warningChange_rx (v : Bool) : (warningChange v s).blc.rx = s.blc.rx := by
  unfold warningChange
  split_ifs <;> simp

@[simp] theorem breakerExpired_rx (c : Option BreakerCommand) : (breakerExpired c s).blc.rx = s.blc.rx := by
  unfold breakerExpired
  split
  case h_2 => dsimp only; split <;> simp
  case h_3 => dsimp only; split_ifs <;> simp
  all_goals simp

@[simp] theorem settleHold_rx : (settleHold s).blc.rx = s.blc.rx := by
  unfold settleHold
  split
  · simp [commitFlex, requestRecompute, requestAnnounce, clearReserve]
  · split
    · simp [commitEnergise, clearReserve]
    · simp [refuseEnergise, requestRecompute, requestWithdraw, clearReserve]
  · rfl

@[simp] theorem rampUp_rx : (rampUp s).blc.rx = s.blc.rx := by
  unfold rampUp
  dsimp only
  split <;> rfl

@[simp] theorem rampDown_rx : (rampDown s).blc.rx = s.blc.rx := by
  rcases rampDown_cases s with ⟨-, h⟩ | ⟨-, h⟩ <;> simp [h, requestAnnounce]

end

/-! ### Events that reach more than the sequencer -/

namespace TableFrame

theorem answer (kind : Nat) (code : ResponseCode) (data : List Byte) (s : State) :
    TableFrame s (answer kind code data s) := ⟨rfl, rfl, rfl, rfl⟩

theorem raiseAttention (r : Reason) (s : State) : TableFrame s (raiseAttention r s) := ⟨rfl, rfl, rfl, rfl⟩

theorem requestRecompute (s : State) : TableFrame s (requestRecompute s) := ⟨rfl, rfl, rfl, rfl⟩

theorem requestAnnounce (s : State) : TableFrame s (requestAnnounce s) := ⟨rfl, Blc.requestAnnounce_rx _, rfl, rfl⟩

theorem setClaim (firm flex transient : Nat) (s : State) : TableFrame s (setClaim firm flex transient s) :=
  (setClaim_sequencerFrame s _ _ _).table (setClaim_rx s _ _ _)

theorem enterPlugged (s : State) : TableFrame s (enterPlugged s) :=
  (enterPlugged_sequencerFrame s).table (enterPlugged_rx s)

theorem formClamps (s : State) : TableFrame s (formClamps s) := by
  obtain ⟨q, v, h, hv⟩ := formClamps_eq s
  have hsvp : (Machine.formClamps s).svp.mode = s.svp.mode := formClamps_mode s
  exact ⟨by rw [h], by rw [h], by simp only [State.started, hsvp], by rw [h]; exact hv⟩

theorem plugProven (s : State) : TableFrame s (plugProven s) :=
  (enterPlugged _).after ((formClamps _).after ⟨rfl, rfl, rfl, rfl⟩)

theorem leaveTripped (s : State) : TableFrame s (leaveTripped s) := by
  have ht : TableFrame s (dropProfile (s.mapTru fun u => { u with record := none })) := ⟨rfl, rfl, rfl, rfl⟩
  unfold Machine.leaveTripped
  dsimp only
  split
  · refine .trans ?_ ((formClamps _).trans (enterPlugged _))
    split
    · exact ((compareVessel_sequencerFrame _ _).table (compareVessel_rx _ _)).after (ht.trans ⟨rfl, rfl, rfl, rfl⟩)
    · exact ht.trans ⟨rfl, rfl, rfl, rfl⟩
  · exact ht.trans ((formClamps _).trans ((setPhase_sequencerFrame _ _).table (setPhase_rx _ _)))

theorem linkIdle (s : State) : TableFrame s (linkIdle s) := (formClamps _).after ⟨rfl, rfl, rfl, rfl⟩

theorem pilotGone (s : State) : TableFrame s (pilotGone s) := by
  unfold Machine.pilotGone
  split_ifs
  · exact ((setPhase_sequencerFrame s .vacant).table (setPhase_rx s .vacant)).trans ⟨rfl, rfl, rfl, rfl⟩
  · exact (takeCause_sequencerFrame s _).table (takeCause_rx s _)
  · exact (addLater_sequencerFrame s _).table (addLater_rx s _)
  · exact refl s

theorem linkHeard (s : State) : TableFrame s (linkHeard s) := by
  unfold Machine.linkHeard
  dsimp only
  split <;> constructor <;> rfl

theorem takeRecord (r : ShipRecord) (s : State) : TableFrame s (takeRecord r s) := by
  have hh : TableFrame s (Machine.formClamps ((Machine.linkHeard s).mapVlp fun v => { v with held := some r })) :=
    (formClamps _).after ((linkHeard s).trans ⟨rfl, rfl, rfl, rfl⟩)
  exact ((deliverRecord_sequencerFrame _ _ r).table (deliverRecord_rx _ _ r)).after (hh.trans ⟨rfl, rfl, rfl, rfl⟩)

theorem linkLost (s : State) : TableFrame s (linkLost s) := by
  have ht : TableFrame s ((s.mapVlp fun v => { v with link := .lost }).mapTmb
      fun b => { b with linkTimeout := b.linkTimeout.stop }) := ⟨rfl, rfl, rfl, rfl⟩
  unfold Machine.linkLost
  dsimp only
  split_ifs
  · exact ht.trans (enterPlugged _)
  · exact ht.trans ((enterDeEnergising_sequencerFrame _).table (enterDeEnergising_rx _))
  · exact ((ht.trans (setClaim _ _ _ _)).trans (requestAnnounce _)).trans ⟨rfl, rfl, rfl, rfl⟩
  · exact ht

theorem handOn (v : Bool) (a : Action) (s : State) : TableFrame s (handOn v a s) := by
  have hlast (r : LastResult) (t : State) : TableFrame t (setLast r t) := ⟨rfl, rfl, rfl, rfl⟩
  have hwant (c : ReserveClass) (n : Nat) : TableFrame s (wantReserve c n s) := by
    unfold wantReserve
    split_ifs
    · exact ⟨rfl, rfl, rfl, rfl⟩
    · exact ⟨rfl, Blc.join_rx _ _, rfl, rfl⟩
    · exact refl s
  cases a with
  | release n => exact (setClaim _ _ _ s).trans (hlast _ _)
  | cut n => exact (setClaim _ _ _ s).trans ⟨rfl, rfl, rfl, rfl⟩
  | raise n =>
    unfold Machine.handOn
    dsimp only
    split
    · exact hlast _ s
    · exact (hwant _ _).trans (hlast _ _)
  | energise n =>
    unfold Machine.handOn
    dsimp only
    split
    · exact hlast _ s
    · exact (hwant _ _).trans (hlast _ _)
  | none | cutWithheld n | energiseWait n => exact hlast _ s

theorem completeComputation (w : Working) (s : State) : TableFrame s (completeComputation w s) := by
  have hfig (g : Figures) (s : State) : TableFrame s (storeFigures g s) := by
    unfold storeFigures
    dsimp only
    split <;> constructor <;> rfl
  have hover (g : Figures) (s : State) : TableFrame s (storeOverload g s) := by
    unfold storeOverload
    dsimp only
    split_ifs
    · exact refl s
    · exact (raiseAttention _ _).after ((requestAnnounce _).after ⟨rfl, rfl, rfl, rfl⟩)
    · exact (requestAnnounce _).after ⟨rfl, rfl, rfl, rfl⟩
  unfold Machine.completeComputation
  dsimp only
  split
  · exact ⟨rfl, rfl, rfl, rfl⟩
  · exact (handOn _ _ _).after ((hover _ _).after ((hfig _ _).after ⟨rfl, rfl, rfl, rfl⟩))

theorem changeSchedule (f : Csc → Csc) (s : State) : TableFrame s (changeSchedule f s) := by
  unfold Machine.changeSchedule
  dsimp only
  split
  · exact ⟨rfl, rfl, rfl, rfl⟩
  · exact (requestAnnounce _).after ⟨rfl, rfl, rfl, rfl⟩

theorem beginAttempt (s : State) : TableFrame s (beginAttempt s) := by
  unfold Machine.beginAttempt
  split
  · exact refl s
  · dsimp only
    split <;> constructor <;> rfl

theorem collide (s : State) : TableFrame s (collide s) := by
  unfold Machine.collide
  dsimp only
  split <;> exact ⟨rfl, Blc.mapHead_rx _ _, rfl, rfl⟩

theorem releaseRefused (s : State) : TableFrame s (releaseRefused s) := by
  rw [releaseRefused_eq]
  constructor <;> rfl

theorem dropFrame (e : TxEntry) (s : State) : TableFrame s (dropFrame e s) := by
  have hdrop : (if e.refresh then s.blc.requeueHead else s.blc.dropHead).rx = s.blc.rx := by
    split
    · exact Blc.requeueHead_rx _
    · rfl
  unfold Machine.dropFrame
  dsimp only
  split
  · exact ⟨rfl, hdrop, rfl, rfl⟩
  · exact (releaseRefused _).after ⟨rfl, rfl, rfl, rfl⟩
  · exact ⟨rfl, rfl, rfl, rfl⟩

theorem collidedEnd (e : TxEntry) (s : State) : TableFrame s (collidedEnd e s) := by
  unfold Machine.collidedEnd
  dsimp only
  split_ifs
  · exact (releaseRefused _).after ⟨rfl, rfl, rfl, rfl⟩
  · exact (dropFrame e _).after ⟨rfl, rfl, rfl, rfl⟩
  · exact ⟨rfl, Blc.mapHead_rx _ _, rfl, rfl⟩

theorem ownSlotEnd (d : Bool) (e : TxEntry) (s : State) : TableFrame s (ownSlotEnd d e s) := by
  have hdrop (b : Blc) : (if e.refresh then b.requeueHead else b.dropHead).rx = b.rx := by
    split
    · exact Blc.requeueHead_rx _
    · rfl
  unfold Machine.ownSlotEnd
  dsimp only
  split
  · exact ⟨rfl, hdrop _, rfl, rfl⟩
  · refine .trans ?_ (releaseRefused _)
    split
    · unfold reserveOutcome
      split <;> constructor <;> rfl
    · constructor <;> rfl
  · exact ⟨rfl, rfl, rfl, rfl⟩

theorem takeSample (d : Nat) (s : State) : TableFrame s (takeSample d s) := by
  unfold Machine.takeSample
  dsimp only
  split <;> constructor <;> rfl

theorem lowerSettleCount (s : State) : TableFrame s (lowerSettleCount s) := by
  unfold Machine.lowerSettleCount
  dsimp only
  split_ifs <;> constructor <;> rfl

theorem tableChanged (s : State) : TableFrame s (tableChanged s) := by
  unfold Machine.tableChanged dropOnViewChange
  split
  · exact ⟨rfl, Blc.abandonReserve_rx _, rfl, rfl⟩
  · exact requestRecompute s

theorem sequencerStart (s : State) : TableFrame s (sequencerStart s) := by
  rcases sequencerStart_cases s with ⟨-, h⟩ | ⟨-, -, h⟩ | ⟨-, -, h⟩ <;> rw [h]
  · exact (uncommandedClose_sequencerFrame s).table (uncommandedClose_rx s)
  · exact plugProven s
  · exact refl s

end TableFrame

end Sys2Proof.Machine
end

