-- ==== Sys2Proof/Proofs/TableEntries.lean ====
section
/-! SUPPORT. The form of one entry of the Peer View Table, and what each change of an entry keeps of it. -/

namespace Sys2Proof.Machine

/-! ### The form of an entry, by its standing -/

/-- The ranges of what a LIVE or SILENT entry holds (R31, R66). -/
structure PeerEntry.InRanges (e : PeerEntry) : Prop where
  firm : e.firm ≤ 16383
  flex : e.flex ≤ 16383
  transient : e.transient ≤ 4095
  capacity : ∀ c ∈ e.capacity, c ≤ 60000
  phaseCode : ∀ p ∈ e.phaseCode, p ≤ 9
  periodIndex : ∀ i ∈ e.periodIndex, i ≤ 15
  reserved : ∀ r ∈ e.reserved, r.age ≤ 2 ∧ r.amount ≤ 16383

theorem PeerEntry.known_iff (e : PeerEntry) : e.known = true ↔ e.standing = .live ∨ e.standing = .silent := by
  simp [PeerEntry.known]

theorem PeerEntry.not_own_of_known {e : PeerEntry} (h : e.known = true) : e.standing ≠ .own := by
  rcases e.known_iff.1 h with h | h <;> simp [h]

/-- What is neither EMPTY nor the own entry is a peer's. -/
theorem PeerEntry.known_of_ne (e : PeerEntry) (he : e.standing ≠ .empty) (ho : e.standing ≠ .own) :
    e.known = true := by
  cases hs : e.standing <;> simp_all [PeerEntry.known]

theorem PeerEntry.inRanges_blank : PeerEntry.blank.InRanges := by constructor <;> simp [PeerEntry.blank]

section
variable {e : PeerEntry}

theorem EntryForm.inRanges (h : EntryForm e) (hk : e.known = true) : e.InRanges := by
  obtain ⟨-, -, -, -, hr⟩ := h
  obtain ⟨h1, h2, h3, h4, h5, h6, h7⟩ := hr (e.known_iff.1 hk)
  exact ⟨h1, h2, h3, h4, h5, h6, h7⟩

/-- The ranges are about the figures and the reserved field alone. -/
theorem PeerEntry.InRanges.withReserved (h : e.InRanges) {rs : Option Reserved}
    (hr : ∀ r ∈ rs, r.age ≤ 2 ∧ r.amount ≤ 16383) {st : Standing} {hd ch : Bool} {m a n : Nat} :
    PeerEntry.InRanges { e with standing := st, reserved := rs, heard := hd, changed := ch, missed := m,
                                silentAge := a, silentElapsed := n } :=
  ⟨h.firm, h.flex, h.transient, h.capacity, h.phaseCode, h.periodIndex, hr⟩

/-- So no mark and no count reaches them. -/
theorem PeerEntry.InRanges.withCounts (h : e.InRanges) {st : Standing} {hd ch : Bool} {m a n : Nat} :
    PeerEntry.InRanges { e with standing := st, heard := hd, changed := ch, missed := m, silentAge := a,
                                silentElapsed := n } := h.withReserved h.reserved

theorem PeerEntry.InRanges.entryForm_live (h : e.InRanges) (hs : e.standing = .live) (hm : e.missed ≤ 2)
    (ha : e.silentAge = 0) : EntryForm e :=
  ⟨by simp [hs], by simp [hs], fun _ => ⟨hm, ha⟩, by simp [hs],
    fun _ => ⟨h.firm, h.flex, h.transient, h.capacity, h.phaseCode, h.periodIndex, h.reserved⟩⟩

theorem PeerEntry.InRanges.entryForm_silent (h : e.InRanges) (hs : e.standing = .silent) (hm : e.missed = 3) :
    EntryForm e :=
  ⟨by simp [hs], by simp [hs], by simp [hs], fun _ => hm,
    fun _ => ⟨h.firm, h.flex, h.transient, h.capacity, h.phaseCode, h.periodIndex, h.reserved⟩⟩

/-- A known entry whose ranges hold keeps its form with the same standing and counts. -/
theorem EntryForm.of_known (h : EntryForm e) (hk : e.known = true) {x : PeerEntry} (hs : x.standing = e.standing)
    (hm : x.missed = e.missed) (ha : x.silentAge = e.silentAge) (hr : x.InRanges) : EntryForm x := by
  obtain ⟨-, -, hlive, hsilent, -⟩ := h
  rcases e.known_iff.1 hk with hl | hl
  · exact hr.entryForm_live (hs.trans hl) (hm ▸ (hlive hl).1) (ha ▸ (hlive hl).2)
  · exact hr.entryForm_silent (hs.trans hl) (hm ▸ hsilent hl)

theorem entryForm_own (hs : e.standing = .own)
    (h : e.heard = false ∧ e.changed = false ∧ e.missed = 0 ∧ e.silentAge = 0 ∧ e.reserved = none) : EntryForm e :=
  ⟨by simp [hs], fun _ => h, by simp [hs], by simp [hs], by simp [hs]⟩

/-- An EMPTY entry is in form with its changed bit set or not. -/
theorem entryForm_empty (b : Bool) : EntryForm { PeerEntry.blank with changed := b } :=
  ⟨fun _ => rfl, nofun, nofun, nofun, fun h => by rcases h with h | h <;> exact absurd h nofun⟩

/-! ### Frames heard -/

/-- An ANNOUNCE within its ranges gives a LIVE entry within them. -/
theorem takeAnnounce_form (e : PeerEntry) {a : Address} {f : AnnounceFields}
    (h : (Frame.announce a f).inRange = true) : EntryForm (e.takeAnnounce f) := by
  simp only [Frame.inRange, Bool.and_eq_true, decide_eq_true_eq] at h
  obtain ⟨⟨⟨⟨⟨hp, hi⟩, hf⟩, hx⟩, ht⟩, hc⟩ := h
  have hr : (e.takeAnnounce f).InRanges := by constructor <;> simp [PeerEntry.takeAnnounce, *]
  exact hr.entryForm_live rfl (Nat.zero_le _) rfl

/-- A fold-in saturates and leaves no reserved field (R67). -/
theorem PeerEntry.InRanges.fold (h : e.InRanges) : e.fold.InRanges := by
  have hnone : ∀ r ∈ (none : Option Reserved), r.age ≤ 2 ∧ r.amount ≤ 16383 := by simp
  unfold PeerEntry.fold
  split
  · exact h
  · split
    · exact ⟨h.firm, Nat.min_le_left _ _, h.transient, h.capacity, h.phaseCode, h.periodIndex, hnone⟩
    · exact ⟨Nat.min_le_left _ _, h.flex, h.transient, h.capacity, h.phaseCode, h.periodIndex, hnone⟩

/-- A fold-in leaves the standing and the counts. -/
theorem PeerEntry.fold_frame (e : PeerEntry) :
    e.fold.standing = e.standing ∧ e.fold.missed = e.missed ∧ e.fold.silentAge = e.silentAge := by
  unfold PeerEntry.fold
  split
  · exact ⟨rfl, rfl, rfl⟩
  · split <;> exact ⟨rfl, rfl, rfl⟩

/-- A quiet RESERVE within its range gives a LIVE entry within them. -/
theorem takeReserve_form (h : EntryForm e) (ho : e.standing ≠ .own) {n : Nat} (hn : n ≤ 16383) (c : ReserveClass) :
    EntryForm (e.takeReserve n c) := by
  have hbase : (if e.standing = .empty then PeerEntry.blank else e.fold).InRanges := by
    split
    · exact PeerEntry.inRanges_blank
    · exact (h.inRanges (e.known_of_ne ‹_› ho)).fold
  have hreserved : ∀ r ∈ some (⟨n, c, 0, 0⟩ : Reserved), r.age ≤ 2 ∧ r.amount ≤ 16383 := by
    rintro r ⟨⟩
    exact ⟨Nat.zero_le _, hn⟩
  exact (hbase.withReserved hreserved).entryForm_live rfl (Nat.zero_le _) rfl

/-- An entry that is only heard keeps its form. -/
theorem hear_form (h : EntryForm e) : EntryForm e.hear := by
  unfold PeerEntry.hear
  split
  · rename_i hk
    exact h.of_known hk rfl rfl rfl (h.inRanges hk).withCounts
  · exact h

theorem takeWithdraw_form (h : EntryForm e) : EntryForm e.takeWithdraw := by
  unfold PeerEntry.takeWithdraw
  split
  · rename_i hk
    exact h.of_known hk rfl rfl rfl ((h.inRanges hk).withReserved (rs := none) (by simp))
  · exact h

/-! ### Silence and age -/

/-- A silence check counts a LIVE entry up to two misses, and the third makes it SILENT (R45, R46). -/
theorem check_form (h : EntryForm e) : EntryForm e.check := by
  unfold PeerEntry.check
  split
  · rename_i hl
    have hr := h.inRanges (e.known_iff.2 (.inl hl))
    obtain ⟨-, -, hlive, -⟩ := h
    obtain ⟨hm, ha⟩ := hlive hl
    split_ifs with hh ht
    · exact hr.withCounts.entryForm_live hl (Nat.zero_le _) ha
    · exact hr.withCounts.entryForm_silent rfl rfl
    · have hm' : e.missed + 1 ≤ 2 := by simp [PeerEntry.turnsSilent, hl, hh, Config.silenceMisses] at ht; omega
      exact hr.withCounts.entryForm_live hl hm' ha
  · exact h

theorem ageStep_form (h : EntryForm e) (hs : e.standing = .silent) (n : Nat) : EntryForm (e.ageStep n) := by
  have hr := h.inRanges (e.known_iff.2 (.inr hs))
  obtain ⟨-, -, -, hsilent, -⟩ := h
  unfold PeerEntry.ageStep
  split_ifs
  · exact hr.withCounts.entryForm_silent hs (hsilent hs)
  · exact entryForm_empty true
  · exact hr.withCounts.entryForm_silent hs (hsilent hs)

/-- An ageing step makes no entry OWN. -/
theorem ageStep_not_own (ho : e.standing ≠ .own) (n : Nat) : (e.ageStep n).standing ≠ .own := by
  unfold PeerEntry.ageStep
  split_ifs
  · exact ho
  · exact nofun
  · exact ho

/-- An age step of a reserved field counts up to two, and the third folds it in (R66, R67). -/
theorem reservedStep_form (h : EntryForm e) (hk : e.known = true) {r : Reserved} (hr : e.reserved = some r) :
    EntryForm (e.reservedStep r) := by
  have hranges := h.inRanges hk
  obtain ⟨hstanding, hmissed, hage⟩ := e.fold_frame
  unfold PeerEntry.reservedStep
  split
  · exact h.of_known hk hstanding hmissed hage hranges.fold
  · rename_i hm
    have hage : r.age + 1 ≤ 2 := by simp [Reserved.matures, Config.foldAge] at hm; omega
    refine h.of_known hk rfl rfl rfl (hranges.withReserved ?_)
    rintro x ⟨⟩
    exact ⟨hage, (hranges.reserved r hr).2⟩

/-- A boundary counts and changes nothing that the form is about. -/
theorem tick_form (h : EntryForm e) : EntryForm e.tick := by
  cases hs : e.standing with
  | empty =>
    have hb : e = { PeerEntry.blank with changed := e.changed } := h.1 hs
    rw [hb]
    exact entryForm_empty e.changed
  | own =>
    obtain ⟨-, hown, -⟩ := h
    obtain ⟨hheard, hchanged, hmissed, hage, hreserved⟩ := hown hs
    exact entryForm_own hs ⟨hheard, hchanged, hmissed, hage, by simp [PeerEntry.tick, hreserved]⟩
  | live | silent =>
    have hk := e.known_iff.2 (by simp [hs])
    have hr := h.inRanges hk
    refine h.of_known hk rfl rfl rfl (hr.withReserved fun x hx => ?_)
    obtain ⟨r, hr', rfl⟩ := Option.mem_map.1 hx
    exact hr.reserved r hr'

/-- The start of a computation clears the changed bit alone (R72). -/
theorem clearChanged_form (h : EntryForm e) : EntryForm { e with changed := false } := by
  obtain ⟨hempty, hown, hlive, hsilent, hr⟩ := h
  refine ⟨fun hs => ?_, fun hs => ?_, hlive, hsilent, hr⟩
  · exact congrArg (fun x : PeerEntry => { x with changed := false }) (hempty hs)
  · obtain ⟨hheard, -, hrest⟩ := hown hs
    exact ⟨hheard, rfl, hrest⟩

/-- The own entry mirrors the announced values and stays in form (R35). -/
theorem mirrored_form (s : State) (h : EntryForm e) (ho : e.standing = .own) : EntryForm (s.mirrored e) := by
  obtain ⟨-, hown, -⟩ := h
  exact entryForm_own ho (hown ho)

end

end Sys2Proof.Machine
end

