-- ==== Sys2Proof/Proofs/TableSteps.lean ====
section
/-! SUPPORT. The form of the Peer View Table through each command, through the end of an event and through every step. -/

namespace Sys2Proof.Machine

/-! ### The whole table -/

section
variable {s t u : State}

theorem TableFrame.form (h : TableFrame s t) (hf : TableForm s) : TableForm t := by
  obtain ⟨hown, hentry, hrx⟩ := hf
  refine ⟨fun a => ?_, fun a => ?_, ?_⟩
  · rw [h.pvt, h.started, h.ownAddress]; exact hown a
  · rw [h.pvt]; exact hentry a
  · rw [h.rx]; exact hrx

/-- An entry is replaced by one in form that is OWN where it was. -/
theorem TableForm.set (h : TableForm s) {a : Address} {e : PeerEntry} (he : EntryForm e)
    (ho : e.standing = .own ↔ s.pvt[a].standing = .own) : TableForm (s.mapPvt fun v => v.set a e) := by
  obtain ⟨hown, hentry, hrx⟩ := h
  have hself : (s.mapPvt fun v => v.set a e).pvt[a] = e := getElem_set_self a e
  have hother {b : Address} (hb : b ≠ a) : (s.mapPvt fun v => v.set a e).pvt[b] = s.pvt[b] := getElem_set_ne hb e
  refine ⟨fun b => ?_, fun b => ?_, hrx⟩
  · by_cases hb : b = a
    · rw [hb, hself]; exact ho.trans (hown a)
    · rw [hother hb]; exact hown b
  · by_cases hb : b = a
    · rw [hb, hself]; exact he
    · rw [hother hb]; exact hentry b

/-- Every entry is changed to one in form that is OWN where it was. -/
theorem TableForm.map (h : TableForm s) {f : PeerEntry → PeerEntry} (hf : ∀ e, EntryForm e → EntryForm (f e))
    (ho : ∀ e, (f e).standing = .own ↔ e.standing = .own) : TableForm (s.mapPvt fun v => v.map f) := by
  obtain ⟨hown, hentry, hrx⟩ := h
  refine ⟨fun a => ?_, fun a => ?_, hrx⟩
  · simpa [ho] using hown a
  · simpa using hf _ (hentry a)

theorem TableForm.putEntry (h : TableForm s) {a : Address} {e : PeerEntry} (c : Bool) (he : EntryForm e)
    (ho : e.standing = .own ↔ s.pvt[a].standing = .own) : TableForm (putEntry a e c s) := by
  have hset := h.set he ho
  unfold Machine.putEntry
  cases c
  · exact hset
  · exact (TableFrame.tableChanged _).form hset

/-- The same for an entry that is a peer's before and after. -/
theorem TableForm.putPeer (h : TableForm s) {a : Address} {e : PeerEntry} (c : Bool) (he : EntryForm e)
    (ho : s.pvt[a].standing ≠ .own) (hn : e.standing ≠ .own) : TableForm (Machine.putEntry a e c s) :=
  h.putEntry c he ⟨fun h => absurd h hn, fun h => absurd h ho⟩

/-- The entry of another address than the own is not OWN. -/
theorem TableForm.not_own (h : TableForm s) {a : Address} (ha : a ≠ s.ownAddress) : s.pvt[a].standing ≠ .own :=
  fun ho => ha ((h.1 a).1 ho).2

/-! ### The end of an event -/

/-- An entry at the end of an event is OWN where it was. -/
theorem State.entryAfter_standing (u t : State) (a : Address) :
    (u.entryAfter t a).standing = u.pvt[a].standing := by
  unfold State.entryAfter
  dsimp only
  split_ifs <;> rfl

theorem State.entryAfter_form (t : State) {a : Address} (h : EntryForm u.pvt[a]) : EntryForm (u.entryAfter t a) := by
  have hm : EntryForm (if a = u.ownAddress ∧ u.pvt[a].standing = .own then t.mirrored u.pvt[a] else u.pvt[a]) := by
    split
    · rename_i ho
      exact mirrored_form t h ho.2
    · exact h
  unfold State.entryAfter
  dsimp only
  split
  · exact clearChanged_form hm
  · exact hm

theorem EndsAs.tableForm (h : EndsAs s u t) (hf : TableForm u) : TableForm t := by
  have hread := h.alike
  obtain ⟨-, hpvt, -, -, -, -, hblc, -⟩ := h
  obtain ⟨hown, hentry, hrx⟩ := hf
  refine ⟨fun a => ?_, fun a => ?_, ?_⟩
  · rw [hpvt a, State.entryAfter_standing, hread.started, hread.ownAddress]
    exact hown a
  · rw [hpvt a]
    exact State.entryAfter_form t (hentry a)
  · have hkept : t.blc.rx = u.blc.rx := by rw [hblc]; split <;> rfl
    rw [hkept]
    exact hrx

theorem tripsTaken_tableFrame (s : State) : TableFrame s s.tripsTaken :=
  (tripsTaken_sequencerFrame s).table (tripsTaken_rx s)

/-- The end of every event keeps the table in form. -/
theorem settle_tableForm (before : State) (h : TableForm u) : TableForm (settle before u) := by
  by_cases hs : u.started = true
  · exact (settle_ends u before hs).tableForm ((tripsTaken_tableFrame u).form h)
  · rw [settle_config before u (by simpa using hs)]
    exact h

/-! ### What a command leads to -/

theorem TableForm.of_next (he : Host.Outcome.next u = (.next t : Host.Outcome State Fault Refusal))
    (h : TableForm u) : TableForm t := Host.Outcome.next.inj he ▸ h

section
variable (h : TableForm s)
include h

theorem TableForm.of_eventIf {c : Bool} {f : State → State} (he : eventIf c f s = .next t)
    (hf : c = true → TableForm (f s)) : TableForm t := by
  rcases eventIf_cases he with ⟨-, rfl⟩ | ⟨hc, rfl⟩
  · exact h
  · exact settle_tableForm s (hf hc)

/-- An event that leaves the table. -/
theorem TableForm.of_frame {c : Bool} {f : State → State} (he : eventIf c f s = .next t)
    (hf : TableFrame s (f s)) : TableForm t := h.of_eventIf he fun _ => hf.form h

theorem TableForm.of_event {f : State → State} (he : event f s = .next t) (hf : TableForm (f s)) : TableForm t :=
  h.of_eventIf (c := true) he fun _ => hf

/-- A change under a condition, with no event's end after it, that leaves the table. -/
theorem TableForm.of_if {c : Prop} [Decidable c]
    (he : (if c then .next u else .next s) = (.next t : Host.Outcome State Fault Refusal)) (hu : TableFrame s u) :
    TableForm t := by
  split at he
  · exact .of_next he (hu.form h)
  · exact .of_next he h

theorem TableForm.of_refuse {kind : Nat} {code : ResponseCode} (he : refuse kind code s = .next t) : TableForm t :=
  .of_next he ((TableFrame.answer _ _ _ _).form h)

theorem TableForm.closeSlot : TableForm (closeSlot s) := by
  obtain ⟨hown, hentry, -⟩ := h
  exact ⟨hown, hentry, nofun⟩

theorem TableForm.openSlot (d : Bool) {rx : Option RxFrame} (hrx : ∀ r ∈ rx, r.frame.inRange = true) :
    TableForm (openSlot d rx s) := by
  obtain ⟨hown, hentry, -⟩ := h
  exact ⟨hown, hentry, hrx⟩

/-! ### The time base and the service port -/

theorem TableForm.countBoundary : TableForm (countBoundary s) := by
  have htick : TableForm (s.mapPvt fun v => v.map PeerEntry.tick) := h.map (fun _ => tick_form) fun _ => Iff.rfl
  exact TableFrame.form ⟨rfl, rfl, rfl, rfl⟩ htick

theorem execLineInitialSettle_tableForm (levels : PerLine Bool) (he : execLineInitialSettle levels s = .next t) :
    TableForm t := by
  unfold execLineInitialSettle at he
  split at he
  · exact .of_next he (TableFrame.form ⟨rfl, rfl, rfl, rfl⟩ h.countBoundary)
  · exact .of_next he h

theorem execLineSampling_tableForm (levels : PerLine Bool) (he : execLineSampling levels s = .next t) :
    TableForm t := by
  unfold execLineSampling at he
  split at he
  · exact .of_next he h
  · exact .of_next he (TableFrame.form ⟨rfl, rfl, rfl, rfl⟩ h.countBoundary)

/-- A station record is taken in CONFIG, where no entry is OWN. -/
theorem execLoadStation_tableForm (r : StationRecord) (he : execLoadStation r s = .next t) : TableForm t := by
  obtain ⟨hown, hentry, hrx⟩ := id h
  unfold execLoadStation at he
  split_ifs at he with hs
  · exact h.of_refuse he
  · refine .of_next he ⟨fun a => ?_, hentry, hrx⟩
    have hcfg : (answer 1 .accepted []
      (applySettings (settingsOf r) (s.mapSvp fun v => { v with station := some r }))).started = s.started := rfl
    rw [hcfg]
    exact ⟨fun ho => absurd ((hown a).1 ho).1 hs, fun ho => absurd ho.1 hs⟩
  · exact h.of_refuse he

theorem execLoadProfile_tableForm (p : ProfileArgs) (he : execLoadProfile p s = .next t) : TableForm t := by
  unfold execLoadProfile at he
  split_ifs at he
  · exact h.of_refuse he
  · exact .of_next he (TableFrame.form ⟨rfl, rfl, rfl, rfl⟩ h)
  · exact h.of_refuse he

theorem execLoadPeriod_tableForm (i k e : Nat) (he : execLoadPeriod i k e s = .next t) : TableForm t := by
  unfold execLoadPeriod at he
  dsimp only at he
  split at he
  · exact h.of_refuse he
  · split at he
    · refine .of_next he ?_
      split <;> exact TableFrame.form ⟨rfl, rfl, rfl, rfl⟩ h
    · exact h.of_refuse he

theorem execSetScheduleMode_tableForm (m : Nat) (he : execSetScheduleMode m s = .next t) : TableForm t := by
  unfold execSetScheduleMode at he
  split at he
  · exact h.of_refuse he
  · split at he
    · exact .of_next he (TableFrame.form ⟨rfl, rfl, rfl, rfl⟩ h)
    · exact h.of_refuse he

theorem execLatch_tableForm (he : execLatch s = .next t) : TableForm t := by
  unfold execLatch at he
  split at he
  · exact h.of_refuse he
  · exact .of_next he (TableFrame.form ⟨rfl, rfl, rfl, rfl⟩ h)

theorem execReadSnapshot_tableForm (he : execReadSnapshot s = .next t) : TableForm t := by
  unfold execReadSnapshot at he
  split at he
  · exact .of_next he (TableFrame.form ⟨rfl, rfl, rfl, rfl⟩ h)
  · exact h.of_refuse he

theorem execReadPeer_tableForm (a : Nat) (he : execReadPeer a s = .next t) : TableForm t := by
  unfold execReadPeer at he
  split at he
  · exact .of_next he ((TableFrame.answer _ _ _ _).form h)
  · exact h.of_refuse he

theorem execClearTrip_tableForm (he : execClearTrip s = .next t) : TableForm t := by
  unfold execClearTrip at he
  split_ifs at he
  · exact h.of_refuse he
  · exact h.of_refuse he
  · exact h.of_event he (((TableFrame.leaveTripped s).trans (.answer _ _ _ _)).form h)
  · exact h.of_refuse he

theorem execForgetPeer_tableForm (a : Nat) (he : execForgetPeer a s = .next t) : TableForm t := by
  unfold execForgetPeer at he
  split at he
  · exact h.of_refuse he
  · split at he
    · split at he
      · rename_i hknown
        have hput := h.putPeer true (entryForm_empty true) (PeerEntry.not_own_of_known hknown) nofun
        exact h.of_event he ((TableFrame.answer _ _ _ _).form hput)
      · exact h.of_refuse he
    · exact h.of_refuse he

theorem execBerthHold_tableForm (v : Nat) (he : execBerthHold v s = .next t) : TableForm t := by
  unfold execBerthHold at he
  split at he
  · exact h.of_refuse he
  · split at he
    · split at he
      · exact h.of_refuse he
      · refine h.of_event he (((TableFrame.answer _ _ _ _).after ?_).form h)
        exact ((evaluateEntry_sequencerFrame _).table (evaluateEntry_rx _)).after ⟨rfl, rfl, rfl, rfl⟩
    · exact h.of_refuse he

theorem execProbe_tableForm (w : Nat) (he : execProbe w s = .next t) : TableForm t := by
  unfold execProbe at he
  split_ifs at he
  · exact h.of_refuse he
  · exact .of_next he ((TableFrame.answer _ _ _ _).form h)
  · exact h.of_refuse he

/-! ### The lines -/

/-- A line settles and, in LISTEN and RUN, something follows that leaves the table. -/
theorem TableForm.of_line {c b : Bool} {f : State → State} {l : Line} {v : Bool} {g : State → State}
    (he : eventIf c f s = .next t) (hu : f s = if b then g (settleLine l v s) else settleLine l v s)
    (hg : ∀ x, TableFrame x (g x)) : TableForm t := by
  refine h.of_frame he ?_
  have hl : TableFrame s (settleLine l v s) := ⟨rfl, rfl, rfl, rfl⟩
  rw [hu]
  split
  · exact hl.trans (hg _)
  · exact hl

theorem execTariffSelectChange_tableForm (n : Fin 4) (v : Bool) (he : execTariffSelectChange n v s = .next t) :
    TableForm t := by
  have hq : TableFrame s (qualifySelects (settleActive (.tsel n) v s)) := by
    rw [qualifySelects_frame]
    exact ⟨rfl, rfl, rfl, rfl⟩
  refine h.of_frame he ?_
  dsimp only
  split
  · exact hq.trans (.changeSchedule _ _)
  · exact hq

/-! ### The vessel link and the ports -/

theorem execShipStatusRecord_tableForm (levels : List Level) (he : execShipStatusRecord levels s = .next t) :
    TableForm t := by
  unfold execShipStatusRecord at he
  split at he
  · exact h.of_frame he (.takeRecord _ s)
  · exact .of_next he h

theorem execReferenceWordEnd_tableForm (he : execReferenceWordEnd s = .next t) : TableForm t := by
  unfold execReferenceWordEnd at he
  split at he
  · exact .of_next he h
  · refine .of_next he ?_
    split <;> exact TableFrame.form ⟨rfl, rfl, rfl, rfl⟩ h

theorem execStatusRecordGapEnd_tableForm (he : execStatusRecordGapEnd s = .next t) : TableForm t := by
  unfold execStatusRecordGapEnd at he
  split at he
  · refine .of_next he ?_
    split <;> exact TableFrame.form ⟨rfl, rfl, rfl, rfl⟩ h
  · exact .of_next he h

end

/-! ### The berth link -/

/-- The high half of a byte is at most 15. -/
theorem byte_high_le (b : Byte) : b.toNat / 16 ≤ 15 := by
  have := b.isLt
  omega

/-- A frame that is parsed lies in its ranges (R130, R189). -/
theorem parseBody_inRange {bs : List Byte} {f : Frame} (h : parseBody bs = some f) : f.inRange = true := by
  unfold parseBody at h
  split at h
  · split_ifs at h
    exact Option.some.inj h ▸ rfl
  · split_ifs at h with hr
    · exact Option.some.inj h ▸ decide_eq_true hr.2
    · exact Option.some.inj h ▸ decide_eq_true hr.2
  · split_ifs at h with hr
    obtain ⟨-, hp, hf, hx, ht, hc⟩ := hr
    rw [← Option.some.inj h]
    simp only [Frame.inRange, Bool.and_eq_true, decide_eq_true_eq]
    exact ⟨⟨⟨⟨⟨hp, byte_high_le _⟩, hf⟩, hx⟩, ht⟩, hc⟩
  · exact absurd h nofun

theorem judge_inRange {rx : Reception} {f : Frame} (h : judge rx = .good f) : f.inRange = true := by
  unfold judge at h
  split at h
  · exact absurd h nofun
  · split at h
    · rename_i g hg
      exact Judged.good.inj h ▸ parseBody_inRange hg
    · exact absurd h nofun

theorem conflictFound_tableFrame (s : State) : TableFrame s (conflictFound s) := by
  rw [conflictFound_frame]
  constructor <;> rfl

section
variable (h : TableForm s)
include h

/-- Of a transmission's end only a frame within its ranges enters the buffer. -/
theorem TableForm.takeTransmission {j : Judged} (hj : ∀ f, j = .good f → f.inRange = true) :
    TableForm (takeTransmission j s) := by
  cases j with
  | failed => exact h.openSlot _ nofun
  | discarded => exact h.openSlot _ nofun
  | good f =>
    have hclosed := h.openSlot false (rx := none) nofun
    unfold Machine.takeTransmission
    dsimp only
    split_ifs
    · exact hclosed
    · exact (conflictFound_tableFrame _).form hclosed
    · exact h.openSlot _ fun r hr => by obtain rfl := Option.mem_some_iff.1 hr; exact hj f rfl

/-- The frame of a slot that ends lies in its ranges. -/
theorem TableForm.slotFrame {r : RxFrame} (hr : s.blc.slotFrame = some r) : r.frame.inRange = true := by
  obtain ⟨-, -, hrx⟩ := h
  exact hrx r ((Blc.slotFrame_eq_some _ _).1 hr).2

theorem execAnnounceReceived_tableForm (he : execAnnounceReceived s = .next t) : TableForm t := by
  unfold execAnnounceReceived at he
  split at he
  · rename_i hslot
    refine h.of_event he ?_
    split
    · rename_i hon
      exact h.closeSlot.putPeer _ (takeAnnounce_form _ (h.slotFrame hslot)) (h.not_own (handsOn_peer hon)) nofun
    · exact h.closeSlot
  · exact .of_next he h

theorem execReserveReceived_tableForm (levels : SlotLevels) (he : execReserveReceived levels s = .next t) :
    TableForm t := by
  unfold execReserveReceived at he
  split at he
  · rename_i a n c _ hslot
    refine h.of_event he ?_
    split
    · rename_i hon
      have hpeer := h.not_own (handsOn_peer hon)
      have hform := h.2.1 a
      unfold takeReserve
      split
      · refine h.closeSlot.putEntry _ (hear_form hform) ?_
        unfold PeerEntry.hear
        split <;> exact Iff.rfl
      · have hn : n ≤ 16383 := of_decide_eq_true (h.slotFrame hslot)
        exact h.closeSlot.putPeer _ (takeReserve_form hform hpeer hn c) hpeer nofun
    · exact h.closeSlot
  · exact .of_next he h

theorem execWithdrawReceived_tableForm (he : execWithdrawReceived s = .next t) : TableForm t := by
  unfold execWithdrawReceived at he
  split at he
  · refine h.of_event he ?_
    split
    · refine h.closeSlot.putEntry _ (takeWithdraw_form (h.2.1 _)) ?_
      unfold PeerEntry.takeWithdraw
      split <;> exact Iff.rfl
    · exact h.closeSlot
  · exact .of_next he h

theorem execCollidedTransmissionEnd_tableForm (he : execCollidedTransmissionEnd s = .next t) : TableForm t := by
  unfold execCollidedTransmissionEnd at he
  split at he
  · exact h.of_frame he (.collidedEnd _ s)
  · exact .of_next he h

theorem execOwnSlotEnd_tableForm (levels : SlotLevels) (he : execOwnSlotEnd levels s = .next t) : TableForm t := by
  unfold execOwnSlotEnd at he
  split at he
  · exact h.of_event he ((TableFrame.ownSlotEnd _ _ s).form h)
  · exact .of_next he h

theorem TableForm.driven : TableForm (s.mapBlc Blc.driven) := by
  have hrx : s.blc.driven.rx = s.blc.rx := by rw [Blc.driven_frame]
  exact TableFrame.form (s := s) ⟨rfl, hrx, rfl, rfl⟩ h

theorem TableForm.bitTime : TableForm (bitTime s) := by
  have hrx : s.blc.bitTime.rx = s.blc.rx := by rw [Blc.bitTime_frame]
  exact TableFrame.form (s := s) ⟨rfl, hrx, rfl, rfl⟩ h

/-! ### Silence and age -/

theorem TableForm.silenceCheck : TableForm (silenceCheck s) := by
  have hcheck : TableForm (s.mapPvt fun v => v.map PeerEntry.check) := h.map (fun _ => check_form) fun e => by
    unfold PeerEntry.check
    split_ifs <;> simp_all
  unfold Machine.silenceCheck
  dsimp only
  split
  · exact (TableFrame.tableChanged _).form hcheck
  · exact hcheck

theorem execSilentAgeingStep_tableForm (a : Address) (he : execSilentAgeingStep a s = .next t) : TableForm t := by
  refine h.of_eventIf he fun hc => ?_
  have hsilent : s.pvt[a].standing = .silent := by simp_all
  have hpeer := PeerEntry.not_own_of_known ((PeerEntry.known_iff _).2 (.inr hsilent))
  exact h.putPeer _ (ageStep_form (h.2.1 a) hsilent _) hpeer (ageStep_not_own hpeer _)

theorem execReservedFieldAgeStep_tableForm (a : Address) (he : execReservedFieldAgeStep a s = .next t) :
    TableForm t := by
  unfold execReservedFieldAgeStep at he
  split at he
  · rename_i r hr
    refine h.of_eventIf he fun hc => ?_
    have hknown : s.pvt[a].known = true := by simp_all
    have hpeer := PeerEntry.not_own_of_known hknown
    refine h.putPeer _ (reservedStep_form (h.2.1 a) hknown hr) hpeer ?_
    unfold PeerEntry.reservedStep
    split
    · rw [(PeerEntry.fold_frame _).1]
      exact hpeer
    · exact hpeer
  · exact .of_next he h

theorem execComputationComplete_tableForm (he : execComputationComplete s = .next t) : TableForm t := by
  unfold execComputationComplete at he
  split at he
  · exact h.of_event he ((TableFrame.completeComputation _ s).form h)
  · exact .of_next he h

/-! ### Reset, START and every step -/

/-- The listen timer stops in CONFIG, so that its expiry finds the station started. -/
theorem execListenExpiry_tableForm (hq : ConfigQuiet s) (he : execListenExpiry s = .next t) : TableForm t := by
  refine h.of_eventIf he fun hdue => ?_
  have hs : s.started = true := by
    by_contra hs
    have hc : InConfig s := (configQuiet_iff s).1 hq (by simpa [State.started] using hs)
    obtain ⟨-, hlisten, -⟩ := hc.timers_stopped
    simp [hlisten] at hdue
  refine TableFrame.form (.after ((evaluateEntry_sequencerFrame _).table (evaluateEntry_rx _)) ?_) h
  exact ⟨rfl, Blc.requestAnnounce_rx _, hs.symm, rfl⟩

end

/-- In CONFIG the table is in form where the receive buffer is. -/
theorem InConfig.tableForm (h : InConfig s) (hr : ∀ r ∈ s.blc.rx, r.frame.inRange = true) : TableForm s := by
  refine ⟨fun a => ?_, fun a => ?_, hr⟩
  · rw [h.entry, h.started]
    exact ⟨nofun, nofun⟩
  · rw [h.entry]
    exact entryForm_empty false

/-- At START the own entry becomes OWN in a table that is otherwise empty (R33, R34). -/
theorem InConfig.listening_tableForm (h : InConfig s) (hr : ∀ r ∈ s.blc.rx, r.frame.inRange = true) :
    TableForm s.listening := by
  have hself : s.listening.pvt[s.ownAddress] = { s.ownEntry with standing := .own } := getElem_set_self _ _
  have hother {a : Address} (ha : a ≠ s.ownAddress) : s.listening.pvt[a] = s.pvt[a] := getElem_set_ne ha _
  have hrx : s.listening.blc.rx = s.blc.rx := Blc.requestAnnounce_rx _
  have hown : s.ownEntry = PeerEntry.blank := h.entry _
  refine ⟨fun a => ?_, fun a => ?_, by rw [hrx]; exact hr⟩
  · change _ ↔ true = true ∧ a = s.ownAddress
    by_cases ha : a = s.ownAddress
    · rw [ha, hself]; exact ⟨fun _ => ⟨rfl, rfl⟩, fun _ => rfl⟩
    · rw [hother ha, h.entry]; exact ⟨nofun, fun h => absurd h.2 ha⟩
  · by_cases ha : a = s.ownAddress
    · rw [ha, hself, hown]; exact entryForm_own rfl ⟨rfl, rfl, rfl, rfl, rfl⟩
    · rw [hother ha, h.entry]; exact entryForm_empty false

theorem execStart_tableForm (h : TableForm s) (hq : ConfigQuiet s) (he : execStart s = .next t) : TableForm t := by
  rcases execStart_cases he with ⟨code, rfl⟩ | ⟨hs, -, rfl⟩
  · exact (TableFrame.answer _ _ _ _).form h
  · have hc : InConfig s := (configQuiet_iff s).1 hq (by simpa [State.started] using hs)
    have hl := hc.listening_tableForm h.2.2
    exact settle_tableForm s (((TableFrame.sequencerStart _).trans (.answer _ _ _ _)).form hl)

/-- Every command keeps the table in form. -/
theorem exec_tableForm {c : Instr} (h : TableForm s) (hq : ConfigQuiet s) (he : exec c s = .next t) : TableForm t := by
  cases c with
  | reset => exact .of_next he ((reset_inConfig s.pending s.freeCount).tableForm nofun)
  | lineInitialSettle levels => exact execLineInitialSettle_tableForm h levels he
  | loadStation r => exact execLoadStation_tableForm h r he
  | loadProfile p => exact execLoadProfile_tableForm h p he
  | loadPeriod i k e => exact execLoadPeriod_tableForm h i k e he
  | setScheduleMode m => exact execSetScheduleMode_tableForm h m he
  | start => exact execStart_tableForm h hq he
  | readStatus => exact .of_next he (TableFrame.form ⟨rfl, rfl, rfl, rfl⟩ h)
  | latch => exact execLatch_tableForm h he
  | readSnapshot => exact execReadSnapshot_tableForm h he
  | readPeer a => exact execReadPeer_tableForm h a he
  | clearTrip => exact execClearTrip_tableForm h he
  | forgetPeer a => exact execForgetPeer_tableForm h a he
  | berthHold v => exact execBerthHold_tableForm h v he
  | probe w => exact execProbe_tableForm h w he
  | transactionNotTaken bytes => exact .of_next he h
  | pilotProven => exact h.of_line he rfl .plugProven
  | pilotLost => exact h.of_line he rfl fun x => (TableFrame.linkIdle x).trans (.pilotGone _)
  | auxReadsClosed => exact h.of_line he rfl fun x => (auxClosure_sequencerFrame x).table (auxClosure_rx x)
  | auxReadsOpen => exact h.of_line he rfl fun x => (auxOpening_sequencerFrame x).table (auxOpening_rx x)
  | estopChange v => exact h.of_frame he ⟨rfl, rfl, rfl, rfl⟩
  | feederWarningChange v =>
    exact h.of_line he rfl fun x => (warningChange_sequencerFrame x v).table (warningChange_rx x v)
  | plugCodeLineChange n v => exact h.of_if he ⟨rfl, rfl, rfl, rfl⟩
  | tariffAdvance => exact h.of_line he rfl (.changeSchedule _)
  | tariffRestart => exact h.of_line he rfl (.changeSchedule _)
  | tariffSelectChange n v => exact execTariffSelectChange_tableForm h n v he
  | edgeLineSettled l => exact h.of_if he ⟨rfl, rfl, rfl, rfl⟩
  | shipStatusRecord levels => exact execShipStatusRecord_tableForm h levels he
  | meterSample bits => exact h.of_frame he (.takeSample _ s)
  | receivedTransmissionEnd levels =>
    exact h.of_eventIf he fun _ => h.takeTransmission fun _ => judge_inRange
  | announceReceived => exact execAnnounceReceived_tableForm h he
  | reserveReceived levels => exact execReserveReceived_tableForm h levels he
  | withdrawReceived => exact execWithdrawReceived_tableForm h he
  | attemptStart => exact h.of_frame he (.beginAttempt s)
  | collision => exact h.of_frame he (.collide s)
  | collidedTransmissionEnd => exact execCollidedTransmissionEnd_tableForm h he
  | ownSlotEnd levels => exact execOwnSlotEnd_tableForm h levels he
  | announceTimerExpiry =>
    refine h.of_eventIf he fun _ => (TableFrame.lowerSettleCount _).form (TableForm.silenceCheck ?_)
    exact ((TableFrame.requestAnnounce _).after ⟨rfl, rfl, rfl, rfl⟩).form h
  | listenExpiry => exact execListenExpiry_tableForm h hq he
  | holdExpiry =>
    exact h.of_frame he (((settleHold_sequencerFrame _).table (settleHold_rx _)).after ⟨rfl, rfl, rfl, rfl⟩)
  | reserveBackoffExpiry => exact h.of_frame he ⟨rfl, rfl, rfl, rfl⟩
  | breakerTimerExpiry =>
    exact h.of_frame he
      (((breakerExpired_sequencerFrame _ _).table (breakerExpired_rx _ _)).after ⟨rfl, rfl, rfl, rfl⟩)
  | inrushExpiry => exact h.of_frame he ((TableFrame.setClaim _ _ _ _).after ⟨rfl, rfl, rfl, rfl⟩)
  | syncWindowExpiry =>
    refine h.of_frame he ?_
    dsimp only
    split
    · exact ((enterDeEnergising_sequencerFrame _).table (enterDeEnergising_rx _)).after ⟨rfl, rfl, rfl, rfl⟩
    · exact ⟨rfl, rfl, rfl, rfl⟩
  | parallelLimitExpiry =>
    refine h.of_frame he ?_
    dsimp only
    split
    · exact ((setPhase_sequencerFrame _ _).table (setPhase_rx _ _)).after ⟨rfl, rfl, rfl, rfl⟩
    · exact ⟨rfl, rfl, rfl, rfl⟩
  | rampTick =>
    refine h.of_frame he ?_
    dsimp only
    split_ifs
    · exact ((rampUp_sequencerFrame _).table (rampUp_rx _)).after ⟨rfl, rfl, rfl, rfl⟩
    · exact ((rampDown_sequencerFrame _).table (rampDown_rx _)).after ⟨rfl, rfl, rfl, rfl⟩
    · exact ⟨rfl, rfl, rfl, rfl⟩
  | vesselLinkTimeout => exact h.of_frame he (.linkLost s)
  | linkLossTripExpiry =>
    exact h.of_frame he (((takeCause_sequencerFrame _ _).table (takeCause_rx _ _)).after ⟨rfl, rfl, rfl, rfl⟩)
  | overdrawExpiry =>
    exact h.of_frame he (((takeCause_sequencerFrame _ _).table (takeCause_rx _ _)).after ⟨rfl, rfl, rfl, rfl⟩)
  | meterStaleExpiry => exact h.of_frame he ⟨rfl, rfl, rfl, rfl⟩
  | silentAgeingStep a => exact execSilentAgeingStep_tableForm h a he
  | reservedFieldAgeStep a => exact execReservedFieldAgeStep_tableForm h a he
  | computationComplete => exact execComputationComplete_tableForm h he
  | referenceWordEnd => exact execReferenceWordEnd_tableForm h he
  | statusIntervalReached => exact h.of_if he ⟨rfl, rfl, rfl, rfl⟩
  | statusRecordGapEnd => exact execStatusRecordGapEnd_tableForm h he
  | lineSampling levels => exact execLineSampling_tableForm h levels he
  | transmissionBegins => exact .of_next he h.driven
  | berthStatusRecordEnd => exact h.of_if he ⟨rfl, rfl, rfl, rfl⟩

end

/-- Settles O53: every command and every bit time keeps the table in form; the table does not read the queue of
commands. -/
theorem everyStepKeepsTheTableForm : Obligations.EveryStepKeepsTheTableForm := by
  intro s t hq h he
  unfold step at he
  split at he
  · exact .of_next he h.bitTime
  · rename_i c rest _
    exact exec_tableForm (s := { s with pending := rest }) h hq he

end Sys2Proof.Machine
end

