-- ==== Sys2Proof/Proofs/PeerCommands.lean ====
section
/-! SUPPORT. The commands about one entry of the Peer View Table: reading it, forgetting it and its ageing; what a set
changed bit brings; and the statements about them. -/

namespace Sys2Proof.Machine

/-! ### Reading an entry -/

theorem addressOperand_val (a : Address) : addressOperand a.val = some a := by simp [addressOperand]

/-- An accepted PROBE answers with the trial's amount (R90). -/
theorem execProbe_eq {s : State} {want : Nat} (hw : want ≤ 16383) (hm : s.svp.mode ≠ .config) :
    execProbe want s = .next (answer 13 .accepted (le16 (s.probeAmount want)) s) := by
  have hs : s.started = true := by simpa [State.started] using hm
  unfold execProbe
  rw [if_neg (by simp [hs])]
  exact if_pos hw

/-- With no profile in use the trial gives 0. -/
theorem probeAmount_of_none {s : State} (want : Nat) (h : s.profile = none) : s.probeAmount want = 0 := by
  simp [State.probeAmount, h]

/-- The trial's amount with a profile in use (R81, R89, R90). -/
theorem probeAmount_of_some {s : State} (want : Nat) {p : Profile} (h : s.profile = some p) :
    s.probeAmount want =
      let r := min (min (min p.maxFlex want - s.bsq.flex) s.figuresNow.h.toNat) p.raiseLimit / p.quantum * p.quantum
      if 0 < s.figuresNow.h ∧ s.bsq.flex < want ∧ p.quantum ≤ r then r else 0 := by
  simp only [State.probeAmount, h]
  rfl

/-- Settles O11: the two commands answer and do nothing else, and a transaction that is not taken does not even that. -/
theorem readPeerAndProbeOnlyAnswer : Obligations.ReadPeerAndProbeOnlyAnswer := by
  intro s
  refine ⟨fun a => ?_, rfl, rfl, fun want hw hm hp => ?_, fun want hw hm p hp => ?_, fun _ => rfl⟩
  · change execReadPeer a.val s = _
    unfold execReadPeer
    rw [addressOperand_val]
    rfl
  · change execProbe want s = _
    rw [execProbe_eq hw hm, probeAmount_of_none want hp]
    rfl
  · change execProbe want s = _
    rw [execProbe_eq hw hm, probeAmount_of_some want hp]
    rfl

/-! ### A changed bit -/

section
variable (s : State)

/-- A set changed bit takes a QUEUED reserve back to NONE and requests a recompute (R43, R54). -/
theorem tableChanged_of_queued (h : s.rsu.state = .queued) :
    tableChanged s =
      { s with
        rsu := { s.rsu with state := .none, amount := 0, cls := none }
        blc := s.blc.abandonReserve
        hre := { s.hre with request := true } } := by
  unfold tableChanged dropOnViewChange
  rw [if_pos h]
  rfl

theorem tableChanged_of_not_queued (h : s.rsu.state ≠ .queued) :
    tableChanged s = { s with hre := { s.hre with request := true } } := by
  unfold tableChanged dropOnViewChange
  rw [if_neg h]
  rfl

@[simp] theorem tableChanged_started : (tableChanged s).started = s.started := (TableFrame.tableChanged s).started

/-- A changed bit touches nothing that a trip condition reads. -/
@[simp] theorem tableChanged_calm : (tableChanged s).calm = s.calm := by
  by_cases h : s.rsu.state = .queued
  · rw [tableChanged_of_queued s h]; rfl
  · rw [tableChanged_of_not_queued s h]; rfl

/-- Replacing an entry with its changed bit set has the effects of one. -/
theorem putEntry_changed (a : Address) (e : PeerEntry) :
    putEntry a e true s = tableChanged { s with pvt := s.pvt.set a e } := rfl

@[simp] theorem putEntry_started (a : Address) (e : PeerEntry) (c : Bool) : (putEntry a e c s).started = s.started := by
  cases c
  · rfl
  · exact tableChanged_started _

@[simp] theorem putEntry_calm (a : Address) (e : PeerEntry) (c : Bool) : (putEntry a e c s).calm = s.calm := by
  cases c
  · rfl
  · exact tableChanged_calm _

end

/-! ### Forgetting and ageing -/

section
variable {s : State}

/-- An accepted FORGET_PEER empties the entry (R49, R50). -/
theorem forgetPeer_completes (hs : s.started = true) (hc : s.calm = true) {a : Address}
    (hk : s.pvt[a].standing = .live ∨ s.pvt[a].standing = .silent) :
    CompletesAs (.forgetPeer a.val) s (answer 11 .accepted [] (putEntry a PeerEntry.emptied true s)) := by
  refine completesAs_of_event s (f := fun s => answer 11 .accepted [] (putEntry a PeerEntry.emptied true s)) ?_
    ((putEntry_started _ _ _ _).trans hs) ((putEntry_calm _ _ _ _).trans hc)
  change execForgetPeer a.val s = _
  unfold execForgetPeer
  rw [if_neg (by simp [hs]), addressOperand_val]
  exact if_pos ((PeerEntry.known_iff _).2 hk)

/-- An ageing step that is due replaces the entry (R47). -/
theorem silentAgeingStep_completes (hs : s.started = true) (hc : s.calm = true) {a : Address} {u : State}
    (hsilent : s.pvt[a].standing = .silent) (hdue : 1000 ≤ s.pvt[a].silentElapsed)
    (hu : putEntry a (s.pvt[a].ageStep s.station.forgetInterval) (s.pvt[a].forgotten s.station.forgetInterval) s = u) :
    CompletesAs (.silentAgeingStep a) s u := by
  subst hu
  have hb : (s.pvt[a].standing == .silent && decide (Config.second ≤ s.pvt[a].silentElapsed)) = true := by
    rw [hsilent, Bool.and_eq_true, decide_eq_true_eq]
    exact ⟨rfl, hdue⟩
  exact completesAs_of_eventIf s rfl hb ((putEntry_started _ _ _ _).trans hs) ((putEntry_calm _ _ _ _).trans hc)

/-- An age step of a reserved field that is due replaces the entry (R66). -/
theorem reservedFieldAgeStep_completes (hs : s.started = true) (hc : s.calm = true) {a : Address} {r : Reserved}
    {u : State} (hk : s.pvt[a].standing = .live ∨ s.pvt[a].standing = .silent) (hr : s.pvt[a].reserved = some r)
    (hdue : s.station.holdWindow ≤ r.elapsed) (hu : putEntry a (s.pvt[a].reservedStep r) r.matures s = u) :
    CompletesAs (.reservedFieldAgeStep a) s u := by
  subst hu
  have hb : (s.pvt[a].known && decide (s.station.holdWindow ≤ r.elapsed)) = true := by
    rw [Bool.and_eq_true, decide_eq_true_eq]
    exact ⟨(PeerEntry.known_iff _).2 hk, hdue⟩
  refine completesAs_of_eventIf s (b := s.pvt[a].known && decide (s.station.holdWindow ≤ r.elapsed))
    (f := fun s => putEntry a (s.pvt[a].reservedStep r) r.matures s) ?_ hb
    ((putEntry_started _ _ _ _).trans hs) ((putEntry_calm _ _ _ _).trans hc)
  change execReservedFieldAgeStep a s = _
  unfold execReservedFieldAgeStep
  rw [hr]

theorem silentAgeingStep_not_due {a : Address}
    (h : ¬(s.pvt[a].standing = .silent ∧ 1000 ≤ s.pvt[a].silentElapsed)) :
    exec (.silentAgeingStep a) s = .next s := by
  refine eventIf_false s ?_ _
  rw [← Bool.not_eq_true, Bool.and_eq_true, decide_eq_true_eq, beq_iff_eq]
  exact h

theorem reservedFieldAgeStep_not_due {a : Address}
    (h : (s.pvt[a].standing ≠ .live ∧ s.pvt[a].standing ≠ .silent) ∨
      ∀ r ∈ s.pvt[a].reserved, r.elapsed < s.station.holdWindow) :
    exec (.reservedFieldAgeStep a) s = .next s := by
  change execReservedFieldAgeStep a s = _
  unfold execReservedFieldAgeStep
  split
  · rename_i r hr
    refine eventIf_false s ?_ _
    rw [← Bool.not_eq_true, Bool.and_eq_true, decide_eq_true_eq, PeerEntry.known_iff]
    rcases h with ⟨hl, hsilent⟩ | h
    · exact fun hb => hb.1.elim hl hsilent
    · exact fun hb => absurd (h r hr) (Nat.not_lt.2 hb.2)
  · rfl

end

section
variable {e : PeerEntry} {n : Nat}

/-! ### The steps of an entry, case by case -/

theorem ageStep_heard (h : e.heard = true) :
    e.ageStep n = { e with heard := false, silentAge := 0, silentElapsed := 0 } ∧ e.forgotten n = false := by
  simp [PeerEntry.ageStep, PeerEntry.forgotten, h]

theorem ageStep_older (h : e.heard = false) (ha : e.silentAge + 1 < n) :
    e.ageStep n = { e with silentAge := e.silentAge + 1, silentElapsed := 0 } ∧ e.forgotten n = false := by
  simp [PeerEntry.ageStep, PeerEntry.forgotten, h, ha]

theorem ageStep_forgotten (h : e.heard = false) (ha : n ≤ e.silentAge + 1) :
    e.ageStep n = PeerEntry.emptied ∧ e.forgotten n = true := by
  simp [PeerEntry.ageStep, PeerEntry.forgotten, h, ha]

theorem Reserved.matures_iff (r : Reserved) : r.matures = true ↔ 3 ≤ r.age + 1 := by
  simp [Reserved.matures, Config.foldAge]

theorem reservedStep_older {r : Reserved} (h : r.age + 1 < 3) :
    e.reservedStep r = { e with reserved := some { r with age := r.age + 1, elapsed := 0 } } ∧ r.matures = false := by
  have hm : r.matures = false := by rw [← Bool.not_eq_true, Reserved.matures_iff]; omega
  exact ⟨by simp [PeerEntry.reservedStep, hm], hm⟩

/-- The third age step folds the field in (R66, R67). -/
theorem reservedStep_fold {r : Reserved} (h : 3 ≤ r.age + 1) : e.reservedStep r = e.fold ∧ r.matures = true := by
  have hm : r.matures = true := r.matures_iff.2 h
  exact ⟨by simp [PeerEntry.reservedStep, hm], hm⟩

theorem fold_flexRaise {r : Reserved} (hr : e.reserved = some r) (hc : r.cls = .flexRaise) :
    e.fold = { e with flex := min 16383 (e.flex + r.amount), reserved := none, changed := true } := by
  simp [PeerEntry.fold, hr, hc, Config.maxClaim]

theorem fold_firmEnergise {r : Reserved} (hr : e.reserved = some r) (hc : r.cls = .firmEnergise) :
    e.fold = { e with firm := min 16383 (e.firm + r.amount), reserved := none, changed := true } := by
  simp [PeerEntry.fold, hr, hc, Config.maxClaim]

end

/-- Settles O24, from what a changed bit brings and the steps of an entry case by case. -/
theorem changedBitsDropAQueuedReserve : Obligations.ChangedBitsDropAQueuedReserve := by
  intro s hs hc
  refine ⟨⟨tableChanged_of_queued s, tableChanged_of_not_queued s⟩, fun a hk => forgetPeer_completes hs hc hk,
    fun a hsilent hdue => ⟨fun hh => ?_, fun hh ha => ?_, fun hh ha => ?_⟩, fun a h => silentAgeingStep_not_due h,
    fun a hk => ?_, fun a h => reservedFieldAgeStep_not_due h⟩
  · obtain ⟨hstep, hf⟩ := ageStep_heard (n := s.station.forgetInterval) hh
    exact silentAgeingStep_completes hs hc hsilent hdue (by rw [hstep, hf, putEntry_unchanged])
  · obtain ⟨hstep, hf⟩ := ageStep_older hh ha
    exact silentAgeingStep_completes hs hc hsilent hdue (by rw [hstep, hf, putEntry_unchanged])
  · obtain ⟨hstep, hf⟩ := ageStep_forgotten hh ha
    exact silentAgeingStep_completes hs hc hsilent hdue (by rw [hstep, hf, putEntry_changed]; rfl)
  · intro e r hr hdue
    refine ⟨fun hage => ?_, fun hage hcls => ?_, fun hage hcls => ?_⟩
    · obtain ⟨hstep, hm⟩ := reservedStep_older (e := e) hage
      exact reservedFieldAgeStep_completes hs hc hk hr hdue (by rw [hstep, hm, putEntry_unchanged])
    · obtain ⟨hstep, hm⟩ := reservedStep_fold (e := e) hage
      exact reservedFieldAgeStep_completes hs hc hk hr hdue
        (by rw [hstep, hm, fold_flexRaise hr hcls, putEntry_changed])
    · obtain ⟨hstep, hm⟩ := reservedStep_fold (e := e) hage
      exact reservedFieldAgeStep_completes hs hc hk hr hdue
        (by rw [hstep, hm, fold_firmEnergise hr hcls, putEntry_changed])

end Sys2Proof.Machine
end

