-- ==== Sys2Proof/Proofs/PeerFrames.lean ====
section
/-! SUPPORT. What a buffered frame does at the end of its slot; and the statement about it. -/

namespace Sys2Proof.Machine

/-- The command that hands on a frame at the end of its slot. -/
def Frame.handedOnBy (levels : SlotLevels) : Frame → Instr
  | .announce _ _  => .announceReceived
  | .reserve _ _ _ => .reserveReceived levels
  | .withdraw _    => .withdrawReceived

/-- What the table takes of a frame handed on, with its slot read as driven or not (R37 to R42). -/
def Frame.enter (driven : Bool) : Frame → State → State
  | .announce a f,  s => takeAnnounce a f s
  | .reserve a n c, s => takeReserve a n c driven s
  | .withdraw a,    s => takeWithdraw a s

/-- An entry put back as it was changes nothing. -/
theorem set_getElem_self (v : Table PeerEntry) (a : Address) : v.set a v[a] = v := by
  simp

section
variable {s : State} {levels : SlotLevels} {r : RxFrame}

/-- A frame at the end of its slot leaves the buffer, and enters the table where it is handed on (R36, R42). -/
theorem exec_handedOnBy (h : s.blc.slotFrame = some r) :
    exec (r.frame.handedOnBy levels) s = .next (settle s
      (if s.handsOn r then r.frame.enter (s.blc.driving || slotDriven levels) (closeSlot s) else closeSlot s)) := by
  obtain ⟨f, c⟩ := r
  cases f with
  | announce a f =>
    change execAnnounceReceived s = _
    unfold execAnnounceReceived
    rw [h]
    rfl
  | reserve a n k =>
    change execReserveReceived levels s = _
    unfold execReserveReceived
    rw [h]
    rfl
  | withdraw a =>
    change execWithdrawReceived s = _
    unfold execWithdrawReceived
    rw [h]
    rfl

theorem takeReserve_driven (a : Address) (n : Nat) (k : ReserveClass) (s : State) :
    takeReserve a n k true s = putEntry a s.pvt[a].hear false s := rfl

theorem takeReserve_quiet (a : Address) (n : Nat) (k : ReserveClass) (s : State) :
    takeReserve a n k false s = putEntry a (s.pvt[a].takeReserve n k) true s := rfl

/-- A frame that enters the table leaves the station started and the trip conditions as they were. -/
theorem Frame.enter_kept (f : Frame) (d : Bool) (s : State) :
    (f.enter d s).started = s.started ∧ (f.enter d s).calm = s.calm := by
  cases f with
  | announce a f => exact ⟨putEntry_started _ _ _ _, putEntry_calm _ _ _ _⟩
  | reserve a n k =>
    cases d
    · rw [Frame.enter, takeReserve_quiet]
      exact ⟨putEntry_started _ _ _ _, putEntry_calm _ _ _ _⟩
    · rw [Frame.enter, takeReserve_driven]
      exact ⟨putEntry_started _ _ _ _, putEntry_calm _ _ _ _⟩
  | withdraw a => exact ⟨putEntry_started _ _ _ _, putEntry_calm _ _ _ _⟩

theorem handsOn_iff (hs : s.started = true) :
    s.handsOn r = true ↔ r.inConfig = false ∧ r.frame.sender ≠ s.ownAddress := by
  simp [State.handsOn, hs]

/-- In LISTEN and RUN a frame of another station that was received there enters the table. -/
theorem handedOn_completes (hs : s.started = true) (hc : s.calm = true) (h : s.blc.slotFrame = some r)
    (hin : r.inConfig = false) (hpeer : r.frame.sender ≠ s.ownAddress) {u : State}
    (hu : r.frame.enter (s.blc.driving || slotDriven levels) (closeSlot s) = u) :
    CompletesAs (r.frame.handedOnBy levels) s u := by
  subst hu
  obtain ⟨hstarted, hcalm⟩ := r.frame.enter_kept (s.blc.driving || slotDriven levels) (closeSlot s)
  refine ⟨_, exec_handedOnBy h, ?_⟩
  rw [if_pos ((handsOn_iff hs).2 ⟨hin, hpeer⟩)]
  exact settle_endsAs s _ (hstarted.trans hs) (hcalm.trans hc)

/-- Any other frame leaves the buffer and does nothing. -/
theorem notHandedOn_completes (hs : s.started = true) (hc : s.calm = true) (h : s.blc.slotFrame = some r)
    (hr : r.inConfig = true ∨ r.frame.sender = s.ownAddress) :
    CompletesAs (r.frame.handedOnBy levels) s (closeSlot s) := by
  have hno : ¬s.handsOn r = true := by
    rw [handsOn_iff hs]
    rintro ⟨hin, hpeer⟩
    exact hr.elim (fun hr => by simp [hr] at hin) hpeer
  refine ⟨_, exec_handedOnBy h, ?_⟩
  rw [if_neg hno]
  exact settle_endsAs s (closeSlot s) hs hc

/-- In CONFIG a frame leaves the buffer and nothing follows (R36). -/
theorem exec_handedOnBy_config (hs : s.started = false) (h : s.blc.slotFrame = some r) :
    exec (r.frame.handedOnBy levels) s = .next (closeSlot s) := by
  have hno : ¬s.handsOn r = true := by simp [State.handsOn, hs]
  rw [exec_handedOnBy h, if_neg hno, settle_config s (closeSlot s) hs]

/-! ### The entry after each frame -/

/-- Where an ANNOUNCE tells nothing new (R39). -/
theorem announceChanges_iff (e : PeerEntry) (f : AnnounceFields) :
    e.announceChanges f = false ↔
      e.standing = .live ∧ e.firm = f.firm ∧ e.flex = f.flex ∧ e.transient = f.transient ∧
        e.capacity = some f.capacity ∧ e.listening = f.listening ∧ e.reserved = none := by
  simp [PeerEntry.announceChanges, and_assoc]

/-- An ANNOUNCE that tells nothing new leaves the changed bit as it was (R39). -/
theorem takeAnnounce_of_same {a : Address} {f : AnnounceFields} (h : s.pvt[a].announceChanges f = false) :
    takeAnnounce a f s =
      { s with pvt := s.pvt.set a { s.pvt[a].takeAnnounce f with changed := s.pvt[a].changed } } := by
  have he : s.pvt[a].takeAnnounce f = { s.pvt[a].takeAnnounce f with changed := s.pvt[a].changed } := by
    rw [PeerEntry.takeAnnounce, h, Bool.or_false]
  rw [takeAnnounce, h, putEntry_unchanged, ← he]

/-- Any other sets it (R37, R38, R43). -/
theorem takeAnnounce_of_new {a : Address} {f : AnnounceFields} (h : s.pvt[a].announceChanges f = true) :
    takeAnnounce a f s =
      tableChanged { s with pvt := s.pvt.set a { s.pvt[a].takeAnnounce f with changed := true } } := by
  have he : s.pvt[a].takeAnnounce f = { s.pvt[a].takeAnnounce f with changed := true } := by
    rw [PeerEntry.takeAnnounce, h, Bool.or_true]
  rw [takeAnnounce, h, putEntry_changed, ← he]

/-- A slot is quiet where the station does not drive it and fewer than four samples are driven (R129). -/
theorem driving_or_slotDriven_iff {d : Bool} (hl : s.blc.link = .slot d 0) :
    (s.blc.driving || slotDriven levels) = false ↔ d = false ∧ ((slotSamples levels).filter id).length < 4 := by
  have hd : s.blc.driving = d := by simp [Blc.driving, hl]
  rw [hd, Bool.or_eq_false_iff, ← Bool.not_eq_true (slotDriven levels), slotDriven_iff, Nat.not_le]

/-- A WITHDRAW of a station that is not known changes nothing (R41). -/
theorem takeWithdraw_of_unknown {a : Address} (h : s.pvt[a].known = false) : takeWithdraw a s = s := by
  have he : s.pvt[a].takeWithdraw = s.pvt[a] := if_neg (by simp only [h]; decide)
  unfold takeWithdraw
  rw [he, h, Bool.false_and, putEntry_unchanged, set_getElem_self]

/-- With no reserved field a WITHDRAW is only heard (R41). -/
theorem takeWithdraw_of_none {a : Address} (hk : s.pvt[a].known = true) (hr : s.pvt[a].reserved = none) :
    takeWithdraw a s = { s with pvt := s.pvt.set a { s.pvt[a] with heard := true } } := by
  have he : s.pvt[a].takeWithdraw = { s.pvt[a] with heard := true } := by
    rw [PeerEntry.takeWithdraw, if_pos hk, hr, Option.isSome_none, Bool.or_false, ← hr]
  unfold takeWithdraw
  rw [he, hr, Option.isSome_none, Bool.and_false, putEntry_unchanged]

/-- A WITHDRAW drops a reserved field (R41, R68). -/
theorem takeWithdraw_of_some {a : Address} (hk : s.pvt[a].known = true) (hr : s.pvt[a].reserved ≠ none) :
    takeWithdraw a s =
      tableChanged { s with pvt := s.pvt.set a { s.pvt[a] with heard := true, reserved := none, changed := true } } := by
  have hsome : s.pvt[a].reserved.isSome = true := Option.isSome_iff_ne_none.2 hr
  have he : s.pvt[a].takeWithdraw = { s.pvt[a] with heard := true, reserved := none, changed := true } := by
    rw [PeerEntry.takeWithdraw, if_pos hk, hsome, Bool.or_true]
  unfold takeWithdraw
  rw [he, hk, hsome, Bool.and_self, putEntry_changed]

/-! ### A slot without its frame -/

theorem slotFrame_of_not_over (h : ∀ d, s.blc.link ≠ .slot d 0) : s.blc.slotFrame = none := by
  rw [Option.eq_none_iff_forall_ne_some]
  intro r hr
  obtain ⟨⟨d, hd⟩, -⟩ := (Blc.slotFrame_eq_some _ _).1 hr
  exact h d hd

theorem execAnnounceReceived_skip (h : ∀ r, s.blc.slotFrame = some r → ∀ a f, r.frame ≠ .announce a f) :
    execAnnounceReceived s = .next s := by
  unfold execAnnounceReceived
  split
  · rename_i a f c hslot
    exact absurd rfl (h _ hslot a f)
  · rfl

theorem execReserveReceived_skip (h : ∀ r, s.blc.slotFrame = some r → ∀ a n k, r.frame ≠ .reserve a n k) :
    execReserveReceived levels s = .next s := by
  unfold execReserveReceived
  split
  · rename_i a n k c hslot
    exact absurd rfl (h _ hslot a n k)
  · rfl

theorem execWithdrawReceived_skip (h : ∀ r, s.blc.slotFrame = some r → ∀ a, r.frame ≠ .withdraw a) :
    execWithdrawReceived s = .next s := by
  unfold execWithdrawReceived
  split
  · rename_i a c hslot
    exact absurd rfl (h _ hslot a)
  · rfl

end

/-- Settles O31: what leaves the buffer, and then the entry after each kind of frame. -/
theorem receivedFramesEnterTheTable : Obligations.ReceivedFramesEnterTheTable := by
  intro levels s
  refine ⟨fun d r hl hr => ?_, fun h => ?_, fun h => ?_, fun h => ?_, fun h => ?_⟩
  · have hslot : s.blc.slotFrame = some r := (Blc.slotFrame_eq_some _ _).2 ⟨⟨d, hl⟩, hr⟩
    intro a w e known put c samples quiet
    have hc : c = r.frame.handedOnBy levels := by cases hf : r.frame <;> simp [c, hf, Frame.handedOnBy]
    rw [hc]
    refine ⟨fun hs => exec_handedOnBy_config hs hslot, fun hs hcalm =>
      ⟨notHandedOn_completes hs hcalm hslot, fun hin hpeer => ?_⟩⟩
    have hend {u : State} := handedOn_completes (levels := levels) (u := u) hs hcalm hslot hin hpeer
    refine ⟨fun f hf => ⟨fun hsame => hend ?_, fun hnew => hend ?_⟩,
      fun n k hf => ⟨fun hloud => hend ?_, fun hquiet => hend ?_⟩,
      fun hf => ⟨fun hk => hend ?_, fun hk hnone => hend ?_, fun hk hsome => hend ?_⟩⟩
    · rw [hf]
      exact takeAnnounce_of_same (s := w) ((announceChanges_iff e f).2 hsame)
    · rw [hf]
      refine takeAnnounce_of_new (s := w) ?_
      rw [← Bool.not_eq_false]
      exact fun h => hnew ((announceChanges_iff e f).1 h)
    · have hdriven : (s.blc.driving || slotDriven levels) = true := by
        rw [← Bool.not_eq_false, driving_or_slotDriven_iff hl, slotSamples_eq]
        exact hloud
      rw [hf, hdriven]
      change putEntry a e.hear false w = _
      rw [putEntry_unchanged, PeerEntry.hear]
      simp only [PeerEntry.known_iff]
      rfl
    · have hdriven : (s.blc.driving || slotDriven levels) = false := by
        rw [driving_or_slotDriven_iff hl, slotSamples_eq]
        exact hquiet
      rw [hf, hdriven]
      exact putEntry_changed w a (e.takeReserve n k)
    · rw [hf]
      exact takeWithdraw_of_unknown (s := w) (by rw [← Bool.not_eq_true, PeerEntry.known_iff]; exact hk)
    · rw [hf]
      exact takeWithdraw_of_none (s := w) ((PeerEntry.known_iff e).2 hk) hnone
    · rw [hf]
      exact takeWithdraw_of_some (s := w) ((PeerEntry.known_iff e).2 hk) hsome
  · have hnone := slotFrame_of_not_over h
    exact ⟨execAnnounceReceived_skip (by simp [hnone]), execReserveReceived_skip (by simp [hnone]),
      execWithdrawReceived_skip (by simp [hnone])⟩
  · exact execAnnounceReceived_skip fun r hr => h r ((Blc.slotFrame_eq_some _ _).1 hr).2
  · exact execReserveReceived_skip fun r hr => h r ((Blc.slotFrame_eq_some _ _).1 hr).2
  · exact execWithdrawReceived_skip fun r hr => h r ((Blc.slotFrame_eq_some _ _).1 hr).2

end Sys2Proof.Machine
end

