-- ==== Sys2Proof/Proofs/EngineFigures.lean ====
section
/-! SUPPORT. The readings that a computation takes and the figures worked from them; and the statement about them. -/

namespace Sys2Proof.Machine

/-! ### The peers in order of address -/

theorem mem_allAddresses (a : Address) : a ∈ allAddresses := by
  revert a; decide

theorem allAddresses_eq : allAddresses = List.finRange 16 := by decide

/-- The capacities taken part in the minimum are those that a peer hands over (R74). -/
theorem mem_capacitiesOf_peersOf (own : Address) (v : Table PeerReading) (c : Nat) :
    c ∈ capacitiesOf (peersOf own v) ↔ ∃ a, a ≠ own ∧ v[a].capacity = some c := by
  simp only [capacitiesOf, peersOf, List.mem_filterMap, List.mem_map, List.mem_filter, bne_iff_ne]
  constructor
  · rintro ⟨r, ⟨a, ⟨-, ha⟩, rfl⟩, hc⟩
    exact ⟨a, ha, hc⟩
  · rintro ⟨a, ha, hc⟩
    exact ⟨v[a], ⟨a, ⟨mem_allAddresses a, ha⟩, rfl⟩, hc⟩

/-- A sum over the peers' readings is one over the addresses with the own left out (R76). -/
theorem sum_peersOf (own : Address) (v : Table PeerReading) (f : PeerReading → Nat) :
    ((peersOf own v).map f).sum = ∑ a : Address, if a = own then 0 else f v[a] := by
  rw [Fin.sum_univ_def, List.sum_map_ite, peersOf, List.map_map, allAddresses_eq]
  simp [bne, Bool.beq_eq_decide_eq, Function.comp_def]

/-- The least of a number and a list is at most each of them and one of them. -/
theorem foldl_min_spec (l : List Nat) (n : Nat) :
    l.foldl min n ≤ n ∧ (∀ c ∈ l, l.foldl min n ≤ c) ∧ (l.foldl min n = n ∨ l.foldl min n ∈ l) := by
  induction l generalizing n with
  | nil => simp
  | cons c l ih =>
    obtain ⟨hle, hall, hmem⟩ := ih (min n c)
    rw [List.foldl_cons]
    refine ⟨hle.trans (min_le_left n c), ?_, ?_⟩
    · rintro d (_ | ⟨_, hd⟩)
      · exact hle.trans (min_le_right n c)
      · exact hall d hd
    · rcases hmem with h | h
      · rcases min_choice n c with hm | hm
        · exact .inl (h.trans hm)
        · exact .inr (by rw [h, hm]; exact List.mem_cons_self)
      · exact .inr (List.mem_cons_of_mem _ h)

/-- The least capacity of the own and the peers' (R74). -/
theorem figuresOf_pmin (own : Address) (w : OwnInputs) (v : Table PeerReading) :
    let g := figuresOf w (peersOf own v)
    g.pmin ≤ w.pc ∧ (∀ a, a ≠ own → ∀ c ∈ v[a].capacity, g.pmin ≤ c) ∧
      (g.pmin = w.pc ∨ ∃ a, a ≠ own ∧ v[a].capacity = some g.pmin) := by
  obtain ⟨hle, hall, hmem⟩ := foldl_min_spec (capacitiesOf (peersOf own v)) w.pc
  refine ⟨hle, fun a ha c hc => hall c ?_, hmem.imp id ?_⟩
  · exact (mem_capacitiesOf_peersOf own v c).2 ⟨a, ha, hc⟩
  · exact (mem_capacitiesOf_peersOf own v _).1

theorem figuresOf_disagreement (own : Address) (w : OwnInputs) (v : Table PeerReading) :
    (figuresOf w (peersOf own v)).disagreement = true ↔ ∃ a, a ≠ own ∧ ∃ c ∈ v[a].capacity, c ≠ w.pc := by
  simp only [figuresOf, List.any_eq_true, mem_capacitiesOf_peersOf, bne_iff_ne, Option.mem_def]
  constructor
  · rintro ⟨c, ⟨a, ha, hc⟩, hne⟩
    exact ⟨a, ha, c, hc, hne⟩
  · rintro ⟨a, ha, c, hc, hne⟩
    exact ⟨c, ⟨a, ha, hc⟩, hne⟩

/-! ### The moments of the readings -/

/-- The moment of a reading never falls as the address rises (R72). -/
theorem momentAt_mono (k : Nat) {a b : Address} (h : a ≤ b) : momentAt k a ≤ momentAt k b := by
  have hmono : Monotone fun n => ((List.range n).map (Config.readMoment k)).foldl max 0 := by
    refine monotone_nat_of_le_succ fun n => ?_
    simp only [List.range_succ, List.map_append, List.foldl_append]
    exact le_max_left _ _
  exact hmono (Nat.succ_le_succ h)

/-- The reading at an address is that of the view at its moment, or of the last view (R32, R72). -/
theorem readingsUsed_at (k : Nat) (v : Table PeerReading) (vs : List (Table PeerReading)) (a : Address) :
    (readingsUsed k (v :: vs))[a] = ((v :: vs).getD (min (momentAt k a) vs.length) v)[a] := by
  cases vs with
  | nil => simp [readingsUsed]
  | cons x xs => simp [readingsUsed]

/-- What an entry hands over, by its standing (R32, R74, R76, R77). -/
theorem reading_of_standing (e : PeerEntry) :
    let counted := e.firm + e.flex + e.transient + (e.reserved.map (·.amount)).getD 0
    (e.standing = .live →
      e.reading = { counted := counted, flex := e.flex, capacity := if e.listening = true then none else e.capacity }) ∧
    (e.standing = .silent → e.reading = { counted := counted, flex := 0, capacity := none }) ∧
    (e.standing = .empty ∨ e.standing = .own → e.reading = { counted := 0, flex := 0, capacity := none }) := by
  cases h : e.standing <;> simp [PeerEntry.reading, h]

/-- Settles O42, from the least of the capacities, the sums over the peers and the moments of the readings. -/
theorem figuresComeFromTheViewAndTheOwnInputs : Obligations.FiguresComeFromTheViewAndTheOwnInputs := by
  refine ⟨reading_of_standing, fun own w v => ?_, fun k seen hseen => ?_⟩
  · exact ⟨figuresOf_pmin own w v, rfl, congrArg (w.counted + ·) (sum_peersOf own v _),
      congrArg (w.flex + ·) (sum_peersOf own v _), rfl, figuresOf_disagreement own w v⟩
  · obtain ⟨v, vs, rfl⟩ := List.exists_cons_of_ne_nil hseen
    refine ⟨fun a => min (momentAt k a) vs.length, fun a b h => min_le_min_right _ (momentAt_mono k h), fun a => ?_⟩
    have hlt : min (momentAt k a) vs.length < (v :: vs).length := by simp
    refine ⟨_, List.getElem?_eq_getElem hlt, ?_⟩
    rw [readingsUsed_at, List.getD_eq_getElem _ _ hlt]

end Sys2Proof.Machine
end

