-- ==== Sys2Proof/Proofs/ReservePlace.lean ====
section
/-! SUPPORT. Where the RESERVE of the own reserve stands in the transmit queue, and what each change of the queue and of
the link makes of its place. -/

namespace Sys2Proof.Machine

/-! ### The RESERVE frames of a queue -/

/-- The RESERVE frames in the transmit queue. -/
def Blc.reserves (b : Blc) : List TxEntry := b.queue.filter TxEntry.isReserve

/-- A RESERVE is at the head of the transmit queue. -/
def Blc.reserveHeads (b : Blc) : Bool := b.queue.head?.any TxEntry.isReserve

/-- Only a RESERVE is marked abandoned (R124). -/
def Blc.Marked (b : Blc) : Prop := ∀ e ∈ b.queue, e.abandoned = true → e.isReserve = true

section
variable {b c : Blc} {e x : TxEntry} {rest : List TxEntry}

theorem Blc.mem_reserves : e ∈ b.reserves ↔ e ∈ b.queue ∧ e.isReserve = true := List.mem_filter

theorem Blc.reserves_cons (h : b.queue = e :: rest) :
    b.reserves = if e.isReserve then e :: rest.filter TxEntry.isReserve else rest.filter TxEntry.isReserve := by
  simp [Blc.reserves, h, List.filter_cons]

theorem Blc.reserveHeads_cons (h : b.queue = e :: rest) : b.reserveHeads = e.isReserve := by
  simp [Blc.reserveHeads, h]

theorem Blc.reserveHeads_iff : b.reserveHeads = true ↔ ∃ e ∈ b.queue.head?, e.isReserve = true := by
  simp [Blc.reserveHeads, Option.any_eq_true]

/-- A RESERVE at the head is one of the queue's. -/
theorem Blc.head_mem_reserves (h : e ∈ b.queue.head?) (hr : e.isReserve = true) : e ∈ b.reserves :=
  Blc.mem_reserves.2 ⟨List.mem_of_mem_head? h, hr⟩

theorem Blc.reserveHeads_of_reserves_nil (h : b.reserves = []) : b.reserveHeads = false := by
  by_contra hh
  obtain ⟨e, he, hr⟩ := Blc.reserveHeads_iff.1 (by simpa using hh)
  simpa [h] using Blc.head_mem_reserves he hr

/-- A RESERVE of the queue is the one that there is. -/
theorem Blc.eq_of_reserves (h : b.reserves = [e]) (hx : x ∈ b.queue) (hr : x.isReserve = true) : x = e := by
  simpa [h] using Blc.mem_reserves.2 ⟨hx, hr⟩

/-- A queue with never two frames of a kind holds at most one RESERVE (R122). -/
theorem Blc.reserves_of_nodup (h : (b.queue.map (·.content.code)).Nodup) :
    b.reserves = [] ∨ ∃ e, b.reserves = [e] := by
  have hcode {e : TxEntry} (he : e ∈ b.reserves) : e.content.code = 2 := by
    simpa [TxEntry.isReserve] using (Blc.mem_reserves.1 he).2
  have hnodup : (b.reserves.map (·.content.code)).Nodup := (List.filter_sublist.map _).nodup h
  match hr : b.reserves with
  | [] => exact .inl rfl
  | [e] => exact .inr ⟨e, rfl⟩
  | e :: x :: rest =>
    rw [hr] at hnodup hcode
    simp [hcode (e := e) (by simp), hcode (e := x) (by simp)] at hnodup

end

/-! ### Changes of the queue that leave only RESERVE frames marked -/

section
variable {b : Blc} {e : TxEntry} {rest : List TxEntry}

theorem Blc.Marked.of_subset {c : Blc} (h : b.Marked) (hc : ∀ e ∈ c.queue, e ∈ b.queue) : c.Marked :=
  fun e he => h e (hc e he)

theorem Blc.Marked.dropHead (h : b.Marked) : b.dropHead.Marked := h.of_subset fun _ => List.mem_of_mem_tail

theorem Blc.Marked.requeueHead (h : b.Marked) : b.requeueHead.Marked := by
  unfold Blc.requeueHead
  split
  · exact h
  · rename_i e rest hq
    intro x hx ha
    rcases List.mem_append.1 hx with hx | hx
    · exact h x (by simp [hq, hx]) ha
    · obtain rfl := List.mem_singleton.1 hx
      exact h e (by simp [hq]) ha

/-- The head is changed to one that keeps its content, its mark being kept too or the head being a RESERVE. -/
theorem Blc.Marked.mapHead (h : b.Marked) {f : TxEntry → TxEntry} (hc : ∀ e, (f e).content = e.content)
    (ha : ∀ e, (f e).abandoned = e.abandoned ∨ b.reserveHeads = true) : (b.mapHead f).Marked := by
  unfold Blc.mapHead
  split
  · exact h
  · rename_i e rest hq
    intro x hx hxa
    rcases List.mem_cons.1 hx with rfl | hx
    · have hr : (f e).isReserve = e.isReserve := by simp [TxEntry.isReserve, hc]
      rw [hr]
      rcases ha e with ha | ha
      · exact h e (by simp [hq]) (ha ▸ hxa)
      · rwa [Blc.reserveHeads_cons hq] at ha
    · exact h x (by simp [hq, hx]) hxa

theorem Blc.Marked.abandonReserve (h : b.Marked) : b.abandonReserve.Marked := by
  unfold Blc.abandonReserve
  split
  · rename_i hl
    refine h.mapHead (fun _ => rfl) fun _ => .inr ?_
    simp only [Bool.and_eq_true] at hl
    exact hl.2
  · exact h.of_subset fun _ he => (List.mem_filter.1 he).1

/-- A head changed without its content is a RESERVE where it was one. -/
theorem Blc.mapHead_reserves {f : TxEntry → TxEntry} (hc : ∀ e, (f e).content = e.content) :
    (b.mapHead f).reserves = (if b.reserveHeads then b.reserves.modifyHead f else b.reserves) ∧
      (b.mapHead f).reserveHeads = b.reserveHeads := by
  have hr (e : TxEntry) : (f e).isReserve = e.isReserve := by simp [TxEntry.isReserve, hc]
  unfold Blc.mapHead
  split
  · rename_i hq
    simp [Blc.reserveHeads, hq]
  · rename_i e rest hq
    simp only [Blc.reserves, Blc.reserveHeads, hq, List.filter_cons, List.head?_cons, Option.any_some, hr, and_true]
    cases e.isReserve <;> simp

end

/-! ### Changes of the queue that leave its RESERVE frames -/

/-- `c` has the RESERVE frames of `b`, one at the head where `b` has one there, and its link in an attempt or a collision
where `b` has it. -/
structure SameReserves (b c : Blc) : Prop where
  reserves : c.reserves = b.reserves
  heads : c.reserveHeads = b.reserveHeads
  attempting : c.link.attempting = b.link.attempting
  colliding : c.link.colliding = b.link.colliding
  marked : b.Marked → c.Marked

namespace SameReserves

variable {b c d : Blc}

theorem refl (b : Blc) : SameReserves b b := ⟨rfl, rfl, rfl, rfl, id⟩

theorem trans (h : SameReserves b c) (k : SameReserves c d) : SameReserves b d :=
  ⟨k.reserves.trans h.reserves, k.heads.trans h.heads, k.attempting.trans h.attempting,
    k.colliding.trans h.colliding, k.marked ∘ h.marked⟩

theorem onLink (h : SameReserves b c) : c.reserveOnLink = b.reserveOnLink := by
  change (c.inTransmission && c.reserveHeads) = (b.inTransmission && b.reserveHeads)
  rw [Blc.inTransmission, Blc.inTransmission, h.attempting, h.colliding, h.heads]

/-- The queue is left, and of the link whether it is in an attempt or a collision. -/
theorem of_queue (hq : c.queue = b.queue) (ha : c.link.attempting = b.link.attempting)
    (hc : c.link.colliding = b.link.colliding) : SameReserves b c := by
  refine ⟨?_, ?_, ha, hc, ?_⟩
  · rw [Blc.reserves, Blc.reserves, hq]
  · rw [Blc.reserveHeads, Blc.reserveHeads, hq]
  · rw [Blc.Marked, Blc.Marked, hq]
    exact id

/-- A frame of another kind joins. -/
theorem join (k : TxContent) (hk : k.code ≠ 2) (b : Blc) : SameReserves b (b.join k) := by
  have hnot : (TxEntry.joining k).isReserve = false := by simp [TxEntry.isReserve, TxEntry.joining, hk]
  unfold Blc.join
  split
  · exact refl b
  · refine ⟨?_, ?_, rfl, rfl, fun hm e he ha => ?_⟩
    · simp [Blc.reserves, hnot]
    · cases hq : b.queue <;> simp [Blc.reserveHeads, hq, hnot]
    · rcases List.mem_append.1 he with he | he
      · exact hm e he ha
      · obtain rfl := List.mem_singleton.1 he
        exact absurd ha nofun

/-- An ANNOUNCE that is requested joins, or is marked for refresh at the head (R123). -/
theorem requestAnnounce (b : Blc) : SameReserves b b.requestAnnounce := by
  unfold Blc.requestAnnounce
  split
  · rename_i h
    have hnot : b.reserveHeads = false := by
      cases hq : b.queue <;> simp_all [Blc.reserveHeads, TxEntry.isReserve]
    have hlink : (b.mapHead fun e => { e with refresh := true }).link = b.link := by
      unfold Blc.mapHead
      split <;> rfl
    obtain ⟨hres, hheads⟩ := Blc.mapHead_reserves (b := b) (f := fun e => { e with refresh := true }) fun _ => rfl
    rw [if_neg (by simp [hnot])] at hres
    exact ⟨hres, hheads, by rw [hlink], by rw [hlink], fun hm => hm.mapHead (fun _ => rfl) fun _ => .inl rfl⟩
  · exact join _ (by decide) b

theorem requestWithdraw (b : Blc) : SameReserves b (b.join .withdraw) := join _ (by decide) b

/-- A bit time neither begins nor ends an attempt or a collision. -/
theorem bitTime (b : Blc) : SameReserves b b.bitTime := by
  have hq : b.bitTime.queue = b.queue := by rw [Blc.bitTime_frame]
  have hl : b.bitTime.link.attempting = b.link.attempting ∧ b.bitTime.link.colliding = b.link.colliding := by
    unfold Blc.bitTime Blc.nextBit
    cases hl : b.link with
    | own | ending | jam | slot =>
      dsimp only
      split <;> exact ⟨rfl, rfl⟩
    | idle | foreign | ownSlot | collided => simp [LinkPhase.attempting, LinkPhase.colliding, hl]
  exact of_queue hq hl.1 hl.2

/-- Nor does a bit time driven by another station. -/
theorem driven (b : Blc) : SameReserves b b.driven := by
  have hq : b.driven.queue = b.queue := by rw [Blc.driven_frame]
  have hl : b.driven.link.attempting = b.link.attempting ∧ b.driven.link.colliding = b.link.colliding := by
    unfold Blc.driven
    cases hl : b.link <;> simp [LinkPhase.attempting, LinkPhase.colliding, hl]
  exact of_queue hq hl.1 hl.2

end SameReserves

/-! ### The place of the own reserve -/

/-- Where the own reserve's RESERVE stands (R52 to R56, R61, R124): none is in the queue; it waits, or collides, with the
reserve QUEUED; it goes out in an attempt with the reserve SENT; or the one there is abandoned and still on the link, the
only place in which a refusal is remembered (R53). -/
inductive ReservePlace (r : Rsu) (b : Blc) : Prop
  | absent (hr : b.reserves = []) (hq : r.state ≠ .queued) (hs : r.state ≠ .sent) (hf : r.refusedOnLink = false)
  | waiting (e : TxEntry) (hr : b.reserves = [e]) (ha : e.abandoned = false)
      (hc : ∃ c ∈ r.cls, e.content = .reserve r.amount c) (hs : r.state = .queued)
      (hl : ¬(b.link.attempting = true ∧ b.reserveHeads = true)) (hf : r.refusedOnLink = false)
  | going (e : TxEntry) (hr : b.reserves = [e]) (ha : e.abandoned = false)
      (hc : ∃ c ∈ r.cls, e.content = .reserve r.amount c) (hs : r.state = .sent)
      (hl : b.link.attempting = true) (hh : b.reserveHeads = true) (hf : r.refusedOnLink = false)
  | abandoned (e : TxEntry) (hr : b.reserves = [e]) (ha : e.abandoned = true) (hl : b.reserveOnLink = true)
      (hq : r.state ≠ .queued) (hs : r.state ≠ .sent)

/-- The own reserve record when it has returned to NONE (R52). -/
def Rsu.cleared (r : Rsu) : Rsu := { r with state := .none, amount := 0, cls := none }

theorem clearReserve_rsu (s : State) : (clearReserve s).rsu = s.rsu.cleared := rfl

theorem LinkPhase.attempting_of_colliding {p : LinkPhase} (h : p.colliding = true) : p.attempting = false := by
  cases p <;> simp_all [LinkPhase.attempting, LinkPhase.colliding]

section
variable {r r' : Rsu} {b c : Blc} {e : TxEntry} {rest : List TxEntry}

theorem Blc.reserveOnLink_iff : b.reserveOnLink = true ↔ b.inTransmission = true ∧ b.reserveHeads = true := by
  simp [Blc.reserveOnLink, Blc.reserveHeads]

theorem Blc.not_inTransmission_of_idle (h : b.link = .idle) : b.inTransmission = false := by
  simp [Blc.inTransmission, h, LinkPhase.attempting, LinkPhase.colliding]

theorem ReservePlace.of_same (h : ReservePlace r b) (hs : SameReserves b c) : ReservePlace r c := by
  cases h with
  | absent hr hq hst hf => exact .absent (hs.reserves.trans hr) hq hst hf
  | waiting e hr ha hc hst hl hf =>
    exact .waiting e (hs.reserves.trans hr) ha hc hst (by rwa [hs.attempting, hs.heads]) hf
  | going e hr ha hc hst hl hh hf =>
    exact .going e (hs.reserves.trans hr) ha hc hst (hs.attempting.trans hl) (hs.heads.trans hh) hf
  | abandoned e hr ha hl hq hst => exact .abandoned e (hs.reserves.trans hr) ha (hs.onLink.trans hl) hq hst

/-- A reserve past its frame moves between HOLD, BACKOFF and NONE with the frame's place as it is. -/
theorem ReservePlace.of_past (h : ReservePlace r b) (hq : r.state ≠ .queued) (hs : r.state ≠ .sent)
    (hq' : r'.state ≠ .queued) (hs' : r'.state ≠ .sent) (hf : r'.refusedOnLink = r.refusedOnLink) :
    ReservePlace r' b := by
  cases h with
  | absent hr _ _ hf' => exact .absent hr hq' hs' (hf.trans hf')
  | waiting _ _ _ _ hst => exact absurd hst hq
  | going _ _ _ _ hst => exact absurd hst hs
  | abandoned e hr ha hl => exact .abandoned e hr ha hl hq' hs'

/-- A QUEUED or SENT reserve has the one RESERVE of the queue. -/
theorem ReservePlace.frame (h : ReservePlace r b) (hs : r.state = .queued ∨ r.state = .sent) :
    r.refusedOnLink = false ∧ ∃ e, b.reserves = [e] := by
  cases h with
  | absent _ hq hst => exact absurd hs (by simp [hq, hst])
  | waiting e hr _ _ _ _ hf => exact ⟨hf, e, hr⟩
  | going e hr _ _ _ _ _ hf => exact ⟨hf, e, hr⟩
  | abandoned _ _ _ _ hq hst => exact absurd hs (by simp [hq, hst])

/-- A QUEUED or SENT reserve is given up: its frame leaves the queue, or is abandoned on the link (R124). -/
theorem ReservePlace.giveUp (h : ReservePlace r b) (hs : r.state = .queued ∨ r.state = .sent) :
    ReservePlace r.cleared b.abandonReserve := by
  obtain ⟨hf, e, hr⟩ := h.frame hs
  by_cases hl : b.reserveOnLink = true
  · obtain ⟨ht, hh⟩ := Blc.reserveOnLink_iff.1 hl
    obtain ⟨hmap, hheads⟩ := Blc.mapHead_reserves (b := b) (f := fun e => { e with abandoned := true }) fun _ => rfl
    have habandon : b.abandonReserve = b.mapHead fun e => { e with abandoned := true } := if_pos hl
    rw [hh, if_pos rfl, hr] at hmap
    rw [habandon]
    refine .abandoned _ hmap rfl (Blc.reserveOnLink_iff.2 ⟨?_, hheads.trans hh⟩) nofun nofun
    rw [← ht, Blc.inTransmission, Blc.inTransmission]
    unfold Blc.mapHead
    split <;> rfl
  · have habandon : b.abandonReserve = { b with queue := b.queue.filter fun e => !e.isReserve } := if_neg hl
    rw [habandon]
    refine .absent ?_ nofun nofun hf
    simp [Blc.reserves]

/-- A head that is no RESERVE leaves its place, or stays there, and no attempt of another is under way. -/
theorem ReservePlace.passed (h : ReservePlace r b) (hh : b.reserveHeads = false) (hr : c.reserves = b.reserves)
    (hl : c.link.attempting = false) : ReservePlace r c := by
  cases h with
  | absent hr' hq hst hf => exact .absent (hr.trans hr') hq hst hf
  | waiting e hr' ha hc hst _ hf => exact .waiting e (hr.trans hr') ha hc hst (by simp [hl]) hf
  | going _ _ _ _ _ _ hh' => simp [hh] at hh'
  | abandoned _ _ _ hl' => simp [Blc.reserveOnLink_iff, hh] at hl'

/-- With the RESERVE at the head gone none is left. -/
theorem ReservePlace.tail_reserves (h : ReservePlace r b) (hq : b.queue = e :: rest) (he : e.isReserve = true) :
    rest.filter TxEntry.isReserve = [] := by
  have hcons := Blc.reserves_cons hq
  rw [if_pos he] at hcons
  cases h with
  | absent hr => simp [hr] at hcons
  | waiting _ hr | going _ hr | abandoned _ hr => simp_all

/-- The RESERVE at the head is abandoned, with the reserve past its frame, or is that of a QUEUED or SENT reserve. -/
theorem ReservePlace.head (h : ReservePlace r b) (hq : b.queue = e :: rest) (he : e.isReserve = true) :
    if e.abandoned then r.state ≠ .queued ∧ r.state ≠ .sent
    else r.state = if b.link.attempting then .sent else .queued := by
  have hmem : e ∈ b.reserves := Blc.mem_reserves.2 ⟨by simp [hq], he⟩
  have hheads : b.reserveHeads = true := (Blc.reserveHeads_cons hq).trans he
  cases h with
  | absent hr => simp [hr] at hmem
  | waiting x hr ha _ hs hl =>
    obtain rfl : e = x := by simpa [hr] using hmem
    simp_all
  | going x hr ha _ hs hl =>
    obtain rfl : e = x := by simpa [hr] using hmem
    simp_all
  | abandoned x hr ha _ hqu hst =>
    obtain rfl : e = x := by simpa [hr] using hmem
    simp_all

/-- Outside any transmission of its own a RESERVE at the head waits. -/
theorem ReservePlace.queued_of_heads (h : ReservePlace r b) (ht : b.inTransmission = false)
    (hh : b.reserveHeads = true) : r.state = .queued := by
  cases h with
  | absent hr => simp [Blc.reserveHeads_of_reserves_nil hr] at hh
  | waiting _ _ _ _ hs => exact hs
  | going _ _ _ _ _ hl => simp [Blc.inTransmission, hl] at ht
  | abandoned _ _ _ hl => simp [Blc.reserveOnLink_iff, ht] at hl

/-- The head begins its attempt (R125, R55). -/
theorem ReservePlace.begin (h : ReservePlace r b) (ht : b.inTransmission = false) (i : Nat) (w : Option Frame) :
    ReservePlace (if b.reserveHeads then { r with state := .sent } else r)
      { b with link := .own 0, idleCount := i, onWire := w } := by
  cases h with
  | absent hr hq hs hf =>
    rw [Blc.reserveHeads_of_reserves_nil hr]
    exact .absent hr hq hs hf
  | waiting e hr ha hc hs _ hf =>
    cases hh : b.reserveHeads with
    | true => exact .going e hr ha hc rfl rfl hh hf
    | false => exact .waiting e hr ha hc hs (fun hl => absurd (hh.symm.trans hl.2) nofun) hf
  | going _ _ _ _ _ hl => simp [Blc.inTransmission, hl] at ht
  | abandoned _ _ _ hl => simp [Blc.reserveOnLink_iff, ht] at hl

/-- The own attempt collides: its RESERVE waits again, or stays abandoned on the link (R126, R55). -/
theorem ReservePlace.collide (h : ReservePlace r b) (hl : b.link.attempting = true) (n : Nat) :
    ReservePlace (if r.state = .sent ∧ b.reserveHeads = true then { r with state := .queued } else r)
      { b.mapHead TxEntry.collide with link := .jam n, onWire := none } := by
  obtain ⟨hmap, hheads⟩ := Blc.mapHead_reserves (b := b) (f := TxEntry.collide) fun _ => rfl
  cases h with
  | absent hr hq hs hf =>
    rw [if_neg fun h => hs h.1]
    exact .absent (hmap.trans (by simp [hr])) hq hs hf
  | waiting e hr ha hc hs hn hf =>
    have hh : b.reserveHeads = false := by simpa [hl] using hn
    rw [if_neg (by simp [hh])]
    rw [hh, hr] at hmap
    exact .waiting e hmap ha hc hs nofun hf
  | going e hr ha hc hs _ hh hf =>
    rw [if_pos ⟨hs, hh⟩]
    rw [hh, if_pos rfl, hr] at hmap
    exact .waiting e.collide hmap ha hc rfl nofun hf
  | abandoned e hr ha hon hq hs =>
    rw [if_neg fun h => hs h.1]
    have hh := (Blc.reserveOnLink_iff.1 hon).2
    rw [hh, if_pos rfl, hr] at hmap
    exact .abandoned e.collide hmap ha (Blc.reserveOnLink_iff.2 ⟨rfl, hheads.trans hh⟩) hq hs

/-- A collided transmission ends with the head staying, no abandoned RESERVE (R126): what waits waits on. -/
theorem ReservePlace.retry (h : ReservePlace r b) (hl : b.link.colliding = true) (hq : b.queue = e :: rest)
    (he : ¬(e.isReserve = true ∧ e.abandoned = true)) {f : TxEntry → TxEntry}
    (hf : ∀ e, (f e).content = e.content ∧ (f e).abandoned = e.abandoned) (hr : c.queue = (b.mapHead f).queue)
    (hc : c.link.attempting = false) : ReservePlace r c := by
  have hmap := (Blc.mapHead_reserves (b := b) fun e => (hf e).1).1
  have hres : c.reserves = (b.mapHead f).reserves := congrArg (List.filter TxEntry.isReserve) hr
  rw [← hres] at hmap
  cases h with
  | absent hr' hqu hs hff =>
    rw [hr'] at hmap
    exact .absent (by simpa using hmap) hqu hs hff
  | waiting x hr' ha hco hs _ hff =>
    rw [hr'] at hmap
    cases hh : b.reserveHeads with
    | true =>
      exact .waiting (f x) (by simpa [hh] using hmap) ((hf x).2.trans ha) (by simpa [hf] using hco) hs (by simp [hc]) hff
    | false => exact .waiting x (by simpa [hh] using hmap) ha hco hs (by simp [hc]) hff
  | going _ _ _ _ _ ht => simp [LinkPhase.attempting_of_colliding hl] at ht
  | abandoned x hr' ha hon =>
    have hh := (Blc.reserveOnLink_iff.1 hon).2
    rw [Blc.reserveHeads_cons hq] at hh
    obtain rfl := Blc.eq_of_reserves hr' (by simp [hq]) hh
    exact absurd ⟨hh, ha⟩ he

/-- A wanted reserve joins a queue that has no RESERVE, behind the frame in transmission (R53). -/
theorem ReservePlace.want (h : ReservePlace r b) (hs : r.state = .none) (hl : b.reserveOnLink = false)
    (hne : b.inTransmission = true → b.queue ≠ []) (k : ReserveClass) (n : Nat) :
    ReservePlace { r with state := .queued, amount := n, cls := some k } (b.join (.reserve n k)) := by
  cases h with
  | absent hr hq hst hf =>
    have hholds : b.holds 2 = false := by
      rw [Blc.holds, List.any_eq_false]
      intro x hx hcode
      simpa [hr] using Blc.mem_reserves.2 ⟨hx, hcode⟩
    have hjoin : b.join (.reserve n k) = { b with queue := b.queue ++ [TxEntry.joining (.reserve n k)] } :=
      if_neg (by change ¬b.holds 2 = true; simp [hholds])
    rw [hjoin]
    refine .waiting (TxEntry.joining (.reserve n k)) ?_ rfl ⟨k, rfl, rfl⟩ rfl ?_ hf
    · rw [Blc.reserves] at hr ⊢
      rw [List.filter_append, hr]
      rfl
    · rintro ⟨ha, hh⟩
      have hq := hne (by simp [Blc.inTransmission, show b.link.attempting = true from ha])
      obtain ⟨x, rest, hx⟩ := List.exists_cons_of_ne_nil hq
      have hheads := Blc.reserveHeads_of_reserves_nil hr
      rw [Blc.reserveHeads_cons hx] at hheads
      rw [Blc.reserveHeads_cons (e := x) (rest := rest ++ [TxEntry.joining (.reserve n k)]) (by simp [hx])] at hh
      exact absurd (hheads.symm.trans hh) nofun
  | waiting _ _ _ _ hst => exact absurd (hs.symm.trans hst) nofun
  | going _ _ _ _ hst => exact absurd (hs.symm.trans hst) nofun
  | abandoned _ _ _ hon => exact absurd (hl.symm.trans hon) nofun

theorem Blc.Marked.join (h : b.Marked) (k : TxContent) : (b.join k).Marked := by
  unfold Blc.join
  split
  · exact h
  · intro e he ha
    rcases List.mem_append.1 he with he | he
    · exact h e he ha
    · obtain rfl := List.mem_singleton.1 he
      exact absurd ha nofun

end

end Sys2Proof.Machine
end

