-- ==== Sys2Proof/Proofs/ReservePassages.lean ====
section
/-! SUPPORT. The own reserve in form through the changes of claim and phase, the trips and the passages between phases. -/

namespace Sys2Proof.Machine

/-! ### The own reserve in form -/

/-- The record of the own reserve in form: its amount and class, its two timers and the phase of its class (R52, R56 to
R58, R61). -/
structure ReserveRecord (s : State) : Prop where
  blank : s.rsu.state = .none → s.rsu.amount = 0 ∧ s.rsu.cls = none
  named : s.rsu.state ≠ .none → s.rsu.cls.isSome = true
  hold : s.tmb.hold.running = true ↔ s.rsu.state = .hold
  backoff : s.tmb.reserveBackoff.running = true ↔ s.rsu.state = .backoff
  firm : s.rsu.cls = some .firmEnergise → s.bsq.phase = .queued
  flex : s.rsu.cls = some .flexRaise → s.bsq.phase.pair = true

/-- The own reserve stands in form: its record, and its frame in its place (R52 to R57, R61, R124). -/
structure ReserveHolds (s : State) : Prop extends ReserveRecord s where
  place : ReservePlace s.rsu s.blc
  marked : s.blc.Marked

/-- `t` has the own reserve, its frame, its two timers and the phase as `s` has them. -/
structure ReserveFrame (s t : State) : Prop where
  rsu : t.rsu = s.rsu
  blc : SameReserves s.blc t.blc
  hold : t.tmb.hold.running = s.tmb.hold.running
  backoff : t.tmb.reserveBackoff.running = s.tmb.reserveBackoff.running
  phase : t.bsq.phase = s.bsq.phase

section
variable {s t : State}

theorem ReserveFrame.refl (s : State) : ReserveFrame s s := ⟨rfl, .refl _, rfl, rfl, rfl⟩

/-- Of two changes the second first, so that it says which state the first leaves. -/
theorem ReserveFrame.after {u : State} (k : ReserveFrame t u) (h : ReserveFrame s t) : ReserveFrame s u :=
  ⟨k.rsu.trans h.rsu, h.blc.trans k.blc, k.hold.trans h.hold, k.backoff.trans h.backoff, k.phase.trans h.phase⟩

theorem ReserveFrame.mapLib (f : Lib → Lib) (s : State) : ReserveFrame s (s.mapLib f) := ⟨rfl, .refl _, rfl, rfl, rfl⟩

theorem ReserveFrame.requestRecompute (s : State) : ReserveFrame s (requestRecompute s) :=
  ⟨rfl, .refl _, rfl, rfl, rfl⟩

theorem ReserveFrame.requestAnnounce (s : State) : ReserveFrame s (requestAnnounce s) :=
  ⟨rfl, .requestAnnounce _, rfl, rfl, rfl⟩

theorem ReserveFrame.requestWithdraw (s : State) : ReserveFrame s (requestWithdraw s) :=
  ⟨rfl, .requestWithdraw _, rfl, rfl, rfl⟩

theorem ReserveFrame.setClaim (firm flex transient : Nat) (s : State) :
    ReserveFrame s (setClaim firm flex transient s) := by
  by_cases h : firm = s.bsq.firm ∧ flex = s.bsq.flex ∧ transient = s.bsq.transient
  · obtain ⟨rfl, rfl, rfl⟩ := h
    rw [setClaim_same]
    exact .refl s
  · rw [setClaim_of_ne _ _ _ _ h]
    exact ⟨rfl, .requestAnnounce _, rfl, rfl, rfl⟩

theorem ReserveFrame.zeroClaim (s : State) : ReserveFrame s (zeroClaim s) :=
  (ReserveFrame.setClaim 0 0 0 _).after ⟨rfl, .refl _, rfl, rfl, rfl⟩

theorem ReserveFrame.confirmOpen (s : State) : ReserveFrame s (confirmOpen s) :=
  (ReserveFrame.zeroClaim _).after ⟨rfl, .refl _, rfl, rfl, rfl⟩

theorem ReserveFrame.addLater (c : TripCause) (s : State) : ReserveFrame s (addLater c s) := by
  rw [addLater_frame]
  exact ⟨rfl, .refl _, rfl, rfl, rfl⟩

theorem ReserveFrame.formClamps (s : State) : ReserveFrame s (formClamps s) := by
  obtain ⟨q, v, h, -⟩ := formClamps_eq s
  rw [h]
  exact ⟨rfl, .refl _, rfl, rfl, rfl⟩

/-- The record is read off the state, the amount and the class of the reserve, its two timers and the phase. -/
theorem ReserveRecord.of_eq (h : ReserveRecord s) (hst : t.rsu.state = s.rsu.state) (ha : t.rsu.amount = s.rsu.amount)
    (hc : t.rsu.cls = s.rsu.cls) (hh : t.tmb.hold.running = s.tmb.hold.running)
    (hk : t.tmb.reserveBackoff.running = s.tmb.reserveBackoff.running) (hp : t.bsq.phase = s.bsq.phase) :
    ReserveRecord t := by
  obtain ⟨hblank, hnamed, hhold, hbackoff, hfirm, hflex⟩ := h
  constructor <;> simpa only [hst, ha, hc, hh, hk, hp]

theorem ReserveHolds.of_frame (h : ReserveHolds s) (hf : ReserveFrame s t) : ReserveHolds t := by
  obtain ⟨hrsu, hblc, hhold, hbackoff, hphase⟩ := hf
  refine ⟨h.toReserveRecord.of_eq (by rw [hrsu]) (by rw [hrsu]) (by rw [hrsu]) hhold hbackoff hphase, ?_,
    hblc.marked h.marked⟩
  rw [hrsu]
  exact h.place.of_same hblc

/-- What the reserve's form does not read may change. -/
theorem ReserveHolds.of_eq (h : ReserveHolds s) (hr : t.rsu = s.rsu) (hb : t.blc = s.blc) (hh : t.tmb.hold = s.tmb.hold)
    (hk : t.tmb.reserveBackoff = s.tmb.reserveBackoff) (hp : t.bsq.phase = s.bsq.phase) : ReserveHolds t :=
  h.of_frame ⟨hr, hb ▸ .refl _, by rw [hh], by rw [hk], hp⟩

/-! ### Giving the reserve up -/

/-- With the reserve back in NONE its two timers stopped. -/
theorem ReserveRecord.of_cleared {r : Rsu} (hr : t.rsu = r.cleared) (hh : t.tmb.hold.running = false)
    (hk : t.tmb.reserveBackoff.running = false) : ReserveRecord t := by
  constructor
  · exact fun _ => by rw [hr]; exact ⟨rfl, rfl⟩
  · exact fun hs => absurd (by rw [hr]; rfl) hs
  · rw [hh, hr]; exact ⟨nofun, nofun⟩
  · rw [hk, hr]; exact ⟨nofun, nofun⟩
  · rw [hr]; exact nofun
  · rw [hr]; exact nofun

theorem ReserveRecord.hold_stopped (h : ReserveRecord s) (hs : s.rsu.state ≠ .hold) : s.tmb.hold.running = false := by
  simpa using fun hr => hs (h.hold.1 hr)

theorem ReserveRecord.backoff_stopped (h : ReserveRecord s) (hs : s.rsu.state ≠ .backoff) :
    s.tmb.reserveBackoff.running = false := by
  simpa using fun hr => hs (h.backoff.1 hr)

/-- A QUEUED or SENT reserve is cleared and its frame abandoned (R54, R61, R124). -/
theorem ReserveHolds.giveUp (h : ReserveHolds s) (hs : s.rsu.state = .queued ∨ s.rsu.state = .sent) :
    ReserveHolds (clearReserve (s.mapBlc Blc.abandonReserve)) :=
  ⟨.of_cleared (clearReserve_rsu _) (h.hold_stopped fun hh => by simp [hh] at hs)
    (h.backoff_stopped fun hh => by simp [hh] at hs), h.place.giveUp hs, h.marked.abandonReserve⟩

/-- A reserve in HOLD is cleared with its timer stopped. -/
theorem ReserveHolds.endHold (h : ReserveHolds s) (hs : s.rsu.state = .hold) :
    ReserveHolds (clearReserve (s.mapTmb fun t => { t with hold := t.hold.stop })) :=
  ⟨.of_cleared (clearReserve_rsu _) rfl (h.backoff_stopped (by simp [hs])),
    h.place.of_past (by simp [hs]) (by simp [hs]) nofun nofun rfl, h.marked⟩

/-- A reserve in BACKOFF is cleared with its timer stopped. -/
theorem ReserveHolds.endBackoff (h : ReserveHolds s) (hs : s.rsu.state = .backoff) :
    ReserveHolds (clearReserve (s.mapTmb fun t => { t with reserveBackoff := t.reserveBackoff.stop })) :=
  ⟨.of_cleared (clearReserve_rsu _) (h.hold_stopped (by simp [hs])) rfl,
    h.place.of_past (by simp [hs]) (by simp [hs]) nofun nofun rfl, h.marked⟩

/-- The own reserve is abandoned, whatever its state (R61). -/
theorem abandonReserve_reserveHolds (h : ReserveHolds s) : ReserveHolds (abandonReserve s) := by
  have hend (t : State) : ReserveFrame t (requestRecompute (requestWithdraw t)) :=
    (ReserveFrame.requestRecompute _).after (.requestWithdraw t)
  unfold abandonReserve
  cases hs : s.rsu.state with
  | none => exact h
  | queued => exact h.giveUp (.inl hs)
  | sent => exact (h.giveUp (.inr hs)).of_frame (hend _)
  | hold => exact (h.endHold hs).of_frame (hend _)
  | backoff => exact h.endBackoff hs

theorem ReserveHolds.cls_none (h : ReserveHolds s) (hs : s.rsu.state = .none) : s.rsu.cls = none := (h.blank hs).2

/-! ### The phase -/

/-- The notice of a phase left leaves a reserve only where its class belongs to the next phase too (R61). -/
theorem phaseLeft_reserveHolds {next : Phase} (h : ReserveHolds s)
    (he : next ≠ .energising ∨ s.rsu.cls = none) :
    ReserveHolds (phaseLeft next s) ∧ (phaseLeft next s).rsu.cls ≠ some .firmEnergise ∧
      ((phaseLeft next s).rsu.cls = some .flexRaise → next.pair = true) := by
  rw [phaseLeft_eq]
  split
  · have ha := abandonReserve_reserveHolds h
    have hc := ha.cls_none (abandonReserve_state s)
    exact ⟨ha, by simp [hc], by simp [hc]⟩
  · rename_i hkeep
    obtain ⟨-, hqueued, hpair⟩ := by simpa only [not_or] using hkeep
    refine ⟨h, fun hc => ?_, fun hc => ?_⟩
    · exact hqueued ⟨h.firm hc, he.resolve_right (by simp [hc]), hc⟩
    · by_contra hnp
      exact hpair ⟨h.flex hc, by simpa using hnp, hc⟩

theorem setPhase_reserveHolds {next : Phase} (h : ReserveHolds s) (he : next ≠ .energising ∨ s.rsu.cls = none) :
    ReserveHolds (setPhase next s) := by
  by_cases hn : next = s.bsq.phase
  · rwa [setPhase, if_pos hn]
  · obtain ⟨hl, hfirm, hflex⟩ := phaseLeft_reserveHolds h he
    rw [setPhase_eq next s hn]
    generalize phaseLeft next s = l at hl hfirm hflex
    have hblc := SameReserves.requestAnnounce l.blc
    exact ⟨⟨hl.blank, hl.named, hl.hold, hl.backoff, fun hc => absurd hc hfirm, hflex⟩, hl.place.of_same hblc,
      hblc.marked hl.marked⟩

/-! ### Trips -/

theorem tripping_reserveHolds (h : ReserveHolds s) : ReserveHolds s.tripping := by
  have hp : ReserveHolds (setPhase .tripped s) := setPhase_reserveHolds h (.inl nofun)
  exact hp.of_eq rfl rfl rfl rfl rfl

theorem carryOutTrip_reserveHolds (b : Bool) (h : ReserveHolds s) : ReserveHolds (carryOutTrip b s) := by
  have ht := tripping_reserveHolds h
  rw [carryOutTrip_eq]
  split_ifs
  · exact ht
  · exact ht.of_eq rfl rfl rfl rfl rfl
  · exact ht.of_eq rfl rfl rfl rfl rfl
  · exact ht.of_frame (.confirmOpen _)

theorem startTrip_reserveHolds (b : Bool) (c : TripCause) (h : ReserveHolds s) : ReserveHolds (startTrip b c s) :=
  carryOutTrip_reserveHolds b (h.of_eq rfl rfl rfl rfl rfl)

theorem takeCause_reserveHolds (c : TripCause) (h : ReserveHolds s) : ReserveHolds (takeCause c s) := by
  unfold takeCause
  split
  · exact h.of_frame (.addLater c s)
  · exact startTrip_reserveHolds false c h

theorem checkEstop_reserveHolds (h : ReserveHolds s) : ReserveHolds (checkEstop s) := by
  rcases checkEstop_cases s with ⟨-, -, h'⟩ | ⟨-, h'⟩ <;> rw [h']
  · exact (takeCause_reserveHolds .estop h).of_eq rfl rfl rfl rfl rfl
  · exact h

theorem checkFeeder_reserveHolds (h : ReserveHolds s) : ReserveHolds (checkFeeder s) := by
  rcases checkFeeder_cases s with ⟨-, -, h'⟩ | ⟨-, h'⟩ <;> rw [h']
  · exact (takeCause_reserveHolds .feederLost h).of_eq rfl rfl rfl rfl rfl
  · exact h

theorem tripsTaken_reserveHolds (h : ReserveHolds s) : ReserveHolds s.tripsTaken :=
  checkEstop_reserveHolds (checkFeeder_reserveHolds (checkEstop_reserveHolds h))

theorem uncommandedClose_reserveHolds (h : ReserveHolds s) : ReserveHolds (uncommandedClose s) := by
  have hc := h.of_frame (.setClaim s.station.stuckBreakerClaim 0 0 s)
  unfold uncommandedClose
  dsimp only
  split
  · exact (hc.of_frame (.addLater _ _)).of_eq rfl rfl rfl rfl rfl
  · exact startTrip_reserveHolds false _ hc

/-! ### Passages between phases -/

theorem evaluateEntry_reserveHolds (h : ReserveHolds s) : ReserveHolds (evaluateEntry s) := by
  rcases evaluateEntry_cases s with ⟨-, h'⟩ | ⟨-, h'⟩ <;> rw [h']
  · exact setPhase_reserveHolds h (.inl nofun)
  · exact h

theorem enterPlugged_reserveHolds (h : ReserveHolds s) : ReserveHolds (enterPlugged s) := by
  have hp : ReserveHolds (setPhase .plugged s) := setPhase_reserveHolds h (.inl nofun)
  exact evaluateEntry_reserveHolds ((tripsTaken_reserveHolds hp).of_eq rfl rfl rfl rfl rfl)

theorem completeDeEnergise_reserveHolds (h : ReserveHolds s) : ReserveHolds (completeDeEnergise s) := by
  have hr : ReserveHolds (releaseOpen s) := h.of_eq rfl rfl rfl rfl rfl
  exact enterPlugged_reserveHolds (hr.of_frame (.zeroClaim _))

theorem enterDeEnergising_reserveHolds (h : ReserveHolds s) : ReserveHolds (enterDeEnergising s) := by
  have hp : ReserveHolds (setPhase .deEnergising s) := setPhase_reserveHolds h (.inl nofun)
  unfold enterDeEnergising
  dsimp only
  split
  · exact hp.of_eq rfl rfl rfl rfl rfl
  · exact completeDeEnergise_reserveHolds hp

theorem enterParallel_reserveHolds (h : ReserveHolds s) : ReserveHolds (enterParallel s) := by
  have hp : ReserveHolds (setPhase .parallel s) := setPhase_reserveHolds h (.inl nofun)
  unfold enterParallel
  dsimp only
  split
  · exact setPhase_reserveHolds hp (.inl nofun)
  · exact hp

theorem startInrush_reserveHolds (h : ReserveHolds s) : ReserveHolds (startInrush s) := by
  rcases startInrush_cases s with ⟨-, h'⟩ | ⟨p, -, -, h'⟩ | ⟨p, -, -, h'⟩ <;> rw [h']
  · exact h
  · exact h.of_frame ((ReserveFrame.setClaim _ _ _ _).after ⟨rfl, .refl _, rfl, rfl, rfl⟩)
  · exact h.of_eq rfl rfl rfl rfl rfl

theorem enterAwaitSync_reserveHolds (h : ReserveHolds s) : ReserveHolds (enterAwaitSync s) := by
  have hstop : ReserveHolds (stopBreaker (s.mapBsq fun b => { b with bkClose := false })) :=
    h.of_eq rfl rfl rfl rfl rfl
  have hp : ReserveHolds (setPhase .awaitSync (startInrush (stopBreaker (s.mapBsq fun b => { b with bkClose := false })))) :=
    setPhase_reserveHolds (startInrush_reserveHolds hstop) (.inl nofun)
  unfold enterAwaitSync
  dsimp only
  split_ifs
  · exact enterDeEnergising_reserveHolds hp
  · exact enterParallel_reserveHolds hp
  · exact hp

/-! ### The vessel link -/

theorem plugProven_reserveHolds (h : ReserveHolds s) : ReserveHolds (plugProven s) := by
  have hs : ReserveHolds (selectProfile s) := h.of_eq rfl rfl rfl rfl rfl
  exact enterPlugged_reserveHolds (hs.of_frame (.formClamps _))

theorem compareVessel_reserveHolds (r : ShipRecord) (h : ReserveHolds s) : ReserveHolds (compareVessel r s) := by
  unfold compareVessel
  split
  · exact h.of_eq rfl rfl rfl rfl rfl
  · exact h

theorem leaveTripped_reserveHolds (h : ReserveHolds s) : ReserveHolds (leaveTripped s) := by
  have hd : ReserveHolds (dropProfile (s.mapTru fun u => { u with record := none })) := h.of_eq rfl rfl rfl rfl rfl
  unfold leaveTripped
  dsimp only
  split
  · have hsel : ReserveHolds (selectProfile (dropProfile (s.mapTru fun u => { u with record := none }))) :=
      hd.of_eq rfl rfl rfl rfl rfl
    refine enterPlugged_reserveHolds (.of_frame ?_ (.formClamps _))
    split
    · exact compareVessel_reserveHolds _ hsel
    · exact hsel
  · exact setPhase_reserveHolds (hd.of_frame (.formClamps _)) (.inl nofun)

theorem linkIdle_reserveHolds (h : ReserveHolds s) : ReserveHolds (linkIdle s) :=
  h.of_frame ((ReserveFrame.formClamps _).after ⟨rfl, .refl _, rfl, rfl, rfl⟩)

theorem pilotGone_reserveHolds (h : ReserveHolds s) : ReserveHolds (pilotGone s) := by
  unfold pilotGone
  split_ifs
  · have hp : ReserveHolds (setPhase .vacant s) := setPhase_reserveHolds h (.inl nofun)
    exact hp.of_eq rfl rfl rfl rfl rfl
  · exact takeCause_reserveHolds _ h
  · exact h.of_frame (.addLater _ _)
  · exact h

theorem takeRequest_reserveHolds (m : Marks) (r : ShipRecord) (h : ReserveHolds s) :
    ReserveHolds (takeRequest m r s) := by
  unfold takeRequest
  split_ifs
  · exact enterDeEnergising_reserveHolds h
  · exact setPhase_reserveHolds h (.inl nofun)
  · exact h
  · exact h

theorem takeBreaker_reserveHolds (m : Marks) (r : ShipRecord) (h : ReserveHolds s) :
    ReserveHolds (takeBreaker m r s) := by
  unfold takeBreaker
  split_ifs
  · exact enterParallel_reserveHolds h
  · exact enterDeEnergising_reserveHolds h
  · exact h
  · exact h

theorem takeGenerators_reserveHolds (m : Marks) (r : ShipRecord) (h : ReserveHolds s) :
    ReserveHolds (takeGenerators m r s) := by
  unfold takeGenerators
  split_ifs
  · exact h.of_eq rfl rfl rfl rfl rfl
  · exact setPhase_reserveHolds h (.inl nofun)
  · exact h

theorem deliverRecord_reserveHolds (m : Marks) (r : ShipRecord) (h : ReserveHolds s) :
    ReserveHolds (deliverRecord m r s) := by
  have hclear : ReserveHolds (clearAbortFlags r s) := by
    unfold clearAbortFlags
    split
    · exact h.of_eq rfl rfl rfl rfl rfl
    · exact h
  have hmove := takeGenerators_reserveHolds m r (takeBreaker_reserveHolds m r (takeRequest_reserveHolds m r hclear))
  have hcompare := compareVessel_reserveHolds r hclear
  unfold deliverRecord
  dsimp only
  split
  case h_1 => exact evaluateEntry_reserveHolds hcompare
  case h_2 =>
    split
    · exact enterPlugged_reserveHolds hcompare
    · exact hcompare
  case h_7 => exact hclear
  all_goals exact hmove

theorem takeRecord_reserveHolds (r : ShipRecord) (h : ReserveHolds s) : ReserveHolds (takeRecord r s) := by
  have hheard : ReserveHolds ((linkHeard s).mapVlp fun v => { v with held := some r }) := by
    unfold linkHeard
    dsimp only
    split <;> exact h.of_eq rfl rfl rfl rfl rfl
  exact deliverRecord_reserveHolds _ r ((hheard.of_frame (.formClamps _)).of_eq rfl rfl rfl rfl rfl)

theorem linkLost_reserveHolds (h : ReserveHolds s) : ReserveHolds (linkLost s) := by
  have ht : ReserveHolds ((s.mapVlp fun v => { v with link := .lost }).mapTmb
      fun b => { b with linkTimeout := b.linkTimeout.stop }) := h.of_eq rfl rfl rfl rfl rfl
  unfold linkLost
  dsimp only
  split_ifs
  · exact enterPlugged_reserveHolds ht
  · exact enterDeEnergising_reserveHolds ht
  · exact ((ht.of_frame (.setClaim _ _ _ _)).of_frame (.requestAnnounce _)).of_eq rfl rfl rfl rfl rfl
  · exact ht

/-! ### The breaker, the warning and the ramp -/

theorem auxClosure_reserveHolds (h : ReserveHolds s) : ReserveHolds (auxClosure s) := by
  unfold auxClosure
  split
  case h_1 => exact enterAwaitSync_reserveHolds h
  case h_5 =>
    split
    · exact uncommandedClose_reserveHolds h
    · exact h
  case h_6 => exact h
  all_goals exact uncommandedClose_reserveHolds h

theorem auxOpening_reserveHolds (h : ReserveHolds s) : ReserveHolds (auxOpening s) := by
  have ht : ReserveHolds (if s.bsq.serving = some .resetPulse then releaseOpen s else s) := by
    split
    · exact h.of_eq rfl rfl rfl rfl rfl
    · exact h
  unfold auxOpening
  dsimp only
  split
  case h_5 => exact completeDeEnergise_reserveHolds ht
  case h_6 => exact (ht.of_eq (t := releaseOpen _) rfl rfl rfl rfl rfl).of_frame (.confirmOpen _)
  case h_7 => exact ht
  all_goals exact enterDeEnergising_reserveHolds ht

theorem warningChange_reserveHolds (v : Bool) (h : ReserveHolds s) : ReserveHolds (warningChange v s) := by
  unfold warningChange
  split_ifs
  · exact enterPlugged_reserveHolds h
  · exact h
  · exact evaluateEntry_reserveHolds h

theorem breakerExpired_reserveHolds (c : Option BreakerCommand) (h : ReserveHolds s) :
    ReserveHolds (breakerExpired c s) := by
  have ho : ReserveHolds (s.mapBsq fun b => { b with bkOpen := false }) := h.of_eq rfl rfl rfl rfl rfl
  unfold breakerExpired
  split
  · exact takeCause_reserveHolds _ h
  · dsimp only
    split
    · exact ho.of_frame (.addLater _ _)
    · exact ho
  · dsimp only
    split_ifs
    · exact startTrip_reserveHolds true _ ho
    · exact ho.of_frame (.addLater _ _)
    · exact ho
  · exact h

theorem rampUp_reserveHolds (h : ReserveHolds s) : ReserveHolds (rampUp s) := by
  unfold rampUp
  dsimp only
  split <;> exact h.of_eq rfl rfl rfl rfl rfl

theorem rampDown_reserveHolds (h : ReserveHolds s) : ReserveHolds (rampDown s) := by
  rcases rampDown_cases s with ⟨-, h'⟩ | ⟨-, h'⟩ <;> rw [h']
  · exact h.of_frame (.requestAnnounce s)
  · exact h.of_frame ((ReserveFrame.requestAnnounce _).after
      ((ReserveFrame.setClaim _ _ _ _).after ⟨rfl, .refl _, rfl, rfl, rfl⟩))

end

end Sys2Proof.Machine
end

