-- ==== Sys2Proof/Proofs/ReserveLink.lean ====
section
/-! SUPPORT. The own reserve in form through the events of the berth link, of the table and of the engine, and through
the end of every event. -/

namespace Sys2Proof.Machine

section
variable {s t : State} {e : TxEntry} {rest : List TxEntry}

/-! ### The own attempt -/

/-- A reserve between QUEUED and SENT has its record as it was (R55). -/
theorem ReserveRecord.of_resent (h : ReserveRecord s) (hs : s.rsu.state = .queued ∨ s.rsu.state = .sent)
    (hst : t.rsu.state = .queued ∨ t.rsu.state = .sent) (hc : t.rsu.cls = s.rsu.cls)
    (hh : t.tmb.hold = s.tmb.hold) (hk : t.tmb.reserveBackoff = s.tmb.reserveBackoff)
    (hp : t.bsq.phase = s.bsq.phase) : ReserveRecord t := by
  have hne : s.rsu.state ≠ .none ∧ s.rsu.state ≠ .hold ∧ s.rsu.state ≠ .backoff := by
    rcases hs with hs | hs <;> simp [hs]
  have hne' : t.rsu.state ≠ .none ∧ t.rsu.state ≠ .hold ∧ t.rsu.state ≠ .backoff := by
    rcases hst with hst | hst <;> simp [hst]
  obtain ⟨hnone, hhold, hback⟩ := hne
  obtain ⟨hnone', hhold', hback'⟩ := hne'
  refine ⟨fun hn => absurd hn hnone', fun _ => hc ▸ h.named hnone, ?_, ?_, fun hf => hp ▸ h.firm (hc ▸ hf),
    fun hf => hp ▸ h.flex (hc ▸ hf)⟩
  · rw [hh, h.hold_stopped hhold]
    exact ⟨nofun, fun hn => absurd hn hhold'⟩
  · rw [hk, h.backoff_stopped hback]
    exact ⟨nofun, fun hn => absurd hn hback'⟩

/-- The head begins its attempt on an idle link (R125, R55). -/
theorem ReserveHolds.begin (h : ReserveHolds s) (hl : s.blc.link = .idle) {w : Option Frame}
    (hr : t.rsu = if s.blc.reserveHeads then { s.rsu with state := .sent } else s.rsu)
    (hb : t.blc = { s.blc with link := .own 0, idleCount := 0, onWire := w }) (hh : t.tmb.hold = s.tmb.hold)
    (hk : t.tmb.reserveBackoff = s.tmb.reserveBackoff) (hp : t.bsq.phase = s.bsq.phase) : ReserveHolds t := by
  have ht := Blc.not_inTransmission_of_idle hl
  refine ⟨?_, ?_, ?_⟩
  · cases hheads : s.blc.reserveHeads with
    | true =>
      rw [hheads, if_pos rfl] at hr
      exact h.toReserveRecord.of_resent (.inl (h.place.queued_of_heads ht hheads)) (.inr (by rw [hr])) (by rw [hr]) hh hk hp
    | false =>
      rw [hheads, if_neg nofun] at hr
      exact h.toReserveRecord.of_eq (by rw [hr]) (by rw [hr]) (by rw [hr]) (by rw [hh]) (by rw [hk]) hp
  · rw [hr, hb]
    exact h.place.begin ht 0 w
  · rw [hb]
    exact h.marked

theorem beginAttempt_reserveHolds (h : ReserveHolds s) (hl : s.blc.link = .idle) : ReserveHolds (beginAttempt s) := by
  cases hq : s.blc.queue with
  | nil => simpa [beginAttempt, hq] using h
  | cons e rest =>
    rw [beginAttempt_eq s e rest hq]
    refine h.begin hl ?_ rfl rfl rfl rfl
    rw [Blc.reserveHeads_cons hq]
    cases e.isReserve <;> rfl

theorem collide_reserveHolds (h : ReserveHolds s) (hl : s.blc.link.attempting = true) : ReserveHolds (collide s) := by
  have hplace := h.place.collide hl Config.jamBits
  have hmarked : (s.blc.mapHead TxEntry.collide).Marked := h.marked.mapHead (fun _ => rfl) fun _ => .inl rfl
  unfold collide
  change ReserveHolds (if s.rsu.state = .sent ∧ s.blc.reserveHeads = true then _ else _)
  by_cases hs : s.rsu.state = .sent ∧ s.blc.reserveHeads = true
  · rw [if_pos hs] at hplace
    rw [if_pos hs]
    exact ⟨h.toReserveRecord.of_resent (.inr hs.1) (.inl rfl) rfl rfl rfl rfl, hplace, hmarked⟩
  · rw [if_neg hs] at hplace
    rw [if_neg hs]
    exact ⟨h.toReserveRecord.of_eq rfl rfl rfl rfl rfl rfl, hplace, hmarked⟩

/-! ### The end of the own transmission and of its slot -/

/-- The head, no RESERVE, leaves the queue or goes to its tail, with no attempt under way (R123, R127, R128). -/
theorem ReserveHolds.of_headPassed (h : ReserveHolds s) (hq : s.blc.queue = e :: rest) (he : e.isReserve = false)
    (hr : t.rsu = s.rsu) (hb : t.blc.queue = s.blc.dropHead.queue ∨ t.blc.queue = s.blc.requeueHead.queue)
    (hl : t.blc.link.attempting = false) (hh : t.tmb.hold = s.tmb.hold)
    (hk : t.tmb.reserveBackoff = s.tmb.reserveBackoff) (hp : t.bsq.phase = s.bsq.phase) : ReserveHolds t := by
  have hres : t.blc.reserves = s.blc.reserves := by
    have he' : ({ e with collisions := 0, refresh := false } : TxEntry).isReserve = false := he
    rw [Blc.reserves_cons hq, he, if_neg nofun, Blc.reserves]
    rcases hb with hb | hb <;> simp [hb, Blc.dropHead, Blc.requeueHead, hq, he']
  refine ⟨h.toReserveRecord.of_eq (by rw [hr]) (by rw [hr]) (by rw [hr]) (by rw [hh]) (by rw [hk]) hp, ?_, ?_⟩
  · rw [hr]
    exact h.place.passed ((Blc.reserveHeads_cons hq).trans he) hres hl
  · rcases hb with hb | hb
    · exact h.marked.dropHead.of_subset fun x hx => hb ▸ hx
    · exact h.marked.requeueHead.of_subset fun x hx => hb ▸ hx

/-- The frame of an earlier RESERVE has gone, and with it the memory of a refusal (R53). -/
theorem ReserveRecord.release (h : ReserveRecord s) (hr : s.blc.reserves = []) (hm : s.blc.Marked)
    (hq : s.rsu.state ≠ .queued) (hs : s.rsu.state ≠ .sent) : ReserveHolds (releaseRefused s) := by
  rw [releaseRefused_eq]
  exact ⟨h.of_eq rfl rfl rfl rfl rfl rfl, .absent hr hq hs rfl, hm⟩

/-- The frame dropped after its sixteenth collision (R127). -/
theorem dropFrame_reserveHolds (h : ReserveHolds s) (hl : s.blc.link.colliding = true)
    (hq : s.blc.queue = e :: rest) (ha : ¬(e.isReserve = true ∧ e.abandoned = true)) (rx : Option RxFrame) :
    ReserveHolds (dropFrame e (openSlot false rx s)) := by
  unfold dropFrame
  dsimp only
  split
  case h_1 hc =>
    refine h.of_headPassed hq (by simp [TxEntry.isReserve, hc, TxContent.code]) rfl ?_ ?_ rfl rfl rfl
    · cases e.refresh
      · exact .inl rfl
      · refine .inr ?_
        simp [openSlot, raiseAttention, Blc.requeueHead, hq]
    · cases e.refresh
      · rfl
      · simp [openSlot, raiseAttention, Blc.requeueHead, hq, LinkPhase.attempting]
  case h_2 hc =>
    have he : e.isReserve = true := by simp [TxEntry.isReserve, hc, TxContent.code]
    have hqueued : s.rsu.state = .queued := by
      have hhead := h.place.head hq he
      rw [if_neg fun hab => ha ⟨he, hab⟩, LinkPhase.attempting_of_colliding hl] at hhead
      exact hhead
    refine ReserveRecord.release ?_ ?_ h.marked.dropHead nofun nofun
    · exact .of_cleared (r := s.rsu) rfl (h.hold_stopped (by simp [hqueued])) (h.backoff_stopped (by simp [hqueued]))
    · change s.blc.queue.tail.filter TxEntry.isReserve = []
      rw [hq]
      exact h.place.tail_reserves hq he
  case h_3 hc =>
    exact h.of_headPassed hq (by simp [TxEntry.isReserve, hc, TxContent.code]) rfl (.inl rfl) rfl rfl rfl rfl

theorem collidedEnd_reserveHolds (h : ReserveHolds s) (hl : s.blc.link.colliding = true)
    (hq : s.blc.queue = e :: rest) : ReserveHolds (collidedEnd e s) := by
  unfold collidedEnd
  dsimp only
  split_ifs with ha hmax
  · obtain ⟨he, hab⟩ := Bool.and_eq_true_iff.1 ha
    have hhead := h.place.head hq he
    rw [if_pos hab] at hhead
    refine ReserveRecord.release (h.toReserveRecord.of_eq rfl rfl rfl rfl rfl rfl) ?_ h.marked.dropHead hhead.1 hhead.2
    change s.blc.queue.tail.filter TxEntry.isReserve = []
    rw [hq]
    exact h.place.tail_reserves hq he
  · exact dropFrame_reserveHolds h hl hq (by simpa using ha) _
  · refine ⟨h.toReserveRecord.of_eq rfl rfl rfl rfl rfl rfl, ?_, ?_⟩
    · refine h.place.retry hl hq (by simpa using ha) (f := fun e => { e with refresh := false }) (fun _ => ⟨rfl, rfl⟩) ?_ ?_
      · simp [openSlot, Blc.mapHead, hq]
      · simp [openSlot, Blc.mapHead, hq, LinkPhase.attempting]
    · exact Blc.Marked.mapHead (b := (openSlot false s.blc.rx s).blc) h.marked (fun _ => rfl) fun _ => .inl rfl

/-- A SENT reserve goes to HOLD or to BACKOFF, with the timer of that state started (R56). -/
theorem reserveOutcome_record (d : Bool) (h : ReserveRecord s) (hs : s.rsu.state = .sent) :
    ReserveRecord (reserveOutcome d s) ∧ (reserveOutcome d s).blc = s.blc ∧
      (reserveOutcome d s).rsu.state ≠ .queued ∧ (reserveOutcome d s).rsu.state ≠ .sent := by
  have hnamed := h.named (by simp [hs])
  have hhold := h.hold_stopped (by simp [hs])
  have hback := h.backoff_stopped (by simp [hs])
  unfold reserveOutcome
  split
  · refine ⟨⟨nofun, fun _ => hnamed, ?_, ⟨fun _ => rfl, fun _ => rfl⟩, h.firm, h.flex⟩, rfl, nofun, nofun⟩
    exact ⟨fun hr => absurd (hhold.symm.trans hr) nofun, nofun⟩
  · refine ⟨⟨nofun, fun _ => hnamed, ⟨fun _ => rfl, fun _ => rfl⟩, ?_, h.firm, h.flex⟩, rfl, nofun, nofun⟩
    exact ⟨fun hr => absurd (hback.symm.trans hr) nofun, nofun⟩

theorem ownSlotEnd_reserveHolds (d : Bool) (h : ReserveHolds s) (hl : s.blc.link.attempting = true)
    (hq : s.blc.queue = e :: rest) : ReserveHolds (ownSlotEnd d e s) := by
  unfold ownSlotEnd
  dsimp only
  split
  case h_1 hc =>
    refine h.of_headPassed hq (by simp [TxEntry.isReserve, hc, TxContent.code]) rfl ?_ ?_ rfl rfl rfl
    · cases e.refresh
      · exact .inl rfl
      · refine .inr ?_
        simp [Blc.requeueHead, hq]
    · cases e.refresh
      · rfl
      · simp [Blc.requeueHead, hq, LinkPhase.attempting]
  case h_2 hc =>
    have he : e.isReserve = true := by simp [TxEntry.isReserve, hc, TxContent.code]
    have hhead := h.place.head hq he
    generalize hu : ((s.mapBlc fun b => { b with link := .idle, idleCount := 0, onWire := none }).mapBlc Blc.dropHead) = u
    have hrecord : ReserveRecord u := by
      subst hu
      exact h.toReserveRecord.of_eq rfl rfl rfl rfl rfl rfl
    have hres : u.blc.reserves = [] := by
      subst hu
      change s.blc.queue.tail.filter TxEntry.isReserve = []
      rw [hq]
      exact h.place.tail_reserves hq he
    have hmarked : u.blc.Marked := by
      subst hu
      exact h.marked.dropHead
    have hrsu : u.rsu = s.rsu := by
      subst hu
      rfl
    cases hab : e.abandoned with
    | true =>
      rw [hab, if_pos rfl, ← hrsu] at hhead
      exact hrecord.release hres hmarked hhead.1 hhead.2
    | false =>
      rw [hab, if_neg nofun, hl, if_pos rfl, ← hrsu] at hhead
      obtain ⟨hout, hblc, hqueued, hsent⟩ := reserveOutcome_record d hrecord hhead
      rw [if_pos (by simp [hhead])]
      exact hout.release (hblc ▸ hres) (hblc ▸ hmarked) hqueued hsent
  case h_3 hc =>
    exact h.of_headPassed hq (by simp [TxEntry.isReserve, hc, TxContent.code]) rfl (.inl rfl) rfl rfl rfl rfl

/-! ### The transmissions of other stations -/

theorem openSlot_reserveHolds (d : Bool) (rx : Option RxFrame) (h : ReserveHolds s) (hl : s.blc.link = .foreign) :
    ReserveHolds (openSlot d rx s) :=
  h.of_frame ⟨rfl, .of_queue rfl (by rw [hl]; rfl) (by rw [hl]; rfl), rfl, rfl, rfl⟩

theorem conflictFound_reserveHolds (h : ReserveHolds s) : ReserveHolds (conflictFound s) := by
  have ht : ReserveHolds (raiseAttention .addressConflict (s.mapBlc fun b => { b with conflict := true })) :=
    h.of_frame ⟨rfl, .of_queue rfl rfl rfl, rfl, rfl, rfl⟩
  unfold conflictFound
  dsimp only
  split
  · exact ht.giveUp (.inl ‹_›)
  · exact ht

theorem takeTransmission_reserveHolds (j : Judged) (h : ReserveHolds s) (hl : s.blc.link = .foreign) :
    ReserveHolds (takeTransmission j s) := by
  unfold takeTransmission
  split
  · exact openSlot_reserveHolds _ _ h hl
  · exact openSlot_reserveHolds _ _ h hl
  · dsimp only
    split_ifs
    · exact openSlot_reserveHolds _ _ h hl
    · exact conflictFound_reserveHolds (openSlot_reserveHolds _ _ h hl)
    · exact openSlot_reserveHolds _ _ h hl

/-- The slot of a received frame ends. -/
theorem closeSlot_reserveHolds {r : RxFrame} (h : ReserveHolds s) (hr : s.blc.slotFrame = some r) :
    ReserveHolds (closeSlot s) := by
  obtain ⟨⟨d, hl⟩, -⟩ := (Blc.slotFrame_eq_some _ _).1 hr
  exact h.of_frame ⟨rfl, .of_queue rfl (by rw [hl]; rfl) (by rw [hl]; rfl), rfl, rfl, rfl⟩

/-! ### The table -/

theorem tableChanged_reserveHolds (h : ReserveHolds s) : ReserveHolds (tableChanged s) := by
  unfold tableChanged dropOnViewChange
  refine .of_frame ?_ (.requestRecompute _)
  split
  · exact (h.giveUp (.inl ‹_›)).of_frame (.requestRecompute _)
  · exact h

theorem putEntry_reserveHolds (a : Address) (e : PeerEntry) (c : Bool) (h : ReserveHolds s) :
    ReserveHolds (putEntry a e c s) := by
  have hput : ReserveHolds (s.mapPvt fun v => v.set a e) := h.of_eq rfl rfl rfl rfl rfl
  unfold putEntry
  cases c
  · exact hput
  · exact tableChanged_reserveHolds hput

theorem silenceCheck_reserveHolds (h : ReserveHolds s) : ReserveHolds (silenceCheck s) := by
  have hcheck : ReserveHolds (s.mapPvt fun v => v.map PeerEntry.check) := h.of_eq rfl rfl rfl rfl rfl
  unfold silenceCheck
  dsimp only
  split
  · exact tableChanged_reserveHolds hcheck
  · exact hcheck

theorem lowerSettleCount_reserveHolds (h : ReserveHolds s) : ReserveHolds (lowerSettleCount s) := by
  unfold lowerSettleCount
  dsimp only
  split_ifs
  · exact h
  · exact h.of_eq rfl rfl rfl rfl rfl
  · exact h.of_eq rfl rfl rfl rfl rfl

theorem changeSchedule_reserveHolds (f : Csc → Csc) (h : ReserveHolds s) : ReserveHolds (changeSchedule f s) := by
  have hmap : ReserveHolds (s.mapCsc f) := h.of_eq rfl rfl rfl rfl rfl
  unfold changeSchedule
  dsimp only
  split
  · exact hmap
  · exact (hmap.of_frame (.requestRecompute _)).of_frame (.requestAnnounce _)

/-! ### The engine -/

/-- A raise is found in the pair alone (R79, R81). -/
theorem actionOf_raise_pair {w : OwnInputs} {g : Figures} {n : Nat} (h : actionOf w g = .raise n) :
    w.phase.pair = true := by
  unfold actionOf at h
  split at h
  · exact absurd h nofun
  · dsimp only at h
    split_ifs at h
    assumption

/-- A reserve wanted in the phase of its class is taken, remembered as refused, or dropped (R53). -/
theorem wantReserve_reserveHolds {c : ReserveClass} (n : Nat) (h : ReserveHolds s)
    (hfirm : c = .firmEnergise → s.bsq.phase = .queued) (hflex : c = .flexRaise → s.bsq.phase.pair = true)
    (hne : s.blc.inTransmission = true → s.blc.queue ≠ []) : ReserveHolds (wantReserve c n s) := by
  unfold wantReserve
  split_ifs with hm hl
  · have hs : s.rsu.state = .none := by simp_all [State.mayReserve]
    refine ⟨h.toReserveRecord.of_eq rfl rfl rfl rfl rfl rfl, ?_, h.marked⟩
    obtain ⟨ht, hh⟩ := Blc.reserveOnLink_iff.1 hl
    cases h.place with
    | absent hr => exact absurd ((Blc.reserveHeads_of_reserves_nil hr).symm.trans hh) nofun
    | waiting _ _ _ _ hst => exact absurd (hs.symm.trans hst) nofun
    | going _ _ _ _ hst => exact absurd (hs.symm.trans hst) nofun
    | abandoned e hr ha hon hq hst => exact .abandoned e hr ha hon hq hst
  · have hs : s.rsu.state = .none := by simp_all [State.mayReserve]
    refine ⟨⟨nofun, fun _ => rfl, ?_, ?_, fun hc => hfirm (Option.some.inj hc), fun hc => hflex (Option.some.inj hc)⟩,
      h.place.want hs (by simpa using hl) hne c n, h.marked.join _⟩
    · change s.tmb.hold.running = true ↔ _
      rw [h.hold_stopped (by simp [hs])]
      exact ⟨nofun, nofun⟩
    · change s.tmb.reserveBackoff.running = true ↔ _
      rw [h.backoff_stopped (by simp [hs])]
      exact ⟨nofun, nofun⟩
  · exact h

/-- The action of a computation on the own inputs as they stand is handed on (R73). -/
theorem handOn_reserveHolds {w : OwnInputs} {g : Figures} (v : Bool) (h : ReserveHolds s) (hw : w.phase = s.bsq.phase)
    (hne : s.blc.inTransmission = true → s.blc.queue ≠ []) : ReserveHolds (handOn v (actionOf w g) s) := by
  have hlast (r : LastResult) {t : State} (ht : ReserveHolds t) : ReserveHolds (setLast r t) :=
    ht.of_eq rfl rfl rfl rfl rfl
  unfold handOn
  cases ha : actionOf w g with
  | release n => exact hlast _ (h.of_frame (.setClaim _ _ _ s))
  | cut n => exact hlast _ ((h.of_frame (.setClaim _ _ _ s)).of_eq rfl rfl rfl rfl rfl)
  | raise n =>
    dsimp only
    split
    · exact hlast _ h
    · exact hlast _ (wantReserve_reserveHolds n h nofun (fun _ => hw ▸ actionOf_raise_pair ha) hne)
  | energise n =>
    dsimp only
    split
    · exact hlast _ h
    · exact hlast _ (wantReserve_reserveHolds n h (fun _ => hw ▸ (actionOf_energise ha).1) nofun hne)
  | none | cutWithheld n | energiseWait n => exact hlast _ h

theorem Blc.requestAnnounce_ne_nil (b : Blc) : b.requestAnnounce.queue ≠ [] := by
  intro h
  have hh := b.requestAnnounce_holds
  simp [Blc.holds, h] at hh

theorem completeComputation_reserveHolds (w : Working) (h : ReserveHolds s)
    (hne : s.blc.inTransmission = true → s.blc.queue ≠ []) (hw : w.stale = false → w.inputs = s.ownInputs) :
    ReserveHolds (completeComputation w s) := by
  have hstored (g : Figures) (t : State) : (storeFigures g t).rsu = t.rsu ∧ (storeFigures g t).blc = t.blc ∧
      (storeFigures g t).tmb = t.tmb ∧ (storeFigures g t).bsq = t.bsq := by
    unfold storeFigures
    dsimp only
    split <;> exact ⟨rfl, rfl, rfl, rfl⟩
  have hover (g : Figures) (t : State) (ht : t.blc.inTransmission = true → t.blc.queue ≠ []) :
      ReserveFrame t (storeOverload g t) ∧
        ((storeOverload g t).blc.inTransmission = true → (storeOverload g t).blc.queue ≠ []) := by
    unfold storeOverload
    dsimp only
    split_ifs
    · exact ⟨.refl t, ht⟩
    · exact ⟨⟨rfl, .requestAnnounce _, rfl, rfl, rfl⟩, fun _ => t.blc.requestAnnounce_ne_nil⟩
    · exact ⟨⟨rfl, .requestAnnounce _, rfl, rfl, rfl⟩, fun _ => t.blc.requestAnnounce_ne_nil⟩
  unfold completeComputation
  dsimp only
  split
  · exact h.of_eq rfl rfl rfl rfl rfl
  · rename_i hstale
    have hphase : w.inputs.phase = s.bsq.phase := by rw [hw (by simpa using hstale)]; rfl
    generalize figuresOf w.inputs _ = g
    obtain ⟨hrsu, hblc, htmb, hbsq⟩ :=
      hstored g ({ s with freeCount := s.freeCount + 1 }.mapHre fun h => { h with computing := none })
    generalize storeFigures g _ = u at hrsu hblc htmb hbsq
    obtain ⟨hframe, hne'⟩ := hover g u (by rw [hblc]; exact hne)
    have hu : ReserveHolds u := h.of_eq hrsu hblc (by rw [htmb]; rfl) (by rw [htmb]; rfl) (by rw [hbsq]; rfl)
    refine handOn_reserveHolds _ (hu.of_frame hframe) ?_ hne'
    rw [hframe.phase, hbsq]
    exact hphase

/-! ### The hold expiry -/

/-- At hold expiry the reserve is cleared, and what follows leaves none (R58, R59). -/
theorem settleHold_reserveHolds (h : ReserveHolds s) (hs : s.rsu.state = .hold) :
    ReserveHolds (settleHold (s.mapTmb fun t => { t with hold := t.hold.stop })) := by
  have hend := h.endHold hs
  unfold settleHold
  split
  · exact ((hend.of_frame (.setClaim _ _ _ _)).of_frame (.requestAnnounce _)).of_frame (.requestRecompute _)
  · split
    · have hp := setPhase_reserveHolds (next := .energising) hend (.inr rfl)
      exact (hp.of_frame (.setClaim _ _ _ _)).of_eq rfl rfl rfl rfl rfl
    · exact (hend.of_frame (.requestWithdraw _)).of_frame (.requestRecompute _)
  · rename_i hc
    have hnamed := h.named (by simp [hs])
    exact absurd ((congrArg Option.isSome (show s.rsu.cls = none from hc)).symm.trans hnamed) nofun

/-! ### The end of an event -/

/-- The end of a calm event leaves the reserve, but for a RESERVE newly at the head that begins its attempt (R55, R125). -/
theorem EndsAs.reserveHolds {u : State} (h : EndsAs s u t) (hu : ReserveHolds u) : ReserveHolds t := by
  have hphase := h.alike.phase
  obtain ⟨-, -, hrsu, -, -, -, hblc, -, -, -, htmb, -⟩ := h
  have hhold : t.tmb.hold = u.tmb.hold := by rw [htmb]
  have hback : t.tmb.reserveBackoff = u.tmb.reserveBackoff := by rw [htmb]
  by_cases hst : State.headStarts s u = true
  · have hidle : u.blc.link = .idle := by
      simp only [State.headStarts, Bool.and_eq_true, beq_iff_eq] at hst
      exact hst.1.1
    refine hu.begin hidle ?_ (by rw [hblc, if_pos hst]) hhold hback hphase
    rw [hrsu]
    exact if_congr (and_iff_left hst) rfl rfl
  · rw [if_neg fun hh => hst hh.2] at hrsu
    rw [if_neg hst] at hblc
    exact hu.of_eq hrsu hblc hhold hback hphase

theorem settle_reserveHolds {u : State} (before : State) (h : ReserveHolds u) : ReserveHolds (settle before u) := by
  by_cases hs : u.started = true
  · exact (settle_ends u before hs).reserveHolds (tripsTaken_reserveHolds h)
  · rwa [settle_config before u (by simpa using hs)]

end

end Sys2Proof.Machine
end

