-- ==== Sys2Proof/Proofs/ReserveSteps.lean ====
section
/-! SUPPORT. The own reserve in form through each command and through every step. -/

namespace Sys2Proof.Machine

section
variable {s t u : State}

/-! ### The form as it is stated -/

/-- With never two frames of a kind in the queue, the form gives the RESERVE one place. -/
theorem ReserveForm.holds (h : ReserveForm s) (hkinds : (s.blc.queue.map (·.content.code)).Nodup) :
    ReserveHolds s := by
  obtain ⟨hblank, hqueued, hsent, hframe, hattempt, hmark, hhold, hback, hfirm, hflex, hnamed, hrefused⟩ := h
  refine ⟨⟨hblank, hnamed, hhold, hback, hfirm, hflex⟩, ?_, fun e he ha => (hmark e he ha).1⟩
  rcases Blc.reserves_of_nodup hkinds with hr | ⟨e, hr⟩
  · have hnone {e : TxEntry} (he : e ∈ s.blc.queue) (hres : e.isReserve = true) : False := by
      simpa [hr] using Blc.mem_reserves.2 ⟨he, hres⟩
    refine .absent hr (fun hs => ?_) (fun hs => ?_) ?_
    · obtain ⟨e, he, hres, -⟩ := hqueued hs
      exact hnone he hres
    · obtain ⟨-, e, he, hres, -⟩ := hsent hs
      exact hnone (List.mem_of_mem_head? he) hres
    · by_contra hf
      obtain ⟨-, e, he, hres, -⟩ := hrefused (by simpa using hf)
      exact hnone (List.mem_of_mem_head? he) hres
  · obtain ⟨he, hres⟩ := Blc.mem_reserves.1 (hr ▸ List.mem_singleton_self e)
    have hone {x : TxEntry} (hx : x ∈ s.blc.queue) (hxr : x.isReserve = true) : x = e := Blc.eq_of_reserves hr hx hxr
    cases ha : e.abandoned with
    | true =>
      refine .abandoned e hr ha (hmark e he ha).2 (fun hs => ?_) (fun hs => ?_)
      · obtain ⟨x, hx, hxr, hxa⟩ := hqueued hs
        exact absurd ((hone hx hxr ▸ hxa).symm.trans ha) nofun
      · obtain ⟨-, x, hx, hxr, hxa⟩ := hsent hs
        exact absurd ((hone (List.mem_of_mem_head? hx) hxr ▸ hxa).symm.trans ha) nofun
    | false =>
      obtain ⟨hs, hc⟩ := hframe e he hres ha
      have hf : s.rsu.refusedOnLink = false := by
        by_contra hf
        obtain ⟨-, x, hx, hxr, hxa⟩ := hrefused (by simpa using hf)
        exact absurd ((hone (List.mem_of_mem_head? hx) hxr ▸ hxa).symm.trans ha) nofun
      rcases hs with hs | hs
      · refine .waiting e hr ha hc hs ?_ hf
        rintro ⟨hl, hheads⟩
        obtain ⟨x, hx, hxr⟩ := Blc.reserveHeads_iff.1 hheads
        obtain rfl := hone (List.mem_of_mem_head? hx) hxr
        exact absurd (hs.symm.trans (hattempt hl x hx hxr ha)) nofun
      · obtain ⟨hl, x, hx, hxr, -⟩ := hsent hs
        exact .going e hr ha hc hs hl (Blc.reserveHeads_iff.2 ⟨x, hx, hxr⟩) hf

theorem ReserveHolds.form (h : ReserveHolds s) : ReserveForm s := by
  have hmarked := h.marked
  have hone {x e : TxEntry} (hr : s.blc.reserves = [e]) (hx : x ∈ s.blc.queue) (hxr : x.isReserve = true) : x = e :=
    Blc.eq_of_reserves hr hx hxr
  have hin {e : TxEntry} (hr : s.blc.reserves = [e]) : e ∈ s.blc.queue ∧ e.isReserve = true :=
    Blc.mem_reserves.1 (hr ▸ List.mem_singleton_self e)
  have hhead {e : TxEntry} (hr : s.blc.reserves = [e]) (hh : s.blc.reserveHeads = true) : e ∈ s.blc.queue.head? := by
    obtain ⟨x, hx, hxr⟩ := Blc.reserveHeads_iff.1 hh
    exact hone hr (List.mem_of_mem_head? hx) hxr ▸ hx
  cases h.place with
  | absent hr hq hs hf =>
    have hnone {e : TxEntry} (he : e ∈ s.blc.queue) (hres : e.isReserve = true) : False := by
      simpa [hr] using Blc.mem_reserves.2 ⟨he, hres⟩
    exact ⟨h.blank, fun hst => absurd hst hq, fun hst => absurd hst hs, fun x hx hxr => (hnone hx hxr).elim,
      fun _ x hx hxr => (hnone (List.mem_of_mem_head? hx) hxr).elim, fun x hx hxa => (hnone hx (hmarked x hx hxa)).elim,
      h.hold, h.backoff, h.firm, h.flex, h.named, fun hst => absurd (hf.symm.trans hst) nofun⟩
  | waiting e hr ha hc hs hl hf =>
    have hnot {x : TxEntry} (hx : x ∈ s.blc.queue) (hxa : x.abandoned = true) : False := by
      rw [hone hr hx (hmarked x hx hxa), ha] at hxa
      exact absurd hxa nofun
    exact ⟨h.blank, fun _ => ⟨e, (hin hr).1, (hin hr).2, ha⟩, fun hst => absurd (hs.symm.trans hst) nofun,
      fun x hx hxr _ => ⟨.inl hs, hone hr hx hxr ▸ hc⟩,
      fun hat x hx hxr _ => absurd ⟨hat, Blc.reserveHeads_iff.2 ⟨x, hx, hxr⟩⟩ hl, fun x hx hxa => (hnot hx hxa).elim,
      h.hold, h.backoff, h.firm, h.flex, h.named, fun hst => absurd (hf.symm.trans hst) nofun⟩
  | going e hr ha hc hs hl hh hf =>
    have hnot {x : TxEntry} (hx : x ∈ s.blc.queue) (hxa : x.abandoned = true) : False := by
      rw [hone hr hx (hmarked x hx hxa), ha] at hxa
      exact absurd hxa nofun
    exact ⟨h.blank, fun hst => absurd (hs.symm.trans hst) nofun, fun _ => ⟨hl, e, hhead hr hh, (hin hr).2, ha⟩,
      fun x hx hxr _ => ⟨.inr hs, hone hr hx hxr ▸ hc⟩, fun _ _ _ _ _ => hs, fun x hx hxa => (hnot hx hxa).elim,
      h.hold, h.backoff, h.firm, h.flex, h.named, fun hst => absurd (hf.symm.trans hst) nofun⟩
  | abandoned e hr ha hl hq hs =>
    obtain ⟨ht, hh⟩ := Blc.reserveOnLink_iff.1 hl
    have hnot {x : TxEntry} (hx : x ∈ s.blc.queue) (hxr : x.isReserve = true) (hxa : x.abandoned = false) : False := by
      rw [hone hr hx hxr, ha] at hxa
      exact absurd hxa nofun
    exact ⟨h.blank, fun hst => absurd hst hq, fun hst => absurd hst hs, fun x hx hxr hxa => (hnot hx hxr hxa).elim,
      fun _ x hx hxr hxa => (hnot (List.mem_of_mem_head? hx) hxr hxa).elim, fun x hx hxa => ⟨hmarked x hx hxa, hl⟩,
      h.hold, h.backoff, h.firm, h.flex, h.named, fun _ => ⟨ht, e, hhead hr hh, (hin hr).2, ha⟩⟩

/-! ### What a command leads to -/

section
variable (h : ReserveHolds s)
include h

theorem ReserveHolds.of_eventIf {c : Bool} {f : State → State} (he : eventIf c f s = .next t)
    (hf : c = true → ReserveHolds (f s)) : ReserveHolds t := by
  rcases eventIf_cases he with ⟨-, rfl⟩ | ⟨hc, rfl⟩
  · exact h
  · exact settle_reserveHolds s (hf hc)

theorem ReserveHolds.of_event {f : State → State} (he : event f s = .next t) (hf : ReserveHolds (f s)) :
    ReserveHolds t := h.of_eventIf (c := true) he fun _ => hf

theorem ReserveHolds.of_next (he : Host.Outcome.next u = (.next t : Host.Outcome State Fault Refusal))
    (hu : ReserveFrame s u) : ReserveHolds t := Host.Outcome.next.inj he ▸ h.of_frame hu

/-- A change under a condition, with no event's end after it, that leaves the reserve. -/
theorem ReserveHolds.of_if {c : Prop} [Decidable c]
    (he : (if c then .next u else .next s) = (.next t : Host.Outcome State Fault Refusal)) (hu : ReserveFrame s u) :
    ReserveHolds t := by
  split at he
  · exact h.of_next he hu
  · exact h.of_next he (.refl s)

theorem ReserveHolds.of_refuse {kind : Nat} {code : ResponseCode} (he : refuse kind code s = .next t) :
    ReserveHolds t := h.of_next he ⟨rfl, .refl _, rfl, rfl, rfl⟩

end

/-! ### The time base and the service port -/

/-- A timer that is due runs. -/
theorem Timer.running_of_due {t : Timer} (h : t.due = true) : t.running = true := by
  rw [Timer.due_iff] at h
  simp [Timer.running, h]

theorem countBoundary_reserveFrame (s : State) : ReserveFrame s (countBoundary s) :=
  ⟨rfl, .refl _, Timer.tick_running _, Timer.tick_running _, rfl⟩

section
variable (h : ReserveHolds s)
include h

theorem execLineInitialSettle_reserveHolds (levels : PerLine Bool) (he : execLineInitialSettle levels s = .next t) :
    ReserveHolds t := by
  unfold execLineInitialSettle at he
  exact h.of_if he ((ReserveFrame.mapLib _ _).after (countBoundary_reserveFrame s))

theorem execLineSampling_reserveHolds (levels : PerLine Bool) (he : execLineSampling levels s = .next t) :
    ReserveHolds t := by
  unfold execLineSampling at he
  split at he
  · exact h.of_next he (.refl s)
  · exact h.of_next he ((ReserveFrame.mapLib _ _).after (countBoundary_reserveFrame s))

theorem execLoadStation_reserveHolds (r : StationRecord) (he : execLoadStation r s = .next t) : ReserveHolds t := by
  unfold execLoadStation at he
  split_ifs at he
  · exact h.of_refuse he
  · exact h.of_next he ⟨rfl, .refl _, rfl, rfl, rfl⟩
  · exact h.of_refuse he

theorem execLoadProfile_reserveHolds (p : ProfileArgs) (he : execLoadProfile p s = .next t) : ReserveHolds t := by
  unfold execLoadProfile at he
  split_ifs at he
  · exact h.of_refuse he
  · exact h.of_next he ⟨rfl, .refl _, rfl, rfl, rfl⟩
  · exact h.of_refuse he

theorem execLoadPeriod_reserveHolds (i k e : Nat) (he : execLoadPeriod i k e s = .next t) : ReserveHolds t := by
  unfold execLoadPeriod at he
  dsimp only at he
  split at he
  · exact h.of_refuse he
  · split at he
    · refine h.of_next he ?_
      split <;> exact ⟨rfl, .refl _, rfl, rfl, rfl⟩
    · exact h.of_refuse he

theorem execSetScheduleMode_reserveHolds (m : Nat) (he : execSetScheduleMode m s = .next t) : ReserveHolds t := by
  unfold execSetScheduleMode at he
  split at he
  · exact h.of_refuse he
  · split at he
    · exact h.of_next he ⟨rfl, .refl _, rfl, rfl, rfl⟩
    · exact h.of_refuse he

theorem execLatch_reserveHolds (he : execLatch s = .next t) : ReserveHolds t := by
  unfold execLatch at he
  split at he
  · exact h.of_refuse he
  · exact h.of_next he ⟨rfl, .refl _, rfl, rfl, rfl⟩

theorem execReadSnapshot_reserveHolds (he : execReadSnapshot s = .next t) : ReserveHolds t := by
  unfold execReadSnapshot at he
  split at he
  · exact h.of_next he ⟨rfl, .refl _, rfl, rfl, rfl⟩
  · exact h.of_refuse he

theorem execReadPeer_reserveHolds (a : Nat) (he : execReadPeer a s = .next t) : ReserveHolds t := by
  unfold execReadPeer at he
  split at he
  · exact h.of_next he ⟨rfl, .refl _, rfl, rfl, rfl⟩
  · exact h.of_refuse he

theorem execProbe_reserveHolds (w : Nat) (he : execProbe w s = .next t) : ReserveHolds t := by
  unfold execProbe at he
  split_ifs at he
  · exact h.of_refuse he
  · exact h.of_next he ⟨rfl, .refl _, rfl, rfl, rfl⟩
  · exact h.of_refuse he

theorem ReserveHolds.answer (kind : Nat) (code : ResponseCode) (data : List Byte) :
    ReserveHolds (answer kind code data s) := h.of_eq rfl rfl rfl rfl rfl

theorem execClearTrip_reserveHolds (he : execClearTrip s = .next t) : ReserveHolds t := by
  unfold execClearTrip at he
  split_ifs at he
  · exact h.of_refuse he
  · exact h.of_refuse he
  · exact h.of_event he ((leaveTripped_reserveHolds h).answer _ _ _)
  · exact h.of_refuse he

theorem execForgetPeer_reserveHolds (a : Nat) (he : execForgetPeer a s = .next t) : ReserveHolds t := by
  unfold execForgetPeer at he
  split at he
  · exact h.of_refuse he
  · split at he
    · split at he
      · exact h.of_event he ((putEntry_reserveHolds _ _ _ h).answer _ _ _)
      · exact h.of_refuse he
    · exact h.of_refuse he

theorem execBerthHold_reserveHolds (v : Nat) (he : execBerthHold v s = .next t) : ReserveHolds t := by
  unfold execBerthHold at he
  split at he
  · exact h.of_refuse he
  · split at he
    · split at he
      · exact h.of_refuse he
      · refine h.of_event he (.answer (evaluateEntry_reserveHolds ?_) _ _ _)
        exact h.of_eq rfl rfl rfl rfl rfl
    · exact h.of_refuse he

/-! ### The lines and the ports -/

/-- A line settles and, in LISTEN and RUN, something follows that keeps the reserve in form. -/
theorem ReserveHolds.of_line {c b : Bool} {f : State → State} {l : Line} {v : Bool} {g : State → State}
    (he : eventIf c f s = .next t) (hu : f s = if b then g (settleLine l v s) else settleLine l v s)
    (hg : ∀ {x}, ReserveHolds x → ReserveHolds (g x)) : ReserveHolds t := by
  refine h.of_eventIf he fun _ => ?_
  have hl : ReserveHolds (settleLine l v s) := h.of_eq rfl rfl rfl rfl rfl
  rw [hu]
  split
  · exact hg hl
  · exact hl

theorem execTariffSelectChange_reserveHolds (n : Fin 4) (v : Bool) (he : execTariffSelectChange n v s = .next t) :
    ReserveHolds t := by
  refine h.of_eventIf he fun _ => ?_
  have hq : ReserveHolds (qualifySelects (settleActive (.tsel n) v s)) := by
    rw [qualifySelects_frame]
    exact h.of_eq rfl rfl rfl rfl rfl
  dsimp only
  split
  · exact changeSchedule_reserveHolds _ hq
  · exact hq

theorem execShipStatusRecord_reserveHolds (levels : List Level) (he : execShipStatusRecord levels s = .next t) :
    ReserveHolds t := by
  unfold execShipStatusRecord at he
  split at he
  · exact h.of_eventIf he fun _ => takeRecord_reserveHolds _ h
  · exact h.of_next he (.refl s)

theorem execMeterSample_reserveHolds (bits : List Bool) (he : execMeterSample bits s = .next t) : ReserveHolds t := by
  refine h.of_eventIf he fun _ => ?_
  unfold takeSample
  dsimp only
  split <;> exact h.of_eq rfl rfl rfl rfl rfl

theorem execReferenceWordEnd_reserveHolds (he : execReferenceWordEnd s = .next t) : ReserveHolds t := by
  unfold execReferenceWordEnd at he
  split at he
  · exact h.of_next he (.refl s)
  · refine h.of_next he ?_
    split <;> exact ⟨rfl, .refl _, rfl, rfl, rfl⟩

theorem execStatusRecordGapEnd_reserveHolds (he : execStatusRecordGapEnd s = .next t) : ReserveHolds t := by
  unfold execStatusRecordGapEnd at he
  refine h.of_if he ?_
  split <;> exact ⟨rfl, .refl _, rfl, rfl, rfl⟩

/-! ### The berth link -/

theorem execReceivedTransmissionEnd_reserveHolds (levels : List Level)
    (he : execReceivedTransmissionEnd levels s = .next t) : ReserveHolds t :=
  h.of_eventIf he fun hc => takeTransmission_reserveHolds _ h (by simp_all)

theorem execAnnounceReceived_reserveHolds (he : execAnnounceReceived s = .next t) : ReserveHolds t := by
  unfold execAnnounceReceived at he
  split at he
  · rename_i hslot
    have hclosed := closeSlot_reserveHolds h hslot
    refine h.of_event he ?_
    split
    · exact putEntry_reserveHolds _ _ _ hclosed
    · exact hclosed
  · exact h.of_next he (.refl s)

theorem execReserveReceived_reserveHolds (levels : SlotLevels) (he : execReserveReceived levels s = .next t) :
    ReserveHolds t := by
  unfold execReserveReceived at he
  split at he
  · rename_i hslot
    have hclosed := closeSlot_reserveHolds h hslot
    refine h.of_event he ?_
    split
    · unfold takeReserve
      split <;> exact putEntry_reserveHolds _ _ _ hclosed
    · exact hclosed
  · exact h.of_next he (.refl s)

theorem execWithdrawReceived_reserveHolds (he : execWithdrawReceived s = .next t) : ReserveHolds t := by
  unfold execWithdrawReceived at he
  split at he
  · rename_i hslot
    have hclosed := closeSlot_reserveHolds h hslot
    refine h.of_event he ?_
    split
    · exact putEntry_reserveHolds _ _ _ hclosed
    · exact hclosed
  · exact h.of_next he (.refl s)

theorem execAttemptStart_reserveHolds (he : execAttemptStart s = .next t) : ReserveHolds t :=
  h.of_eventIf he fun hc => beginAttempt_reserveHolds h (by simp_all)

theorem execCollision_reserveHolds (he : execCollision s = .next t) : ReserveHolds t := by
  refine h.of_eventIf he fun hc => collide_reserveHolds h ?_
  obtain ⟨⟨i, hl⟩, -⟩ := (Blc.mismatch_iff true s.blc).1 (Bool.and_eq_true_iff.1 hc).1
  rw [hl]
  rfl

theorem execCollidedTransmissionEnd_reserveHolds (he : execCollidedTransmissionEnd s = .next t) : ReserveHolds t := by
  unfold execCollidedTransmissionEnd at he
  split at he
  · rename_i hl hq
    exact h.of_eventIf he fun _ => collidedEnd_reserveHolds h (by rw [hl]; rfl) hq
  · exact h.of_next he (.refl s)

theorem execOwnSlotEnd_reserveHolds (levels : SlotLevels) (he : execOwnSlotEnd levels s = .next t) :
    ReserveHolds t := by
  unfold execOwnSlotEnd at he
  split at he
  · rename_i hl hq
    exact h.of_event he (ownSlotEnd_reserveHolds _ h (by rw [hl]; rfl) hq)
  · exact h.of_next he (.refl s)

/-! ### Ages, timers and the engine -/

theorem execReservedFieldAgeStep_reserveHolds (a : Address) (he : execReservedFieldAgeStep a s = .next t) :
    ReserveHolds t := by
  unfold execReservedFieldAgeStep at he
  split at he
  · exact h.of_eventIf he fun _ => putEntry_reserveHolds _ _ _ h
  · exact h.of_next he (.refl s)

theorem execHoldExpiry_reserveHolds (he : execHoldExpiry s = .next t) : ReserveHolds t :=
  h.of_eventIf he fun hd => settleHold_reserveHolds h (h.hold.1 (Timer.running_of_due hd))

theorem execReserveBackoffExpiry_reserveHolds (he : execReserveBackoffExpiry s = .next t) : ReserveHolds t :=
  h.of_eventIf he fun hd =>
    (h.endBackoff (h.backoff.1 (Timer.running_of_due hd))).of_frame (.requestRecompute _)

theorem execSyncWindowExpiry_reserveHolds (he : execSyncWindowExpiry s = .next t) : ReserveHolds t := by
  refine h.of_eventIf he fun _ => ?_
  dsimp only
  split
  · exact enterDeEnergising_reserveHolds (h.of_eq rfl rfl rfl rfl rfl)
  · exact h.of_eq rfl rfl rfl rfl rfl

theorem execParallelLimitExpiry_reserveHolds (he : execParallelLimitExpiry s = .next t) : ReserveHolds t := by
  refine h.of_eventIf he fun _ => ?_
  dsimp only
  split
  · exact setPhase_reserveHolds (h.of_eq rfl rfl rfl rfl rfl) (.inl nofun)
  · exact h.of_eq rfl rfl rfl rfl rfl

theorem execRampTick_reserveHolds (he : execRampTick s = .next t) : ReserveHolds t := by
  refine h.of_eventIf he fun _ => ?_
  dsimp only
  split_ifs
  · exact rampUp_reserveHolds (h.of_eq rfl rfl rfl rfl rfl)
  · exact rampDown_reserveHolds (h.of_eq rfl rfl rfl rfl rfl)
  · exact h.of_eq rfl rfl rfl rfl rfl

theorem execAnnounceTimerExpiry_reserveHolds (he : execAnnounceTimerExpiry s = .next t) : ReserveHolds t := by
  refine h.of_eventIf he fun _ => lowerSettleCount_reserveHolds (silenceCheck_reserveHolds ?_)
  exact h.of_frame ⟨rfl, .requestAnnounce _, rfl, rfl, rfl⟩

theorem execListenExpiry_reserveHolds (he : execListenExpiry s = .next t) : ReserveHolds t := by
  refine h.of_eventIf he fun _ => evaluateEntry_reserveHolds ?_
  exact h.of_frame ⟨rfl, .requestAnnounce _, rfl, rfl, rfl⟩

theorem execComputationComplete_reserveHolds (hne : s.blc.inTransmission = true → s.blc.queue ≠ [])
    (hin : ∀ w ∈ s.hre.computing, w.stale = false → w.inputs = s.ownInputs)
    (he : execComputationComplete s = .next t) : ReserveHolds t := by
  unfold execComputationComplete at he
  split at he
  · rename_i w hw
    exact h.of_event he (completeComputation_reserveHolds w h hne (hin w hw))
  · exact h.of_next he (.refl s)

end

/-! ### Reset, START and every step -/

/-- In CONFIG there is no reserve and no frame (R52, R122). -/
theorem InConfig.reserveHolds (h : InConfig s) : ReserveHolds s := by
  have hres : s.blc.reserves = [] := by rw [Blc.reserves, h.queue]; rfl
  have htmb : s.tmb.hold = .blank ∧ s.tmb.reserveBackoff = .blank := by
    rw [h.tmb]
    exact ⟨rfl, rfl⟩
  have hmarked : s.blc.Marked := by
    rw [Blc.Marked, h.queue]
    exact nofun
  refine ⟨.of_cleared (r := State.reset.rsu) h.rsu ?_ ?_, .absent hres ?_ ?_ ?_, hmarked⟩
  · rw [htmb.1]; rfl
  · rw [htmb.2]; rfl
  · rw [h.rsu]; exact nofun
  · rw [h.rsu]; exact nofun
  · rw [h.rsu]; rfl

theorem execStart_reserveHolds (h : ReserveHolds s) (he : execStart s = .next t) : ReserveHolds t := by
  rcases execStart_cases he with ⟨code, rfl⟩ | ⟨-, -, rfl⟩
  · exact h.answer _ _ _
  · have hl : ReserveHolds s.listening := h.of_frame ⟨rfl, .requestAnnounce _, rfl, rfl, rfl⟩
    have hs : ReserveHolds (sequencerStart s.listening) := by
      rcases sequencerStart_cases s.listening with ⟨-, h'⟩ | ⟨-, -, h'⟩ | ⟨-, -, h'⟩ <;> rw [h']
      · exact uncommandedClose_reserveHolds hl
      · exact plugProven_reserveHolds hl
      · exact hl
    exact settle_reserveHolds s (hs.answer _ _ _)

/-- Every command keeps the own reserve in form. -/
theorem exec_reserveHolds {c : Instr} (h : ReserveHolds s) (hne : s.blc.inTransmission = true → s.blc.queue ≠ [])
    (hin : ∀ w ∈ s.hre.computing, w.stale = false → w.inputs = s.ownInputs) (he : exec c s = .next t) :
    ReserveHolds t := by
  cases c with
  | reset => exact Host.Outcome.next.inj he ▸ (reset_inConfig s.pending s.freeCount).reserveHolds
  | lineInitialSettle levels => exact execLineInitialSettle_reserveHolds h levels he
  | loadStation r => exact execLoadStation_reserveHolds h r he
  | loadProfile p => exact execLoadProfile_reserveHolds h p he
  | loadPeriod i k e => exact execLoadPeriod_reserveHolds h i k e he
  | setScheduleMode m => exact execSetScheduleMode_reserveHolds h m he
  | start => exact execStart_reserveHolds h he
  | readStatus => exact h.of_next he ⟨rfl, .refl _, rfl, rfl, rfl⟩
  | latch => exact execLatch_reserveHolds h he
  | readSnapshot => exact execReadSnapshot_reserveHolds h he
  | readPeer a => exact execReadPeer_reserveHolds h a he
  | clearTrip => exact execClearTrip_reserveHolds h he
  | forgetPeer a => exact execForgetPeer_reserveHolds h a he
  | berthHold v => exact execBerthHold_reserveHolds h v he
  | probe w => exact execProbe_reserveHolds h w he
  | transactionNotTaken bytes => exact h.of_next he (.refl s)
  | pilotProven => exact h.of_line he rfl plugProven_reserveHolds
  | pilotLost => exact h.of_line he rfl fun hx => pilotGone_reserveHolds (linkIdle_reserveHolds hx)
  | auxReadsClosed => exact h.of_line he rfl auxClosure_reserveHolds
  | auxReadsOpen => exact h.of_line he rfl auxOpening_reserveHolds
  | estopChange v => exact h.of_eventIf he fun _ => h.of_eq rfl rfl rfl rfl rfl
  | feederWarningChange v => exact h.of_line he rfl (warningChange_reserveHolds v)
  | plugCodeLineChange n v => exact h.of_if he ⟨rfl, .refl _, rfl, rfl, rfl⟩
  | tariffAdvance => exact h.of_line he rfl (changeSchedule_reserveHolds _)
  | tariffRestart => exact h.of_line he rfl (changeSchedule_reserveHolds _)
  | tariffSelectChange n v => exact execTariffSelectChange_reserveHolds h n v he
  | edgeLineSettled l => exact h.of_if he ⟨rfl, .refl _, rfl, rfl, rfl⟩
  | shipStatusRecord levels => exact execShipStatusRecord_reserveHolds h levels he
  | meterSample bits => exact execMeterSample_reserveHolds h bits he
  | receivedTransmissionEnd levels => exact execReceivedTransmissionEnd_reserveHolds h levels he
  | announceReceived => exact execAnnounceReceived_reserveHolds h he
  | reserveReceived levels => exact execReserveReceived_reserveHolds h levels he
  | withdrawReceived => exact execWithdrawReceived_reserveHolds h he
  | attemptStart => exact execAttemptStart_reserveHolds h he
  | collision => exact execCollision_reserveHolds h he
  | collidedTransmissionEnd => exact execCollidedTransmissionEnd_reserveHolds h he
  | ownSlotEnd levels => exact execOwnSlotEnd_reserveHolds h levels he
  | announceTimerExpiry => exact execAnnounceTimerExpiry_reserveHolds h he
  | listenExpiry => exact execListenExpiry_reserveHolds h he
  | holdExpiry => exact execHoldExpiry_reserveHolds h he
  | reserveBackoffExpiry => exact execReserveBackoffExpiry_reserveHolds h he
  | breakerTimerExpiry =>
    exact h.of_eventIf he fun _ => breakerExpired_reserveHolds _ (h.of_eq rfl rfl rfl rfl rfl)
  | inrushExpiry =>
    exact h.of_eventIf he fun _ =>
      h.of_frame ((ReserveFrame.setClaim _ _ _ _).after ⟨rfl, .refl _, rfl, rfl, rfl⟩)
  | syncWindowExpiry => exact execSyncWindowExpiry_reserveHolds h he
  | parallelLimitExpiry => exact execParallelLimitExpiry_reserveHolds h he
  | rampTick => exact execRampTick_reserveHolds h he
  | vesselLinkTimeout => exact h.of_eventIf he fun _ => linkLost_reserveHolds h
  | linkLossTripExpiry =>
    exact h.of_eventIf he fun _ => takeCause_reserveHolds _ (h.of_eq rfl rfl rfl rfl rfl)
  | overdrawExpiry =>
    exact h.of_eventIf he fun _ => takeCause_reserveHolds _ (h.of_eq rfl rfl rfl rfl rfl)
  | meterStaleExpiry => exact h.of_eventIf he fun _ => h.of_eq rfl rfl rfl rfl rfl
  | silentAgeingStep a => exact h.of_eventIf he fun _ => putEntry_reserveHolds _ _ _ h
  | reservedFieldAgeStep a => exact execReservedFieldAgeStep_reserveHolds h a he
  | computationComplete => exact execComputationComplete_reserveHolds h hne hin he
  | referenceWordEnd => exact execReferenceWordEnd_reserveHolds h he
  | statusIntervalReached => exact h.of_if he ⟨rfl, .refl _, rfl, rfl, rfl⟩
  | statusRecordGapEnd => exact execStatusRecordGapEnd_reserveHolds h he
  | lineSampling levels => exact execLineSampling_reserveHolds h levels he
  | transmissionBegins => exact h.of_next he ⟨rfl, .driven _, rfl, rfl, rfl⟩
  | berthStatusRecordEnd => exact h.of_if he ⟨rfl, .refl _, rfl, rfl, rfl⟩

/-- A computation that is not stale holds the own inputs as they stand: in LISTEN and RUN it is settled so, and in CONFIG
none is in progress. -/
theorem Settled.inputs (hset : Settled s) (hq : ConfigQuiet s) :
    ∀ w ∈ s.hre.computing, w.stale = false → w.inputs = s.ownInputs := by
  by_cases hs : s.started = true
  · obtain ⟨-, -, -, -, hinputs, -⟩ := hset hs
    exact hinputs
  · have hc : InConfig s := (configQuiet_iff s).1 hq (by simpa [State.started] using hs)
    rw [hc.hre]
    exact nofun

end

/-- Settles O58: every command and every bit time keeps the RESERVE in one of its places and the record in form; neither
reads the queue of commands. -/
theorem everyStepKeepsTheReserveForm : Obligations.EveryStepKeepsTheReserveForm := by
  intro s t hq hqueue hset _ hf he
  obtain ⟨-, hkinds, hne, -⟩ := hqueue
  have h := ReserveForm.holds hf hkinds
  unfold step at he
  split at he
  · exact (h.of_next he ⟨rfl, .bitTime _, rfl, rfl, rfl⟩).form
  · rename_i c rest _
    have h' : ReserveHolds { s with pending := rest } := h.of_eq rfl rfl rfl rfl rfl
    exact (exec_reserveHolds h' hne (Settled.inputs hset hq) he).form

end Sys2Proof.Machine
end

