-- ==== Sys2Proof/Proofs/HoldExpiry.lean ====
section
/-! SUPPORT. What the commits at hold expiry come to, with the expiry of the reserve backoff timer. -/

namespace Sys2Proof.Machine

/-! ### The commit amounts -/

theorem firmCommit_eq_iff (r : Nat) (h : Int) : firmCommit r h = r ↔ 0 ≤ h ∨ r = 0 := by
  unfold firmCommit
  split <;> omega

/-- A FLEX_RAISE adds nothing with the link LOST, outside the pair or without headroom, and otherwise what the headroom
and its own amount allow, rounded down to the quantum (R60, R87). -/
theorem State.flexCommitNow_eq (s : State) :
    s.flexCommitNow =
      if s.vlp.link = .lost ∨ s.bsq.phase.pair = false ∨ s.figuresNow.h + (s.rsu.amount : Int) ≤ 0 then 0
      else min s.rsu.amount
        ((s.figuresNow.h + (s.rsu.amount : Int)).toNat / s.figures.quantum * s.figures.quantum) := by
  unfold State.flexCommitNow flexCommit floorTo
  by_cases hl : s.vlp.link = .lost ∨ s.bsq.phase.pair = false
  · rw [if_pos (by simpa using hl), if_pos (or_assoc.1 (.inl hl))]
  · rw [if_neg (by simpa using hl)]
    exact if_congr (by simp [← or_assoc, hl]) rfl rfl

/-! ### The own reserve at hold expiry -/

section
variable {s : State}

theorem settleHold_flexRaise (h : s.rsu.cls = some .flexRaise) : settleHold s = commitFlex s.flexCommitNow s := by
  rw [settleHold, h]

/-- A FIRM_ENERGISE is accepted in QUEUED where H is not negative (R59, R88). -/
theorem settleHold_accepted (h : s.rsu.cls = some .firmEnergise) (hp : s.bsq.phase = .queued)
    (hh : 0 ≤ s.figuresNow.h) : settleHold s = commitEnergise s.rsu.amount s := by
  rw [settleHold, h]
  exact if_pos ⟨(firmCommit_eq_iff _ _).2 (.inl hh), hp⟩

theorem settleHold_refused (h : s.rsu.cls = some .firmEnergise)
    (hr : s.bsq.phase ≠ .queued ∨ s.figuresNow.h < 0 ∧ s.rsu.amount ≠ 0) : settleHold s = refuseEnergise s := by
  rw [settleHold, h]
  refine if_neg fun ⟨hcommit, hp⟩ => ?_
  rw [firmCommit_eq_iff] at hcommit
  have := hr.resolve_left (not_not_intro hp)
  omega

/-- An accepted FIRM_ENERGISE with its close written out (R12). -/
theorem commitEnergise_eq (n : Nat) (s : State) :
    commitEnergise n s =
      let u := setClaim (n - s.figures.inrushAllowance) 0 s.figures.inrushAllowance (setPhase .energising (clearReserve s))
      { u with
        bsq := { u.bsq with bkClose := true, bkOpen := false, serving := some .close }
        tmb := { u.tmb with breaker := { interval := s.station.breakerTime, left := some s.station.breakerTime } } } := by
  have hstation : (setClaim (n - s.figures.inrushAllowance) 0 s.figures.inrushAllowance
      (setPhase .energising (clearReserve s))).station = s.station :=
    ((clearReserve_sequencerFrame s).trans ((setPhase_sequencerFrame _ _).trans (setClaim_sequencerFrame _ _ _ _))).station_eq
  unfold commitEnergise commandClose
  dsimp only
  rw [← hstation]
  rfl

/-! ### The conditions after a commit -/

theorem commitFlex_calm (c : Nat) (hc : s.calm = true) : (commitFlex c s).calm = true := by
  refine State.calm_congr hc ?_ (commitFlex_outputsFrame c s).phase ?_ ?_
  · exact ((clearReserve_sequencerFrame s).trans (setClaim_sequencerFrame _ _ _ _)).lib
  all_goals simp [commitFlex, requestRecompute, requestAnnounce, clearReserve]

/-- With no warning ENERGISING takes no condition that QUEUED does not. -/
theorem commitEnergise_calm (n : Nat) (hc : s.calm = true) (hp : s.bsq.phase = .queued)
    (hw : s.warningActive = false) : (commitEnergise n s).calm = true := by
  have hframe := commitEnergise_sequencerFrame s n
  refine State.calm_mono hc (fun he => ?_) (fun hf => ?_) ?_ ?_
  · exact s.estopCondition_iff.2 ⟨hframe.estopActive ▸ ((State.estopCondition_iff _).1 he).1, by simp [hp]⟩
  · have hactive := ((State.feederCondition_iff _).1 hf).1
    rw [hframe.warningActive, hw] at hactive
    exact absurd hactive nofun
  all_goals simp [commitEnergise, commandClose, clearReserve]

theorem commitEnergise_takenAs (n : Nat) (hs : s.started = true) (hc : s.calm = true) (hp : s.bsq.phase = .queued)
    (hw : s.warningActive = false) : TakenAs (commitEnergise n s) (commitEnergise n s) :=
  .of_calm ((commitEnergise_sequencerFrame s n).started.trans hs) (commitEnergise_calm n hc hp hw)

end

end Sys2Proof.Machine
end

namespace Sys2Proof.Machine

/-- Settles O36: each expiry is one event, and at hold expiry the class of the reserve says which commit is made. -/
theorem holdAndBackoffExpiriesSettleTheReserve : Obligations.HoldAndBackoffExpiriesSettleTheReserve := by
  intro s
  refine ⟨fun hs hc hd hcls => ?_, fun hs hc hd hcls hp hh hw => ?_, fun hs hc hd hcls hr => ?_, fun hs hc hd => ?_,
    fun hd => eventIf_of_not_due hd, fun hd => eventIf_of_not_due hd⟩
  · dsimp only
    rw [← s.flexCommitNow_eq]
    refine TakenAs.completes_of_due rfl hd (settleHold_flexRaise hcls) (.of_calm ?_ (commitFlex_calm _ hc))
    exact ((clearReserve_sequencerFrame _).trans (setClaim_sequencerFrame _ _ _ _)).started.trans hs
  · have hdone : CompletesAs .holdExpiry s (commitEnergise s.rsu.amount (s.mapTmb fun t => { t with hold := t.hold.stop })) :=
      TakenAs.completes_of_due rfl hd (settleHold_accepted hcls hp hh) (commitEnergise_takenAs _ hs hc hp hw)
    rw [commitEnergise_eq] at hdone
    exact hdone
  · exact TakenAs.completes_of_due rfl hd (settleHold_refused hcls hr) (.of_calm hs hc)
  · exact TakenAs.completes_of_due rfl hd rfl (.of_calm hs hc)

end Sys2Proof.Machine

/-! SUPPORT. The rounding of the engine and the stages that choose its action; what the end of a computation stores and
hands on; and the statements about them. -/

namespace Sys2Proof.Machine

/-! ### Rounding to a quantum -/

theorem floorTo_eq_sub_mod (q n : Nat) : floorTo q n = n - n % q := Nat.div_mul_self_eq_mod_sub_self

/-- A number rounded down is at least one quantum exactly where the number is. -/
theorem le_floorTo_iff {q : Nat} (hq : 1 ≤ q) (n : Nat) : q ≤ floorTo q n ↔ q ≤ n := by
  rw [floorTo, le_mul_iff_one_le_left hq, Nat.one_le_div_iff hq]

/-- A number rounded up lies less than one quantum above it (R89). -/
theorem ceilTo_bounds {q : Nat} (hq : 1 ≤ q) (n : Nat) : n ≤ ceilTo q n ∧ ceilTo q n < n + q := by
  have hdiv := Nat.div_add_mod' (n + q - 1) q
  have hmod := Nat.mod_lt (n + q - 1) hq
  unfold ceilTo
  omega

/-- The cut is the share of the excess rounded up to the kilowatt `k` and to `n` quanta, at most the flex (R83). -/
theorem cutAmount_rounds {q f : Nat} (hq : 1 ≤ q) (hf : 0 < f) (excess flex : Nat) :
    ∃ k n, excess * flex ≤ k * f ∧ k * f < excess * flex + f ∧ k ≤ n * q ∧ n * q < k + q ∧
      cutAmount q excess flex f = min flex (n * q) := by
  obtain ⟨hk, hk'⟩ := ceilTo_bounds hf (excess * flex)
  obtain ⟨hn, hn'⟩ := ceilTo_bounds hq ((excess * flex + f - 1) / f)
  exact ⟨_, _, hk, hk', hn, hn', rfl⟩

/-! ### The cuts of several stations -/

theorem cutAmount_le_flex (q excess flex f : Nat) : cutAmount q excess flex f ≤ flex := min_le_left _ _

/-- A cut is less than one quantum above the exact share of the excess (R83). -/
theorem mul_cutAmount_lt {q f : Nat} (hq : 1 ≤ q) (hf : 0 < f) (excess flex : Nat) :
    f * cutAmount q excess flex f < excess * flex + f * q := by
  obtain ⟨k, n, -, hk, -, hn, hcut⟩ := cutAmount_rounds hq hf excess flex
  have hle : cutAmount q excess flex f + 1 ≤ k + q := (Nat.succ_le_succ (hcut ▸ min_le_right _ _)).trans hn
  have hmul := Nat.mul_le_mul_left f hle
  rw [mul_add, mul_add, mul_one, mul_comm f k] at hmul
  omega

/-- A cut is at least the exact share of the excess, or of all the flex where the excess is more (R83). -/
theorem min_mul_le_mul_cutAmount {q f : Nat} (hq : 1 ≤ q) (hf : 0 < f) (excess flex : Nat) :
    min excess f * flex ≤ f * cutAmount q excess flex f := by
  obtain ⟨k, n, hk, -, hn, -, hcut⟩ := cutAmount_rounds hq hf excess flex
  rw [hcut]
  rcases min_choice flex (n * q) with hmin | hmin <;> rw [hmin]
  · exact Nat.mul_le_mul_right _ (min_le_right _ _)
  · calc min excess f * flex ≤ excess * flex := Nat.mul_le_mul_right _ (min_le_left _ _)
      _ ≤ k * f := hk
      _ ≤ n * q * f := Nat.mul_le_mul_right _ hn
      _ = f * (n * q) := mul_comm _ _

/-- Settles O44: the shares of the stations, each rounded up, add up to the smaller of the excess and the flex. -/
theorem cutSharesTogetherCoverTheExcess : Obligations.CutSharesTogetherCoverTheExcess := by
  intro stations excess hquanta hf
  dsimp only
  generalize hsum : (stations.map (·.2)).sum = f at hf
  refine ⟨fun x hx => ⟨cutAmount_le_flex _ _ _ _, mul_cutAmount_lt (hquanta x hx) hf _ _⟩, ?_⟩
  refine Nat.le_of_mul_le_mul_left ?_ hf
  calc f * min excess f = min excess f * (stations.map (·.2)).sum := by rw [hsum, mul_comm]
    _ = (stations.map fun x => min excess f * x.2).sum := (List.sum_map_mul_left ..).symm
    _ ≤ (stations.map fun x => f * cutAmount x.1 excess x.2 f).sum :=
      List.sum_le_sum fun x hx => min_mul_le_mul_cutAmount (hquanta x hx) hf _ _
    _ = f * (stations.map fun x => cutAmount x.1 excess x.2 f).sum := List.sum_map_mul_left ..

/-! ### The stages of a computation -/

section
variable {w : OwnInputs} {p : ProfileFigures} (g : Figures)

/-- With no profile, outside RUN and in other phases nothing is found (R78, R150). -/
theorem actionOf_idle
    (h : w.profile = none ∨ w.mode ≠ .run ∨ (w.phase.pair = false ∧ w.phase ≠ .queued)) : actionOf w g = .none := by
  unfold actionOf
  cases hp : w.profile with
  | none => rfl
  | some p =>
    rcases h with h | h | ⟨hpair, hqueued⟩
    · exact absurd (hp.symm.trans h) nofun
    · simp [h]
    · simp [hpair, hqueued]

/-- The stages in PARALLEL and ON_SHORE (R79 to R84). -/
theorem actionOf_pair (hp : w.profile = some p) (hm : w.mode = .run) (hpair : w.phase.pair = true) :
    actionOf w g =
      if w.wantFlex p < w.flex then .release (w.wantFlex p)
      else if g.h < 0 then
        if g.f = 0 ∨ w.flex = 0 then .none
        else if w.cutSettle = 0 then .cut (cutAmount p.quantum (-g.h).toNat w.flex g.f)
        else .cutWithheld (cutAmount p.quantum (-g.h).toNat w.flex g.f)
      else if 0 < g.h ∧ w.reserveState = .none ∧ w.flex < w.wantFlex p then
        if p.quantum ≤ raiseAmount p (w.wantFlex p) w.flex g.h then .raise (raiseAmount p (w.wantFlex p) w.flex g.h)
        else .none
      else .none := by
  simp only [actionOf, hp, hm, hpair, ne_eq, not_true_eq_false, if_false, if_true]

/-- The admission in QUEUED (R80). -/
theorem actionOf_queued (hp : w.profile = some p) (hm : w.mode = .run) (hq : w.phase = .queued) :
    actionOf w g =
      if w.reserveState = .none then
        if ((w.clampedFirm + p.inrushAllowance : Nat) : Int) ≤ g.h then .energise (w.clampedFirm + p.inrushAllowance)
        else .energiseWait (w.clampedFirm + p.inrushAllowance)
      else .none := by
  have hpair : Phase.queued.pair = false := rfl
  simp [actionOf, hp, hm, hq, hpair]

/-- A raise is rounded down, and found where it is at least one quantum (R81). -/
theorem actionOf_raising (hp : w.profile = some p) (hm : w.mode = .run) (hpair : w.phase.pair = true)
    (hq : 1 ≤ p.quantum) (hh : 0 < g.h) (hres : w.reserveState = .none) (hlt : w.flex < w.wantFlex p) :
    let r := min (min (w.wantFlex p - w.flex) g.h.toNat) p.raiseLimit
    actionOf w g = if p.quantum ≤ r then .raise (r - r % p.quantum) else .none := by
  rw [actionOf_pair g hp hm hpair, if_neg (Nat.not_lt.2 hlt.le), if_neg (Int.not_lt.2 hh.le), if_pos ⟨hh, hres, hlt⟩]
  simp only [raiseAmount, le_floorTo_iff hq]
  rw [floorTo_eq_sub_mod]

/-- Settles O43: each clause is one way through the stages, the cut and the raise with what their rounding gives. -/
theorem stagesChooseTheAction : Obligations.StagesChooseTheAction := by
  intro w g
  refine ⟨actionOf_idle g, fun p hp hm hq => ?_⟩
  refine ⟨fun hpair hlt => ?_, fun hpair (hle : w.flex ≤ w.wantFlex p) hneg hnone => ?_,
    fun hpair (hle : w.flex ≤ w.wantFlex p) hneg hf hflex => ?_,
    fun hpair (hle : w.flex ≤ w.wantFlex p) hpos hnone => ?_, fun hpair hpos hres hlt => ?_, fun hph hres => ?_,
    fun hph hres => ?_⟩
  · rw [actionOf_pair g hp hm hpair]
    exact if_pos hlt
  · rw [actionOf_pair g hp hm hpair, if_neg (Nat.not_lt.2 hle), if_pos hneg, if_pos hnone]
  · obtain ⟨k, n, hk, hk', hn, hn', hcut⟩ := cutAmount_rounds hq hf (-g.h).toNat w.flex
    rw [mul_comm _ w.flex] at hk hk'
    refine ⟨_, k, n, Int.toNat_of_nonneg (by omega), hk, hk', hn, hn', ?_⟩
    rw [actionOf_pair g hp hm hpair, if_neg (Nat.not_lt.2 hle), if_pos hneg, if_neg (by omega), hcut]
  · have hraise : ¬(0 < g.h ∧ w.reserveState = .none ∧ w.flex < w.wantFlex p) := by
      rintro ⟨hh, hnores, hlt⟩
      rcases hnone with h | h | h
      · omega
      · exact h hnores
      · exact hlt.ne h
    rw [actionOf_pair g hp hm hpair, if_neg (Nat.not_lt.2 hle), if_neg (Int.not_lt.2 hpos), if_neg hraise]
  · have hfound := actionOf_raising g hp hm hpair hq hpos hres hlt
    exact ⟨fun hr => hfound.trans (if_neg (Nat.not_le.2 hr)), fun hr => hfound.trans (if_pos hr)⟩
  · rw [actionOf_queued g hp hm hph, if_neg hres]
  · rw [actionOf_queued g hp hm hph, if_pos hres]

end

/-! ### What a computation stores -/

section
variable (s : State)

/-- The figures are stored, and a disagreement raises its reason as it becomes set (R74, R91). -/
theorem storeFigures_eq (g : Figures) :
    storeFigures g s =
      { s with
        hre := { s.hre with
          pmin := g.pmin, e := g.e, s := g.s, f := g.f, h := g.h, disagreement := g.disagreement }
        svp := { s.svp with
          attention := { s.svp.attention with
            scheduleDisagreement :=
              s.svp.attention.scheduleDisagreement || (g.disagreement && !s.hre.disagreement) }
          attn := s.svp.attn || (g.disagreement && !s.hre.disagreement) } } := by
  unfold storeFigures
  cases g.disagreement && !s.hre.disagreement <;>
    simp [State.mapHre, raiseAttention_eq, AttentionSet.add]

/-- Firm overload is stored, announces its change, and raises its reason as it becomes set (R85). -/
theorem storeOverload_eq (g : Figures) :
    let heavy := decide (s.svp.mode = .run ∧ g.h < 0 ∧ g.f = 0)
    storeOverload g s =
      { s with
        hre := { s.hre with firmOverload := heavy }
        blc := if heavy ≠ s.hre.firmOverload then s.blc.requestAnnounce else s.blc
        svp := { s.svp with
          attention := { s.svp.attention with
            firmOverload := s.svp.attention.firmOverload || (heavy && !s.hre.firmOverload) }
          attn := s.svp.attn || (heavy && !s.hre.firmOverload) } } := by
  have hdecide : (s.svp.mode == .run && decide (g.h < 0) && g.f == 0) =
      decide (s.svp.mode = .run ∧ g.h < 0 ∧ g.f = 0) := by
    rw [Bool.eq_iff_iff]
    simp [and_assoc]
  unfold storeOverload
  rw [hdecide]
  generalize decide (s.svp.mode = .run ∧ g.h < 0 ∧ g.f = 0) = heavy
  by_cases hsame : heavy = s.hre.firmOverload
  · simp [hsame]
  · have hold : s.hre.firmOverload = !heavy := Bool.eq_not.2 (Ne.symm hsame)
    cases heavy <;> simp [hold, requestAnnounce, raiseAttention_eq, AttentionSet.add, State.mapHre, State.mapBlc]

/-- The state once a computation that is not stale has stored its figures and its two flags (R74, R85, R91), before its
action is handed on. -/
def State.computed (g : Figures) : State :=
  let heavy := decide (s.svp.mode = .run ∧ g.h < 0 ∧ g.f = 0)
  let newDisagreement := g.disagreement && !s.hre.disagreement
  let newHeavy := heavy && !s.hre.firmOverload
  { s with
    freeCount := s.freeCount + 1
    hre := { s.hre with
      computing := none, pmin := g.pmin, e := g.e, s := g.s, f := g.f, h := g.h, disagreement := g.disagreement
      firmOverload := heavy }
    blc := if heavy ≠ s.hre.firmOverload then s.blc.requestAnnounce else s.blc
    svp := { s.svp with
      attention := { s.svp.attention with
        scheduleDisagreement := s.svp.attention.scheduleDisagreement || newDisagreement
        firmOverload := s.svp.attention.firmOverload || newHeavy }
      attn := s.svp.attn || newDisagreement || newHeavy } }

/-- An ANNOUNCE that firm overload requests leaves the conflict, and whether a RESERVE is on the link. -/
theorem State.computed_blc (g : Figures) :
    (s.computed g).blc.conflict = s.blc.conflict ∧ (s.computed g).blc.reserveOnLink = s.blc.reserveOnLink := by
  dsimp only [State.computed]
  split
  · exact ⟨by rw [Blc.requestAnnounce_eq], (SameReserves.requestAnnounce s.blc).onLink⟩
  · exact ⟨rfl, rfl⟩

variable {s} {w : Working}

/-- A computation whose own inputs changed is discarded (R73). -/
theorem completeComputation_of_stale (hstale : w.stale = true) :
    completeComputation w s =
      { s with
        freeCount := s.freeCount + 1
        hre := { s.hre with computing := none, last := .discarded, request := true } } := by
  rw [completeComputation, if_pos hstale]
  rfl

/-- Any other stores its figures and flags and hands on its action (R73, R91). -/
theorem completeComputation_of_fresh (hstale : w.stale = false) :
    completeComputation w s =
      let g := figuresOf w.inputs (peersOf s.ownAddress (readingsUsed s.freeCount w.seen))
      handOn s.hre.request (actionOf w.inputs g) (s.computed g) := by
  rw [completeComputation, if_neg (by simp [hstale])]
  dsimp only
  rw [storeFigures_eq, storeOverload_eq]
  rfl

end

/-! ### What a computation hands on -/

section
variable (s : State) (v : Bool)

/-- A change of the claim does not read the last result. -/
theorem setLast_setClaim (r : LastResult) (firm flex transient : Nat) :
    setLast r (setClaim firm flex transient s) = setClaim firm flex transient (setLast r s) := by
  by_cases h : firm = s.bsq.firm ∧ flex = s.bsq.flex ∧ transient = s.bsq.transient
  · obtain ⟨rfl, rfl, rfl⟩ := h
    rw [setClaim_same]
    exact (setClaim_same (setLast r s)).symm
  · rw [setClaim_of_ne _ _ _ s h, setClaim_of_ne _ _ _ (setLast r s) h]
    rfl

/-- A wanted reserve does not read the last result. -/
theorem setLast_wantReserve (r : LastResult) (c : ReserveClass) (n : Nat) :
    setLast r (wantReserve c n s) = wantReserve c n (setLast r s) := by
  have hmay : (setLast r s).mayReserve c = s.mayReserve c := rfl
  have hlink : (setLast r s).blc.reserveOnLink = s.blc.reserveOnLink := rfl
  unfold wantReserve
  rw [hmay, hlink]
  cases s.mayReserve c <;> cases s.blc.reserveOnLink <;> rfl

/-- A wanted reserve is dropped on one of its three grounds, refused for an earlier RESERVE on the link, or taken
(R53). -/
theorem wantReserve_eq (c : ReserveClass) (n : Nat) :
    wantReserve c n s =
      if s.rsu.state ≠ .none ∨ s.blc.conflict = true ∨ (c = .flexRaise ∧ s.vlp.link = .lost) then s
      else if s.blc.reserveOnLink = true then { s with rsu := { s.rsu with refusedOnLink := true } }
      else
        { s with
          rsu := { s.rsu with state := .queued, amount := n, cls := some c }, blc := s.blc.join (.reserve n c) } := by
  have hmay : s.mayReserve c = true ↔
      ¬(s.rsu.state ≠ .none ∨ s.blc.conflict = true ∨ (c = .flexRaise ∧ s.vlp.link = .lost)) := by
    simp [State.mayReserve, and_assoc, imp_iff_not_or]
  unfold wantReserve
  by_cases h : s.rsu.state ≠ .none ∨ s.blc.conflict = true ∨ (c = .flexRaise ∧ s.vlp.link = .lost)
  · rw [if_pos h, if_neg (mt hmay.1 (not_not.2 h))]
  · rw [if_neg h, if_pos (hmay.2 h)]
    rfl

theorem handOn_release (x : Nat) :
    handOn v (.release x) s =
      setClaim s.bsq.firm x s.bsq.transient (setLast (.release (s.bsq.flex - x)) s) := setLast_setClaim _ _ _ _ _

/-- A cut sets the settle count (R84). -/
theorem handOn_cut (n : Nat) :
    handOn v (.cut n) s =
      let c := setClaim s.bsq.firm (s.bsq.flex - n) s.bsq.transient (setLast (.cut n) s)
      { c with hre := { c.hre with cutSettle := 2 } } := by
  rw [← setLast_setClaim]
  rfl

theorem handOn_raise (n : Nat) :
    handOn v (.raise n) s =
      if v = true then setLast .deferred s
      else wantReserve .flexRaise n (setLast (.reserveWanted .flexRaise n) s) := by
  rw [← setLast_wantReserve]
  rfl

theorem handOn_energise (n : Nat) :
    handOn v (.energise n) s =
      if v = true then setLast .deferred s
      else wantReserve .firmEnergise n (setLast (.reserveWanted .firmEnergise n) s) := by
  rw [← setLast_wantReserve]
  rfl

/-- What is handed on reaches neither the trips nor what they remember. -/
theorem handOn_tru (a : Action) : (handOn v a s).tru = s.tru := by
  have hwant (c : ReserveClass) (n : Nat) (r : LastResult) : (wantReserve c n (setLast r s)).tru = s.tru := by
    rw [wantReserve_frame]
    rfl
  cases a with
  | release x => rw [handOn_release, setClaim_frame]; rfl
  | cut n => rw [handOn_cut, setClaim_frame]; rfl
  | raise n => rw [handOn_raise, apply_ite State.tru, hwant]; exact ite_self _
  | energise n => rw [handOn_energise, apply_ite State.tru, hwant]; exact ite_self _
  | none | cutWithheld n | energiseWait n => rfl

end

/-! ### The end of a computation -/

section
variable {s : State} {w : Working}

theorem completeComputation_tru (w : Working) (s : State) : (completeComputation w s).tru = s.tru := by
  cases hstale : w.stale
  · rw [completeComputation_of_fresh hstale]
    exact handOn_tru _ _ _
  · rw [completeComputation_of_stale hstale]

/-- The end of a computation makes no trip condition newly true. -/
theorem completesAs_completeComputation (hw : s.hre.computing = some w) (hs : s.started = true) (hc : s.calm = true) :
    CompletesAs .computationComplete s (completeComputation w s) := by
  refine completesAs_of_event s (f := completeComputation w) ?_ ((EventFrame.completeComputation w s).started hs)
    (State.calm_congr hc (completeComputation_lib w s) (completeComputation_outputsFrame w s).phase
      (by rw [completeComputation_tru]) (by rw [completeComputation_tru]))
  simp only [exec, execComputationComplete, hw]

/-- A reserve that the end of a computation wants is dropped, refused or taken on the grounds that stood before (R53). -/
theorem wantReserve_computed (s : State) (g : Figures) (r : LastResult) (c : ReserveClass) (n : Nat) :
    let t := setLast r (s.computed g)
    wantReserve c n t =
      if s.rsu.state ≠ .none ∨ s.blc.conflict = true ∨ (c = .flexRaise ∧ s.vlp.link = .lost) then t
      else if s.blc.reserveOnLink = true then { t with rsu := { s.rsu with refusedOnLink := true } }
      else
        { t with
          rsu := { s.rsu with state := .queued, amount := n, cls := some c }, blc := t.blc.join (.reserve n c) } := by
  obtain ⟨hconflict, honlink⟩ := s.computed_blc g
  dsimp only
  rw [wantReserve_eq, ← hconflict, ← honlink]
  rfl

/-- Settles O41: a computation is discarded, or stores its figures and flags and hands on the action that it found. -/
theorem completionStoresFiguresAndHandsOnTheAction : Obligations.CompletionStoresFiguresAndHandsOnTheAction := by
  intro s hs hc
  refine ⟨fun w hw hstale => ?_, fun hidle => ?_, fun w hw hstale => ?_⟩
  · rw [← completeComputation_of_stale hstale]
    exact completesAs_completeComputation hw hs hc
  · simp only [exec, execComputationComplete, hidle]
  · have hdone := completesAs_completeComputation hw hs hc
    rw [completeComputation_of_fresh hstale] at hdone
    dsimp only at hdone
    generalize figuresOf w.inputs (peersOf s.ownAddress (readingsUsed s.freeCount w.seen)) = g at hdone ⊢
    refine ⟨fun ha => ?_, fun x ha => ?_, fun n ha => ?_, fun n ha => ?_, fun n ha => ?_, fun n ha => ?_, fun n ha => ?_⟩ <;>
      rw [ha] at hdone
    · exact hdone
    · rw [handOn_release] at hdone
      exact hdone
    · rw [handOn_cut] at hdone
      exact hdone
    · exact hdone
    · rw [handOn_raise, wantReserve_computed] at hdone
      exact hdone
    · rw [handOn_energise, wantReserve_computed] at hdone
      exact hdone
    · exact hdone

end

end Sys2Proof.Machine

/-! SUPPORT. The bounds of the grant, operation by operation and event by event, in every station mode; and the proof
that every step keeps them. -/

namespace Sys2Proof.Machine

/-! ### Changes that leave the grant -/

/-- The bounds read the phase, the claim and the grant but for its port. -/
theorem GrantBounds.congr {s t : State} (h : GrantBounds s) (hp : t.bsq.phase = s.bsq.phase)
    (hf : t.bsq.firm = s.bsq.firm) (hx : t.bsq.flex = s.bsq.flex)
    (hg : t.gos = { s.gos with port := t.gos.port, updateCount := t.gos.updateCount }) : GrantBounds t := by
  unfold GrantBounds
  rw [hp, hf, hx, hg]
  exact h

theorem Alike.grantBounds {s t : State} (ha : Alike s t) (h : GrantBounds s) : GrantBounds t :=
  h.congr ha.phase ha.firm ha.flex ha.grant

theorem Unmoved.grantBounds {s t : State} (hu : Unmoved s t) (h : GrantBounds s) : GrantBounds t :=
  h.congr (by rw [hu.bsq]) (by rw [hu.bsq]) (by rw [hu.bsq]) hu.grant

theorem ite_grantBounds {p : Prop} [Decidable p] {u v : State} (hu : GrantBounds u) (hv : GrantBounds v) :
    GrantBounds (if p then u else v) := by
  split
  · exact hu
  · exact hv

section
variable {s : State}

theorem addLater_grantBounds (c : TripCause) (h : GrantBounds s) : GrantBounds (addLater c s) := by
  rw [addLater_frame]
  exact h

theorem formClamps_grantBounds (h : GrantBounds s) : GrantBounds (formClamps s) := by
  unfold formClamps
  dsimp only
  split_ifs <;> exact h

theorem compareVessel_grantBounds (r : ShipRecord) (h : GrantBounds s) : GrantBounds (compareVessel r s) := by
  unfold compareVessel
  split <;> exact h

theorem clearAbortFlags_grantBounds (r : ShipRecord) (h : GrantBounds s) : GrantBounds (clearAbortFlags r s) :=
  ite_grantBounds h h

theorem linkHeard_grantBounds (h : GrantBounds s) : GrantBounds (linkHeard s) := ite_grantBounds h h

theorem linkIdle_grantBounds (h : GrantBounds s) : GrantBounds (linkIdle s) := formClamps_grantBounds h

/-! ### The claim and the phase -/

/-- A change of claim hands the grant a new target, or leaves it where firm and flex are as they were. -/
theorem setClaim_gos (firm flex transient : Nat) (s : State) :
    (setClaim firm flex transient s).gos =
      if firm = s.bsq.firm ∧ flex = s.bsq.flex then s.gos
      else s.gos.newTarget s.bsq.phase.connected (firm + flex) := by
  by_cases hsame : firm = s.bsq.firm ∧ flex = s.bsq.flex ∧ transient = s.bsq.transient
  · obtain ⟨rfl, rfl, rfl⟩ := hsame
    rw [setClaim_same, if_pos ⟨rfl, rfl⟩]
  · rw [setClaim_of_ne _ _ _ _ hsame]

/-- A new target within the bounds is firm plus flex, and A and P come down to it (R93, R94). -/
theorem setClaim_gos_of_bounds (firm flex transient : Nat) (h : GrantBounds s) :
    (setClaim firm flex transient s).gos =
      { s.gos with
        target := firm + flex
        applied := if s.bsq.phase.connected then min s.gos.applied (firm + flex) else s.gos.applied
        pending := if s.bsq.phase.connected then min s.gos.pending (firm + flex) else s.gos.pending } := by
  obtain ⟨htarget, happlied, hpending, -⟩ := h
  rw [setClaim_gos, ← Gos.newTarget_eq _ _ _ happlied]
  split_ifs with hsame
  · obtain ⟨rfl, rfl⟩ := hsame
    rw [← htarget, Gos.newTarget_target _ _ happlied hpending]
  · rfl

/-- A change of claim keeps the bounds: the target is the new firm plus flex and nothing stands above it. -/
theorem setClaim_grantBounds (firm flex transient : Nat) (h : GrantBounds s) :
    GrantBounds (setClaim firm flex transient s) := by
  have hgos := setClaim_gos_of_bounds firm flex transient h
  obtain ⟨-, happlied, -, hidle, hback, hpair⟩ := h
  unfold GrantBounds
  rw [hgos, setClaim_bsq]
  cases hc : s.bsq.phase.connected
  · have hp := hidle hc
    exact ⟨rfl, happlied, by simp [hp], fun _ => hp, hback, hpair⟩
  · exact ⟨rfl, min_le_min_right _ happlied, min_le_right _ _, nofun,
      fun hb => congrArg (min · (firm + flex)) (hback hb), hpair⟩

theorem zeroClaim_grantBounds (h : GrantBounds s) : GrantBounds (zeroClaim s) :=
  setClaim_grantBounds (s := s.mapTmb fun t => { t with inrush := t.inrush.stop }) 0 0 0 h

theorem confirmOpen_grantBounds (h : GrantBounds s) : GrantBounds (confirmOpen s) :=
  zeroClaim_grantBounds (s := setConfirmed true s) h

/-- A change of phase does to the grant what the phase entered does (R100, R102, R103). -/
theorem setPhase_gos {next : Phase} (hne : next ≠ s.bsq.phase) : (setPhase next s).gos = s.gos.enter next := by
  rw [setPhase_eq next s hne]

/-- A change of phase keeps the bounds: entry to the pair leaves the grant, entry to TRANSFER_BACK makes P equal to A,
and entry to any other phase takes both to 0. -/
theorem setPhase_grantBounds (next : Phase) (h : GrantBounds s) : GrantBounds (setPhase next s) := by
  by_cases hsame : next = s.bsq.phase
  · rw [setPhase, if_pos hsame]
    exact h
  · obtain ⟨htarget, happlied, hpending, -⟩ := h
    unfold GrantBounds
    rw [setPhase_gos hsame, setPhase_bsq, Gos.enter_eq]
    split_ifs with hpair hback
    · rcases hpair with rfl | rfl <;> exact ⟨htarget, happlied, hpending, nofun, nofun, nofun⟩
    · subst hback
      exact ⟨htarget, le_rfl, happlied.trans hpending, nofun, fun _ => rfl, fun _ => ⟨rfl, rfl⟩⟩
    · exact ⟨htarget, le_rfl, Nat.zero_le _, fun _ => rfl, fun _ => rfl, fun _ => ⟨rfl, rfl⟩⟩

/-! ### Trips -/

theorem carryOutTrip_grantBounds (b : Bool) (h : GrantBounds s) : GrantBounds (carryOutTrip b s) := by
  have htrip : GrantBounds s.tripping := setPhase_grantBounds .tripped h
  rw [carryOutTrip_eq]
  split_ifs
  · exact htrip
  · exact htrip
  · exact htrip
  · exact confirmOpen_grantBounds htrip

theorem startTrip_grantBounds (b : Bool) (c : TripCause) (h : GrantBounds s) : GrantBounds (startTrip b c s) :=
  carryOutTrip_grantBounds b h

theorem takeCause_grantBounds (c : TripCause) (h : GrantBounds s) : GrantBounds (takeCause c s) :=
  ite_grantBounds (addLater_grantBounds c h) (startTrip_grantBounds false c h)

theorem checkEstop_grantBounds (h : GrantBounds s) : GrantBounds (checkEstop s) := by
  rcases checkEstop_cases s with ⟨-, -, h'⟩ | ⟨-, h'⟩ <;> rw [h']
  · exact takeCause_grantBounds _ h
  · exact h

theorem checkFeeder_grantBounds (h : GrantBounds s) : GrantBounds (checkFeeder s) := by
  rcases checkFeeder_cases s with ⟨-, -, h'⟩ | ⟨-, h'⟩ <;> rw [h']
  · exact takeCause_grantBounds _ h
  · exact h

theorem tripsTaken_grantBounds (h : GrantBounds s) : GrantBounds s.tripsTaken :=
  checkEstop_grantBounds (checkFeeder_grantBounds (checkEstop_grantBounds h))

/-- The end of an event takes trips and starts a reference word, or in CONFIG does nothing. -/
theorem settle_grantBounds (before : State) (h : GrantBounds s) : GrantBounds (settle before s) := by
  cases hs : s.started
  · rw [settle_config _ _ hs]
    exact h
  · exact (settle_ends s before hs).alike.grantBounds (tripsTaken_grantBounds h)

theorem uncommandedClose_grantBounds (h : GrantBounds s) : GrantBounds (uncommandedClose s) :=
  have hclaim := setClaim_grantBounds s.station.stuckBreakerClaim 0 0 h
  ite_grantBounds (addLater_grantBounds .breakerUncommanded hclaim) (startTrip_grantBounds _ _ hclaim)

/-! ### Passages between phases -/

theorem evaluateEntry_grantBounds (h : GrantBounds s) : GrantBounds (evaluateEntry s) :=
  ite_grantBounds (setPhase_grantBounds .queued h) h

theorem enterPlugged_grantBounds (h : GrantBounds s) : GrantBounds (enterPlugged s) :=
  evaluateEntry_grantBounds (tripsTaken_grantBounds (setPhase_grantBounds .plugged h))

theorem completeDeEnergise_grantBounds (h : GrantBounds s) : GrantBounds (completeDeEnergise s) :=
  enterPlugged_grantBounds (zeroClaim_grantBounds (s := releaseOpen s) h)

theorem enterDeEnergising_grantBounds (h : GrantBounds s) : GrantBounds (enterDeEnergising s) :=
  have hopening := setPhase_grantBounds .deEnergising h
  ite_grantBounds hopening (completeDeEnergise_grantBounds hopening)

theorem enterParallel_grantBounds (h : GrantBounds s) : GrantBounds (enterParallel s) :=
  have hparallel := setPhase_grantBounds .parallel h
  ite_grantBounds (setPhase_grantBounds .onShore hparallel) hparallel

theorem startInrush_grantBounds (h : GrantBounds s) : GrantBounds (startInrush s) := by
  rcases startInrush_cases s with ⟨-, h'⟩ | ⟨p, -, -, h'⟩ | ⟨p, -, -, h'⟩ <;> rw [h']
  · exact h
  · exact setClaim_grantBounds _ _ _ h
  · exact h

theorem enterAwaitSync_grantBounds (h : GrantBounds s) : GrantBounds (enterAwaitSync s) :=
  have hawait := setPhase_grantBounds .awaitSync
    (startInrush_grantBounds (s := stopBreaker (s.mapBsq fun b => { b with bkClose := false })) h)
  ite_grantBounds (enterDeEnergising_grantBounds hawait) (ite_grantBounds (enterParallel_grantBounds hawait) hawait)

theorem plugProven_grantBounds (h : GrantBounds s) : GrantBounds (plugProven s) :=
  enterPlugged_grantBounds (formClamps_grantBounds (s := selectProfile s) h)

theorem leaveTripped_grantBounds (h : GrantBounds s) : GrantBounds (leaveTripped s) := by
  have hdrop : GrantBounds (dropProfile (s.mapTru fun u => { u with record := none })) := h
  unfold leaveTripped
  dsimp only
  split
  · refine enterPlugged_grantBounds (formClamps_grantBounds ?_)
    split
    · exact compareVessel_grantBounds _ hdrop
    · exact hdrop
  · exact setPhase_grantBounds .vacant (formClamps_grantBounds hdrop)

theorem pilotGone_grantBounds (h : GrantBounds s) : GrantBounds (pilotGone s) :=
  ite_grantBounds (setPhase_grantBounds .vacant h)
    (ite_grantBounds (takeCause_grantBounds _ h) (ite_grantBounds (addLater_grantBounds _ h) h))

/-! ### The ship's record and the lines -/

theorem takeRequest_grantBounds (m : Marks) (r : ShipRecord) (h : GrantBounds s) : GrantBounds (takeRequest m r s) :=
  ite_grantBounds
    (ite_grantBounds (enterDeEnergising_grantBounds h) (ite_grantBounds (setPhase_grantBounds .transferBack h) h)) h

theorem takeBreaker_grantBounds (m : Marks) (r : ShipRecord) (h : GrantBounds s) : GrantBounds (takeBreaker m r s) :=
  ite_grantBounds
    (ite_grantBounds (enterParallel_grantBounds h) (ite_grantBounds (enterDeEnergising_grantBounds h) h)) h

theorem takeGenerators_grantBounds (m : Marks) (r : ShipRecord) (h : GrantBounds s) :
    GrantBounds (takeGenerators m r s) :=
  ite_grantBounds h (ite_grantBounds (setPhase_grantBounds .onShore h) h)

theorem deliverRecord_grantBounds (m : Marks) (r : ShipRecord) (h : GrantBounds s) :
    GrantBounds (deliverRecord m r s) := by
  have hclear := clearAbortFlags_grantBounds r h
  unfold deliverRecord
  generalize clearAbortFlags r s = t at hclear
  have hmove := takeGenerators_grantBounds m r (takeBreaker_grantBounds m r (takeRequest_grantBounds m r hclear))
  have hcompare := compareVessel_grantBounds r hclear
  dsimp only
  cases t.bsq.phase
  case plugged => exact evaluateEntry_grantBounds hcompare
  case queued => exact ite_grantBounds (enterPlugged_grantBounds hcompare) hcompare
  case awaitSync | parallel | onShore | transferBack => exact hmove
  all_goals exact hclear

/-- A released ramp is free of its stall (R99). -/
theorem takeEcho_grantBounds (pair : Bool) (echo : Nat) (h : GrantBounds s) :
    GrantBounds (s.mapGos (Gos.takeEcho pair echo)) := by
  obtain ⟨htarget, happlied, hpending, hidle, hback, -⟩ := id h
  unfold GrantBounds
  simp only [State.mapGos, Gos.takeEcho_eq]
  split_ifs
  · exact ⟨htarget, happlied, hpending, hidle, hback, fun _ => ⟨rfl, rfl⟩⟩
  · exact h

theorem takeRecord_grantBounds (r : ShipRecord) (h : GrantBounds s) : GrantBounds (takeRecord r s) := by
  have hheld : GrantBounds ((linkHeard s).mapVlp fun v => { v with held := some r }) := linkHeard_grantBounds h
  exact deliverRecord_grantBounds _ r (takeEcho_grantBounds _ r.echo (formClamps_grantBounds hheld))

theorem linkLost_grantBounds (h : GrantBounds s) : GrantBounds (linkLost s) :=
  have hlost : GrantBounds ((s.mapVlp fun v => { v with link := .lost }).mapTmb
      fun b => { b with linkTimeout := b.linkTimeout.stop }) := h
  ite_grantBounds (enterPlugged_grantBounds hlost) (ite_grantBounds (enterDeEnergising_grantBounds hlost)
    (ite_grantBounds (setClaim_grantBounds _ 0 _ hlost) hlost))

theorem auxClosure_grantBounds (h : GrantBounds s) : GrantBounds (auxClosure s) := by
  unfold auxClosure
  split
  · exact enterAwaitSync_grantBounds h
  · exact uncommandedClose_grantBounds h
  · exact uncommandedClose_grantBounds h
  · exact uncommandedClose_grantBounds h
  · exact ite_grantBounds (uncommandedClose_grantBounds h) h
  · exact h

theorem auxOpening_grantBounds (h : GrantBounds s) : GrantBounds (auxOpening s) := by
  have hr : GrantBounds (if s.bsq.serving = some .resetPulse then releaseOpen s else s) := ite_grantBounds h h
  unfold auxOpening
  generalize (if s.bsq.serving = some .resetPulse then releaseOpen s else s) = t at hr
  dsimp only
  split
  case h_5 => exact completeDeEnergise_grantBounds hr
  case h_6 => exact confirmOpen_grantBounds (s := releaseOpen t) hr
  case h_7 => exact hr
  all_goals exact enterDeEnergising_grantBounds hr

theorem warningChange_grantBounds (v : Bool) (h : GrantBounds s) : GrantBounds (warningChange v s) :=
  ite_grantBounds (ite_grantBounds (enterPlugged_grantBounds h) h) (evaluateEntry_grantBounds h)

/-! ### Timers and the engine -/

theorem breakerExpired_grantBounds (c : Option BreakerCommand) (h : GrantBounds s) :
    GrantBounds (breakerExpired c s) := by
  have hopen : GrantBounds (s.mapBsq fun b => { b with bkOpen := false }) := h
  unfold breakerExpired
  split
  · exact takeCause_grantBounds _ h
  · exact ite_grantBounds (addLater_grantBounds _ hopen) hopen
  · exact ite_grantBounds (startTrip_grantBounds _ _ hopen) (ite_grantBounds (addLater_grantBounds _ hopen) hopen)
  · exact h

theorem settleHold_grantBounds (h : GrantBounds s) : GrantBounds (settleHold s) := by
  have hclear : GrantBounds (clearReserve s) := h
  unfold settleHold
  split
  · exact setClaim_grantBounds _ _ _ hclear
  · exact ite_grantBounds (setClaim_grantBounds _ _ _ (setPhase_grantBounds .energising hclear)) hclear
  · exact h

/-- A tick of the ramp up takes P, and A with it, no higher than the target (R96, R97, R98). -/
theorem rampUp_grantBounds (h : GrantBounds s) (hp : s.bsq.phase.pair = true) : GrantBounds (rampUp s) := by
  have hconnected : s.bsq.phase.connected = true := by
    rw [Phase.connected_iff]
    rcases (Phase.pair_iff _).1 hp with hp | hp <;> simp [hp]
  have hnotBack : s.bsq.phase ≠ .transferBack := fun hb => by simp [hb, Phase.pair] at hp
  have hother {P Q R : Prop} : (s.bsq.phase.connected = false → P) ∧ (s.bsq.phase = .transferBack → Q) ∧
      (s.bsq.phase.pair = false → R) := by simp [hconnected, hnotBack, hp]
  have htick : GrantBounds (s.mapGos (Gos.upTick s.figures.rampStep s.figures.stallLimit s.echoPasses)) := by
    obtain ⟨htarget, happlied, hpending, -⟩ := id h
    unfold GrantBounds
    simp only [State.mapGos, Gos.upTick, Gos.nextStep]
    split_ifs with hsuspended hreached
    · exact h
    · exact ⟨htarget, le_rfl, happlied.trans hpending, hother⟩
    · exact ⟨htarget, le_rfl, min_le_left _ _, hother⟩
    · exact ⟨htarget, le_min (happlied.trans hpending) (Nat.le_add_right _ _), min_le_left _ _, hother⟩
  exact ite_grantBounds htick htick

/-- A tick of the ramp down takes A and P down together (R101). -/
theorem rampDown_grantBounds (h : GrantBounds s) (hp : s.bsq.phase = .transferBack) : GrantBounds (rampDown s) := by
  rcases rampDown_cases s with ⟨-, h'⟩ | ⟨-, h'⟩ <;> rw [h']
  · exact h
  · obtain ⟨htarget, happlied, hpending, -, -, hpair⟩ := h
    refine setClaim_grantBounds (s := { s with gos := { s.gos with
      pending := s.gos.applied - s.figures.downrampStep, applied := s.gos.applied - s.figures.downrampStep } }) _ _ _ ?_
    exact ⟨htarget, le_rfl, (Nat.sub_le _ _).trans (happlied.trans hpending),
      fun hn => by simp [hp, Phase.connected] at hn, fun _ => rfl, hpair⟩

theorem handOn_grantBounds (v : Bool) (a : Action) (h : GrantBounds s) : GrantBounds (handOn v a s) := by
  have hwant (c : ReserveClass) (n : Nat) : GrantBounds (wantReserve c n s) := by
    rw [wantReserve_frame]
    exact h
  unfold handOn
  cases a with
  | release want => exact setClaim_grantBounds _ want _ h
  | cut n => exact setClaim_grantBounds _ _ _ h
  | raise n => exact ite_grantBounds h (hwant _ _)
  | energise n => exact ite_grantBounds h (hwant _ _)
  | none | cutWithheld n | energiseWait n => exact h

theorem completeComputation_grantBounds (w : Working) (h : GrantBounds s) : GrantBounds (completeComputation w s) := by
  cases hstale : w.stale
  · rw [completeComputation_of_fresh hstale]
    exact handOn_grantBounds _ _ h
  · rw [completeComputation_of_stale hstale]
    exact h

/-! ### Events -/

/-- Every event keeps the bounds before its end. -/
theorem Event.grantBounds {u : State} (he : Event s u) (h : GrantBounds s) : GrantBounds u := by
  cases he with
  | aside ha => exact h.congr (by rw [ha.bsq]) (by rw [ha.bsq]) (by rw [ha.bsq]) (by rw [ha.gos])
  | clearTrip => exact leaveTripped_grantBounds h
  | berthHold b => exact evaluateEntry_grantBounds (s := s.mapBsq fun q => { q with hostHold := b }) h
  | plugProven => exact plugProven_grantBounds (s := settleActive .pilot true s) h
  | pilotProven | estopChange | syncStop | parallelStop | rampStart => exact h
  | pilotLost => exact pilotGone_grantBounds (linkIdle_grantBounds (s := settleActive .pilot false s) h)
  | auxClosure => exact auxClosure_grantBounds (s := settleActive .bkaux true s) h
  | auxOpening => exact auxOpening_grantBounds (s := settleActive .bkaux false s) h
  | warningChange v => exact warningChange_grantBounds (s := settleActive .fdrwarn v s) v h
  | takeRecord r => exact takeRecord_grantBounds r h
  | listenExpiry =>
    refine evaluateEntry_grantBounds ?_
    exact h
  | holdExpiry => exact settleHold_grantBounds (s := s.mapTmb fun t => { t with hold := t.hold.stop }) h
  | breakerExpiry => exact breakerExpired_grantBounds (s := stopBreaker s) _ h
  | inrushExpiry => exact setClaim_grantBounds (s := s.mapTmb fun t => { t with inrush := t.inrush.stop }) _ _ _ h
  | syncExpiry =>
    refine enterDeEnergising_grantBounds ?_
    exact h
  | parallelExpiry =>
    refine setPhase_grantBounds _ ?_
    exact h
  | rampUp hp =>
    exact rampUp_grantBounds (s := s.mapTmb fun t => { t with ramp := Timer.start s.figures.rampInterval }) h hp
  | rampDown hp =>
    exact rampDown_grantBounds (s := s.mapTmb fun t => { t with ramp := Timer.start s.figures.rampInterval }) h hp
  | linkTimeout => exact linkLost_grantBounds h
  | linkLossExpiry => exact takeCause_grantBounds (s := s.mapTmb fun t => { t with linkLoss := t.linkLoss.stop }) _ h
  | overdrawExpiry => exact takeCause_grantBounds (s := s.mapTmb fun t => { t with overdraw := t.overdraw.stop }) _ h
  | computation w => exact completeComputation_grantBounds w h

/-- So does whatever a command that is taken as in LISTEN or RUN leads to. -/
theorem Taken.grantBounds {t : State} (ht : Taken s t) (h : GrantBounds s) : GrantBounds t := by
  rcases ht with hu | ⟨u, he, rfl⟩
  · exact hu.grantBounds h
  · exact settle_grantBounds s (he.grantBounds h)

theorem startStation_grantBounds (h : GrantBounds s) : GrantBounds (startStation s) := by
  have hlistening : GrantBounds s.listening := h
  rw [startStation_eq]
  rcases sequencerStart_cases s.listening with ⟨-, h'⟩ | ⟨-, -, h'⟩ | ⟨-, -, h'⟩ <;> rw [h']
  · exact uncommandedClose_grantBounds hlistening
  · exact plugProven_grantBounds hlistening
  · exact hlistening

/-! ### Commands that CONFIG takes in a way of its own -/

theorem execLoadStation_grantBounds {t : State} (r : StationRecord) (he : execLoadStation r s = .next t)
    (h : GrantBounds s) : GrantBounds t := by
  unfold execLoadStation at he
  split_ifs at he <;> exact Host.Outcome.next.inj he ▸ h

theorem execLoadProfile_grantBounds {t : State} (p : ProfileArgs) (he : execLoadProfile p s = .next t)
    (h : GrantBounds s) : GrantBounds t := by
  unfold execLoadProfile at he
  split_ifs at he <;> exact Host.Outcome.next.inj he ▸ h

theorem execLoadPeriod_grantBounds {t : State} (i k e : Nat) (he : execLoadPeriod i k e s = .next t)
    (h : GrantBounds s) : GrantBounds t := by
  unfold execLoadPeriod at he
  dsimp only at he
  split_ifs at he <;> exact Host.Outcome.next.inj he ▸ h

theorem execSetScheduleMode_grantBounds {t : State} (m : Nat) (he : execSetScheduleMode m s = .next t)
    (h : GrantBounds s) : GrantBounds t := by
  unfold execSetScheduleMode at he
  split at he
  · exact Host.Outcome.next.inj he ▸ h
  · split at he <;> exact Host.Outcome.next.inj he ▸ h

theorem execStart_grantBounds {t : State} (he : execStart s = .next t) (h : GrantBounds s) : GrantBounds t := by
  rcases execStart_cases he with ⟨code, rfl⟩ | ⟨-, -, rfl⟩
  · exact h
  · exact settle_grantBounds s (s := answer 5 .accepted [] (startStation s)) (startStation_grantBounds h)

/-- An event that keeps the bounds before its end keeps them. -/
theorem eventIf_grantBounds {t : State} {c : Bool} {f : State → State} (he : eventIf c f s = .next t)
    (h : GrantBounds s) (hf : GrantBounds (f s)) : GrantBounds t := by
  rcases eventIf_cases he with ⟨-, rfl⟩ | ⟨-, rfl⟩
  · exact h
  · exact settle_grantBounds s hf

/-! ### Every command -/

/-- Every command keeps the bounds, in whatever mode it is taken: those that CONFIG takes in a way of its own, and all
others, which lead there to what they lead to in LISTEN and RUN. -/
theorem exec_grantBounds {t : State} {c : Instr} (he : exec c s = .next t) (h : GrantBounds s) : GrantBounds t := by
  have htaken (ht : Taken s t) : GrantBounds t := ht.grantBounds h
  cases c with
  | reset => exact Host.Outcome.next.inj he ▸ (by decide : GrantBounds State.reset)
  | loadStation r => exact execLoadStation_grantBounds r he h
  | loadProfile p => exact execLoadProfile_grantBounds p he h
  | loadPeriod i k e => exact execLoadPeriod_grantBounds i k e he h
  | setScheduleMode m => exact execSetScheduleMode_grantBounds m he h
  | start => exact execStart_grantBounds he h
  | pilotProven =>
    exact eventIf_grantBounds he h (ite_grantBounds (plugProven_grantBounds (s := settleActive .pilot true s) h) h)
  | pilotLost =>
    exact eventIf_grantBounds he h (ite_grantBounds
      (pilotGone_grantBounds (linkIdle_grantBounds (s := settleActive .pilot false s) h)) h)
  | auxReadsClosed =>
    exact eventIf_grantBounds he h (ite_grantBounds (auxClosure_grantBounds (s := settleActive .bkaux true s) h) h)
  | auxReadsOpen =>
    exact eventIf_grantBounds he h (ite_grantBounds (auxOpening_grantBounds (s := settleActive .bkaux false s) h) h)
  | feederWarningChange v =>
    exact eventIf_grantBounds he h (ite_grantBounds (warningChange_grantBounds (s := settleActive .fdrwarn v s) v h) h)
  | readStatus => exact htaken (.of_next he (.withSvp s _ rfl rfl))
  | latch => exact htaken (execLatch_taken he)
  | readSnapshot => exact htaken (execReadSnapshot_taken he)
  | readPeer a => exact htaken (execReadPeer_taken a he)
  | clearTrip => exact htaken (execClearTrip_taken he)
  | forgetPeer a => exact htaken (execForgetPeer_taken a he)
  | berthHold v => exact htaken (execBerthHold_taken v he)
  | probe w => exact htaken (execProbe_taken w he)
  | transactionNotTaken => exact htaken (.of_next he (.refl s))
  | estopChange v => exact htaken (.of_eventIf he fun _ => .estopChange v)
  | plugCodeLineChange n v => exact htaken (execPlugCodeLineChange_taken n v he)
  | tariffAdvance => exact htaken (execTariffAdvance_taken he)
  | tariffRestart => exact htaken (execTariffRestart_taken he)
  | tariffSelectChange n v => exact htaken (execTariffSelectChange_taken n v he)
  | edgeLineSettled l => exact htaken (execEdgeLineSettled_taken l he)
  | shipStatusRecord levels => exact htaken (execShipStatusRecord_taken levels he)
  | meterSample => exact htaken (.of_eventIf he fun _ => .aside (.takeSample _ s))
  | receivedTransmissionEnd => exact htaken (.of_eventIf he fun _ => .aside (.takeTransmission _ s))
  | announceReceived => exact htaken (execAnnounceReceived_taken he)
  | reserveReceived levels => exact htaken (execReserveReceived_taken levels he)
  | withdrawReceived => exact htaken (execWithdrawReceived_taken he)
  | attemptStart => exact htaken (.of_eventIf he fun _ => .aside (.beginAttempt s))
  | collision => exact htaken (.of_eventIf he fun _ => .aside (.collide s))
  | collidedTransmissionEnd => exact htaken (execCollidedTransmissionEnd_taken he)
  | ownSlotEnd levels => exact htaken (execOwnSlotEnd_taken levels he)
  | announceTimerExpiry =>
    refine htaken (.of_eventIf he fun _ => .aside (.trans ?_ (.lowerSettleCount _)))
    exact ((Aside.mapTmb _ s rfl rfl rfl).trans (.requestAnnounce _)).trans (.silenceCheck _)
  | listenExpiry => exact htaken (.of_eventIf he fun _ => .listenExpiry)
  | holdExpiry => exact htaken (.of_eventIf he .holdExpiry)
  | reserveBackoffExpiry => exact eventIf_grantBounds he h h
  | breakerTimerExpiry => exact htaken (.of_eventIf he .breakerExpiry)
  | inrushExpiry => exact htaken (.of_eventIf he fun _ => .inrushExpiry)
  | syncWindowExpiry => exact htaken (execSyncWindowExpiry_taken he)
  | parallelLimitExpiry => exact htaken (execParallelLimitExpiry_taken he)
  | rampTick => exact htaken (execRampTick_taken he)
  | vesselLinkTimeout => exact eventIf_grantBounds he h (linkLost_grantBounds h)
  | linkLossTripExpiry => exact htaken (.of_eventIf he .linkLossExpiry)
  | overdrawExpiry => exact htaken (.of_eventIf he .overdrawExpiry)
  | meterStaleExpiry => exact eventIf_grantBounds he h h
  | silentAgeingStep a => exact htaken (execSilentAgeingStep_taken a he)
  | reservedFieldAgeStep a => exact htaken (execReservedFieldAgeStep_taken a he)
  | computationComplete => exact htaken (execComputationComplete_taken he)
  | referenceWordEnd => exact htaken (execReferenceWordEnd_taken he)
  | statusIntervalReached => exact htaken (execStatusIntervalReached_taken he)
  | statusRecordGapEnd => exact htaken (execStatusRecordGapEnd_taken he)
  | lineInitialSettle levels => exact htaken (execLineInitialSettle_taken levels he)
  | lineSampling levels => exact htaken (execLineSampling_taken levels he)
  | transmissionBegins => exact htaken (.of_next he (.mapBlc s _))
  | berthStatusRecordEnd => exact htaken (execBerthStatusRecordEnd_taken he)

end

/-- Settles O50: a step is a command, which keeps the bounds, or a bit time, which leaves what they read. -/
theorem everyStepKeepsTheGrantBounds : Obligations.EveryStepKeepsTheGrantBounds := by
  intro s t h he
  unfold step at he
  split at he
  · exact Host.Outcome.next.inj he ▸ h
  · exact exec_grantBounds he h

end Sys2Proof.Machine

/-! SUPPORT. The two ports that send the latest fields, the reference port and VTX; and the ramp ticks. -/

namespace Sys2Proof.Machine

/-! ### The reference word and the berth status record -/

section
variable {s : State}

/-- At the end of a reference word the count rises, and another word starts where A has moved (R105). -/
theorem execReferenceWordEnd_sending {g c : Nat} (h : s.gos.port = .sending g c) :
    execReferenceWordEnd s = .next { s with gos := { s.gos with
      updateCount := (s.gos.updateCount + 1) % 256
      port := if s.gos.applied = g then .idle else .sending s.gos.applied ((s.gos.updateCount + 1) % 256) } } := by
  simp only [execReferenceWordEnd, h]
  split <;> rfl

/-- The content or the interval asks for another record (R147). -/
theorem State.statusDue_iff (s : State) :
    s.statusDue = true ↔ s.vlp.lastSent ≠ some s.statusNow ∨ 50 ≤ s.vlp.statusCount := by
  rw [State.statusDue, Bool.or_eq_true, bne_iff_ne, decide_eq_true_iff]
  rfl

/-- The status interval starts a record in LISTEN and RUN with the sender idle (R147). -/
theorem execStatusIntervalReached_eq (s : State) :
    execStatusIntervalReached s =
      .next (if s.started = true ∧ s.vlp.sender = .idle ∧ 50 ≤ s.vlp.statusCount then startStatusRecord s else s) := by
  have hcond : (s.started && s.vlp.sender == .idle && decide (Config.statusInterval ≤ s.vlp.statusCount)) = true ↔
      s.started = true ∧ s.vlp.sender = .idle ∧ 50 ≤ s.vlp.statusCount := by
    rw [Bool.and_eq_true, Bool.and_eq_true, beq_iff_eq, decide_eq_true_iff, and_assoc]
    rfl
  simp only [execStatusIntervalReached, hcond]
  split <;> rfl

/-- At the end of the gap the next record starts, or the sender goes idle (R147). -/
theorem execStatusRecordGapEnd_gap (h : s.vlp.sender = .gap) :
    execStatusRecordGapEnd s =
      .next (if s.vlp.lastSent ≠ some s.statusNow ∨ 50 ≤ s.vlp.statusCount then startStatusRecord s
        else s.mapVlp fun v => { v with sender := .idle }) := by
  simp only [execStatusRecordGapEnd, h, if_true, State.statusDue_iff]

/-- Off the record VTX is released (R134, R147). -/
theorem Vlp.vtx_released {v : Vlp} (h : v.sender ≠ .sending) (n : Nat) : v.vtx n = false := by
  cases hs : v.sender with
  | idle => exact v.vtx_idle hs n
  | sending => exact absurd hs h
  | gap => exact v.vtx_gap hs n

end

/-- Settles O29: each end is one case of its command, and the levels of VTX are those of the sender's state. -/
theorem outputPortsSendTheLatestFields : Obligations.OutputPortsSendTheLatestFields := by
  intro s
  refine ⟨⟨fun hidle => ?_, fun g c hport => execReferenceWordEnd_sending hport⟩,
    ⟨fun hdue => ?_, fun hnot => ?_, fun hsending => if_pos hsending, fun hnot => if_neg hnot, fun hgap hdue => ?_,
      fun hgap hsame hcount => ?_, fun hnot => if_neg hnot⟩,
    ⟨fun b hb hsending => ?_, fun hgap => ?_, fun n => rfl, fun hnot n => Vlp.vtx_released hnot n⟩⟩
  · simp only [exec, execReferenceWordEnd, hidle]
  · exact (execStatusIntervalReached_eq s).trans (congrArg _ (if_pos hdue))
  · exact (execStatusIntervalReached_eq s).trans (congrArg _ (if_neg hnot))
  · exact (execStatusRecordGapEnd_gap hgap).trans (congrArg _ (if_pos hdue))
  · have hquiet : ¬(s.vlp.lastSent ≠ some s.statusNow ∨ 50 ≤ s.vlp.statusCount) := by
      rintro (hdiffers | hreached)
      · exact hdiffers hsame
      · omega
    exact (execStatusRecordGapEnd_gap hgap).trans (congrArg _ (if_neg hquiet))
  · have hrun : s.vlp.vtxRun = b.levels := by simp [Vlp.vtxRun, hsending, Option.mem_def.1 hb]
    exact ⟨hrun, hrun ▸ b.levels_length⟩
  · simp only [Vlp.vtxRun, hgap, Config.gapBits]

/-! ### The ramp ticks -/

section
variable (s : State)

/-- The test of an up-step (R96). -/
theorem State.echoPasses_iff :
    s.echoPasses = true ↔ s.vlp.link ≠ .lost ∧
      s.gos.applied ≤ (if s.vlp.link = .idle then 0 else (s.vlp.held.map (·.echo)).getD 0) := by
  rw [State.echoPasses, Bool.and_eq_true, bne_iff_ne, decide_eq_true_iff]
  rfl

/-- The state that a ramp tick leaves, its timer run anew, before it steps (R95). -/
def State.ramped : State :=
  { s with tmb := { s.tmb with
      ramp := { interval := s.figures.rampInterval, left := some s.figures.rampInterval } } }

/-- A suspended ramp does nothing (R98). -/
theorem rampUp_suspended (h : s.gos.suspended = true) : rampUp s = s := by
  have htick : s.mapGos (Gos.upTick s.figures.rampStep s.figures.stallLimit s.echoPasses) = s := by
    rw [State.mapGos, Gos.upTick, if_pos h]
  simp [rampUp, htick, h]

section
variable {s}

/-- A tick that leaves the ramp running raises no reason. -/
theorem rampUp_of_running {g : Gos}
    (hg : s.gos.upTick s.figures.rampStep s.figures.stallLimit s.echoPasses = g) (hr : g.suspended = false) :
    rampUp s = { s with gos := g } := by
  subst hg
  exact if_neg (by simp [hr])

variable (h : s.gos.suspended = false)
include h

/-- With the target at or below A, P becomes A (R96). -/
theorem rampUp_reached (ht : s.gos.target ≤ s.gos.applied) :
    rampUp s = { s with gos := { s.gos with pending := s.gos.applied } } :=
  rampUp_of_running (by simp [Gos.upTick, h, ht]) h

/-- A step whose test is passed brings A up (R96, R97). -/
theorem rampUp_passed (ht : s.gos.applied < s.gos.target) (he : s.echoPasses = true) :
    rampUp s =
      { s with gos := { s.gos with
          pending := min s.gos.target (s.gos.applied + s.figures.rampStep)
          applied := min s.gos.target (s.gos.applied + s.figures.rampStep)
          stall := 0 } } :=
  rampUp_of_running (by simp [Gos.upTick, Gos.nextStep, h, ht, he]) h

/-- A step whose test fails counts a stall and at the limit suspends the ramp (R97, R98). -/
theorem upTick_failed (ht : s.gos.applied < s.gos.target) (he : s.echoPasses = false) :
    s.gos.upTick s.figures.rampStep s.figures.stallLimit s.echoPasses =
      { s.gos with
        pending := min s.gos.target (s.gos.applied + s.figures.rampStep)
        stall := s.gos.stall + 1
        suspended := s.gos.stall + 1 == s.figures.stallLimit } := by
  simp [Gos.upTick, Gos.nextStep, h, ht, he]

/-- Below the limit the ramp stays running. -/
theorem rampUp_stalled (ht : s.gos.applied < s.gos.target) (he : s.echoPasses = false)
    (hl : s.gos.stall + 1 ≠ s.figures.stallLimit) :
    rampUp s =
      { s with gos := { s.gos with
          pending := min s.gos.target (s.gos.applied + s.figures.rampStep), stall := s.gos.stall + 1 } } := by
  refine rampUp_of_running ?_ h
  rw [upTick_failed h ht he, beq_eq_false_iff_ne.2 hl, ← h]

/-- At the limit the ramp is suspended and its reason raised. -/
theorem rampUp_suspends (ht : s.gos.applied < s.gos.target) (he : s.echoPasses = false)
    (hl : s.gos.stall + 1 = s.figures.stallLimit) :
    rampUp s =
      { s with
        gos := { s.gos with
          pending := min s.gos.target (s.gos.applied + s.figures.rampStep)
          stall := s.gos.stall + 1
          suspended := true }
        svp := { s.svp with attention := { s.svp.attention with rampSuspended := true }, attn := true } } := by
  have htick := upTick_failed h ht he
  rw [beq_iff_eq.2 hl] at htick
  unfold rampUp
  dsimp only
  rw [State.mapGos, htick, if_pos (by simp [h])]
  rfl

end

/-- A ramp tick that is due steps up in the pair and down in TRANSFER_BACK, and elsewhere only runs the timer anew. -/
theorem rampTick_completes {u : State} (hd : s.tmb.ramp.left = some 0) (hs : u.started = true) (hc : u.calm = true)
    (hu : (if s.ramped.bsq.phase.pair then rampUp s.ramped
      else if s.ramped.bsq.phase = .transferBack then rampDown s.ramped else s.ramped) = u) :
    CompletesAs .rampTick s u :=
  TakenAs.completes_of_due rfl hd hu (.of_calm hs hc)

end

/-- Settles O39: each clause is one case of the tick in its phase. -/
theorem rampTicksStepTheGrant : Obligations.RampTicksStepTheGrant := by
  intro s hs hc
  refine ⟨fun hd => ?_, fun hd => eventIf_of_not_due hd⟩
  intro k g next passes stalled a d
  have hup (hp : s.bsq.phase.pair = true) {u : State} (hus : u.started = true) (huc : u.calm = true)
      (hu : rampUp s.ramped = u) : CompletesAs .rampTick s u :=
    rampTick_completes s hd hus huc ((if_pos hp).trans hu)
  have hdown (hp : s.bsq.phase = .transferBack) {u : State} (hus : u.started = true) (huc : u.calm = true)
      (hu : rampDown s.ramped = u) : CompletesAs .rampTick s u :=
    rampTick_completes s hd hus huc ((if_neg (by simp [State.ramped, hp, Phase.pair])).trans ((if_pos hp).trans hu))
  have hpasses : s.ramped.echoPasses = true ↔ passes := s.ramped.echoPasses_iff
  have hfails (h : ¬passes) : s.ramped.echoPasses = false := Bool.eq_false_iff.2 (mt hpasses.1 h)
  refine ⟨fun hp => ⟨fun hsus => ?_, fun hsus ht => ?_, fun hsus ht he => ?_, fun hsus ht he hl => ?_,
    fun hsus ht he hl => ?_⟩, fun hp ha => ?_, fun hp ha => ?_, fun hp => ?_⟩
  · exact hup hp hs hc (rampUp_suspended s.ramped hsus)
  · exact hup hp hs hc (rampUp_reached hsus ht)
  · exact hup hp hs hc (rampUp_passed hsus ht (hpasses.2 he))
  · exact hup hp hs hc (rampUp_stalled hsus ht (hfails he) hl)
  · exact hup hp hs hc (rampUp_suspends hsus ht (hfails he) hl)
  · exact hdown hp hs hc (if_pos ha)
  · have hframe := setClaim_sequencerFrame { k with gos := { g with pending := a, applied := a } } s.bsq.firm
      (a - s.bsq.firm) s.bsq.transient
    refine hdown hp (hframe.started.trans hs) ?_ (if_neg (Nat.pos_iff_ne_zero.1 ha))
    exact State.calm_congr (t := d) hc hframe.lib (by simp [d, k]) (by simp [d, k]) (by simp [d, k])
  · have hidle : ¬s.bsq.phase.pair = true ∧ s.bsq.phase ≠ .transferBack := by
      constructor <;> intro h <;> simp_all [Phase.connected, Phase.pair]
    exact rampTick_completes s hd hs hc ((if_neg hidle.1).trans (if_neg hidle.2))

end Sys2Proof.Machine

/-! SUPPORT. The Capacity Schedule: what its operations give, record by record; LOAD_PERIOD in CONFIG; and the tariff
events in LISTEN and RUN. -/

namespace Sys2Proof.Machine

/-! ### Reading the list of records -/

/-- The record at an index, or one of 0 kW and no executions where none is loaded. -/
def Csc.record (c : Csc) (i : Nat) : Period := c.periods.getD i { capacity := 0, executions := 0 }

theorem Csc.capacityAt_eq (c : Csc) (i : Nat) : c.capacityAt i = (c.record i).capacity := by
  unfold Csc.capacityAt Csc.record
  rw [List.getD_eq_getElem?_getD]
  cases c.periods[i]? <;> rfl

theorem Csc.executionsAt_eq (c : Csc) (i : Nat) : c.executionsAt i = (c.record i).executions := by
  unfold Csc.executionsAt Csc.record
  rw [List.getD_eq_getElem?_getD]
  cases c.periods[i]? <;> rfl

/-- The lowest capacity of a list with a record in it is the one capacity of the list that none is below (R115). -/
theorem Csc.lowest_eq {c : Csc} {n : Nat} (hmem : ∃ p ∈ c.periods, p.capacity = n)
    (hle : ∀ p ∈ c.periods, n ≤ p.capacity) : c.lowest = n := by
  obtain ⟨q, hq, rfl⟩ := hmem
  unfold Csc.lowest
  cases hp : c.periods with
  | nil => simp [hp] at hq
  | cons p ps =>
    rw [hp] at hq hle
    obtain ⟨hhead, htail, hone⟩ := foldl_min_spec (ps.map (·.capacity)) p.capacity
    change (ps.map (·.capacity)).foldl min p.capacity = q.capacity
    refine le_antisymm ?_ ?_
    · rcases List.mem_cons.1 hq with rfl | hq
      · exact hhead
      · exact htail _ (List.mem_map_of_mem hq)
    · rcases hone with h | h
      · exact (hle p List.mem_cons_self).trans h.ge
      · obtain ⟨r, hr, hrn⟩ := List.mem_map.1 h
        exact (hle r (List.mem_cons_of_mem _ hr)).trans hrn.le

/-! ### The operations of the schedule -/

theorem Csc.goTo_eq (c : Csc) (i : Nat) :
    c.goTo i = { c with index := i, remaining := (c.record i).executions, pc := (c.record i).capacity } := by
  rw [Csc.goTo, c.capacityAt_eq, c.executionsAt_eq]

/-- An advance with executions left to follow lowers their number (R113). -/
theorem Csc.advance_within {c : Csc} (h : 1 < c.remaining) : c.advance = { c with remaining := c.remaining - 1 } :=
  if_neg (Nat.not_le.2 h)

/-- The last advance of a period goes to the next record, or from the last one to the first (R113). -/
theorem Csc.advance_last {c : Csc} (h : c.remaining ≤ 1) :
    c.advance = c.goTo (if c.index + 1 < c.periods.length then c.index + 1 else 0) :=
  if_pos h

/-- A select code within the list (R115). -/
theorem Csc.select_loaded {c : Csc} {code : Address} (h : code.val < c.periods.length) :
    c.select code = { c with index := code.val, pc := (c.record code.val).capacity, selectRange := false } := by
  rw [Csc.select, if_pos h, c.capacityAt_eq]

/-- A select code beyond the list (R115). -/
theorem Csc.select_beyond {c : Csc} {code : Address} (h : c.periods.length ≤ code.val) :
    c.select code = { c with index := code.val, pc := c.lowest, selectRange := true } :=
  if_neg (Nat.not_lt.2 h)

theorem Csc.load_frame (i : Nat) (p : Period) (c : Csc) :
    c.load i p = { c with periods := (c.load i p).periods, pc := (c.load i p).pc } := rfl

theorem Csc.load_append (p : Period) (c : Csc) : (c.load c.periods.length p).periods = c.periods ++ [p] :=
  if_neg (Nat.lt_irrefl _)

theorem Csc.load_replace {i : Nat} {c : Csc} (p : Period) (h : i < c.periods.length) :
    (c.load i p).periods = c.periods.set i p :=
  if_pos h

theorem Csc.load_first_pc (p : Period) (c : Csc) : (c.load 0 p).pc = p.capacity := rfl

theorem Csc.load_later_pc {i : Nat} (p : Period) (c : Csc) (h : i ≠ 0) : (c.load i p).pc = c.pc := if_neg h

/-! ### LOAD_PERIOD -/

theorem periodInRange_iff (c : Csc) (i k x : Nat) :
    periodInRange c i k x = true ↔ i ≤ 15 ∧ i ≤ c.periods.length ∧ k ≤ 60000 ∧ 1 ≤ x ∧ x ≤ 255 := by
  simp only [periodInRange, inRange, Bool.and_eq_true, decide_eq_true_eq, Nat.zero_le, true_and, and_assoc]
  rfl

section
variable {s : State} {i k x : Nat}

/-- A period that is taken reaches the list, Pc, the request and the answer alone (R109). -/
theorem execLoadPeriod_taken {c : Csc} (hm : s.svp.mode = .config) (hr : periodInRange s.csc i k x = true)
    (hc : s.csc.load i { capacity := k, executions := x } = c) :
    exec (.loadPeriod i k x) s = .next
      { s with
        svp := s.svp.answered 3 .accepted []
        csc := c
        hre := { s.hre with request := s.hre.request || c.pc != s.csc.pc } } := by
  have hs : ¬s.started = true := by simp [State.started, hm]
  change execLoadPeriod i k x s = _
  rw [execLoadPeriod, if_neg hs, if_pos hr]
  dsimp only
  rw [answer_eq, State.mapCsc, hc]
  by_cases hpc : c.pc = s.csc.pc
  · simp [hpc]
  · simp [hpc, requestRecompute_eq]

theorem execLoadPeriod_refused (hm : s.svp.mode = .config) (hr : ¬periodInRange s.csc i k x = true) :
    Refuses (.loadPeriod i k x) s 3 .outOfRange := by
  have hs : ¬s.started = true := by simp [State.started, hm]
  change execLoadPeriod i k x s = _
  rw [execLoadPeriod, if_neg hs, if_neg hr, refuse_eq]

end

/-- Settles O6: within its ranges the command is the load of the record, and outside them a refusal. -/
theorem loadPeriodKeepsTheListWithoutGap : Obligations.LoadPeriodKeepsTheListWithoutGap := by
  intro i k x s hm
  refine ⟨fun hr => ⟨_, execLoadPeriod_taken hm ((periodInRange_iff _ _ _ _).2 hr) rfl, rfl, Csc.load_frame _ _ _, ?_,
    fun hi => Csc.load_replace _ hi, ?_, fun hi => Csc.load_later_pc _ _ hi, rfl, ?_⟩,
    fun hr => execLoadPeriod_refused hm (mt (periodInRange_iff _ _ _ _).1 hr)⟩
  · rintro rfl
    exact Csc.load_append _ _
  · rintro rfl
    exact Csc.load_first_pc _ _
  · simp

/-! ### A schedule handed on -/

/-- A state with a new schedule, handed on where its index or Pc is not the earlier one's (R111). -/
def State.rescheduled (before : Csc) (l : State) (c : Csc) : State :=
  if c.index = before.index ∧ c.pc = before.pc then { l with csc := c }
  else { l with csc := c, hre := { l.hre with request := true }, blc := l.blc.requestAnnounce }

theorem changeSchedule_eq_rescheduled (g : Csc → Csc) (l : State) :
    changeSchedule g l = State.rescheduled l.csc l (g l.csc) := rfl

theorem State.rescheduled_same {before c : Csc} (l : State) (hi : c.index = before.index) (hp : c.pc = before.pc) :
    State.rescheduled before l c = { l with csc := c } :=
  if_pos ⟨hi, hp⟩

/-! ### The tariff events -/

/-- An event beside the sequencer makes no trip condition newly true. -/
theorem Aside.calm {s u : State} (h : Aside s u) (hc : s.calm = true) : u.calm = true := by
  refine State.calm_mono hc (fun he => ?_) (fun hf => ?_) (by rw [h.tru]) (by rw [h.tru])
  · rwa [State.estopCondition_iff, h.estopActive, h.bsq, ← State.estopCondition_iff] at he
  · rwa [State.feederCondition_iff, h.warningActive, h.auxClosed, h.bsq, ← State.feederCondition_iff] at hf

theorem Aside.takenAs {s u : State} (h : Aside s u) (hs : s.started = true) (hc : s.calm = true) : TakenAs u u :=
  .of_calm (h.event.started hs) (h.calm hc)

theorem qualifySelects_csc (s : State) : (qualifySelects s).csc = s.csc := by
  rw [qualifySelects_frame]

section
variable {s l : State} {c : Instr} {m : ScheduleMode} {g : Csc → Csc}

/-- A tariff event whose lines have settled in `l` moves the schedule in its own mode, and in another mode does nothing
more (R118). -/
theorem tariffEvent_completes (hs : s.started = true) (hc : s.calm = true) (hl : Aside s l) (hcsc : l.csc = s.csc)
    (hx : exec c s = .next (settle s (if l.takesTariff m then changeSchedule g l else l))) :
    (s.csc.mode = m → CompletesAs c s (State.rescheduled s.csc l (g s.csc))) ∧
      (s.csc.mode ≠ m → CompletesAs c s l) := by
  have hls : l.started = true := hl.event.started hs
  have htakes : l.takesTariff m = true ↔ s.csc.mode = m := by simp [State.takesTariff, hls, hcsc]
  refine ⟨fun hm => ?_, fun hm => ?_⟩
  · rw [if_pos (htakes.2 hm)] at hx
    rw [← hcsc, ← changeSchedule_eq_rescheduled]
    exact ((hl.trans (.changeSchedule g l)).takenAs hs hc).completes hx
  · rw [if_neg (mt htakes.1 hm)] at hx
    exact (hl.takenAs hs hc).completes hx

end

/-- Settles O22: each event settles its lines and then moves the schedule in its mode, to the record that the operation
names. -/
theorem tariffEventsMoveTheSchedule : Obligations.TariffEventsMoveTheSchedule := by
  intro s hs hc record moved a b goTo next
  refine ⟨fun hd => ?_, fun hd => ?_, fun n v hd => ?_⟩
  · obtain ⟨htaken, hother⟩ := tariffEvent_completes (c := .tariffAdvance) (l := a) (m := .stepped) (g := Csc.advance)
      hs hc (.settleLine _ _ s (by decide)) rfl (eventIf_true s hd _)
    refine ⟨fun hm hr => ?_, fun hm hr => ?_, hother⟩
    · have hdone := htaken hm
      rwa [Csc.advance_within hr, State.rescheduled_same a (by rfl) (by rfl)] at hdone
    · have hdone := htaken hm
      rwa [Csc.advance_last hr, Csc.goTo_eq] at hdone
  · obtain ⟨htaken, hother⟩ := tariffEvent_completes (c := .tariffRestart) (l := b) (m := .stepped) (g := Csc.goTo 0)
      hs hc (.settleLine _ _ s (by decide)) rfl (eventIf_true s hd _)
    refine ⟨fun hm => ?_, hother⟩
    have hdone := htaken hm
    rwa [Csc.goTo_eq] at hdone
  · intro q
    have hq : Aside s q := (Aside.settleLine _ _ s (by simp)).trans (qualifySelects_aside _)
    have hcsc : q.csc = s.csc := qualifySelects_csc _
    obtain ⟨htaken, hother⟩ := tariffEvent_completes (c := .tariffSelectChange n v) (m := .selected)
      (g := Csc.select q.selectCode) hs hc hq hcsc (eventIf_true s hd _)
    refine ⟨fun hm hin => ?_, fun hm hout lowest hmem hle => ?_, hother⟩
    · have hdone := htaken hm
      rwa [Csc.select_loaded hin] at hdone
    · have hdone := htaken hm
      rwa [Csc.select_beyond hout, Csc.lowest_eq hmem hle] at hdone

end Sys2Proof.Machine

/-! SUPPORT. The form of the transmit queue and of the link, operation by operation and event by event; and the proof
that every step keeps it. -/

namespace Sys2Proof.Machine

/-! ### The order of a transmit queue -/

/-- No two frames of a queue are of a kind, and its head alone has collided, sixteen times only while its transmission
is a collided one (R122, R126, R127). -/
structure QueueOrder (q : List TxEntry) (colliding : Bool) : Prop where
  kinds : (q.map (·.content.code)).Nodup
  waiting : ∀ e ∈ q.tail, e.collisions = 0
  head : ∀ e ∈ q.head?, e.collisions ≤ 16 ∧ (e.collisions = 16 → colliding = true)

namespace QueueOrder

variable {q : List TxEntry} {e : TxEntry} {p : Bool}

theorem cons_iff :
    QueueOrder (e :: q) p ↔ (e.content.code ∉ q.map (·.content.code) ∧ (q.map (·.content.code)).Nodup) ∧
      (∀ x ∈ q, x.collisions = 0) ∧ e.collisions ≤ 16 ∧ (e.collisions = 16 → p = true) := by
  refine ⟨fun ⟨hk, hw, hh⟩ => ⟨List.nodup_cons.1 hk, hw, hh e rfl⟩, fun ⟨hk, hw, hh⟩ => ⟨List.nodup_cons.2 hk, hw, ?_⟩⟩
  rintro x hx
  obtain rfl := Option.mem_some_iff.1 hx
  exact hh

/-- Frames that have not collided are in order where their kinds differ. -/
theorem of_waiting (hk : (q.map (·.content.code)).Nodup) (hw : ∀ e ∈ q, e.collisions = 0) : QueueOrder q p :=
  ⟨hk, fun e he => hw e (List.mem_of_mem_tail he), fun e he => by simp [hw e (List.mem_of_mem_head? he)]⟩

theorem tail (h : QueueOrder q p) (r : Bool) : QueueOrder q.tail r :=
  of_waiting (h.kinds.sublist (q.tail_sublist.map _)) h.waiting

/-- There are three kinds, so there are at most three frames (R122). -/
theorem length_le (h : QueueOrder q p) : q.length ≤ 3 := by
  have hsub : q.map (·.content.code) ⊆ [1, 2, 3] := by
    intro n hn
    obtain ⟨e, -, rfl⟩ := List.mem_map.1 hn
    cases e.content <;> simp [TxContent.code]
  simpa using (h.kinds.subperm hsub).length_le

/-- A frame whose kind is not in the queue joins its tail. -/
theorem append (h : QueueOrder q p) (hk : e.content.code ∉ q.map (·.content.code)) (he : e.collisions = 0) :
    QueueOrder (q ++ [e]) p := by
  have hkinds : ((q ++ [e]).map (·.content.code)).Nodup := by
    rw [List.map_append]
    exact List.nodup_append_comm.1 (List.nodup_cons.2 ⟨hk, h.kinds⟩)
  cases q with
  | nil => exact of_waiting hkinds (by simpa using he)
  | cons x q =>
    obtain ⟨-, hw, hh⟩ := cons_iff.1 h
    refine cons_iff.2 ⟨List.nodup_cons.1 hkinds, fun y hy => ?_, hh⟩
    rcases List.mem_append.1 hy with hy | hy
    · exact hw y hy
    · rw [List.mem_singleton.1 hy, he]

theorem filter (h : QueueOrder q p) (f : TxEntry → Bool) : QueueOrder (q.filter f) p := by
  cases q with
  | nil => exact h
  | cons x q =>
    have hk := h.kinds.sublist ((List.filter_sublist (p := f) (l := x :: q)).map _)
    obtain ⟨-, hw, hh⟩ := cons_iff.1 h
    rw [List.filter_cons] at hk ⊢
    split at hk
    · rename_i hx
      rw [if_pos hx]
      exact cons_iff.2 ⟨List.nodup_cons.1 hk, fun y hy => hw y (List.mem_of_mem_filter hy), hh⟩
    · rename_i hx
      rw [if_neg hx]
      exact of_waiting hk fun y hy => hw y (List.mem_of_mem_filter hy)

/-- The head may change within its kind where its collision count suits what becomes of the link. -/
theorem mapHead (h : QueueOrder (e :: q) p) {x : TxEntry} (hc : x.content = e.content) {r : Bool}
    (hx : x.collisions ≤ 16 ∧ (x.collisions = 16 → r = true)) : QueueOrder (x :: q) r := by
  obtain ⟨hk, hw, -⟩ := cons_iff.1 h
  exact cons_iff.2 ⟨hc ▸ hk, hw, hx⟩

/-- The head goes to the tail with no collision counted (R123, R127). -/
theorem requeue (h : QueueOrder (e :: q) p) (r : Bool) :
    QueueOrder (q ++ [{ e with collisions := 0, refresh := false }]) r :=
  (h.tail r).append (cons_iff.1 h).1.1 rfl

end QueueOrder

/-! ### The form of the Berth Link Controller -/

/-- The form of the Berth Link Controller: the queue in order, a head wherever one is in transmission, a buffered
frame in its slot only, and the link at a place of its bit times. -/
structure Blc.Formed (b : Blc) : Prop where
  order : QueueOrder b.queue b.link.colliding
  sent : b.inTransmission = true → b.queue ≠ []
  buffer : b.rx.isSome = true → b.inSlot = true
  placed : b.placed = true

theorem queueForm_iff (s : State) : QueueForm s ↔ s.blc.Formed :=
  ⟨fun ⟨_, hk, hs, hw, hh, hb, hp⟩ => ⟨⟨hk, hw, hh⟩, hs, hb, hp⟩,
    fun ⟨ho, hs, hb, hp⟩ => ⟨ho.length_le, ho.kinds, hs, ho.waiting, ho.head, hb, hp⟩⟩

section
variable {b c : Blc} {e : TxEntry} {rest : List TxEntry}

theorem Blc.holds_iff (b : Blc) (code : Nat) : b.holds code = true ↔ code ∈ b.queue.map (·.content.code) := by
  simp [Blc.holds]

theorem Blc.Formed.join (h : b.Formed) (k : TxContent) : (b.join k).Formed := by
  unfold Blc.join
  split
  · exact h
  · rename_i hno
    rw [Blc.holds_iff] at hno
    exact ⟨h.order.append hno rfl, fun _ => by simp, h.buffer, h.placed⟩

/-- The head may be marked (R123, R124). -/
theorem Blc.Formed.mark (h : b.Formed) {f : TxEntry → TxEntry} (hc : ∀ e, (f e).content = e.content)
    (hn : ∀ e, (f e).collisions = e.collisions) : (b.mapHead f).Formed := by
  unfold Blc.mapHead
  split
  · exact h
  · rename_i e rest hq
    have ho := h.order
    rw [hq] at ho
    exact ⟨ho.mapHead (hc e) (by rw [hn]; exact ho.head e rfl), fun _ => nofun, h.buffer, h.placed⟩

theorem Blc.Formed.requestAnnounce (h : b.Formed) : b.requestAnnounce.Formed := by
  unfold Blc.requestAnnounce
  split
  · exact h.mark (fun _ => rfl) fun _ => rfl
  · exact h.join _

/-- A RESERVE that is given up is marked at the head in transmission, or leaves a queue whose head in transmission, if
there is one, is another (R124). -/
theorem Blc.Formed.abandonReserve (h : b.Formed) : b.abandonReserve.Formed := by
  unfold Blc.abandonReserve
  split
  · exact h.mark (fun _ => rfl) fun _ => rfl
  · rename_i hno
    refine ⟨h.order.filter _, fun ht => ?_, h.buffer, h.placed⟩
    change b.inTransmission = true at ht
    obtain ⟨x, rest, hq⟩ := List.exists_cons_of_ne_nil (h.sent ht)
    have hx : x.isReserve = false := by simpa [ht, hq] using hno
    simp [hq, hx]

/-- No frame is on the wire outside an own attempt (R126). -/
theorem Blc.Formed.onWire_none (h : b.Formed) (hl : b.link.attempting = false) : b.onWire = none := by
  have hp := h.placed
  rw [Blc.placed, Bool.and_eq_true, beq_iff_eq, hl] at hp
  simpa using hp.1

/-- No frame is buffered outside a slot (R130). -/
theorem Blc.Formed.rx_none (h : b.Formed) (hl : b.inSlot = false) : b.rx = none := by
  simpa [hl] using h.buffer

/-- Outside a collided transmission the head has not collided sixteen times (R127). -/
theorem Blc.Formed.head_lt (h : b.Formed) (hq : b.queue = e :: rest) (hl : b.link.colliding = false) :
    e.collisions < 16 := by
  have ho := h.order
  rw [hq, hl] at ho
  obtain ⟨-, -, hle, hne⟩ := QueueOrder.cons_iff.1 ho
  exact lt_of_le_of_ne hle fun he => nomatch hne he

/-! ### The link -/

/-- The link goes on within an attempt, within a collision or outside both. -/
theorem Blc.Formed.relink (h : b.Formed) (hs : SameReserves b c) (hq : c.queue = b.queue)
    (hb : c.rx.isSome = true → c.inSlot = true) (hp : c.placed = true) : c.Formed := by
  refine ⟨?_, fun ht => ?_, hb, hp⟩
  · rw [hq, hs.colliding]
    exact h.order
  · rw [Blc.inTransmission, hs.attempting, hs.colliding] at ht
    rw [hq]
    exact h.sent ht

theorem releasedRun_le (run : Nat) (ls : List Level) : releasedRun run ls ≤ run + ls.length := by
  induction ls generalizing run with
  | nil => exact le_rfl
  | cons l ls ih =>
    have hstep := ih (if l then 0 else run + 1)
    change releasedRun (if l then 0 else run + 1) ls ≤ _
    rw [List.length_cons]
    split_ifs at hstep ⊢ <;> omega

/-- Characters back to back end with at most nine released bit times, since each starts driven (R120). -/
theorem releasedRun_flatMap_lt (bs : List Byte) : releasedRun 0 (bs.flatMap charLevels) < 10 := by
  induction bs using List.reverseRecOn with
  | nil => decide
  | append_singleton bs b =>
    rw [List.flatMap_append, releasedRun_append, List.flatMap_singleton]
    exact Nat.lt_succ_of_le (releasedRun_le 0 (charLevels b).tail)

theorem Frame.levels_pos (f : Frame) : 0 < f.levels.length := by
  rw [Frame.levels_length, Frame.bytes, withCheck, List.length_append]
  simp [le16]

/-- After a bit of the own frame comes its next one, or a run of fewer than ten released bit times. -/
theorem Blc.Formed.nextBit (h : b.Formed) {i : Nat} (hl : b.link = .own i) :
    ({ b with link := b.nextBit i } : Blc).placed = true := by
  have hp := h.placed
  simp only [Blc.placed, hl, LinkPhase.attempting, Bool.and_eq_true, beq_iff_eq] at hp
  obtain ⟨f, hf⟩ := Option.isSome_iff_exists.1 hp.1
  simp only [Blc.placed, Blc.nextBit, hf, Option.map_some, Option.getD_some]
  split_ifs with hi
  · simpa [LinkPhase.attempting] using hi
  · have hrun : releasedRun 0 f.levels < 10 := releasedRun_flatMap_lt f.bytes
    simpa [LinkPhase.attempting] using hrun

/-- A bit time takes the link on to a place of its own (R121, R125, R126). -/
theorem Blc.Formed.bitTime (h : b.Formed) : b.bitTime.Formed := by
  have hbuffer := h.buffer
  have hplaced := h.placed
  have hon := h.onWire_none
  suffices hlink : (b.bitTime.rx.isSome = true → b.bitTime.inSlot = true) ∧ b.bitTime.placed = true from
    h.relink (.bitTime b) (by rw [Blc.bitTime_frame]) hlink.1 hlink.2
  unfold Blc.bitTime
  cases hl : b.link with
  | idle =>
    refine ⟨by simpa [Blc.inSlot, hl] using hbuffer, ?_⟩
    simpa [Blc.placed, hl] using hplaced
  | own i => 
    exact ⟨by simp [h.rx_none (by simp [Blc.inSlot, hl])], h.nextBit hl⟩
  | ending r =>
    refine ⟨by simp [h.rx_none (by simp [Blc.inSlot, hl])], ?_⟩
    simp only [Blc.placed, hl, LinkPhase.attempting] at hplaced ⊢
    split_ifs <;> simp_all [Config.endRun, Config.slotBits]
  | ownSlot n =>
    refine ⟨by simp [h.rx_none (by simp [Blc.inSlot, hl])], ?_⟩
    simp only [Blc.placed, hl, LinkPhase.attempting, Bool.and_eq_true, decide_eq_true_iff] at hplaced ⊢
    exact ⟨hplaced.1, by omega⟩
  | jam n =>
    refine ⟨by simp [h.rx_none (by simp [Blc.inSlot, hl])], ?_⟩
    simp only [Blc.placed, hl, LinkPhase.attempting, Bool.and_eq_true, decide_eq_true_iff] at hplaced ⊢
    split_ifs
    · exact ⟨hplaced.1, rfl⟩
    · simp only [Bool.and_eq_true, decide_eq_true_iff]
      exact ⟨hplaced.1, by omega⟩
  | slot d n =>
    simp only [Blc.placed, hl, LinkPhase.attempting, Bool.and_eq_true, Bool.or_eq_true, decide_eq_true_iff] at hplaced
    obtain ⟨hwire, hle, hwait⟩ := hplaced
    dsimp only
    split_ifs with hover
    · exact ⟨by simp [hover.2], by simpa [Blc.placed, LinkPhase.attempting] using hwire⟩
    · refine ⟨fun _ => rfl, ?_⟩
      simp only [Blc.placed, LinkPhase.attempting, Bool.and_eq_true, Bool.or_eq_true, decide_eq_true_iff]
      refine ⟨hwire, by omega, ?_⟩
      rw [not_and_or, ← ne_eq, ← Option.isSome_iff_ne_none] at hover
      exact hover.imp_left (by omega)
  | foreign => exact ⟨hbuffer, hplaced⟩
  | collided r =>
    refine ⟨by simp [h.rx_none (by simp [Blc.inSlot, hl])], ?_⟩
    simp only [Blc.placed, hl, LinkPhase.attempting, Bool.and_eq_true, decide_eq_true_iff] at hplaced ⊢
    exact ⟨hplaced.1, min_le_left _ _⟩

/-- A bit time that another station drives takes the link to a place of its own (R121). -/
theorem Blc.Formed.driven (h : b.Formed) : b.driven.Formed := by
  have hbuffer := h.buffer
  have hplaced := h.placed
  refine h.relink (.driven b) (by rw [Blc.driven_frame]) ?_ ?_
  · unfold Blc.driven Blc.inSlot
    cases hl : b.link <;> simp_all [Blc.inSlot]
  · unfold Blc.driven
    cases hl : b.link with
    | collided r =>
      simp only [Blc.placed, hl, LinkPhase.attempting, Bool.and_eq_true, decide_eq_true_iff] at hplaced ⊢
      exact ⟨hplaced.1, by split_ifs <;> omega⟩
    | _ => simp_all [Blc.placed, LinkPhase.attempting]

/-- With the queue in order and no frame on the wire the link may be idle, or begin a slot (R121). -/
theorem Blc.Formed.released (ho : QueueOrder b.queue false) (hw : b.onWire = none)
    (hl : b.link = .idle ∧ b.rx = none ∨ ∃ d, b.link = .slot d 16) : b.Formed := by
  rcases hl with ⟨hl, hr⟩ | ⟨d, hl⟩
  · exact ⟨by rw [hl]; exact ho, by simp [Blc.inTransmission, hl, LinkPhase.attempting, LinkPhase.colliding],
      by simp [hr], by simp [Blc.placed, hl, hw, LinkPhase.attempting]⟩
  · exact ⟨by rw [hl]; exact ho, by simp [Blc.inTransmission, hl, LinkPhase.attempting, LinkPhase.colliding],
      fun _ => by simp [Blc.inSlot, hl], by simp [Blc.placed, hl, hw, LinkPhase.attempting]⟩

/-- The head frame begins its attempt on an idle pair (R125). -/
theorem Blc.Formed.begin (h : b.Formed) (hl : b.link = .idle) (hq : b.queue ≠ []) (f : Frame) (n : Nat) :
    ({ b with link := .own 0, idleCount := n, onWire := some f } : Blc).Formed := by
  have ho := h.order
  rw [hl] at ho
  exact ⟨ho, fun _ => hq, by simp [h.rx_none (by simp [Blc.inSlot, hl])],
    by simpa [Blc.placed, LinkPhase.attempting] using f.levels_pos⟩

/-- An own attempt collides: the head, which has not collided sixteen times, counts it (R126). -/
theorem Blc.Formed.collide (h : b.Formed) (hl : b.link.attempting = true) :
    ({ b.mapHead TxEntry.collide with link := .jam 16, onWire := none } : Blc).Formed := by
  obtain ⟨e, rest, hq⟩ := List.exists_cons_of_ne_nil (h.sent (by simp [Blc.inTransmission, hl]))
  have hcol : b.link.colliding = false := by
    by_contra hc
    simp [LinkPhase.attempting_of_colliding (Bool.eq_true_of_not_eq_false hc)] at hl
  have hslot : b.inSlot = false := by
    unfold Blc.inSlot
    cases hb : b.link <;> simp_all [LinkPhase.attempting]
  have hlt := h.head_lt hq hcol
  have ho := h.order
  rw [hq] at ho
  simp only [Blc.mapHead, hq]
  exact ⟨ho.mapHead (x := e.collide) rfl ⟨Nat.succ_le_of_lt hlt, fun _ => rfl⟩, fun _ => nofun,
    by simp [h.rx_none hslot], rfl⟩

end

/-! ### The link's events -/

section
variable {s t : State} {e : TxEntry} {rest : List TxEntry}

theorem ite_formed {p : Prop} [Decidable p] {u v : State} (hu : u.blc.Formed) (hv : v.blc.Formed) :
    (if p then u else v).blc.Formed := by
  split
  · exact hu
  · exact hv

theorem beginAttempt_formed (h : s.blc.Formed) (hl : s.blc.link = .idle) : (beginAttempt s).blc.Formed := by
  unfold beginAttempt
  split
  · exact h
  · rename_i e rest hq
    have hb := h.begin hl (by simp [hq]) (s.frameOf e) 0
    exact ite_formed hb hb

theorem collide_formed (h : s.blc.Formed) (hl : s.blc.link.attempting = true) : (collide s).blc.Formed :=
  ite_formed (h.collide hl) (h.collide hl)

theorem openSlot_formed (d : Bool) (rx : Option RxFrame) (h : s.blc.Formed) (hl : s.blc.link = .foreign) :
    (openSlot d rx s).blc.Formed := by
  have ho := h.order
  rw [hl] at ho
  exact .released ho (h.onWire_none (by simp [hl, LinkPhase.attempting])) (.inr ⟨d, rfl⟩)

theorem closeSlot_formed {r : RxFrame} (h : s.blc.Formed) (hr : s.blc.slotFrame = some r) :
    (closeSlot s).blc.Formed := by
  obtain ⟨⟨d, hl⟩, -⟩ := (Blc.slotFrame_eq_some _ _).1 hr
  have ho := h.order
  rw [hl] at ho
  exact .released ho (h.onWire_none (by simp [hl, LinkPhase.attempting])) (.inl ⟨rfl, rfl⟩)

@[simp] theorem releaseRefused_blc (s : State) : (releaseRefused s).blc = s.blc := by rw [releaseRefused_eq]

@[simp] theorem reserveOutcome_blc (d : Bool) (s : State) : (reserveOutcome d s).blc = s.blc := by
  unfold reserveOutcome
  split <;> rfl

/-- The link is idle or begins a slot, with no frame on the wire, and the head has been served (R123, R126 to R128): it
leaves the queue, or goes to its tail. -/
theorem Blc.Formed.passed {b : Blc} {p : Bool} (ho : QueueOrder b.queue p) (hw : b.onWire = none)
    (hl : b.link = .idle ∧ b.rx = none ∨ ∃ d, b.link = .slot d 16) : b.dropHead.Formed ∧ b.requeueHead.Formed := by
  have hdrop : b.dropHead.Formed := .released (ho.tail false) hw hl
  refine ⟨hdrop, ?_⟩
  unfold Blc.requeueHead
  split
  · rename_i hq
    rwa [Blc.dropHead, hq, List.tail_nil, ← hq] at hdrop
  · rename_i e rest hq
    rw [hq] at ho
    exact .released (ho.requeue false) hw hl

theorem dropFrame_formed (e : TxEntry) (h : s.blc.dropHead.Formed ∧ s.blc.requeueHead.Formed) :
    (dropFrame e s).blc.Formed := by
  obtain ⟨hdrop, hrequeue⟩ := h
  unfold dropFrame
  cases e.content with
  | announce =>
    change (if e.refresh then s.blc.requeueHead else s.blc.dropHead).Formed
    split
    · exact hrequeue
    · exact hdrop
  | reserve =>
    dsimp only
    rw [releaseRefused_blc]
    exact hdrop
  | withdraw => exact hdrop

/-- A collided transmission ends: its head leaves the queue, goes to its tail, or stays where it has not collided
sixteen times. -/
theorem collidedEnd_formed (h : s.blc.Formed) (hl : s.blc.link.colliding = true) (hq : s.blc.queue = e :: rest) :
    (collidedEnd e s).blc.Formed := by
  have hw := h.onWire_none (LinkPhase.attempting_of_colliding hl)
  have hpassed := Blc.Formed.passed (b := (openSlot false s.blc.rx s).blc) h.order hw (.inr ⟨false, rfl⟩)
  unfold collidedEnd
  dsimp only
  split_ifs with habandoned hdropped
  · rw [releaseRefused_blc]
    exact hpassed.1
  · exact dropFrame_formed e hpassed
  · have ho := h.order
    rw [hq] at ho
    have hle := (QueueOrder.cons_iff.1 ho).2.2.1
    have hmap : ((openSlot false s.blc.rx s).mapBlc (Blc.mapHead fun e => { e with refresh := false })).blc =
        { s.blc with link := .slot false 16, idleCount := 0, queue := { e with refresh := false } :: rest } := by
      simp [openSlot_eq, Blc.mapHead, hq]
    rw [hmap]
    refine .released ?_ hw (.inr ⟨false, rfl⟩)
    exact ho.mapHead (x := { e with refresh := false }) rfl ⟨hle, fun h16 => absurd h16.ge hdropped⟩

/-- The own slot ends: the head leaves the queue or goes to its tail. -/
theorem ownSlotEnd_formed (d : Bool) (h : s.blc.Formed) (hl : s.blc.link = .ownSlot 0) :
    (ownSlotEnd d e s).blc.Formed := by
  have hrx := h.rx_none (by simp [Blc.inSlot, hl])
  have hpassed := Blc.Formed.passed (b := { s.blc with link := .idle, idleCount := 0, onWire := none }) h.order rfl
    (.inl ⟨rfl, hrx⟩)
  unfold ownSlotEnd
  cases e.content with
  | announce =>
    change (if e.refresh then _ else _ : Blc).Formed
    split
    · exact hpassed.2
    · exact hpassed.1
  | reserve =>
    dsimp only
    rw [releaseRefused_blc]
    refine ite_formed ?_ hpassed.1
    rw [reserveOutcome_blc]
    exact hpassed.1
  | withdraw => exact hpassed.1

theorem conflictFound_formed (h : s.blc.Formed) : (conflictFound s).blc.Formed := by
  have hmarked : ({ s.blc with conflict := true } : Blc).Formed := ⟨h.order, h.sent, h.buffer, h.placed⟩
  exact ite_formed hmarked.abandonReserve hmarked

theorem takeTransmission_formed (j : Judged) (h : s.blc.Formed) (hl : s.blc.link = .foreign) :
    (takeTransmission j s).blc.Formed := by
  have hopen (d : Bool) (rx : Option RxFrame) := openSlot_formed d rx h hl
  cases j with
  | failed => exact hopen _ _
  | discarded => exact hopen _ _
  | good f => exact ite_formed (ite_formed (hopen _ _) (conflictFound_formed (hopen _ _))) (hopen _ _)

/-! ### The table, the schedule and the engine -/

theorem tableChanged_formed (h : s.blc.Formed) : (tableChanged s).blc.Formed :=
  have hdrop : (dropOnViewChange s).blc.Formed := ite_formed h.abandonReserve h
  hdrop

theorem putEntry_formed (a : Address) (x : PeerEntry) (c : Bool) (h : s.blc.Formed) : (putEntry a x c s).blc.Formed :=
  ite_formed (tableChanged_formed (s := s.mapPvt fun v => v.set a x) h) h

theorem takeReserve_formed (a : Address) (n : Nat) (k : ReserveClass) (d : Bool) (h : s.blc.Formed) :
    (takeReserve a n k d s).blc.Formed :=
  ite_formed (putEntry_formed _ _ _ h) (putEntry_formed _ _ _ h)

theorem silenceCheck_formed (h : s.blc.Formed) : (silenceCheck s).blc.Formed :=
  ite_formed (tableChanged_formed (s := s.mapPvt fun v => v.map PeerEntry.check) h) h

theorem lowerSettleCount_formed (h : s.blc.Formed) : (lowerSettleCount s).blc.Formed :=
  ite_formed h (ite_formed h h)

theorem changeSchedule_formed (f : Csc → Csc) (h : s.blc.Formed) : (changeSchedule f s).blc.Formed :=
  ite_formed h h.requestAnnounce

theorem wantReserve_formed (k : ReserveClass) (n : Nat) (h : s.blc.Formed) : (wantReserve k n s).blc.Formed :=
  ite_formed (ite_formed h (h.join _)) h

/-! ### The claim and the phase -/

theorem abandonReserve_formed (h : s.blc.Formed) : (abandonReserve s).blc.Formed := by
  unfold abandonReserve
  cases s.rsu.state with
  | none => exact h
  | queued => exact h.abandonReserve
  | sent => exact h.abandonReserve.join _
  | hold => exact h.join _
  | backoff => exact h

theorem setClaim_formed (firm flex transient : Nat) (h : s.blc.Formed) :
    (setClaim firm flex transient s).blc.Formed := by
  by_cases hsame : firm = s.bsq.firm ∧ flex = s.bsq.flex ∧ transient = s.bsq.transient
  · obtain ⟨rfl, rfl, rfl⟩ := hsame
    rwa [setClaim_same]
  · rw [setClaim_of_ne _ _ _ _ hsame]
    exact h.requestAnnounce

theorem zeroClaim_formed (h : s.blc.Formed) : (zeroClaim s).blc.Formed :=
  setClaim_formed (s := s.mapTmb fun t => { t with inrush := t.inrush.stop }) 0 0 0 h

theorem confirmOpen_formed (h : s.blc.Formed) : (confirmOpen s).blc.Formed :=
  zeroClaim_formed (s := setConfirmed true s) h

theorem setPhase_formed (next : Phase) (h : s.blc.Formed) : (setPhase next s).blc.Formed := by
  by_cases hsame : next = s.bsq.phase
  · rwa [setPhase, if_pos hsame]
  · have hleft : (phaseLeft next s).blc.Formed := by
      rw [phaseLeft_eq]
      exact ite_formed (abandonReserve_formed h) h
    rw [setPhase_eq next s hsame]
    exact hleft.requestAnnounce

/-! ### Trips -/

theorem addLater_formed (c : TripCause) (h : s.blc.Formed) : (addLater c s).blc.Formed := by
  rw [addLater_frame]
  exact h

theorem carryOutTrip_formed (b : Bool) (h : s.blc.Formed) : (carryOutTrip b s).blc.Formed := by
  have htrip : s.tripping.blc.Formed := setPhase_formed .tripped h
  rw [carryOutTrip_eq]
  exact ite_formed (ite_formed htrip (ite_formed htrip htrip)) (confirmOpen_formed htrip)

theorem startTrip_formed (b : Bool) (c : TripCause) (h : s.blc.Formed) : (startTrip b c s).blc.Formed :=
  carryOutTrip_formed b h

theorem takeCause_formed (c : TripCause) (h : s.blc.Formed) : (takeCause c s).blc.Formed :=
  ite_formed (addLater_formed c h) (startTrip_formed false c h)

theorem checkEstop_formed (h : s.blc.Formed) : (checkEstop s).blc.Formed :=
  ite_formed (takeCause_formed (s := s.mapTru fun t => { t with estopHeld := true }) _ h) h

theorem checkFeeder_formed (h : s.blc.Formed) : (checkFeeder s).blc.Formed :=
  ite_formed (takeCause_formed (s := s.mapTru fun t => { t with feederHeld := true }) _ h) h

theorem tripsTaken_formed (h : s.blc.Formed) : s.tripsTaken.blc.Formed :=
  checkEstop_formed (checkFeeder_formed (checkEstop_formed h))

/-- The end of an event takes trips and may begin the attempt of a new head on an idle pair. -/
theorem settle_formed (before : State) (h : s.blc.Formed) : (settle before s).blc.Formed := by
  cases hs : s.started
  · rwa [settle_config _ _ hs]
  · have htrips := tripsTaken_formed h
    obtain ⟨-, -, -, -, -, -, hblc, -⟩ := settle_ends s before hs
    rw [hblc]
    split
    · rename_i hstarts
      simp only [State.headStarts, Bool.and_eq_true, beq_iff_eq, State.waitReached] at hstarts
      obtain ⟨⟨hidle, -⟩, hwait⟩ := hstarts
      obtain ⟨e, he, -⟩ := (Option.any_eq_true _ _).1 hwait
      have hne : s.tripsTaken.blc.queue ≠ [] := fun hq => by simp [hq] at he
      rw [he]
      exact htrips.begin hidle hne _ _
    · exact htrips

theorem uncommandedClose_formed (h : s.blc.Formed) : (uncommandedClose s).blc.Formed :=
  have hclaim := setClaim_formed s.station.stuckBreakerClaim 0 0 h
  ite_formed (addLater_formed .breakerUncommanded hclaim) (startTrip_formed _ _ hclaim)

/-! ### Passages between phases -/

theorem evaluateEntry_formed (h : s.blc.Formed) : (evaluateEntry s).blc.Formed :=
  ite_formed (setPhase_formed .queued h) h

theorem enterPlugged_formed (h : s.blc.Formed) : (enterPlugged s).blc.Formed :=
  evaluateEntry_formed (s := checkConditions _) (tripsTaken_formed (setPhase_formed .plugged h))

theorem completeDeEnergise_formed (h : s.blc.Formed) : (completeDeEnergise s).blc.Formed :=
  enterPlugged_formed (zeroClaim_formed (s := releaseOpen s) h)

theorem enterDeEnergising_formed (h : s.blc.Formed) : (enterDeEnergising s).blc.Formed :=
  have hopening := setPhase_formed .deEnergising h
  ite_formed hopening (completeDeEnergise_formed hopening)

theorem enterParallel_formed (h : s.blc.Formed) : (enterParallel s).blc.Formed :=
  have hparallel := setPhase_formed .parallel h
  ite_formed (setPhase_formed .onShore hparallel) hparallel

theorem startInrush_formed (h : s.blc.Formed) : (startInrush s).blc.Formed := by
  rcases startInrush_cases s with ⟨-, h'⟩ | ⟨p, -, -, h'⟩ | ⟨p, -, -, h'⟩ <;> rw [h']
  · exact h
  · exact setClaim_formed _ _ _ h
  · exact h

theorem enterAwaitSync_formed (h : s.blc.Formed) : (enterAwaitSync s).blc.Formed :=
  have hawait := setPhase_formed .awaitSync
    (startInrush_formed (s := stopBreaker (s.mapBsq fun b => { b with bkClose := false })) h)
  ite_formed (enterDeEnergising_formed hawait) (ite_formed (enterParallel_formed hawait) hawait)

theorem formClamps_formed (h : s.blc.Formed) : (formClamps s).blc.Formed := by
  obtain ⟨q, v, h', -⟩ := formClamps_eq s
  rw [h']
  exact h

theorem compareVessel_formed (r : ShipRecord) (h : s.blc.Formed) : (compareVessel r s).blc.Formed := by
  unfold compareVessel
  split <;> exact h

theorem plugProven_formed (h : s.blc.Formed) : (plugProven s).blc.Formed :=
  enterPlugged_formed (formClamps_formed (s := selectProfile s) h)

theorem leaveTripped_formed (h : s.blc.Formed) : (leaveTripped s).blc.Formed := by
  have hdrop : (dropProfile (s.mapTru fun u => { u with record := none })).blc.Formed := h
  unfold leaveTripped
  dsimp only
  split
  · refine enterPlugged_formed (formClamps_formed ?_)
    split
    · exact compareVessel_formed _ hdrop
    · exact hdrop
  · exact setPhase_formed .vacant (formClamps_formed hdrop)

theorem linkIdle_formed (h : s.blc.Formed) : (linkIdle s).blc.Formed := formClamps_formed h

theorem pilotGone_formed (h : s.blc.Formed) : (pilotGone s).blc.Formed :=
  ite_formed (setPhase_formed .vacant h)
    (ite_formed (takeCause_formed _ h) (ite_formed (addLater_formed _ h) h))

/-! ### The ship's record and the lines -/

theorem takeRequest_formed (m : Marks) (r : ShipRecord) (h : s.blc.Formed) : (takeRequest m r s).blc.Formed :=
  ite_formed (ite_formed (enterDeEnergising_formed h) (ite_formed (setPhase_formed .transferBack h) h)) h

theorem takeBreaker_formed (m : Marks) (r : ShipRecord) (h : s.blc.Formed) : (takeBreaker m r s).blc.Formed :=
  ite_formed (ite_formed (enterParallel_formed h) (ite_formed (enterDeEnergising_formed h) h)) h

theorem takeGenerators_formed (m : Marks) (r : ShipRecord) (h : s.blc.Formed) : (takeGenerators m r s).blc.Formed :=
  ite_formed h (ite_formed (setPhase_formed .onShore h) h)

theorem deliverRecord_formed (m : Marks) (r : ShipRecord) (h : s.blc.Formed) : (deliverRecord m r s).blc.Formed := by
  have hclear : (clearAbortFlags r s).blc.Formed := ite_formed h h
  unfold deliverRecord
  generalize clearAbortFlags r s = t at hclear
  have hmove := takeGenerators_formed m r (takeBreaker_formed m r (takeRequest_formed m r hclear))
  have hcompare := compareVessel_formed r hclear
  dsimp only
  cases t.bsq.phase
  case plugged => exact evaluateEntry_formed hcompare
  case queued => exact ite_formed (enterPlugged_formed hcompare) hcompare
  case awaitSync | parallel | onShore | transferBack => exact hmove
  all_goals exact hclear

theorem takeRecord_formed (r : ShipRecord) (h : s.blc.Formed) : (takeRecord r s).blc.Formed := by
  have hheard : (linkHeard s).blc.Formed := ite_formed h h
  refine deliverRecord_formed _ r ?_
  exact formClamps_formed (s := (linkHeard s).mapVlp fun v => { v with held := some r }) hheard

theorem linkLost_formed (h : s.blc.Formed) : (linkLost s).blc.Formed :=
  have hlost : ((s.mapVlp fun v => { v with link := .lost }).mapTmb
      fun b => { b with linkTimeout := b.linkTimeout.stop }).blc.Formed := h
  ite_formed (enterPlugged_formed hlost) (ite_formed (enterDeEnergising_formed hlost)
    (ite_formed (setClaim_formed _ 0 _ hlost).requestAnnounce hlost))

theorem auxClosure_formed (h : s.blc.Formed) : (auxClosure s).blc.Formed := by
  unfold auxClosure
  split
  · exact enterAwaitSync_formed h
  · exact uncommandedClose_formed h
  · exact uncommandedClose_formed h
  · exact uncommandedClose_formed h
  · exact ite_formed (uncommandedClose_formed h) h
  · exact h

theorem auxOpening_formed (h : s.blc.Formed) : (auxOpening s).blc.Formed := by
  have hr : (if s.bsq.serving = some .resetPulse then releaseOpen s else s).blc.Formed := ite_formed h h
  unfold auxOpening
  generalize (if s.bsq.serving = some .resetPulse then releaseOpen s else s) = t at hr
  dsimp only
  split
  case h_5 => exact completeDeEnergise_formed hr
  case h_6 => exact confirmOpen_formed (s := releaseOpen t) hr
  case h_7 => exact hr
  all_goals exact enterDeEnergising_formed hr

theorem warningChange_formed (v : Bool) (h : s.blc.Formed) : (warningChange v s).blc.Formed :=
  ite_formed (ite_formed (enterPlugged_formed h) h) (evaluateEntry_formed h)

/-! ### Timers and computations -/

theorem breakerExpired_formed (c : Option BreakerCommand) (h : s.blc.Formed) : (breakerExpired c s).blc.Formed := by
  have hopen : (s.mapBsq fun b => { b with bkOpen := false }).blc.Formed := h
  unfold breakerExpired
  split
  · exact takeCause_formed _ h
  · exact ite_formed (addLater_formed _ hopen) hopen
  · exact ite_formed (startTrip_formed _ _ hopen) (ite_formed (addLater_formed _ hopen) hopen)
  · exact h

theorem settleHold_formed (h : s.blc.Formed) : (settleHold s).blc.Formed := by
  have hclear : (clearReserve s).blc.Formed := h
  unfold settleHold
  split
  · exact (setClaim_formed _ _ _ hclear).requestAnnounce
  · refine ite_formed ?_ (h.join _)
    exact setClaim_formed _ _ _ (setPhase_formed .energising hclear)
  · exact h

theorem rampDown_formed (h : s.blc.Formed) : (rampDown s).blc.Formed := by
  rcases rampDown_cases s with ⟨-, h'⟩ | ⟨-, h'⟩ <;> rw [h']
  · exact h.requestAnnounce
  · refine Blc.Formed.requestAnnounce (setClaim_formed _ _ _ ?_)
    exact h

theorem handOn_formed (v : Bool) (a : Action) (h : s.blc.Formed) : (handOn v a s).blc.Formed := by
  unfold handOn
  cases a with
  | release want => exact setClaim_formed _ want _ h
  | cut n => exact setClaim_formed _ _ _ h
  | raise n => exact ite_formed h (wantReserve_formed _ _ h)
  | energise n => exact ite_formed h (wantReserve_formed _ _ h)
  | none | cutWithheld n | energiseWait n => exact h

theorem completeComputation_formed (w : Working) (h : s.blc.Formed) : (completeComputation w s).blc.Formed := by
  cases hstale : w.stale
  · rw [completeComputation_of_fresh hstale]
    refine handOn_formed _ _ ?_
    dsimp only [State.computed]
    split
    · exact h.requestAnnounce
    · exact h
  · rw [completeComputation_of_stale hstale]
    exact h

theorem startStation_formed (h : s.blc.Formed) : (startStation s).blc.Formed := by
  have hlistening : s.listening.blc.Formed := h.requestAnnounce
  rw [startStation_eq]
  rcases sequencerStart_cases s.listening with ⟨-, h'⟩ | ⟨-, -, h'⟩ | ⟨-, -, h'⟩ <;> rw [h']
  · exact uncommandedClose_formed hlistening
  · exact plugProven_formed hlistening
  · exact hlistening

/-! ### Every command -/

theorem formed_of_eventIf {c : Bool} {f : State → State} (he : eventIf c f s = .next t) (h : s.blc.Formed)
    (hf : c = true → (f s).blc.Formed) : t.blc.Formed := by
  rcases eventIf_cases he with ⟨-, rfl⟩ | ⟨hc, rfl⟩
  · exact h
  · exact settle_formed s (hf hc)

theorem formed_of_event {f : State → State} (he : event f s = .next t) (hf : (f s).blc.Formed) : t.blc.Formed :=
  Host.Outcome.next.inj he ▸ settle_formed s hf

theorem formed_of_next {u : State} (he : Host.Outcome.next u = (.next t : Host.Outcome State Fault Refusal))
    (hu : u.blc.Formed) : t.blc.Formed := Host.Outcome.next.inj he ▸ hu

section
variable (h : s.blc.Formed)
include h

theorem execLoadStation_formed (r : StationRecord) (he : execLoadStation r s = .next t) : t.blc.Formed := by
  unfold execLoadStation at he
  split_ifs at he <;> exact formed_of_next he h

theorem execLoadProfile_formed (p : ProfileArgs) (he : execLoadProfile p s = .next t) : t.blc.Formed := by
  unfold execLoadProfile at he
  split_ifs at he <;> exact formed_of_next he h

theorem execLoadPeriod_formed (i k x : Nat) (he : execLoadPeriod i k x s = .next t) : t.blc.Formed := by
  unfold execLoadPeriod at he
  dsimp only at he
  split_ifs at he <;> exact formed_of_next he h

theorem execSetScheduleMode_formed (m : Nat) (he : execSetScheduleMode m s = .next t) : t.blc.Formed := by
  unfold execSetScheduleMode at he
  split at he
  · exact formed_of_next he h
  · split at he <;> exact formed_of_next he h

theorem execStart_formed (he : execStart s = .next t) : t.blc.Formed := by
  rcases execStart_cases he with ⟨code, rfl⟩ | ⟨-, -, rfl⟩
  · exact h
  · exact settle_formed s (s := answer 5 .accepted [] (startStation s)) (startStation_formed h)

theorem execLatch_formed (he : execLatch s = .next t) : t.blc.Formed := by
  unfold execLatch at he
  split at he <;> exact formed_of_next he h

theorem execReadSnapshot_formed (he : execReadSnapshot s = .next t) : t.blc.Formed := by
  unfold execReadSnapshot at he
  split at he <;> exact formed_of_next he h

theorem execReadPeer_formed (a : Nat) (he : execReadPeer a s = .next t) : t.blc.Formed := by
  unfold execReadPeer at he
  split at he <;> exact formed_of_next he h

theorem execProbe_formed (n : Nat) (he : execProbe n s = .next t) : t.blc.Formed := by
  unfold execProbe at he
  split_ifs at he <;> exact formed_of_next he h

theorem execClearTrip_formed (he : execClearTrip s = .next t) : t.blc.Formed := by
  unfold execClearTrip at he
  split_ifs at he
  · exact formed_of_next he h
  · exact formed_of_next he h
  · exact formed_of_event he (leaveTripped_formed h)
  · exact formed_of_next he h

theorem execForgetPeer_formed (a : Nat) (he : execForgetPeer a s = .next t) : t.blc.Formed := by
  unfold execForgetPeer at he
  split at he
  · exact formed_of_next he h
  · split at he
    · split at he
      · exact formed_of_event he (putEntry_formed _ _ _ h)
      · exact formed_of_next he h
    · exact formed_of_next he h

theorem execBerthHold_formed (v : Nat) (he : execBerthHold v s = .next t) : t.blc.Formed := by
  unfold execBerthHold at he
  split at he
  · exact formed_of_next he h
  · split at he
    · split at he
      · exact formed_of_next he h
      · rename_i b _ _
        exact formed_of_event he (evaluateEntry_formed (s := s.mapBsq fun q => { q with hostHold := b }) h)
    · exact formed_of_next he h

/-- A line settles and, in LISTEN and RUN, something follows that keeps the form. -/
theorem formed_of_line {c b : Bool} {f : State → State} {l : Line} {v : Bool} {g : State → State}
    (he : eventIf c f s = .next t) (hu : f s = if b then g (settleLine l v s) else settleLine l v s)
    (hg : ∀ {x : State}, x.blc.Formed → (g x).blc.Formed) : t.blc.Formed := by
  refine formed_of_eventIf he h fun _ => ?_
  rw [hu]
  exact ite_formed (hg (x := settleLine l v s) h) h

theorem execTariffSelectChange_formed (n : Fin 4) (v : Bool) (he : execTariffSelectChange n v s = .next t) :
    t.blc.Formed := by
  refine formed_of_eventIf he h fun _ => ?_
  have hq : (qualifySelects (settleActive (.tsel n) v s)).blc.Formed := by
    rw [qualifySelects_frame]
    exact h
  exact ite_formed (changeSchedule_formed _ hq) hq

theorem execShipStatusRecord_formed (levels : List Level) (he : execShipStatusRecord levels s = .next t) :
    t.blc.Formed := by
  unfold execShipStatusRecord at he
  split at he
  · exact formed_of_eventIf he h fun _ => takeRecord_formed _ h
  · exact formed_of_next he h

theorem execAnnounceReceived_formed (he : execAnnounceReceived s = .next t) : t.blc.Formed := by
  unfold execAnnounceReceived at he
  split at he
  · rename_i hslot
    have hclosed := closeSlot_formed h hslot
    exact formed_of_event he (ite_formed (putEntry_formed _ _ _ hclosed) hclosed)
  · exact formed_of_next he h

theorem execReserveReceived_formed (levels : SlotLevels) (he : execReserveReceived levels s = .next t) :
    t.blc.Formed := by
  unfold execReserveReceived at he
  split at he
  · rename_i hslot
    have hclosed := closeSlot_formed h hslot
    exact formed_of_event he (ite_formed (takeReserve_formed _ _ _ _ hclosed) hclosed)
  · exact formed_of_next he h

theorem execWithdrawReceived_formed (he : execWithdrawReceived s = .next t) : t.blc.Formed := by
  unfold execWithdrawReceived at he
  split at he
  · rename_i hslot
    have hclosed := closeSlot_formed h hslot
    exact formed_of_event he (ite_formed (putEntry_formed _ _ _ hclosed) hclosed)
  · exact formed_of_next he h

theorem execCollision_formed (he : execCollision s = .next t) : t.blc.Formed := by
  refine formed_of_eventIf he h fun hc => collide_formed h ?_
  obtain ⟨⟨i, hl⟩, -⟩ := (Blc.mismatch_iff true s.blc).1 (Bool.and_eq_true_iff.1 hc).1
  rw [hl]
  rfl

theorem execCollidedTransmissionEnd_formed (he : execCollidedTransmissionEnd s = .next t) : t.blc.Formed := by
  unfold execCollidedTransmissionEnd at he
  split at he
  · rename_i hl hq
    exact formed_of_eventIf he h fun _ => collidedEnd_formed h (by rw [hl]; rfl) hq
  · exact formed_of_next he h

theorem execOwnSlotEnd_formed (levels : SlotLevels) (he : execOwnSlotEnd levels s = .next t) : t.blc.Formed := by
  unfold execOwnSlotEnd at he
  split at he
  · rename_i hl _
    exact formed_of_event he (ownSlotEnd_formed _ h hl)
  · exact formed_of_next he h

theorem execRampTick_formed (he : execRampTick s = .next t) : t.blc.Formed := by
  refine formed_of_eventIf he h fun _ => ?_
  have hr : (s.mapTmb fun t => { t with ramp := Timer.start s.figures.rampInterval }).blc.Formed := h
  exact ite_formed (ite_formed hr hr) (ite_formed (rampDown_formed hr) hr)

theorem execReservedFieldAgeStep_formed (a : Address) (he : execReservedFieldAgeStep a s = .next t) :
    t.blc.Formed := by
  unfold execReservedFieldAgeStep at he
  split at he
  · exact formed_of_eventIf he h fun _ => putEntry_formed _ _ _ h
  · exact formed_of_next he h

theorem execComputationComplete_formed (he : execComputationComplete s = .next t) : t.blc.Formed := by
  unfold execComputationComplete at he
  split at he
  · exact formed_of_event he (completeComputation_formed _ h)
  · exact formed_of_next he h

theorem execReferenceWordEnd_formed (he : execReferenceWordEnd s = .next t) : t.blc.Formed := by
  unfold execReferenceWordEnd at he
  split at he
  · exact formed_of_next he h
  · exact formed_of_next he (ite_formed h h)

theorem execStatusRecordGapEnd_formed (he : execStatusRecordGapEnd s = .next t) : t.blc.Formed := by
  unfold execStatusRecordGapEnd at he
  split at he
  · exact formed_of_next he (ite_formed h h)
  · exact formed_of_next he h

/-- A command that under a condition gives another state, with the link as it was. -/
theorem formed_of_if {c : Prop} [Decidable c] {u v : State}
    (he : (if c then .next u else .next v) = (.next t : Host.Outcome State Fault Refusal)) (hu : u.blc = s.blc)
    (hv : v.blc = s.blc) : t.blc.Formed := by
  split at he
  · exact formed_of_next he (hu ▸ h)
  · exact formed_of_next he (hv ▸ h)

end

/-- Every command keeps the form. -/
theorem exec_formed {c : Instr} (h : s.blc.Formed) (he : exec c s = .next t) : t.blc.Formed := by
  have hevent {c : Bool} {f : State → State} (he : eventIf c f s = .next t) (hf : (f s).blc.Formed) : t.blc.Formed :=
    formed_of_eventIf he h fun _ => hf
  cases c with
  | reset => exact formed_of_next he ((queueForm_iff State.reset).1 (by decide))
  | lineInitialSettle levels => exact formed_of_if h he rfl rfl
  | loadStation r => exact execLoadStation_formed h r he
  | loadProfile p => exact execLoadProfile_formed h p he
  | loadPeriod i k x => exact execLoadPeriod_formed h i k x he
  | setScheduleMode m => exact execSetScheduleMode_formed h m he
  | start => exact execStart_formed h he
  | readStatus => exact formed_of_next he h
  | latch => exact execLatch_formed h he
  | readSnapshot => exact execReadSnapshot_formed h he
  | readPeer a => exact execReadPeer_formed h a he
  | clearTrip => exact execClearTrip_formed h he
  | forgetPeer a => exact execForgetPeer_formed h a he
  | berthHold v => exact execBerthHold_formed h v he
  | probe n => exact execProbe_formed h n he
  | transactionNotTaken bytes => exact formed_of_next he h
  | pilotProven => exact formed_of_line h he rfl plugProven_formed
  | pilotLost => exact formed_of_line h he rfl fun hx => pilotGone_formed (linkIdle_formed hx)
  | auxReadsClosed => exact formed_of_line h he rfl auxClosure_formed
  | auxReadsOpen => exact formed_of_line h he rfl auxOpening_formed
  | estopChange v => exact hevent he h
  | feederWarningChange v => exact formed_of_line h he rfl (warningChange_formed v)
  | plugCodeLineChange n v => exact formed_of_if h he rfl rfl
  | tariffAdvance => exact formed_of_line h he rfl (changeSchedule_formed _)
  | tariffRestart => exact formed_of_line h he rfl (changeSchedule_formed _)
  | tariffSelectChange n v => exact execTariffSelectChange_formed h n v he
  | edgeLineSettled l => exact formed_of_if h he rfl rfl
  | shipStatusRecord levels => exact execShipStatusRecord_formed h levels he
  | meterSample bits => exact hevent he (ite_formed h h)
  | receivedTransmissionEnd levels =>
    exact formed_of_eventIf he h fun hc => takeTransmission_formed _ h (by simp_all)
  | announceReceived => exact execAnnounceReceived_formed h he
  | reserveReceived levels => exact execReserveReceived_formed h levels he
  | withdrawReceived => exact execWithdrawReceived_formed h he
  | attemptStart => exact formed_of_eventIf he h fun hc => beginAttempt_formed h (by simp_all)
  | collision => exact execCollision_formed h he
  | collidedTransmissionEnd => exact execCollidedTransmissionEnd_formed h he
  | ownSlotEnd levels => exact execOwnSlotEnd_formed h levels he
  | announceTimerExpiry =>
    refine hevent he (lowerSettleCount_formed (silenceCheck_formed ?_))
    exact h.requestAnnounce
  | listenExpiry =>
    refine hevent he (evaluateEntry_formed ?_)
    exact h.requestAnnounce
  | holdExpiry => exact hevent he (settleHold_formed (s := s.mapTmb fun t => { t with hold := t.hold.stop }) h)
  | reserveBackoffExpiry => exact hevent he h
  | breakerTimerExpiry => exact hevent he (breakerExpired_formed (s := stopBreaker s) _ h)
  | inrushExpiry =>
    exact hevent he (setClaim_formed (s := s.mapTmb fun t => { t with inrush := t.inrush.stop }) _ _ _ h)
  | syncWindowExpiry =>
    refine hevent he (ite_formed (enterDeEnergising_formed ?_) h)
    exact h
  | parallelLimitExpiry =>
    refine hevent he (ite_formed (setPhase_formed _ ?_) h)
    exact h
  | rampTick => exact execRampTick_formed h he
  | vesselLinkTimeout => exact hevent he (linkLost_formed h)
  | linkLossTripExpiry =>
    exact hevent he (takeCause_formed (s := s.mapTmb fun t => { t with linkLoss := t.linkLoss.stop }) _ h)
  | overdrawExpiry =>
    exact hevent he (takeCause_formed (s := s.mapTmb fun t => { t with overdraw := t.overdraw.stop }) _ h)
  | meterStaleExpiry => exact hevent he h
  | silentAgeingStep a => exact hevent he (putEntry_formed _ _ _ h)
  | reservedFieldAgeStep a => exact execReservedFieldAgeStep_formed h a he
  | computationComplete => exact execComputationComplete_formed h he
  | referenceWordEnd => exact execReferenceWordEnd_formed h he
  | statusIntervalReached => exact formed_of_if h he rfl rfl
  | statusRecordGapEnd => exact execStatusRecordGapEnd_formed h he
  | lineSampling levels => exact formed_of_if h he rfl rfl
  | transmissionBegins => exact formed_of_next he h.driven
  | berthStatusRecordEnd => exact formed_of_if h he rfl rfl

end

/-- Settles O51: a step is a command or a bit time, and both keep the form. -/
theorem everyStepKeepsTheQueueForm : Obligations.EveryStepKeepsTheQueueForm := by
  intro s t h he
  rw [queueForm_iff] at h ⊢
  unfold step at he
  split at he
  · exact formed_of_next he h.bitTime
  · rename_i c rest _
    exact exec_formed (s := { s with pending := rest }) h he

end Sys2Proof.Machine

/-! SUPPORT. What each operation of the transmit queue gives, and what a bit time makes of the link; with the statements
about them. -/

namespace Sys2Proof.Machine

/-! ### The operations of the transmit queue -/

theorem TxContent.code_eq_one_iff (c : TxContent) : c.code = 1 ↔ c = .announce := by
  cases c <;> simp [TxContent.code]

theorem TxEntry.isReserve_iff (e : TxEntry) : e.isReserve = true ↔ ∃ n c, e.content = .reserve n c := by
  cases h : e.content <;> simp [TxEntry.isReserve, h, TxContent.code]

section
variable {b : Blc} {e : TxEntry} {rest : List TxEntry}

theorem Blc.mapHead_cons (h : b.queue = e :: rest) (f : TxEntry → TxEntry) :
    b.mapHead f = { b with queue := f e :: rest } := by
  simp [Blc.mapHead, h]

theorem Blc.dropHead_cons (h : b.queue = e :: rest) : b.dropHead = { b with queue := rest } := by
  simp [Blc.dropHead, h]

theorem Blc.requeueHead_cons (h : b.queue = e :: rest) :
    b.requeueHead = { b with queue := rest ++ [{ e with collisions := 0, refresh := false }] } := by
  simp [Blc.requeueHead, h]

/-- An ANNOUNCE in transmission gets its refresh mark (R123). -/
theorem Blc.requestAnnounce_sent (hq : b.queue = e :: rest) (ht : b.inTransmission = true)
    (he : e.content = .announce) : b.requestAnnounce = { b with queue := { e with refresh := true } :: rest } := by
  rw [Blc.requestAnnounce, if_pos (by simp [ht, hq, he, TxContent.code]), Blc.mapHead_cons hq]

/-- With no ANNOUNCE in transmission one joins the queue (R123). -/
theorem Blc.requestAnnounce_join (h : ¬(b.inTransmission = true ∧ ∃ e ∈ b.queue.head?, e.content = .announce)) :
    b.requestAnnounce = b.join .announce := by
  refine if_neg (mt (fun hh => ?_) h)
  obtain ⟨ht, e, he, hcode⟩ := by simpa only [Bool.and_eq_true, Option.any_eq_true, beq_iff_eq] using hh
  exact ⟨ht, e, he, (TxContent.code_eq_one_iff _).1 hcode⟩

/-- A RESERVE in transmission is marked abandoned (R124). -/
theorem Blc.abandonReserve_sent (hq : b.queue = e :: rest) (ht : b.inTransmission = true) (he : e.isReserve = true) :
    b.abandonReserve = { b with queue := { e with abandoned := true } :: rest } := by
  rw [Blc.abandonReserve, if_pos (by simp [ht, hq, he]), Blc.mapHead_cons hq]

/-- With no RESERVE in transmission every one leaves the queue (R124). -/
theorem Blc.abandonReserve_waiting (h : ¬(b.inTransmission = true ∧ ∃ e ∈ b.queue.head?, e.isReserve = true)) :
    b.abandonReserve = { b with queue := b.queue.filter fun e => !e.isReserve } := by
  refine if_neg (mt (fun hh => ?_) h)
  rwa [Bool.and_eq_true, Option.any_eq_true] at hh

theorem Blc.inTransmission_iff (b : Blc) :
    b.inTransmission = true ↔ b.link.attempting = true ∨ (∃ n, b.link = .jam n) ∨ ∃ r, b.link = .collided r := by
  rw [Blc.inTransmission, Bool.or_eq_true, LinkPhase.colliding_iff]

end

/-- Settles O12: each operation by the frame that is in transmission, or that is in the queue. -/
theorem queueOperationsKeepOneFrameOfEachKind : Obligations.QueueOperationsKeepOneFrameOfEachKind := by
  intro b
  refine ⟨fun c h => if_pos h, fun c h => if_neg (by simp [h]), fun e rest => Blc.requestAnnounce_sent,
    Blc.requestAnnounce_join, fun e rest => Blc.abandonReserve_sent, Blc.abandonReserve_waiting,
    TxEntry.isReserve_iff, b.link.attempting_iff, b.inTransmission_iff⟩

/-! ### Every command gives a next state -/

theorem eventIf_next (c : Bool) (f : State → State) (s : State) : ∃ t, eventIf c f s = .next t := by
  cases c
  · exact ⟨_, eventIf_false s rfl f⟩
  · exact ⟨_, eventIf_true s rfl f⟩

theorem ite_next {p : Prop} [Decidable p] {x y : Host.Outcome State Fault Refusal} (hx : ∃ t, x = .next t)
    (hy : ∃ t, y = .next t) : ∃ t, (if p then x else y) = .next t := by
  split
  · exact hx
  · exact hy

/-- No command faults, and none is refused by the model: a command that the part refuses is answered. -/
theorem exec_next (c : Instr) (s : State) : ∃ t, exec c s = .next t := by
  cases c with
  | reset | readStatus | transactionNotTaken | transmissionBegins => exact ⟨_, rfl⟩
  | lineInitialSettle | lineSampling | plugCodeLineChange | edgeLineSettled | statusIntervalReached
  | berthStatusRecordEnd | statusRecordGapEnd =>
    exact ite_next ⟨_, rfl⟩ ⟨_, rfl⟩
  | loadStation | loadProfile | loadPeriod | start | probe =>
    exact ite_next ⟨_, rfl⟩ (ite_next ⟨_, rfl⟩ ⟨_, rfl⟩)
  | clearTrip => exact ite_next ⟨_, rfl⟩ (ite_next ⟨_, rfl⟩ (ite_next ⟨_, rfl⟩ ⟨_, rfl⟩))
  | setScheduleMode =>
    refine ite_next ⟨_, rfl⟩ ?_
    split <;> exact ⟨_, rfl⟩
  | forgetPeer =>
    refine ite_next ⟨_, rfl⟩ ?_
    split
    · exact ite_next ⟨_, rfl⟩ ⟨_, rfl⟩
    · exact ⟨_, rfl⟩
  | berthHold =>
    refine ite_next ⟨_, rfl⟩ ?_
    split
    · exact ite_next ⟨_, rfl⟩ ⟨_, rfl⟩
    · exact ⟨_, rfl⟩
  | latch =>
    simp only [exec, execLatch]
    split <;> exact ⟨_, rfl⟩
  | readSnapshot =>
    simp only [exec, execReadSnapshot]
    split <;> exact ⟨_, rfl⟩
  | readPeer =>
    simp only [exec, execReadPeer]
    split <;> exact ⟨_, rfl⟩
  | shipStatusRecord =>
    simp only [exec, execShipStatusRecord]
    split
    · exact eventIf_next _ _ s
    · exact ⟨_, rfl⟩
  | announceReceived =>
    simp only [exec, execAnnounceReceived]
    split <;> exact ⟨_, rfl⟩
  | reserveReceived =>
    simp only [exec, execReserveReceived]
    split <;> exact ⟨_, rfl⟩
  | withdrawReceived =>
    simp only [exec, execWithdrawReceived]
    split <;> exact ⟨_, rfl⟩
  | collidedTransmissionEnd =>
    simp only [exec, execCollidedTransmissionEnd]
    split
    · exact eventIf_next _ _ s
    · exact ⟨_, rfl⟩
  | ownSlotEnd =>
    simp only [exec, execOwnSlotEnd]
    split <;> exact ⟨_, rfl⟩
  | reservedFieldAgeStep =>
    simp only [exec, execReservedFieldAgeStep]
    split
    · exact eventIf_next _ _ s
    · exact ⟨_, rfl⟩
  | computationComplete =>
    simp only [exec, execComputationComplete]
    split <;> exact ⟨_, rfl⟩
  | referenceWordEnd =>
    simp only [exec, execReferenceWordEnd]
    split <;> exact ⟨_, rfl⟩
  | _ => exact eventIf_next _ _ s

/-! ### A bit time -/

section
variable {b : Blc}

/-- The bit of the own frame that is being sent. -/
theorem Blc.drives_own {i : Nat} {f : Frame} (hl : b.link = .own i) (hw : b.onWire = some f) :
    b.drives = true ↔ f.levels[i]? = some true := by
  simp only [Blc.drives, hl, hw, Option.map_some, Option.getD_some, List.getD_eq_getElem?_getD]
  cases f.levels[i]? <;> simp

/-- The station drives the pair with the bit of its frame, in its jam, and in a slot that it objects in (R120, R126,
R129). -/
theorem Blc.drives_iff (b : Blc) :
    b.drives = true ↔
      (∃ i, ∃ f ∈ b.onWire, b.link = .own i ∧ f.levels[i]? = some true) ∨ (∃ n, b.link = .jam n) ∨
        ∃ n, b.link = .slot true n ∧ 1 ≤ n := by
  cases hl : b.link with
  | own i =>
    cases hw : b.onWire with
    | none => simp [Blc.drives, hl, hw]
    | some f => simp [Blc.drives_own hl hw]
  | slot d n => cases d <;> simp [Blc.drives, hl, Nat.one_le_iff_ne_zero]
  | _ => simp [Blc.drives, hl]

theorem Blc.bitTime_idle (hl : b.link = .idle) : b.bitTime = { b with idleCount := b.idleCount + 1 } := by
  simp only [Blc.bitTime, hl]

theorem Blc.bitTime_foreign (hl : b.link = .foreign) : b.bitTime = b := by
  simp only [Blc.bitTime, hl]

theorem Blc.bitTime_ending {r : Nat} (hl : b.link = .ending r) :
    b.bitTime = { b with link := if r + 1 < 10 then .ending (r + 1) else .ownSlot 16 } := by
  simp only [Blc.bitTime, hl]
  rfl

theorem Blc.bitTime_ownSlot {n : Nat} (hl : b.link = .ownSlot n) :
    b.bitTime = { b with link := .ownSlot (n - 1) } := by
  simp only [Blc.bitTime, hl]

theorem Blc.bitTime_jam {n : Nat} (hl : b.link = .jam n) :
    b.bitTime = { b with link := if 1 < n then .jam (n - 1) else .collided 0 } := by
  simp only [Blc.bitTime, hl, ← Nat.not_lt, ite_not]

theorem Blc.bitTime_collided {r : Nat} (hl : b.link = .collided r) :
    b.bitTime = { b with link := .collided (min 10 (r + 1)) } := by
  simp only [Blc.bitTime, hl]
  rfl

theorem Blc.bitTime_slot {d : Bool} {n : Nat} (hl : b.link = .slot d n) :
    b.bitTime = if n ≤ 1 ∧ b.rx = none then { b with link := .idle, idleCount := 0 }
      else { b with link := .slot d (n - 1) } := by
  simp only [Blc.bitTime, hl]

/-- The own frame goes on by a bit, and after its last one by the released run at its end (R120, R121). -/
theorem Blc.bitTime_own {i : Nat} {f : Frame} (hl : b.link = .own i) (hw : b.onWire = some f) :
    b.bitTime =
      { b with
        link := if i + 1 < f.levels.length then .own (i + 1)
                else .ending (f.levels.reverse.takeWhile fun l => l == false).length } := by
  simp only [Blc.bitTime, hl, Blc.nextBit, hw, Option.map_some, Option.getD_some, releasedRun_eq]

end

/-- Settles O1: every command gives a next state, and a bit time is its case by what is on the pair. -/
theorem stepTakesTheFrontCommandOrPassesABitTime : Obligations.StepTakesTheFrontCommandOrPassesABitTime := by
  refine ⟨fun c rest s => ⟨rfl, exec_next c s⟩, fun s hp => ?_⟩
  refine ⟨bitTime s, by simp [step, hp], rfl, fun hl => ?_, fun d n hl hwait => ?_, fun d n hl hn hr => ?_,
    fun i f hw hl => ⟨fun hi => ?_, fun hi => ?_⟩, fun r hl => ?_, fun n hl => ?_, fun n hl => ?_, fun r hl => ?_,
    fun hl => ?_, s.blc.drives_iff⟩
  · exact Blc.bitTime_idle hl
  · change s.blc.bitTime = _
    rw [Blc.bitTime_slot hl, if_neg]
    rintro ⟨hn, hr⟩
    rcases hwait with hwait | hwait
    · omega
    · simp [hr] at hwait
  · exact (Blc.bitTime_slot hl).trans (if_pos ⟨hn, hr⟩)
  · exact (Blc.bitTime_own hl hw).trans (by rw [if_pos hi])
  · exact (Blc.bitTime_own hl hw).trans (by rw [if_neg (by omega)])
  · exact Blc.bitTime_ending hl
  · exact Blc.bitTime_ownSlot hl
  · exact Blc.bitTime_jam hl
  · exact Blc.bitTime_collided hl
  · rw [bitTime, State.mapBlc, Blc.bitTime_foreign hl]

end Sys2Proof.Machine

/-! SUPPORT. The attempts of this station, their collisions and their slots, each end of a transmission by its cases;
with the statements about them. -/

namespace Sys2Proof.Machine

section
variable {s u : State} {c : Instr} {e : TxEntry} {rest : List TxEntry}

/-- An event beside the sequencer that begins calm ends as what it does. -/
theorem Aside.completes (h : Aside s u) (hs : s.started = true) (hc : s.calm = true)
    (hx : exec c s = .next (settle s u)) : CompletesAs c s u :=
  (h.takenAs hs hc).completes hx

theorem TxEntry.isReserve_iff_code (e : TxEntry) : e.isReserve = true ↔ e.content.code = 2 := beq_iff_eq

/-! ### An attempt begins -/

theorem execAttemptStart_begins (hs : s.started = true) (hl : s.blc.link = .idle) (hq : s.blc.queue = e :: rest)
    (hwait : accessWait s.ownAddress e ≤ s.blc.idleCount) :
    exec .attemptStart s = .next (settle s (beginAttempt s)) := by
  refine eventIf_true s ?_ beginAttempt
  rw [hs, hl, (waitReached_cons s e rest hq).2 hwait]
  rfl

/-- Outside LISTEN and RUN, with the pair in use or before the access wait has passed no attempt begins (R125). -/
theorem execAttemptStart_skips (h : s.started = false ∨ s.blc.link ≠ .idle ∨ s.waitReached = false) :
    exec .attemptStart s = .next s := by
  refine eventIf_false s ?_ beginAttempt
  rcases h with h | h | h
  · simp [h]
  · simp [h]
  · simp [h]

end

section
variable {b : Blc}

/-- On an idle pair a driven bit time begins another station's transmission (R121). -/
theorem Blc.driven_idle (hl : b.link = .idle) : b.driven = { b with link := .foreign, idleCount := 0 } := by
  simp only [Blc.driven, hl]

/-- After the own frame the released run begins anew (R121). -/
theorem Blc.driven_ending {r : Nat} (hl : b.link = .ending r) : b.driven = { b with link := .ending 0 } := by
  simp only [Blc.driven, hl]

/-- So it does after the own jam, before the transmission has ended (R121, R126). -/
theorem Blc.driven_collided {r : Nat} (hl : b.link = .collided r) :
    b.driven = { b with link := .collided (if r < 10 then 0 else r) } := by
  simp only [Blc.driven, hl]
  rfl

/-- Anywhere else it belongs to the transmission or slot that it falls in (R121). -/
theorem Blc.driven_within (hi : b.link ≠ .idle) (he : ∀ r, b.link ≠ .ending r) (hc : ∀ r, b.link ≠ .collided r) :
    b.driven = b := by
  unfold Blc.driven
  split
  · exact absurd ‹_› hi
  · exact absurd ‹_› (he _)
  · exact absurd ‹_› (hc _)
  · rfl

end

/-- TRANSMISSION_BEGINS reaches the link alone. -/
theorem execTransmissionBegins_eq (s : State) :
    exec .transmissionBegins s = .next { s with blc := s.blc.driven } := rfl

/-- Settles O32: an attempt begins where its wait has passed, and a bit time driven by another station is its case by
what is on the pair. -/
theorem attemptsSendTheHeadFrame : Obligations.AttemptsSendTheHeadFrame := by
  intro s
  refine ⟨fun e rest hq hs hc hl hwait => ?_, fun e rest hq hwait => ?_, fun h => ?_, fun hl => ?_, fun r hl => ?_,
    fun r hl => ?_, fun hi he hcol => ?_⟩
  · intro o f
    have hf : s.frameOf e = f := by
      simp only [State.frameOf, f]
      cases e.content <;> rfl
    have hbegun := (Aside.beginAttempt s).completes hs hc (execAttemptStart_begins hs hl hq hwait)
    rw [beginAttempt_eq s e rest hq, hf] at hbegun
    simpa only [TxEntry.isReserve_iff_code] using hbegun
  · refine execAttemptStart_skips (.inr (.inr ?_))
    rw [← Bool.not_eq_true, waitReached_cons s e rest hq]
    exact Nat.not_le.2 hwait
  · rcases h with h | h | h
    · exact execAttemptStart_skips (.inl h)
    · exact execAttemptStart_skips (.inr (.inr (by simp [State.waitReached, h])))
    · exact execAttemptStart_skips (.inr (.inl h))
  · rw [execTransmissionBegins_eq, Blc.driven_idle hl]
  · rw [execTransmissionBegins_eq, Blc.driven_ending hl]
  · rw [execTransmissionBegins_eq, Blc.driven_collided hl]
  · rw [execTransmissionBegins_eq, Blc.driven_within hi he hcol]

/-! ### An attempt collides -/

section
variable {s : State} {e : TxEntry} {rest : List TxEntry}

/-- A collision ends the attempt with the jam, the head counts it, and a SENT reserve waits again (R126, R55). -/
theorem collide_eq (hq : s.blc.queue = e :: rest) :
    collide s =
      { s with
        blc := { s.blc with link := .jam 16, onWire := none, queue := e.collide :: rest }
        rsu := { s.rsu with state := if s.rsu.state = .sent ∧ e.isReserve = true then .queued else s.rsu.state } } := by
  simp only [collide, hq, List.head?_cons, Option.any_some]
  split <;> simp [State.mapBlc, State.mapRsu, Blc.mapHead_cons hq, Config.jamBits]

/-- The bit of the own frame is released and the pair reads driven: a mismatch (R126). -/
theorem execCollision_collides (hq : s.blc.queue = e :: rest) {i : Nat} (hl : s.blc.link = .own i)
    (hd : s.blc.drives = false) : exec .collision s = .next (settle s (collide s)) := by
  refine eventIf_true s ?_ collide
  rw [(Blc.mismatch_iff true s.blc).2 ⟨⟨i, hl⟩, hd, rfl⟩, hq]
  rfl

/-- With no attempt, or in a bit time that the station itself drives, there is no mismatch (R126). -/
theorem execCollision_skips (h : s.blc.queue = [] ∨ (∀ i, s.blc.link ≠ .own i) ∨ s.blc.drives = true) :
    exec .collision s = .next s := by
  refine eventIf_false s ?_ collide
  rw [← Bool.not_eq_true, Bool.and_eq_true, Blc.mismatch_iff]
  rintro ⟨⟨⟨i, hl⟩, hd, -⟩, hne⟩
  rcases h with h | h | h
  · simp [h] at hne
  · exact h i hl
  · simp [h] at hd

/-! ### The end of a collided transmission -/

/-- The pair in the slot that follows a collided transmission, with another queue. -/
def State.inCollidedSlot (s : State) (q : List TxEntry) : State :=
  { s with blc := { s.blc with link := .slot false 16, idleCount := 0, queue := q } }

theorem execCollidedTransmissionEnd_eq (hq : s.blc.queue = e :: rest) {r : Nat} (hl : s.blc.link = .collided r) :
    exec .collidedTransmissionEnd s = eventIf (decide (10 ≤ r)) (collidedEnd e) s := by
  simp only [exec, execCollidedTransmissionEnd, hl, hq]
  rfl

theorem execCollidedTransmissionEnd_skips (h : s.blc.queue = [] ∨ ∀ r, s.blc.link ≠ .collided r) :
    exec .collidedTransmissionEnd s = .next s := by
  simp only [exec, execCollidedTransmissionEnd]
  split
  · rename_i hl hq
    rcases h with h | h
    · simp [h] at hq
    · exact absurd hl (h _)
  · rfl

/-- What becomes of the head with the slot that follows: it leaves, goes to the tail, or stays with its mark clear. -/
theorem openSlot_head (hq : s.blc.queue = e :: rest) :
    (openSlot false s.blc.rx s).mapBlc Blc.dropHead = s.inCollidedSlot rest ∧
    (openSlot false s.blc.rx s).mapBlc Blc.requeueHead =
      s.inCollidedSlot (rest ++ [{ e with collisions := 0, refresh := false }]) ∧
    (openSlot false s.blc.rx s).mapBlc (Blc.mapHead fun e => { e with refresh := false }) =
      s.inCollidedSlot ({ e with refresh := false } :: rest) := by
  simp [State.mapBlc, openSlot_eq, Blc.dropHead, Blc.requeueHead, Blc.mapHead, hq, State.inCollidedSlot]

/-- A marked ANNOUNCE that is dropped goes to the tail, and any other frame leaves (R123, R127). -/
theorem dropFrame_requeued (he : e.content = .announce) (hr : e.refresh = true) (s : State) :
    dropFrame e s = raiseAttention .linkCongested (s.mapBlc Blc.requeueHead) := by
  simp only [dropFrame, he, hr]
  rfl

theorem dropFrame_dropped (he : e.content = .withdraw ∨ (e.content = .announce ∧ e.refresh = false)) (s : State) :
    dropFrame e s = raiseAttention .linkCongested (s.mapBlc Blc.dropHead) := by
  rcases he with he | ⟨he, hr⟩
  · simp only [dropFrame, he]
    rfl
  · simp only [dropFrame, he, hr]
    rfl

/-- A dropped RESERVE takes the own reserve to NONE (R127). -/
theorem dropFrame_reserve (he : e.isReserve = true) (s : State) :
    dropFrame e s = releaseRefused (requestRecompute (clearReserve
      (raiseAttention .linkCongested (s.mapBlc Blc.dropHead)))) := by
  obtain ⟨n, c, he⟩ := e.isReserve_iff.1 he
  simp only [dropFrame, he]
  rfl

/-- An abandoned RESERVE leaves the queue (R124). -/
theorem collidedEnd_abandoned (hq : s.blc.queue = e :: rest) (he : e.isReserve = true) (ha : e.abandoned = true) :
    collidedEnd e s = releaseRefused (s.inCollidedSlot rest) := by
  rw [← (openSlot_head hq).1]
  exact if_pos (by simp [he, ha])

/-- A frame that has not collided sixteen times stays at the head (R126). -/
theorem collidedEnd_retries (hq : s.blc.queue = e :: rest) (hn : e.collisions < 16)
    (ha : ¬(e.isReserve = true ∧ e.abandoned = true)) :
    collidedEnd e s = s.inCollidedSlot ({ e with refresh := false } :: rest) := by
  rw [← (openSlot_head hq).2.2]
  exact (if_neg (by simpa using ha)).trans (if_neg (Nat.not_le.2 hn))

/-- One that has is dropped (R127). -/
theorem collidedEnd_drops (hn : 16 ≤ e.collisions) (ha : ¬(e.isReserve = true ∧ e.abandoned = true)) :
    collidedEnd e s = dropFrame e (openSlot false s.blc.rx s) :=
  (if_neg (by simpa using ha)).trans (if_pos hn)

end

/-- Settles O33: a collision where the released bit reads driven, and the end of the collided transmission by what
becomes of its frame. -/
theorem collidedAttemptsRetryOrAreDropped : Obligations.CollidedAttemptsRetryOrAreDropped := by
  intro s hs hc
  refine ⟨fun e rest i f hq hl hw hbit => ?_, fun others => Bool.or_eq_true_iff, fun h => ?_,
    fun i f hl hw hbit => ?_, fun e rest r hq hl hr => ?_, execCollidedTransmissionEnd_skips, fun r hl hr => ?_⟩
  · have hd : s.blc.drives = false := by
      rw [← Bool.not_eq_true, Blc.drives_own hl hw, hbit]
      simp
    have hcollided := (Aside.collide s).completes hs hc (execCollision_collides hq hl hd)
    simp only [collide_eq hq, TxEntry.isReserve_iff_code] at hcollided
    exact hcollided
  · exact execCollision_skips (h.imp_right .inl)
  · exact execCollision_skips (.inr (.inr ((Blc.drives_own hl hw).2 hbit)))
  · intro w congested none release
    have hend {u : State} (hu : collidedEnd e s = u) : CompletesAs .collidedTransmissionEnd s u := by
      subst hu
      refine (Aside.collidedEnd e s).completes hs hc ?_
      rw [execCollidedTransmissionEnd_eq hq hl]
      exact eventIf_true s (decide_eq_true hr) _
    obtain ⟨hdrop, hrequeue, -⟩ := openSlot_head hq
    have hnot (he : ¬e.isReserve = true) : ¬(e.isReserve = true ∧ e.abandoned = true) := fun h => he h.1
    simp only [← TxEntry.isReserve_iff_code]
    refine ⟨fun he ha => hend (collidedEnd_abandoned hq he ha), fun hn ha => hend (collidedEnd_retries hq hn ha),
      fun hn he ha => hend ?_, fun hn he hr => hend ?_, fun hn he => hend ?_⟩
    · rw [collidedEnd_drops hn (by simp [ha]), dropFrame_reserve he, hdrop]
      rfl
    · rw [collidedEnd_drops hn (by simp [TxEntry.isReserve_iff_code, he, TxContent.code]), dropFrame_requeued he hr,
        hrequeue]
      rfl
    · rw [collidedEnd_drops hn, dropFrame_dropped he, hdrop]
      · rfl
      · rcases he with he | ⟨he, -⟩ <;> simp [TxEntry.isReserve_iff_code, he, TxContent.code]
  · cases hq : s.blc.queue with
    | nil => exact execCollidedTransmissionEnd_skips (.inl hq)
    | cons e rest =>
      rw [execCollidedTransmissionEnd_eq hq hl]
      exact eventIf_false s (decide_eq_false (Nat.not_le.2 hr)) _

end Sys2Proof.Machine

/-! SUPPORT. The end of the slot after an own frame, by what becomes of the frame; and the statement about it. -/

namespace Sys2Proof.Machine

section
variable {s : State} {e : TxEntry} {rest : List TxEntry} {levels : SlotLevels}

/-- The pair idle after the own slot, with another queue. -/
def State.afterOwnSlot (s : State) (q : List TxEntry) : State :=
  { s with blc := { s.blc with link := .idle, idleCount := 0, onWire := none, queue := q } }

theorem execOwnSlotEnd_eq (hq : s.blc.queue = e :: rest) (hl : s.blc.link = .ownSlot 0) :
    exec (.ownSlotEnd levels) s = .next (settle s (ownSlotEnd (slotDriven levels) e s)) := by
  simp only [exec, execOwnSlotEnd, hl, hq]
  rfl

theorem execOwnSlotEnd_skips (h : s.blc.link ≠ .ownSlot 0 ∨ s.blc.queue = []) :
    exec (.ownSlotEnd levels) s = .next s := by
  simp only [exec, execOwnSlotEnd]
  split
  · rename_i hl hq
    rcases h with h | h
    · exact absurd hl h
    · simp [h] at hq
  · rfl

/-- A marked ANNOUNCE goes to the tail with its mark clear (R123). -/
theorem ownSlotEnd_requeued (driven : Bool) (hq : s.blc.queue = e :: rest) (he : e.content = .announce)
    (hr : e.refresh = true) :
    ownSlotEnd driven e s = s.afterOwnSlot (rest ++ [{ e with collisions := 0, refresh := false }]) := by
  simp [ownSlotEnd, he, hr, State.mapBlc, Blc.requeueHead, hq, State.afterOwnSlot]

/-- Any other ANNOUNCE and a WITHDRAW leave the queue (R128). -/
theorem ownSlotEnd_dropped (driven : Bool) (hq : s.blc.queue = e :: rest)
    (he : e.content = .withdraw ∨ (e.content = .announce ∧ e.refresh = false)) :
    ownSlotEnd driven e s = s.afterOwnSlot rest := by
  rcases he with he | ⟨he, hr⟩
  · simp [ownSlotEnd, he, State.mapBlc, Blc.dropHead, hq, State.afterOwnSlot]
  · simp [ownSlotEnd, he, hr, State.mapBlc, Blc.dropHead, hq, State.afterOwnSlot]

/-- A RESERVE leaves the queue, and the slot settles the own reserve where it is SENT and not abandoned (R56, R124). -/
theorem ownSlotEnd_reserve (driven : Bool) (hq : s.blc.queue = e :: rest) (he : e.isReserve = true) :
    ownSlotEnd driven e s = releaseRefused
      (if e.abandoned = false ∧ s.rsu.state = .sent then reserveOutcome driven (s.afterOwnSlot rest)
        else s.afterOwnSlot rest) := by
  obtain ⟨n, c, he⟩ := e.isReserve_iff.1 he
  simp [ownSlotEnd, he, State.mapBlc, Blc.dropHead, hq, State.afterOwnSlot]

theorem ownSlotEnd_abandoned (driven : Bool) (hq : s.blc.queue = e :: rest) (he : e.isReserve = true)
    (ha : e.abandoned = true ∨ s.rsu.state ≠ .sent) :
    ownSlotEnd driven e s = releaseRefused (s.afterOwnSlot rest) := by
  rw [ownSlotEnd_reserve driven hq he, if_neg]
  rintro ⟨hna, hsent⟩
  exact ha.elim (fun ha => by simp [ha] at hna) (· hsent)

theorem ownSlotEnd_outcome (driven : Bool) (hq : s.blc.queue = e :: rest) (he : e.isReserve = true)
    (ha : e.abandoned = false) (hs : s.rsu.state = .sent) :
    ownSlotEnd driven e s = releaseRefused (reserveOutcome driven (s.afterOwnSlot rest)) := by
  rw [ownSlotEnd_reserve driven hq he, if_pos ⟨ha, hs⟩]

end

/-- Settles O34: the end of the own slot, by its frame and by the samples of the slot. -/
theorem ownSlotsSettleTheSentFrame : Obligations.OwnSlotsSettleTheSentFrame := by
  intro levels s hs hc
  refine ⟨fun e rest hq hl => ?_, execOwnSlotEnd_skips⟩
  intro w samples driven backoff release
  have hend {u : State} (hu : ownSlotEnd (slotDriven levels) e s = u) : CompletesAs (.ownSlotEnd levels) s u := by
    subst hu
    exact (Aside.ownSlotEnd _ e s).completes hs hc (execOwnSlotEnd_eq hq hl)
  have hdriven : slotDriven levels = true ↔ driven := by rw [slotDriven_iff, slotSamples_eq]
  simp only [← TxEntry.isReserve_iff_code]
  refine ⟨fun he hr => hend (ownSlotEnd_requeued _ hq he hr), fun he => hend (ownSlotEnd_dropped _ hq he),
    fun he ha => hend (ownSlotEnd_abandoned _ hq he ha), fun he ha hsent hd => hend ?_,
    fun he ha hsent hd => hend ?_⟩
  · rw [ownSlotEnd_outcome _ hq he ha hsent, Bool.eq_false_iff.2 (mt hdriven.1 hd)]
    rfl
  · rw [ownSlotEnd_outcome _ hq he ha hsent, hdriven.2 hd]
    rfl

end Sys2Proof.Machine

/-! SUPPORT. The expiries of the announce timer and of the listen timer; and the statement about them. -/

namespace Sys2Proof.Machine

/-- The silence check of an entry: one not LIVE stays, one heard has its mark and misses cleared, one not heard counts a
miss and turns SILENT at the third (R45, R46). -/
theorem PeerEntry.check_eq (e : PeerEntry) :
    e.check =
      if e.standing ≠ .live then e
      else if e.heard = true then { e with heard := false, missed := 0 }
      else if e.missed < 2 then { e with missed := e.missed + 1 }
      else { e with standing := .silent, missed := 3, silentAge := 0, silentElapsed := 0, changed := true } := by
  unfold PeerEntry.check PeerEntry.turnsSilent
  by_cases hl : e.standing = .live
  · cases hh : e.heard with
    | true => simp [hl]
    | false =>
      by_cases hm : e.missed < 2
      · simp [hl, hm, Config.silenceMisses]
      · simp [hl, hm, Config.silenceMisses, show 3 ≤ e.missed + 1 by omega, ← hh]
  · simp [hl]

theorem PeerEntry.turnsSilent_iff (e : PeerEntry) :
    e.turnsSilent = true ↔ e.standing = .live ∧ e.heard = false ∧ 2 ≤ e.missed := by
  simp [PeerEntry.turnsSilent, Config.silenceMisses, and_assoc]

/-- Some entry turns SILENT in the silence check. -/
theorem any_turnsSilent_iff (v : Table PeerEntry) :
    v.toList.any PeerEntry.turnsSilent = true ↔
      ∃ a : Address, v[a].standing = .live ∧ v[a].heard = false ∧ 2 ≤ v[a].missed := by
  simp only [List.any_eq_true, Vector.mem_toList_iff, Vector.mem_iff_getElem, PeerEntry.turnsSilent_iff]
  constructor
  · rintro ⟨_, ⟨i, hi, rfl⟩, h⟩
    exact ⟨⟨i, hi⟩, h⟩
  · rintro ⟨a, h⟩
    exact ⟨_, ⟨a.val, a.isLt, rfl⟩, h⟩

section
variable {s : State}

/-- A settle count above 0 falls by one, and asks for a recompute on reaching 0 (R84). -/
theorem lowerSettleCount_eq (s : State) :
    lowerSettleCount s =
      { s with hre := { s.hre with
          cutSettle := s.hre.cutSettle - 1
          request := s.hre.request || s.hre.cutSettle == 1 } } := by
  unfold lowerSettleCount
  by_cases hzero : s.hre.cutSettle = 0
  · have hkept : s.hre.cutSettle - 1 = s.hre.cutSettle := by omega
    have hone : (s.hre.cutSettle == 1) = false := by simp [hzero]
    rw [if_pos hzero, hkept, hone, Bool.or_false]
  · rw [if_neg hzero]
    by_cases hone : s.hre.cutSettle = 1
    · simp [State.mapHre, requestRecompute, hone]
    · have hleft : s.hre.cutSettle - 1 ≠ 0 := by omega
      simp [State.mapHre, hone, hleft]

/-- A table change asks for the recompute that the settle count would ask for. -/
theorem lowerSettleCount_tableChanged (s : State) :
    lowerSettleCount (tableChanged s) = tableChanged (lowerSettleCount s) := by
  have hrsu : (lowerSettleCount s).rsu = s.rsu := by rw [lowerSettleCount_eq]
  by_cases h : s.rsu.state = .queued
  · rw [tableChanged_of_queued s h, tableChanged_of_queued (lowerSettleCount s) (hrsu ▸ h)]
    simp [lowerSettleCount_eq]
  · rw [tableChanged_of_not_queued s h, tableChanged_of_not_queued (lowerSettleCount s) (hrsu ▸ h)]
    simp [lowerSettleCount_eq]

theorem silenceCheck_changed (h : s.pvt.toList.any PeerEntry.turnsSilent = true) :
    silenceCheck s = tableChanged { s with pvt := s.pvt.map PeerEntry.check } := if_pos h

theorem silenceCheck_unchanged (h : ¬s.pvt.toList.any PeerEntry.turnsSilent = true) :
    silenceCheck s = { s with pvt := s.pvt.map PeerEntry.check } := if_neg h

/-- The announce timer run anew and an ANNOUNCE requested (R133). -/
def State.announceDue (s : State) : State :=
  requestAnnounce (s.mapTmb fun t => { t with announce := Timer.start s.station.announceInterval })

/-- ANNOUNCE_TIMER_EXPIRY ends as the silence check and the settle count leave it. -/
theorem announceTimerExpiry_completes (hs : s.started = true) (hc : s.calm = true) (hd : s.tmb.announce.left = some 0) :
    CompletesAs .announceTimerExpiry s (lowerSettleCount (silenceCheck s.announceDue)) :=
  ((((Aside.mapTmb _ s rfl rfl rfl).trans (.requestAnnounce _)).trans (.silenceCheck _)).trans
    (.lowerSettleCount _)).completes hs hc (eventIf_of_due hd)

/-- RUN entered at the listen expiry, with an ANNOUNCE and a recompute requested (R183). -/
def State.runEntered (s : State) : State :=
  { s with
    svp := { s.svp with mode := .run }
    tmb := { s.tmb with listen := s.tmb.listen.stop }
    blc := s.blc.requestAnnounce
    hre := { s.hre with request := true } }

theorem State.runEntered_started (s : State) : s.runEntered.started = true := rfl

theorem State.runEntered_calm (hc : s.calm = true) : s.runEntered.calm = true :=
  State.calm_congr hc rfl rfl rfl rfl

theorem listenExpiry_completes (hd : s.tmb.listen.left = some 0) {v : State}
    (h : TakenAs (evaluateEntry s.runEntered) v) : CompletesAs .listenExpiry s v :=
  TakenAs.completes_of_due rfl hd rfl h

/-- Outside PLUGGED there are no entry conditions to evaluate. -/
theorem evaluateEntry_of_not_plugged (h : s.bsq.phase ≠ .plugged) : evaluateEntry s = s := by
  rcases evaluateEntry_cases s with ⟨hq, -⟩ | ⟨-, h'⟩
  · exact absurd (mayQueue_iff s |>.1 hq).1 h
  · exact h'

end

/-- Settles O35: each expiry that is due, by whether an entry turns SILENT and by whether the berth is PLUGGED. -/
theorem announceAndListenExpiries : Obligations.AnnounceAndListenExpiries := by
  intro s hs hc
  refine ⟨fun hd => ?_, fun hd => ?_, fun hd => eventIf_of_not_due hd, fun hd => eventIf_of_not_due hd⟩
  · intro checked k
    have hdone := announceTimerExpiry_completes hs hc hd
    have hcheck : PeerEntry.check = checked := funext PeerEntry.check_eq
    have hk : lowerSettleCount { s.announceDue with pvt := s.pvt.map PeerEntry.check } = k := by
      rw [lowerSettleCount_eq, hcheck]
      rfl
    refine ⟨fun h => ?_, fun h => ?_⟩
    · rw [silenceCheck_changed (s := s.announceDue) ((any_turnsSilent_iff s.pvt).2 h),
        lowerSettleCount_tableChanged] at hdone
      exact hk ▸ hdone
    · rw [silenceCheck_unchanged (s := s.announceDue) (mt (any_turnsSilent_iff s.pvt).1 h)] at hdone
      exact hk ▸ hdone
  · intro k
    refine listenExpiry_completes hd ?_
    have hrun : k.started = true := s.runEntered_started
    have hcalm : k.calm = true := s.runEntered_calm hc
    split
    · rename_i hp
      rw [evaluateEntry_eq_entered (s := s.runEntered) hp]
      exact entered_takenAs hrun hcalm hp
    · rename_i hp
      rw [evaluateEntry_of_not_plugged (s := s.runEntered) hp]
      exact .of_calm hrun hcalm

end Sys2Proof.Machine

/-! SUPPORT. What a received transmission carries, byte by byte, and how it is judged; and the statement about its
end. -/

namespace Sys2Proof.Machine

/-! ### The fields of a frame by their places (R189) -/

section
variable {bs : List Byte}

/-- The number in a byte of a transmission, 0 past its end. -/
def byteAt (bs : List Byte) (i : Nat) : Nat := (bs.getD i 0).toNat

/-- The number in two bytes of a transmission, least significant first (R188). -/
def wordAt (bs : List Byte) (i : Nat) : Nat := byteAt bs i + 256 * byteAt bs (i + 1)

/-- A flag in the last field of an ANNOUNCE. -/
def flagAt (bs : List Byte) (i : Nat) : Bool := decide (byteAt bs 10 / 2 ^ i % 2 = 1)

/-- The address in the first byte. -/
def senderAt (bs : List Byte) : Address := Fin.ofNat 16 (byteAt bs 0 % 16)

/-- An ANNOUNCE of its length with its fields in their ranges. -/
abbrev IsAnnounce (bs : List Byte) : Prop :=
  bs.length = 13 ∧ byteAt bs 0 / 16 = 1 ∧ byteAt bs 1 % 16 ≤ 9 ∧ wordAt bs 2 ≤ 16383 ∧ wordAt bs 4 ≤ 16383 ∧
    wordAt bs 6 ≤ 4095 ∧ wordAt bs 8 ≤ 60000

/-- A RESERVE of its length with its fields in their ranges. -/
abbrev IsReserve (bs : List Byte) : Prop :=
  bs.length = 6 ∧ byteAt bs 0 / 16 = 2 ∧ wordAt bs 1 ≤ 16383 ∧ (byteAt bs 3 = 1 ∨ byteAt bs 3 = 2)

/-- A WITHDRAW of its length. -/
abbrev IsWithdraw (bs : List Byte) : Prop := bs.length = 3 ∧ byteAt bs 0 / 16 = 3

/-- The frame with the fields of an ANNOUNCE. -/
def announceAt (bs : List Byte) : Frame :=
  .announce (senderAt bs)
    { phaseCode := byteAt bs 1 % 16, periodIndex := byteAt bs 1 / 16, firm := wordAt bs 2, flex := wordAt bs 4,
      transient := wordAt bs 6, capacity := wordAt bs 8, tripped := flagAt bs 0, firmOverload := flagAt bs 1,
      listening := flagAt bs 2 }

/-- The frame with the fields of a RESERVE. -/
def reserveAt (bs : List Byte) : Frame :=
  .reserve (senderAt bs) (wordAt bs 1) (if byteAt bs 3 = 1 then .firmEnergise else .flexRaise)

/-- The frame that a transmission carries, where it carries one. -/
def frameAt (bs : List Byte) : Frame :=
  if IsAnnounce bs then announceAt bs
  else if IsReserve bs then reserveAt bs
  else .withdraw (senderAt bs)

theorem addressOf_eq (b : Byte) : addressOf b = Fin.ofNat 16 (b.toNat % 16) := by
  simp [addressOf, Fin.ofNat]

theorem getLsbD_eq_decide (b : Byte) (i : Nat) : b.getLsbD i = decide (b.toNat / 2 ^ i % 2 = 1) :=
  Nat.testBit_eq_decide_div_mod_eq

/-- Thirteen bytes carry an ANNOUNCE or nothing. -/
theorem parseBody_thirteen (h : bs.length = 13) :
    parseBody (payload bs) = if IsAnnounce bs then some (announceAt bs) else none := by
  match bs, h with
  | [b0, p, f0, f1, x0, x1, t0, t1, c0, c1, g, k0, k1], _ =>
    refine if_congr ?_ (congrArg some ?_) rfl
    · exact (and_iff_right rfl).symm
    · simp only [addressOf_eq, getLsbD_eq_decide]
      rfl

/-- Six bytes carry a RESERVE or nothing. -/
theorem parseBody_six (h : bs.length = 6) :
    parseBody (payload bs) = if IsReserve bs then some (reserveAt bs) else none := by
  match bs, h with
  | [b0, lo, hi, c, k0, k1], _ =>
    change parseBody [b0, lo, hi, c] = _
    rw [parseBody]
    by_cases hr : b0.toNat / 16 = 2 ∧ of16 lo hi ≤ Config.maxClaim
    · rw [if_pos hr, addressOf_eq]
      obtain ⟨hkind, hamount⟩ := hr
      by_cases hfirm : c.toNat = 1
      · rw [if_pos hfirm, if_pos ⟨rfl, hkind, hamount, .inl hfirm⟩, reserveAt]
        exact congrArg (fun k => some (Frame.reserve _ _ k)) (if_pos hfirm).symm
      · rw [if_neg hfirm]
        by_cases hflex : c.toNat = 2
        · rw [if_pos hflex, if_pos ⟨rfl, hkind, hamount, .inr hflex⟩, reserveAt]
          exact congrArg (fun k => some (Frame.reserve _ _ k)) (if_neg hfirm).symm
        · rw [if_neg hflex, if_neg]
          rintro ⟨-, -, -, hc⟩
          exact hc.elim hfirm hflex
    · rw [if_neg hr, if_neg]
      rintro ⟨-, hkind, hamount, -⟩
      exact hr ⟨hkind, hamount⟩

/-- Three bytes carry a WITHDRAW or nothing. -/
theorem parseBody_three (h : bs.length = 3) :
    parseBody (payload bs) = if IsWithdraw bs then some (.withdraw (senderAt bs)) else none := by
  match bs, h with
  | [b0, k0, k1], _ =>
    refine if_congr ?_ (congrArg some ?_) rfl
    · exact (and_iff_right rfl).symm
    · rw [addressOf_eq]
      rfl

/-- Any other length of body carries nothing. -/
theorem parseBody_other {body : List Byte} (hw : body.length ≠ 1) (hr : body.length ≠ 4) (ha : body.length ≠ 11) :
    parseBody body = none := by
  unfold parseBody
  split
  · exact absurd rfl hw
  · exact absurd rfl hr
  · exact absurd rfl ha
  · rfl

theorem payload_length (bs : List Byte) : (payload bs).length = bs.length - 2 := by simp [payload]

/-- The bytes before the check carry a frame just where they are one of its length with its fields in their ranges. -/
theorem parseBody_payload (h : 3 ≤ bs.length) :
    parseBody (payload bs) = if IsAnnounce bs ∨ IsReserve bs ∨ IsWithdraw bs then some (frameAt bs) else none := by
  have hlen := payload_length bs
  by_cases hann : bs.length = 13
  · have hr : ¬IsReserve bs := fun h => nomatch hann.symm.trans h.1
    have hw : ¬IsWithdraw bs := fun h => nomatch hann.symm.trans h.1
    simp only [parseBody_thirteen hann, frameAt, hr, hw, or_false]
    split_ifs <;> rfl
  by_cases hres : bs.length = 6
  · have ha : ¬IsAnnounce bs := fun h => hann h.1
    have hw : ¬IsWithdraw bs := fun h => nomatch hres.symm.trans h.1
    simp only [parseBody_six hres, frameAt, ha, hw, false_or, or_false, if_false]
    split_ifs <;> rfl
  have ha : ¬IsAnnounce bs := fun h => hann h.1
  have hr : ¬IsReserve bs := fun h => hres h.1
  simp only [frameAt, ha, hr, false_or, if_false]
  by_cases hwdr : bs.length = 3
  · exact parseBody_three hwdr
  · rw [parseBody_other (by omega) (by omega) (by omega), if_neg fun h => hwdr h.1]

theorem frameAt_sender (bs : List Byte) : (frameAt bs).sender = senderAt bs := by
  unfold frameAt
  split_ifs <;> rfl

theorem frameAt_isReserve (bs : List Byte) : (frameAt bs).isReserve = decide (IsReserve bs) := by
  unfold frameAt
  split_ifs with ha hr
  · have hr : ¬IsReserve bs := fun h => nomatch ha.1.symm.trans h.1
    simp [announceAt, Frame.isReserve, hr]
  · simp [reserveAt, Frame.isReserve, hr]
  · simp [Frame.isReserve, hr]

end

/-! ### The judgement (R130) -/

section
variable {rx : Reception}

/-- Received with no framing error, with at least three bytes and with a good check. -/
abbrev WholeReception (rx : Reception) : Prop :=
  rx.framingError = false ∧ 3 ≤ rx.bytes.length ∧ checkGood rx.bytes = true

theorem judge_failed (h : ¬WholeReception rx) : judge rx = .failed := by
  refine if_pos (by_contra fun hn => h ?_)
  simpa using hn

theorem judge_good (h : WholeReception rx) (hf : IsAnnounce rx.bytes ∨ IsReserve rx.bytes ∨ IsWithdraw rx.bytes) :
    judge rx = .good (frameAt rx.bytes) := by
  obtain ⟨hframing, hlen, hcheck⟩ := h
  rw [judge, if_neg (by simp [hframing, hcheck, hlen]), parseBody_payload hlen, if_pos hf]

theorem judge_discarded (h : WholeReception rx)
    (hf : ¬(IsAnnounce rx.bytes ∨ IsReserve rx.bytes ∨ IsWithdraw rx.bytes)) : judge rx = .discarded := by
  obtain ⟨hframing, hlen, hcheck⟩ := h
  rw [judge, if_neg (by simp [hframing, hcheck, hlen]), parseBody_payload hlen, if_neg hf]

end

/-! ### The end of a transmission -/

section
variable {s : State} {levels : List Level}

theorem objects_eq (s : State) : s.objects = decide (s.svp.mode = .run ∧ s.rsu.state = .hold) := by
  rw [Bool.eq_iff_iff]
  simp [State.objects]

theorem execReceivedTransmissionEnd_skips (h : s.blc.link ≠ .foreign ∨ wholeTransmission levels = false) :
    exec (.receivedTransmissionEnd levels) s = .next s := by
  refine eventIf_false s ?_ _
  rcases h with h | h <;> simp [h]

theorem execReceivedTransmissionEnd_eq (hl : s.blc.link = .foreign) (hw : wholeTransmission levels = true) :
    exec (.receivedTransmissionEnd levels) s = .next (settle s (takeTransmission (judge (assemble levels)) s)) :=
  eventIf_true s (by simp [hl, hw]) _

/-- In CONFIG nothing follows what the judgement does, and in LISTEN and RUN the end of the event follows it. -/
theorem receivedTransmission_ends (hl : s.blc.link = .foreign) (hw : wholeTransmission levels = true) {u : State}
    (hu : takeTransmission (judge (assemble levels)) s = u) :
    (s.started = false → exec (.receivedTransmissionEnd levels) s = .next u) ∧
    (s.started = true → s.calm = true → CompletesAs (.receivedTransmissionEnd levels) s u) := by
  subst hu
  have hexec := execReceivedTransmissionEnd_eq hl hw
  have haside := Aside.takeTransmission (judge (assemble levels)) s
  refine ⟨fun hs => ?_, fun hs hc => haside.completes hs hc hexec⟩
  rw [hexec, settle_config]
  rwa [State.started, haside.mode]

/-- A frame of another station, and any frame in CONFIG, is buffered, and a RESERVE is objected to in HOLD (R63,
R131). -/
theorem takeTransmission_buffered {f : Frame} (h : s.started = false ∨ f.sender ≠ s.ownAddress) :
    takeTransmission (.good f) s =
      openSlot (s.objects && f.isReserve) (some { frame := f, inConfig := !s.started }) s := by
  refine if_neg ?_
  rcases h with h | h <;> simp [h]

/-- One of the own address finds the conflict once (R132). -/
theorem takeTransmission_own {f : Frame} (hs : s.started = true) (hf : f.sender = s.ownAddress) :
    takeTransmission (.good f) s =
      if s.blc.conflict = true then openSlot false none s else conflictFound (openSlot false none s) :=
  if_pos (by simp [hs, hf])

end

/-- Settles O30: the end of a transmission by its judgement, and for a good frame by its sender and the own reserve. -/
theorem receivedTransmissionsAreJudgedAtTheirEnd : Obligations.ReceivedTransmissionsAreJudgedAtTheirEnd := by
  intro levels s
  refine ⟨execReceivedTransmissionEnd_skips, fun hl hw => ?_⟩
  have hend {u : State} := receivedTransmission_ends (u := u) hl hw
  intro rx b w bit whole isAnnounce isReserve isWithdraw sender f objects slot found ends
  have hobjects : s.objects = objects := objects_eq s
  refine ⟨fun hwhole => hend ?_, fun hwhole hna hnr hnw => hend ?_, fun hwhole hone => ⟨fun hpeer => hend ?_, ?_⟩⟩
  · rw [judge_failed hwhole, ← hobjects]
    rfl
  · rw [judge_discarded hwhole fun h => h.elim hna fun h => h.elim hnr hnw]
    rfl
  · rw [judge_good hwhole hone, takeTransmission_buffered (hpeer.imp_right fun h => frameAt_sender _ ▸ h),
      frameAt_isReserve, hobjects]
    rfl
  · rintro ⟨hs, hown⟩
    have hgood : takeTransmission (judge rx) s =
        if s.blc.conflict = true then openSlot false none s else conflictFound (openSlot false none s) := by
      rw [judge_good hwhole hone, takeTransmission_own hs ((frameAt_sender _).trans hown)]
    refine ⟨fun hconflict => hend ?_, fun hconflict hr => hend ?_, fun hconflict hr => hend ?_⟩
    · rw [hgood, if_pos hconflict]
      rfl
    · rw [hgood, hconflict]
      exact if_neg hr
    · rw [hgood, hconflict]
      exact if_pos hr

end Sys2Proof.Machine

/-! SUPPORT. The profile in use and the stall of the ramp, through the passages between phases and through every
event. -/

namespace Sys2Proof.Machine

/-! ### The stall of the ramp -/

/-- The stall count and the mark of a suspended ramp are as they were, or clear. -/
def Gos.StallKept (g k : Gos) : Prop :=
  (k.stall = g.stall ∧ k.suspended = g.suspended) ∨ (k.stall = 0 ∧ k.suspended = false)

/-- The stall count stays below the limit until the ramp is suspended at it (R98). -/
def Gos.StallForm (limit : Nat) (g : Gos) : Prop := if g.suspended then g.stall = limit else g.stall < limit

namespace Gos

theorem StallKept.refl (g : Gos) : g.StallKept g := .inl ⟨rfl, rfl⟩

theorem StallKept.trans {g k l : Gos} (h : g.StallKept k) (h' : k.StallKept l) : g.StallKept l := by
  rcases h' with ⟨hstall, hsuspended⟩ | hclear
  · exact h.imp (.imp hstall.trans hsuspended.trans) (.imp hstall.trans hsuspended.trans)
  · exact .inr hclear

theorem enter_stallKept (next : Phase) (g : Gos) : g.StallKept (g.enter next) := by
  rw [enter_eq]
  split_ifs
  · exact .refl g
  · exact .inr ⟨rfl, rfl⟩
  · exact .inr ⟨rfl, rfl⟩

theorem newTarget_stallKept (connected : Bool) (n : Nat) (g : Gos) : g.StallKept (g.newTarget connected n) := by
  unfold newTarget
  split_ifs <;> exact .inl ⟨rfl, rfl⟩

theorem takeEcho_stallKept (pair : Bool) (echo : Nat) (g : Gos) : g.StallKept (g.takeEcho pair echo) := by
  rw [takeEcho_eq]
  split_ifs
  · exact .inr ⟨rfl, rfl⟩
  · exact .refl g

theorem StallForm.clear {limit : Nat} {g : Gos} (hlimit : 0 < limit) (hstall : g.stall = 0)
    (hsuspended : g.suspended = false) : g.StallForm limit := by
  simpa [StallForm, hstall, hsuspended] using hlimit

/-- An up-tick that fails its test counts one more stall, and at the limit suspends the ramp (R97, R98). -/
theorem StallForm.upTick {step limit : Nat} {passes : Bool} {g : Gos} (h : g.StallForm limit) :
    (g.upTick step limit passes).StallForm limit := by
  unfold Gos.upTick
  split_ifs with hsuspended htarget hpasses
  · exact h
  · exact h
  · have hbelow : g.stall < limit := by simpa [StallForm, hsuspended] using h
    exact .clear (Nat.zero_lt_of_lt hbelow) rfl (by simpa using hsuspended)
  · have hbelow : g.stall < limit := by simpa [StallForm, hsuspended] using h
    by_cases hreached : g.stall + 1 = limit
    · simp [StallForm, hreached]
    · have : g.stall + 1 < limit := by omega
      simpa [StallForm, hreached] using this

end Gos

/-! ### What a passage keeps of the profile -/

/-- A loaded slot is selected, as R10 asks of a berth that queues. -/
def State.coded (s : State) : Prop := s.bsq.profileCode.isSome = true ∧ s.bsq.noProfile = false

/-- `t` has the slots and the selection of `s`; it is past PLUGGED only where `s` is or may queue, and its ramp stalls
as in `s` or not at all. -/
structure ProfileKept (s t : State) : Prop where
  slots : t.vlp.slots = s.vlp.slots
  profileCode : t.bsq.profileCode = s.bsq.profileCode
  noProfile : t.bsq.noProfile = s.bsq.noProfile
  past : t.bsq.phase.pastPlugged = true → s.bsq.phase.pastPlugged = true ∨ s.coded
  stall : s.gos.StallKept t.gos

namespace ProfileKept

variable {s t u : State}

theorem refl (s : State) : ProfileKept s s := ⟨rfl, rfl, rfl, .inl, .refl _⟩

theorem trans (h : ProfileKept s t) (k : ProfileKept t u) : ProfileKept s u where
  slots := k.slots.trans h.slots
  profileCode := k.profileCode.trans h.profileCode
  noProfile := k.noProfile.trans h.noProfile
  past := fun hu => by
    rcases k.past hu with ht | ⟨hcode, hloaded⟩
    · exact h.past ht
    · exact .inr ⟨h.profileCode ▸ hcode, h.noProfile ▸ hloaded⟩
  stall := h.stall.trans k.stall

/-- The second of two changes first, so that it says which state the first leaves. -/
theorem after (k : ProfileKept t u) (h : ProfileKept s t) : ProfileKept s u := h.trans k

theorem of_ite {p : Prop} [Decidable p] (ht : p → ProfileKept s t) (hu : ¬p → ProfileKept s u) :
    ProfileKept s (if p then t else u) := by
  split
  · exact ht ‹_›
  · exact hu ‹_›

theorem of_bsq (hv : t.vlp.slots = s.vlp.slots) (hb : t.bsq = s.bsq) (hg : s.gos.StallKept t.gos) : ProfileKept s t :=
  ⟨hv, by rw [hb], by rw [hb], fun h => .inl (hb ▸ h), hg⟩

theorem profile (h : ProfileKept s t) : t.profile = s.profile := by simp only [State.profile, h.profileCode, h.slots]

theorem figures (h : ProfileKept s t) : t.figures = s.figures := by simp only [State.figures, h.profile]

end ProfileKept

theorem Phase.pastPlugged_of_connected {p : Phase} (h : p.connected = true) : p.pastPlugged = true := by
  rcases p.connected_iff.1 h with rfl | rfl | rfl <;> rfl

theorem Phase.connected_of_pair {p : Phase} (h : p.pair = true) : p.connected = true := by
  rcases p.pair_iff.1 h with rfl | rfl <;> rfl

theorem Phase.pastPlugged_of_pair {p : Phase} (h : p.pair = true) : p.pastPlugged = true :=
  pastPlugged_of_connected (connected_of_pair h)

section
variable (s : State)

theorem addLater_profileKept (c : TripCause) : ProfileKept s (addLater c s) := by
  rw [addLater_frame]
  exact .of_bsq rfl rfl (.refl _)

theorem formClamps_profileKept : ProfileKept s (formClamps s) := by
  have hgos : (formClamps s).gos = s.gos := by
    obtain ⟨q, v, h, -⟩ := formClamps_eq s
    rw [h]
  exact .of_bsq (SameClaim.formClamps s).slots (SameClaim.formClamps s).bsq (hgos ▸ .refl _)

theorem compareVessel_profileKept (r : ShipRecord) : ProfileKept s (compareVessel r s) := by
  unfold compareVessel
  split <;> exact ⟨rfl, rfl, rfl, .inl, .refl _⟩

theorem clearAbortFlags_profileKept (r : ShipRecord) : ProfileKept s (clearAbortFlags r s) :=
  .of_ite (fun _ => ⟨rfl, rfl, rfl, .inl, .refl _⟩) fun _ => .refl s

theorem linkHeard_profileKept : ProfileKept s (linkHeard s) :=
  .of_ite (fun _ => .of_bsq rfl rfl (.refl _)) fun _ => .of_bsq rfl rfl (.refl _)

theorem linkIdle_profileKept : ProfileKept s (linkIdle s) :=
  (formClamps_profileKept _).after (.of_bsq rfl rfl (.refl _))

/-! ### The claim and the phase -/

theorem setClaim_profileKept (firm flex transient : Nat) : ProfileKept s (setClaim firm flex transient s) := by
  have hf := setClaim_sequencerFrame s firm flex transient
  refine ⟨by rw [hf.vlp], hf.profileCode, by rw [setClaim_bsq], fun h => .inl ?_, ?_⟩
  · simpa using h
  · rw [setClaim_gos]
    split_ifs
    · exact .refl _
    · exact Gos.newTarget_stallKept _ _ _

theorem zeroClaim_profileKept : ProfileKept s (zeroClaim s) :=
  (setClaim_profileKept _ 0 0 0).after (.of_bsq rfl rfl (.refl _))

theorem confirmOpen_profileKept : ProfileKept s (confirmOpen s) :=
  (zeroClaim_profileKept _).after (.of_bsq rfl rfl (.refl _))

variable {s}

/-- A change of phase keeps the selection; it passes PLUGGED only from beyond it, or where a loaded slot is selected. -/
theorem setPhase_profileKept {next : Phase}
    (h : next.pastPlugged = true → s.bsq.phase.pastPlugged = true ∨ s.coded) : ProfileKept s (setPhase next s) := by
  have hf := setPhase_sequencerFrame s next
  refine ⟨by rw [hf.vlp], hf.profileCode, by rw [setPhase_bsq], fun hn => h (by simpa using hn), ?_⟩
  by_cases hsame : next = s.bsq.phase
  · rw [setPhase, if_pos hsame]
    exact .refl _
  · rw [setPhase_gos hsame]
    exact Gos.enter_stallKept _ _

/-- Between two phases past PLUGGED. -/
theorem setPhase_profileKept_of_past (next : Phase) (h : s.bsq.phase.pastPlugged = true) :
    ProfileKept s (setPhase next s) := setPhase_profileKept fun _ => .inl h

theorem setPhase_past {next : Phase} (h : next.pastPlugged = true) :
    (setPhase next s).bsq.phase.pastPlugged = true := by rwa [setPhase_phase]

variable (s)

/-! ### Trips -/

theorem carryOutTrip_profileKept (b : Bool) : ProfileKept s (carryOutTrip b s) := by
  have htrip : ProfileKept s s.tripping := by
    obtain ⟨hslots, hcode, hno, hpast, hstall⟩ := setPhase_profileKept (s := s) (next := .tripped) nofun
    exact ⟨hslots, hcode, hno, hpast, hstall⟩
  rw [carryOutTrip_eq]
  refine .of_ite (fun _ => .of_ite (fun _ => htrip) fun _ => .of_ite (fun _ => ?_) fun _ => ?_) fun _ => ?_
  · exact htrip.trans ⟨rfl, rfl, rfl, .inl, .refl _⟩
  · exact htrip.trans ⟨rfl, rfl, rfl, .inl, .refl _⟩
  · exact htrip.trans (confirmOpen_profileKept _)

theorem startTrip_profileKept (b : Bool) (c : TripCause) : ProfileKept s (startTrip b c s) :=
  (carryOutTrip_profileKept _ b).after (.of_bsq rfl rfl (.refl _))

theorem takeCause_profileKept (c : TripCause) : ProfileKept s (takeCause c s) :=
  .of_ite (fun _ => addLater_profileKept s c) fun _ => startTrip_profileKept s false c

theorem checkEstop_profileKept : ProfileKept s (checkEstop s) :=
  .of_ite (fun _ => (takeCause_profileKept _ _).after (.of_bsq rfl rfl (.refl _))) fun _ => .refl s

theorem checkFeeder_profileKept : ProfileKept s (checkFeeder s) :=
  .of_ite (fun _ => (takeCause_profileKept _ _).after (.of_bsq rfl rfl (.refl _))) fun _ => .refl s

theorem tripsTaken_profileKept : ProfileKept s s.tripsTaken :=
  (checkEstop_profileKept _).after ((checkFeeder_profileKept _).after (checkEstop_profileKept s))

theorem checkConditions_profileKept : ProfileKept s (checkConditions s) :=
  (tripsTaken_profileKept s).trans (.of_bsq rfl rfl (.refl _))

theorem uncommandedClose_profileKept : ProfileKept s (uncommandedClose s) := by
  have hclaim := setClaim_profileKept s s.station.stuckBreakerClaim 0 0
  refine .of_ite (fun _ => ?_) fun _ => hclaim.trans (startTrip_profileKept _ _ _)
  exact (hclaim.trans (addLater_profileKept _ _)).trans ⟨rfl, rfl, rfl, .inl, .refl _⟩

/-! ### Passages between phases -/

/-- A berth queues with a loaded slot selected (R10). -/
theorem evaluateEntry_profileKept : ProfileKept s (evaluateEntry s) := by
  refine .of_ite (fun hq => setPhase_profileKept fun _ => .inr ?_) fun _ => .refl s
  obtain ⟨-, -, -, -, hcode, hloaded, -⟩ := (mayQueue_iff s).1 hq
  exact ⟨hcode, hloaded⟩

theorem enterPlugged_profileKept : ProfileKept s (enterPlugged s) :=
  (evaluateEntry_profileKept _).after ((checkConditions_profileKept _).after (setPhase_profileKept nofun))

theorem completeDeEnergise_profileKept : ProfileKept s (completeDeEnergise s) :=
  (enterPlugged_profileKept _).after ((zeroClaim_profileKept _).after ⟨rfl, rfl, rfl, .inl, .refl _⟩)

theorem startInrush_profileKept : ProfileKept s (startInrush s) := by
  rcases startInrush_cases s with ⟨-, h⟩ | ⟨p, -, -, h⟩ | ⟨p, -, -, h⟩ <;> rw [h]
  · exact .refl s
  · exact (setClaim_profileKept _ _ _ _).after (.of_bsq rfl rfl (.refl _))
  · exact .of_bsq rfl rfl (.refl _)

variable {s}

theorem enterDeEnergising_profileKept (h : s.bsq.phase.pastPlugged = true) : ProfileKept s (enterDeEnergising s) :=
  have hopening := setPhase_profileKept_of_past .deEnergising h
  .of_ite (fun _ => hopening.trans ⟨rfl, rfl, rfl, .inl, .refl _⟩)
    fun _ => hopening.trans (completeDeEnergise_profileKept _)

theorem enterParallel_profileKept (h : s.bsq.phase.pastPlugged = true) : ProfileKept s (enterParallel s) :=
  have hparallel := setPhase_profileKept_of_past .parallel h
  .of_ite (fun _ => hparallel.trans (setPhase_profileKept_of_past _ (setPhase_past rfl))) fun _ => hparallel

theorem enterAwaitSync_profileKept (h : s.bsq.phase = .energising) : ProfileKept s (enterAwaitSync s) := by
  have hstopped : ProfileKept s (stopBreaker (s.mapBsq fun b => { b with bkClose := false })) :=
    ⟨rfl, rfl, rfl, .inl, .refl _⟩
  have hawait := (hstopped.trans (startInrush_profileKept _)).trans
    (setPhase_profileKept (next := .awaitSync) fun _ => .inl ?_)
  · exact .of_ite (fun _ => hawait.trans (enterDeEnergising_profileKept (setPhase_past rfl)))
      fun _ => .of_ite (fun _ => hawait.trans (enterParallel_profileKept (setPhase_past rfl))) fun _ => hawait
  · rw [(startInrush_outputsFrame _).phase]
    exact h.symm ▸ rfl

/-! ### The vessel's record -/

theorem takeRequest_profileKept (m : Marks) (r : ShipRecord) : ProfileKept s (takeRequest m r s) :=
  .of_ite (fun _ => .of_ite (fun ha => enterDeEnergising_profileKept (ha.symm ▸ rfl))
    fun _ => .of_ite (fun hp => setPhase_profileKept_of_past _ (Phase.pastPlugged_of_pair hp)) fun _ => .refl s)
    fun _ => .refl s

theorem takeBreaker_profileKept (m : Marks) (r : ShipRecord) : ProfileKept s (takeBreaker m r s) :=
  .of_ite (fun _ => .of_ite (fun ha => enterParallel_profileKept (ha.1.symm ▸ rfl))
    fun _ => .of_ite (fun hc => enterDeEnergising_profileKept (Phase.pastPlugged_of_connected hc.1)) fun _ => .refl s)
    fun _ => .refl s

theorem takeGenerators_profileKept (m : Marks) (r : ShipRecord) : ProfileKept s (takeGenerators m r s) :=
  .of_ite (fun _ => .of_bsq rfl rfl (.refl _))
    fun _ => .of_ite (fun hp => setPhase_profileKept_of_past _ (hp.1.symm ▸ rfl)) fun _ => .refl s

theorem deliverRecord_profileKept (m : Marks) (r : ShipRecord) : ProfileKept s (deliverRecord m r s) := by
  refine (clearAbortFlags_profileKept s r).trans ?_
  unfold deliverRecord
  generalize clearAbortFlags r s = t
  have hmove : ProfileKept t (takeGenerators m r (takeBreaker m r (takeRequest m r t))) :=
    ((takeRequest_profileKept m r).trans (takeBreaker_profileKept m r)).trans (takeGenerators_profileKept m r)
  have hcompare := compareVessel_profileKept t r
  dsimp only
  cases t.bsq.phase
  case plugged => exact hcompare.trans (evaluateEntry_profileKept _)
  case queued => exact .of_ite (fun _ => hcompare.trans (enterPlugged_profileKept _)) fun _ => hcompare
  case awaitSync | parallel | onShore | transferBack => exact hmove
  all_goals exact .refl t

theorem takeRecord_profileKept (r : ShipRecord) : ProfileKept s (takeRecord r s) := by
  have hheld : ProfileKept s ((linkHeard s).mapVlp fun v => { v with held := some r }) :=
    (linkHeard_profileKept s).trans (.of_bsq rfl rfl (.refl _))
  refine (deliverRecord_profileKept _ r).after ((hheld.trans (formClamps_profileKept _)).trans ?_)
  exact .of_bsq rfl rfl (Gos.takeEcho_stallKept _ _ _)

theorem linkLost_profileKept : ProfileKept s (linkLost s) := by
  have hlost : ProfileKept s ((s.mapVlp fun v => { v with link := .lost }).mapTmb
      fun b => { b with linkTimeout := b.linkTimeout.stop }) := .of_bsq rfl rfl (.refl _)
  refine .of_ite (fun _ => hlost.trans (enterPlugged_profileKept _)) fun _ => .of_ite (fun ha => ?_)
    fun _ => .of_ite (fun _ => ?_) fun _ => hlost
  · exact hlost.trans (enterDeEnergising_profileKept (ha.symm ▸ rfl))
  · exact (hlost.trans (setClaim_profileKept _ _ 0 _)).trans (.of_bsq rfl rfl (.refl _))

/-! ### The breaker, the ramp and the engine -/

theorem auxClosure_profileKept : ProfileKept s (auxClosure s) := by
  unfold auxClosure
  split
  case h_1 hp => exact enterAwaitSync_profileKept hp
  case h_5 => exact .of_ite (fun _ => uncommandedClose_profileKept s) fun _ => .refl s
  case h_6 => exact .refl s
  all_goals exact uncommandedClose_profileKept s

theorem auxOpening_profileKept : ProfileKept s (auxOpening s) := by
  have hr : ProfileKept s (if s.bsq.serving = some .resetPulse then releaseOpen s else s) :=
    .of_ite (fun _ => ⟨rfl, rfl, rfl, .inl, .refl _⟩) fun _ => .refl s
  refine hr.trans ?_
  unfold auxOpening
  generalize (if s.bsq.serving = some .resetPulse then releaseOpen s else s) = t
  dsimp only
  split
  case h_5 => exact completeDeEnergise_profileKept t
  case h_6 => exact (confirmOpen_profileKept _).after ⟨rfl, rfl, rfl, .inl, .refl _⟩
  case h_7 => exact .refl t
  all_goals
    rename_i hp
    exact enterDeEnergising_profileKept (hp.symm ▸ rfl)

theorem warningChange_profileKept (v : Bool) : ProfileKept s (warningChange v s) :=
  .of_ite (fun _ => .of_ite (fun _ => enterPlugged_profileKept s) fun _ => .refl s)
    fun _ => evaluateEntry_profileKept s

theorem breakerExpired_profileKept (c : Option BreakerCommand) : ProfileKept s (breakerExpired c s) := by
  have hopen : ProfileKept s (s.mapBsq fun b => { b with bkOpen := false }) := ⟨rfl, rfl, rfl, .inl, .refl _⟩
  unfold breakerExpired
  split
  · exact takeCause_profileKept s _
  · exact .of_ite (fun _ => hopen.trans (addLater_profileKept _ _)) fun _ => hopen
  · exact .of_ite (fun _ => hopen.trans (startTrip_profileKept _ _ _))
      fun _ => .of_ite (fun _ => hopen.trans (addLater_profileKept _ _)) fun _ => hopen
  · exact .refl s

theorem settleHold_profileKept : ProfileKept s (settleHold s) := by
  have hclear : ProfileKept s (clearReserve s) := .of_bsq rfl rfl (.refl _)
  unfold settleHold
  split
  · exact (hclear.trans (setClaim_profileKept _ _ _ _)).trans (.of_bsq rfl rfl (.refl _))
  · refine .of_ite (fun hq => ?_) fun _ => .of_bsq rfl rfl (.refl _)
    have hp : (clearReserve s).bsq.phase.pastPlugged = true := hq.2.symm ▸ rfl
    exact ((hclear.trans (setPhase_profileKept_of_past .energising hp)).trans (setClaim_profileKept _ _ _ _)).trans
      ⟨rfl, rfl, rfl, .inl, .refl _⟩
  · exact .refl s

theorem rampDown_profileKept : ProfileKept s (rampDown s) := by
  rcases rampDown_cases s with ⟨-, h⟩ | ⟨-, h⟩ <;> rw [h]
  · exact .of_bsq rfl rfl (.refl _)
  · have hfall : ProfileKept s { s with gos := { s.gos with
        pending := s.gos.applied - s.figures.downrampStep, applied := s.gos.applied - s.figures.downrampStep } } :=
      .of_bsq rfl rfl (.inl ⟨rfl, rfl⟩)
    exact (hfall.trans (setClaim_profileKept _ _ _ _)).trans (.of_bsq rfl rfl (.refl _))

theorem handOn_profileKept (v : Bool) (a : Action) : ProfileKept s (handOn v a s) := by
  have hlast (r : LastResult) (t : State) : ProfileKept t (setLast r t) := .of_bsq rfl rfl (.refl _)
  have hwant (c : ReserveClass) (n : Nat) : ProfileKept s (wantReserve c n s) := by
    rw [wantReserve_frame]
    exact .of_bsq rfl rfl (.refl _)
  cases a with
  | release want => exact (setClaim_profileKept s _ _ _).trans (hlast _ _)
  | cut n => exact (setClaim_profileKept s _ _ _).trans (.of_bsq rfl rfl (.refl _))
  | raise n | energise n => exact .of_ite (fun _ => hlast _ s) fun _ => (hwant _ n).trans (hlast _ _)
  | none | cutWithheld n | energiseWait n => exact hlast _ s

theorem completeComputation_profileKept (w : Working) : ProfileKept s (completeComputation w s) := by
  cases hstale : w.stale
  · rw [completeComputation_of_fresh hstale]
    exact (handOn_profileKept _ _).after (.of_bsq rfl rfl (.refl _))
  · rw [completeComputation_of_stale hstale]
    exact .of_bsq rfl rfl (.refl _)

end

/-! ### States between commands -/

section
variable {s t : State}

theorem Aside.profileKept (h : Aside s t) : ProfileKept s t := .of_bsq (by rw [h.vlp]) h.bsq (h.gos ▸ .refl _)

theorem Unmoved.profileKept (h : Unmoved s t) : ProfileKept s t :=
  .of_bsq (by rw [h.vessel]) h.bsq (by rw [h.grant]; exact .inl ⟨rfl, rfl⟩)

theorem Alike.profileKept (h : Alike s t) : ProfileKept s t where
  slots := by rw [h.vessel]
  profileCode := by rw [h.bsq]
  noProfile := by rw [h.bsq]
  past := fun hp => .inl (h.phase ▸ hp)
  stall := by rw [h.grant]; exact .inl ⟨rfl, rfl⟩

/-- The end of an event takes trips, or in CONFIG does nothing. -/
theorem settle_profileKept (before s : State) : ProfileKept s (settle before s) := by
  cases hs : s.started
  · rw [settle_config _ _ hs]
    exact .refl s
  · exact (tripsTaken_profileKept s).trans (settle_ends s before hs).alike.profileKept

/-! ### The profile in use -/

/-- Every loaded slot holds figures in range (R148). -/
def State.SlotsInRange (s : State) : Prop := ∀ a : Address, ∀ p ∈ s.vlp.slots[a], p.inRange = true

/-- The slots are in range, and where NO_PROFILE is clear a selected slot is loaded (R6, R148). -/
structure Slotted (s : State) : Prop where
  inRange : s.SlotsInRange
  loaded : s.bsq.noProfile = false → ∀ c ∈ s.bsq.profileCode, s.vlp.slots[c].isSome = true

theorem Slotted.of_kept (h : Slotted s) (hk : ProfileKept s t) : Slotted t where
  inRange := by unfold State.SlotsInRange; rw [hk.slots]; exact h.inRange
  loaded := by rw [hk.noProfile, hk.profileCode, hk.slots]; exact h.loaded

theorem ProfileInUse.slotted (h : ProfileInUse s) : Slotted s := by
  obtain ⟨hrange, hloaded, -⟩ := h
  exact ⟨hrange, hloaded⟩

theorem Slotted.profile_of_coded (h : Slotted s) (hc : s.coded) : s.profile.isSome = true := by
  obtain ⟨hcode, hno⟩ := hc
  obtain ⟨c, hc⟩ := Option.isSome_iff_exists.1 hcode
  have hsome := h.loaded hno c hc
  simpa only [State.profile, hc] using hsome

/-- A profile in range has a stall limit of at least 1 (R148). -/
theorem Slotted.stallLimit_pos (h : Slotted s) (hp : s.profile.isSome = true) : 0 < s.figures.stallLimit := by
  obtain ⟨p, hp⟩ := Option.isSome_iff_exists.1 hp
  obtain ⟨c, hc⟩ : ∃ c : Address, s.vlp.slots[c] = some p := by
    unfold State.profile at hp
    split at hp
    · exact ⟨_, hp⟩
    · exact absurd hp nofun
  have hr := h.inRange c p hc
  simp only [Profile.inRange, Machine.inRange, Bool.and_eq_true, decide_eq_true_eq] at hr
  simp only [State.figures, hp, Option.getD_some]
  omega

/-- Up to PLUGGED and in TRIPPED nothing is asked but of the slots. -/
theorem Slotted.profileInUse (h : Slotted s) (hp : s.bsq.phase.pastPlugged = false) : ProfileInUse s :=
  ⟨h.inRange, h.loaded, fun hn => absurd (hp.symm.trans hn) nofun,
    fun hn => absurd (hp.symm.trans (Phase.pastPlugged_of_pair hn)) nofun⟩

/-- What keeps the selection keeps a profile in use: past PLUGGED it was in use or a loaded slot is selected, and in the
pair the ramp stalls as it did there or starts without a stall. -/
theorem ProfileKept.profileInUse (h : ProfileKept s t) (hg : GrantBounds s) (hu : ProfileInUse s) : ProfileInUse t := by
  have hslotted := hu.slotted
  have hslotted' := hslotted.of_kept h
  obtain ⟨-, -, hused, hstall⟩ := hu
  have hused' : t.bsq.phase.pastPlugged = true → t.profile.isSome = true := fun ht => by
    rw [h.profile]
    exact (h.past ht).elim hused hslotted.profile_of_coded
  refine ⟨hslotted'.inRange, hslotted'.loaded, hused', fun ht => ?_⟩
  have hpos := hslotted'.stallLimit_pos (hused' (Phase.pastPlugged_of_pair ht))
  change t.gos.StallForm t.figures.stallLimit
  rcases h.stall with ⟨hsame, hmark⟩ | ⟨hclear, hmark⟩
  · cases hs : s.bsq.phase.pair
    · obtain ⟨-, -, -, -, -, hnone⟩ := hg
      obtain ⟨hzero, hrun⟩ := hnone hs
      exact .clear hpos (hsame.trans hzero) (hmark.trans hrun)
    · have hform : s.gos.StallForm s.figures.stallLimit := hstall hs
      unfold Gos.StallForm
      rw [hsame, hmark, h.figures]
      exact hform
  · exact .clear hpos hclear hmark

/-- The slot on the plug-coding lines is selected, and NO_PROFILE says whether it is loaded (R6). -/
theorem selectProfile_slotted (h : s.SlotsInRange) : Slotted (selectProfile s) := by
  refine ⟨h, fun hno c hc => ?_⟩
  obtain rfl : s.plugCode = c := Option.some.inj hc
  simpa [selectProfile] using hno

theorem dropProfile_slotted (h : s.SlotsInRange) : Slotted (dropProfile s) :=
  ⟨h, fun _ c hc => absurd hc (Option.not_mem_none c)⟩

/-- PLUGGED entered from anywhere, and QUEUED from it, with the slots in form. -/
theorem enterPlugged_profileInUse (h : Slotted s) (hg : GrantBounds s) : ProfileInUse (enterPlugged s) := by
  have hplugged : ProfileInUse (setPhase .plugged s) :=
    (h.of_kept (setPhase_profileKept (next := .plugged) nofun)).profileInUse (by rw [setPhase_phase]; rfl)
  exact ((checkConditions_profileKept _).trans (evaluateEntry_profileKept _)).profileInUse
    (setPhase_grantBounds _ hg) hplugged

theorem plugProven_profileInUse (h : s.SlotsInRange) (hg : GrantBounds s) : ProfileInUse (plugProven s) :=
  enterPlugged_profileInUse ((selectProfile_slotted h).of_kept (formClamps_profileKept _))
    (formClamps_grantBounds (s := selectProfile s) hg)

/-- After a clear the berth is plugged with the slot on the lines selected, or free with none. -/
theorem leaveTripped_profileInUse (h : s.SlotsInRange) (hg : GrantBounds s) : ProfileInUse (leaveTripped s) := by
  unfold leaveTripped
  dsimp only
  generalize hd : dropProfile (s.mapTru fun u => { u with record := none }) = d
  have hslots : d.SlotsInRange := hd ▸ h
  have hbounds : GrantBounds d := hd ▸ hg
  split
  · have hselected := selectProfile_slotted hslots
    split
    · exact enterPlugged_profileInUse
        (hselected.of_kept ((compareVessel_profileKept _ _).trans (formClamps_profileKept _)))
        (formClamps_grantBounds (compareVessel_grantBounds (s := selectProfile d) _ hbounds))
    · exact enterPlugged_profileInUse (hselected.of_kept (formClamps_profileKept _))
        (formClamps_grantBounds (s := selectProfile d) hbounds)
  · have hfree : Slotted d := hd ▸ dropProfile_slotted (s := s.mapTru fun u => { u with record := none }) h
    have hkept := (formClamps_profileKept d).trans (setPhase_profileKept (next := .vacant) nofun)
    refine (hfree.of_kept hkept).profileInUse ?_
    rw [setPhase_phase]
    rfl

/-- A lost pilot frees the berth with no slot selected, trips it, or changes nothing of the profile. -/
theorem pilotGone_profileInUse (hg : GrantBounds s) (h : ProfileInUse s) : ProfileInUse (pilotGone s) := by
  unfold pilotGone
  split_ifs
  · have hvacant := (h.slotted.of_kept (setPhase_profileKept (next := .vacant) nofun)).inRange
    refine (dropProfile_slotted hvacant).profileInUse ?_
    change (setPhase .vacant s).bsq.phase.pastPlugged = false
    rw [setPhase_phase]
    rfl
  · exact (takeCause_profileKept s _).profileInUse hg h
  · exact (addLater_profileKept s _).profileInUse hg h
  · exact h

/-- A tick of the ramp up counts its stalls against the limit of the profile in use (R97, R98). -/
theorem rampUp_profileInUse (h : ProfileInUse s) : ProfileInUse (rampUp s) := by
  obtain ⟨hslots, hloaded, hused, hstall⟩ := h
  have htick : ProfileInUse (s.mapGos (Gos.upTick s.figures.rampStep s.figures.stallLimit s.echoPasses)) :=
    ⟨hslots, hloaded, hused, fun hp => Gos.StallForm.upTick (hstall hp)⟩
  unfold rampUp
  dsimp only
  split
  · exact htick
  · exact htick

/-! ### Every event -/

theorem Event.profileInUse {u : State} (he : Event s u) (hg : GrantBounds s) (h : ProfileInUse s) : ProfileInUse u := by
  have hkept {u : State} (hk : ProfileKept s u) : ProfileInUse u := hk.profileInUse hg h
  cases he with
  | aside ha => exact hkept ha.profileKept
  | clearTrip => exact leaveTripped_profileInUse h.slotted.inRange hg
  | berthHold b =>
    have hheld : ProfileKept s (s.mapBsq fun q => { q with hostHold := b }) := ⟨rfl, rfl, rfl, .inl, .refl _⟩
    exact hkept ((hheld.trans (evaluateEntry_profileKept _)).trans (.of_bsq rfl rfl (.refl _)))
  | plugProven => exact plugProven_profileInUse (s := settleActive .pilot true s) h.slotted.inRange hg
  | pilotProven | estopChange | syncStop | parallelStop | rampStart => exact h
  | pilotLost =>
    exact pilotGone_profileInUse (linkIdle_grantBounds (s := settleActive .pilot false s) hg)
      (hkept ((linkIdle_profileKept (settleActive .pilot false s)).after (.of_bsq rfl rfl (.refl _))))
  | auxClosure => exact hkept (auxClosure_profileKept.after (.of_bsq rfl rfl (.refl _)))
  | auxOpening => exact hkept (auxOpening_profileKept.after (.of_bsq rfl rfl (.refl _)))
  | warningChange v => exact hkept ((warningChange_profileKept v).after (.of_bsq rfl rfl (.refl _)))
  | takeRecord r => exact hkept (takeRecord_profileKept r)
  | listenExpiry => exact hkept ((evaluateEntry_profileKept _).after (.of_bsq rfl rfl (.refl _)))
  | holdExpiry => exact hkept (settleHold_profileKept.after (.of_bsq rfl rfl (.refl _)))
  | breakerExpiry => exact hkept ((breakerExpired_profileKept _).after ⟨rfl, rfl, rfl, .inl, .refl _⟩)
  | inrushExpiry => exact hkept ((setClaim_profileKept _ _ _ _).after (.of_bsq rfl rfl (.refl _)))
  | syncExpiry hp =>
    exact hkept ((enterDeEnergising_profileKept (by exact hp.symm ▸ rfl)).after ⟨rfl, rfl, rfl, .inl, .refl _⟩)
  | parallelExpiry hp =>
    exact hkept ((setPhase_profileKept_of_past _ (by exact hp.symm ▸ rfl)).after ⟨rfl, rfl, rfl, .inl, .refl _⟩)
  | rampUp => exact rampUp_profileInUse (s := s.mapTmb fun t => { t with ramp := Timer.start s.figures.rampInterval }) h
  | rampDown => exact hkept (rampDown_profileKept.after (.of_bsq rfl rfl (.refl _)))
  | linkTimeout => exact hkept linkLost_profileKept
  | linkLossExpiry | overdrawExpiry => exact hkept ((takeCause_profileKept _ _).after (.of_bsq rfl rfl (.refl _)))
  | computation w => exact hkept (completeComputation_profileKept w)

theorem Taken.profileInUse (ht : Taken s t) (hg : GrantBounds s) (h : ProfileInUse s) : ProfileInUse t := by
  rcases ht with hu | ⟨u, he, rfl⟩
  · exact hu.profileKept.profileInUse hg h
  · exact (settle_profileKept s u).profileInUse (he.grantBounds hg) (he.profileInUse hg h)

/-- START may prove the pilot or trip the berth. -/
theorem startStation_profileInUse (hg : GrantBounds s) (h : ProfileInUse s) : ProfileInUse (startStation s) := by
  have hbounds : GrantBounds s.listening := hg
  have hlistening : ProfileInUse s.listening := h
  rw [startStation_eq]
  rcases sequencerStart_cases s.listening with ⟨-, h'⟩ | ⟨-, -, h'⟩ | ⟨-, -, h'⟩ <;> rw [h']
  · exact (uncommandedClose_profileKept _).profileInUse hbounds hlistening
  · exact plugProven_profileInUse hlistening.slotted.inRange hbounds
  · exact hlistening

/-- In CONFIG no slot is selected and the berth is VACANT. -/
theorem InConfig.profileInUse (h : InConfig s) (hs : s.SlotsInRange) : ProfileInUse s := by
  have hcode : s.bsq.profileCode = none := by rw [h.bsq]; rfl
  have hphase : s.bsq.phase = .vacant := by rw [h.bsq]; rfl
  exact Slotted.profileInUse ⟨hs, fun _ => by simp [hcode]⟩ (by rw [hphase]; rfl)

/-- What a step leads to has its profile in use, where its slots are in range. -/
theorem Leads.profileInUse (hl : Leads s t) (hg : GrantBounds s) (h : ProfileInUse s) (hs : t.SlotsInRange) :
    ProfileInUse t := by
  cases hl with
  | reset p n ht => exact (ht ▸ reset_inConfig p n : InConfig t).profileInUse hs
  | taken _ ht => exact ht.profileInUse hg h
  | config _ hm => exact hm.quiet.profileInUse hs
  | start _ ht =>
    rw [ht]
    exact (settle_profileKept s _).profileInUse (s := answer 5 .accepted [] (startStation s))
      (startStation_grantBounds hg) (startStation_profileInUse hg h)

end

end Sys2Proof.Machine

/-! SUPPORT. What each command leaves of what is loaded, of the schedule and of the select code, in one relation with
one lemma for each operation. -/

namespace Sys2Proof.Machine

/-- `t` has the profile slots, the schedule, the station record, the select code and CONFIG or not as `s` has them. -/
structure LoadedFrame (s t : State) : Prop where
  slots : t.vlp.slots = s.vlp.slots
  csc : t.csc = s.csc
  station : t.svp.station = s.svp.station
  started : t.started = s.started
  selectCode : t.selectCode = s.selectCode

/-- What the sequencer's frame leaves. -/
theorem SequencerFrame.loaded {s t : State} (h : SequencerFrame s t) : LoadedFrame s t :=
  ⟨by rw [h.vlp], h.csc, h.station, h.started, by simp only [State.selectCode, h.lib]⟩

/-- A level line other than the select lines leaves the select code, and so does an edge line. -/
theorem settleLine_selectCode {l : Line} (v : Bool) (s : State) (h : ∀ n, l ≠ .tsel n) :
    (settleLine l v s).selectCode = s.selectCode := by
  have hget (n : Fin 4) : (settleLine l v s).lib.lines.get (.tsel n) = s.lib.lines.get (.tsel n) := by
    simp [settleLine, get_set_line, (h n).symm]
  change codeOf ((settleLine l v s).lib.lines.get (.tsel 0)).active ((settleLine l v s).lib.lines.get (.tsel 1)).active
    ((settleLine l v s).lib.lines.get (.tsel 2)).active ((settleLine l v s).lib.lines.get (.tsel 3)).active = _
  simp only [hget]
  rfl

/-- A sample of a line leaves its qualified state. -/
theorem LineState.sample_active (boundary : Nat) (l : LineState) (level : Bool) :
    (l.sample boundary level).active = l.active := by
  unfold LineState.sample
  split
  · rfl
  · split
    · split <;> rfl
    · rfl

namespace LoadedFrame

variable {s t u : State}

theorem refl (s : State) : LoadedFrame s s := ⟨rfl, rfl, rfl, rfl, rfl⟩

theorem trans (h : LoadedFrame s t) (k : LoadedFrame t u) : LoadedFrame s u :=
  ⟨k.slots.trans h.slots, k.csc.trans h.csc, k.station.trans h.station, k.started.trans h.started,
    k.selectCode.trans h.selectCode⟩

/-- The second of two changes first, so that it says which state the first leaves. -/
theorem after (k : LoadedFrame t u) (h : LoadedFrame s t) : LoadedFrame s u := h.trans k

theorem of_ite {p : Prop} [Decidable p] (ht : p → LoadedFrame s t) (hu : ¬p → LoadedFrame s u) :
    LoadedFrame s (if p then t else u) := by
  split
  · exact ht ‹_›
  · exact hu ‹_›

/-! ### The berth link and the table -/

theorem answer (kind : Nat) (code : ResponseCode) (data : List Byte) (s : State) :
    LoadedFrame s (answer kind code data s) := ⟨rfl, rfl, rfl, rfl, rfl⟩

theorem requestRecompute (s : State) : LoadedFrame s (requestRecompute s) := ⟨rfl, rfl, rfl, rfl, rfl⟩

theorem tableChanged (s : State) : LoadedFrame s (tableChanged s) := by
  unfold Machine.tableChanged dropOnViewChange
  split <;> constructor <;> rfl

theorem putEntry (a : Address) (e : PeerEntry) (c : Bool) (s : State) : LoadedFrame s (putEntry a e c s) := by
  rw [putEntry_frame]
  constructor <;> rfl

theorem closeSlot (s : State) : LoadedFrame s (closeSlot s) := ⟨rfl, rfl, rfl, rfl, rfl⟩

theorem openSlot (d : Bool) (rx : Option RxFrame) (s : State) : LoadedFrame s (openSlot d rx s) :=
  ⟨rfl, rfl, rfl, rfl, rfl⟩

theorem takeTransmission (j : Judged) (s : State) : LoadedFrame s (takeTransmission j s) := by
  unfold Machine.takeTransmission
  split
  · exact openSlot _ _ s
  · exact openSlot _ _ s
  · have hconflict (t : State) : LoadedFrame t (conflictFound t) := by
      rw [conflictFound_frame]
      constructor <;> rfl
    exact of_ite (fun _ => of_ite (fun _ => openSlot _ _ s) fun _ => (hconflict _).after (openSlot _ _ s))
      fun _ => openSlot _ _ s

theorem beginAttempt (s : State) : LoadedFrame s (beginAttempt s) := by
  unfold Machine.beginAttempt
  split
  · exact refl s
  · dsimp only
    split <;> constructor <;> rfl

theorem collide (s : State) : LoadedFrame s (collide s) := by
  unfold Machine.collide
  dsimp only
  split <;> constructor <;> rfl

theorem releaseRefused (s : State) : LoadedFrame s (releaseRefused s) := by
  rw [releaseRefused_eq]
  constructor <;> rfl

theorem dropFrame (e : TxEntry) (s : State) : LoadedFrame s (dropFrame e s) := by
  unfold Machine.dropFrame
  dsimp only
  split
  · constructor <;> rfl
  · exact (releaseRefused _).after ⟨rfl, rfl, rfl, rfl, rfl⟩
  · constructor <;> rfl

theorem collidedEnd (e : TxEntry) (s : State) : LoadedFrame s (collidedEnd e s) :=
  of_ite (fun _ => (releaseRefused _).after ⟨rfl, rfl, rfl, rfl, rfl⟩)
    fun _ => of_ite (fun _ => (dropFrame e _).after (openSlot _ _ s)) fun _ => ⟨rfl, rfl, rfl, rfl, rfl⟩

theorem ownSlotEnd (d : Bool) (e : TxEntry) (s : State) : LoadedFrame s (ownSlotEnd d e s) := by
  unfold Machine.ownSlotEnd
  dsimp only
  split
  · constructor <;> rfl
  · refine (releaseRefused _).after (of_ite (fun _ => ?_) fun _ => ⟨rfl, rfl, rfl, rfl, rfl⟩)
    unfold reserveOutcome
    split <;> constructor <;> rfl
  · constructor <;> rfl

theorem silenceCheck (s : State) : LoadedFrame s (silenceCheck s) :=
  of_ite (fun _ => (tableChanged _).after ⟨rfl, rfl, rfl, rfl, rfl⟩) fun _ => ⟨rfl, rfl, rfl, rfl, rfl⟩

theorem lowerSettleCount (s : State) : LoadedFrame s (lowerSettleCount s) :=
  of_ite (fun _ => refl s) fun _ => of_ite (fun _ => ⟨rfl, rfl, rfl, rfl, rfl⟩) fun _ => ⟨rfl, rfl, rfl, rfl, rfl⟩

theorem takeSample (d : Nat) (s : State) : LoadedFrame s (takeSample d s) :=
  of_ite (fun _ => ⟨rfl, rfl, rfl, rfl, rfl⟩) fun _ => ⟨rfl, rfl, rfl, rfl, rfl⟩

/-! ### The sequencer and the vessel link -/

theorem setClaim (firm flex transient : Nat) (s : State) : LoadedFrame s (setClaim firm flex transient s) :=
  (setClaim_sequencerFrame s _ _ _).loaded

theorem takeCause (c : TripCause) (s : State) : LoadedFrame s (takeCause c s) := (takeCause_sequencerFrame s c).loaded

theorem evaluateEntry (s : State) : LoadedFrame s (evaluateEntry s) := (evaluateEntry_sequencerFrame s).loaded

theorem enterPlugged (s : State) : LoadedFrame s (enterPlugged s) := (enterPlugged_sequencerFrame s).loaded

theorem formClamps (s : State) : LoadedFrame s (formClamps s) := by
  obtain ⟨q, v, h, hv⟩ := formClamps_eq s
  have hcsc : (Machine.formClamps s).csc = s.csc := by rw [h]
  have hstation : (Machine.formClamps s).svp.station = s.svp.station := by rw [h]; exact hv
  exact ⟨(SameClaim.formClamps s).slots, hcsc, hstation, by simp only [State.started, formClamps_mode],
    by simp only [State.selectCode, formClamps_lib]⟩

theorem plugProven (s : State) : LoadedFrame s (plugProven s) :=
  (enterPlugged _).after ((formClamps _).after ⟨rfl, rfl, rfl, rfl, rfl⟩)

theorem leaveTripped (s : State) : LoadedFrame s (leaveTripped s) := by
  have ht : LoadedFrame s (dropProfile (s.mapTru fun u => { u with record := none })) := ⟨rfl, rfl, rfl, rfl, rfl⟩
  refine of_ite (fun _ => .trans ?_ ((formClamps _).trans (enterPlugged _)))
    fun _ => ht.trans ((formClamps _).trans (setPhase_sequencerFrame _ _).loaded)
  split
  · exact (compareVessel_sequencerFrame _ _).loaded.after (ht.trans ⟨rfl, rfl, rfl, rfl, rfl⟩)
  · exact ht.trans ⟨rfl, rfl, rfl, rfl, rfl⟩

theorem linkIdle (s : State) : LoadedFrame s (linkIdle s) := (formClamps _).after ⟨rfl, rfl, rfl, rfl, rfl⟩

theorem pilotGone (s : State) : LoadedFrame s (pilotGone s) :=
  of_ite (fun _ => (setPhase_sequencerFrame s .vacant).loaded.trans ⟨rfl, rfl, rfl, rfl, rfl⟩)
    fun _ => of_ite (fun _ => takeCause _ s)
    fun _ => of_ite (fun _ => (addLater_sequencerFrame s _).loaded) fun _ => refl s

theorem linkHeard (s : State) : LoadedFrame s (linkHeard s) :=
  of_ite (fun _ => ⟨rfl, rfl, rfl, rfl, rfl⟩) fun _ => ⟨rfl, rfl, rfl, rfl, rfl⟩

theorem takeRecord (r : ShipRecord) (s : State) : LoadedFrame s (takeRecord r s) := by
  have hheld : LoadedFrame s (Machine.formClamps ((Machine.linkHeard s).mapVlp fun v => { v with held := some r })) :=
    (formClamps _).after ((linkHeard s).trans ⟨rfl, rfl, rfl, rfl, rfl⟩)
  exact (deliverRecord_sequencerFrame _ _ r).loaded.after (hheld.trans ⟨rfl, rfl, rfl, rfl, rfl⟩)

theorem linkLost (s : State) : LoadedFrame s (linkLost s) := by
  have hlost : LoadedFrame s ((s.mapVlp fun v => { v with link := .lost }).mapTmb
      fun b => { b with linkTimeout := b.linkTimeout.stop }) := ⟨rfl, rfl, rfl, rfl, rfl⟩
  exact of_ite (fun _ => hlost.trans (enterPlugged _))
    fun _ => of_ite (fun _ => hlost.trans (enterDeEnergising_sequencerFrame _).loaded)
    fun _ => of_ite (fun _ => (hlost.trans (setClaim _ _ _ _)).trans ⟨rfl, rfl, rfl, rfl, rfl⟩) fun _ => hlost

theorem sequencerStart (s : State) : LoadedFrame s (sequencerStart s) := by
  rcases sequencerStart_cases s with ⟨-, h⟩ | ⟨-, -, h⟩ | ⟨-, -, h⟩ <;> rw [h]
  · exact (uncommandedClose_sequencerFrame s).loaded
  · exact plugProven s
  · exact refl s

/-! ### The engine, the ports and the lines -/

theorem handOn (v : Bool) (a : Action) (s : State) : LoadedFrame s (handOn v a s) := by
  have hlast (r : LastResult) (t : State) : LoadedFrame t (setLast r t) := ⟨rfl, rfl, rfl, rfl, rfl⟩
  have hwant (c : ReserveClass) (n : Nat) : LoadedFrame s (wantReserve c n s) := by
    rw [wantReserve_frame]
    constructor <;> rfl
  cases a with
  | release n => exact (setClaim _ _ _ s).trans (hlast _ _)
  | cut n => exact (setClaim _ _ _ s).trans ⟨rfl, rfl, rfl, rfl, rfl⟩
  | raise n | energise n => exact of_ite (fun _ => hlast _ s) fun _ => (hwant _ n).trans (hlast _ _)
  | none | cutWithheld n | energiseWait n => exact hlast _ s

theorem completeComputation (w : Working) (s : State) : LoadedFrame s (completeComputation w s) := by
  cases hstale : w.stale
  · rw [completeComputation_of_fresh hstale]
    exact (handOn _ _ _).after ⟨rfl, rfl, rfl, rfl, rfl⟩
  · rw [completeComputation_of_stale hstale]
    constructor <;> rfl

theorem settleLine {l : Line} (v : Bool) (s : State) (h : ∀ n, l ≠ .tsel n) : LoadedFrame s (settleLine l v s) :=
  ⟨rfl, rfl, rfl, rfl, settleLine_selectCode v s h⟩

end LoadedFrame

/-- The end of an event. -/
theorem settle_loadedFrame (before s : State) : LoadedFrame s (settle before s) := by
  cases hs : s.started
  · rw [settle_config _ _ hs]
    exact .refl s
  · have hends := settle_ends s before hs
    have hread := hends.alike
    obtain ⟨-, -, -, -, -, -, -, -, -, -, -, hlib, -, -⟩ := hends
    exact (tripsTaken_sequencerFrame s).loaded.trans
      ⟨by rw [hread.vessel], hread.csc, hread.station, hread.started, by simp only [State.selectCode, hlib]⟩

/-! ### What a command leads to -/

/-- The commands that load something, start the station or move the schedule, RESET among them. -/
def reloads : Instr → Bool
  | .reset | .loadStation _ | .loadProfile _ | .loadPeriod _ _ _ | .setScheduleMode _ | .start => true
  | .tariffAdvance | .tariffRestart | .tariffSelectChange _ _ => true
  | _ => false

namespace LoadedFrame

variable {s t u : State}

theorem of_next (he : Host.Outcome.next u = (.next t : Host.Outcome State Fault Refusal)) (h : LoadedFrame s u) :
    LoadedFrame s t := Host.Outcome.next.inj he ▸ h

theorem of_refuse {kind : Nat} {code : ResponseCode} (he : refuse kind code s = .next t) : LoadedFrame s t :=
  .of_next he (.answer _ _ _ _)

theorem of_eventIf {c : Bool} {f : State → State} (he : eventIf c f s = .next t)
    (h : c = true → LoadedFrame s (f s)) : LoadedFrame s t := by
  rcases eventIf_cases he with ⟨-, rfl⟩ | ⟨hc, rfl⟩
  · exact refl _
  · exact (h hc).trans (settle_loadedFrame s _)

theorem of_event {f : State → State} (he : event f s = .next t) (h : LoadedFrame s (f s)) : LoadedFrame s t :=
  of_eventIf (c := true) he fun _ => h

/-- A change under a condition, with no event's end after it. -/
theorem of_if {c : Prop} [Decidable c]
    (he : (if c then .next u else .next s) = (.next t : Host.Outcome State Fault Refusal)) (h : LoadedFrame s u) :
    LoadedFrame s t := by
  split at he
  · exact .of_next he h
  · exact .of_next he (.refl s)

/-- A line settles and, in LISTEN and RUN, something follows. -/
theorem of_line {c b : Bool} {f : State → State} {l : Line} {v : Bool} {g : State → State} (hl : ∀ n, l ≠ .tsel n)
    (he : eventIf c f s = .next t) (hu : f s = if b then g (Machine.settleLine l v s) else Machine.settleLine l v s)
    (hg : ∀ x, LoadedFrame x (g x)) : LoadedFrame s t := by
  refine of_eventIf he fun _ => ?_
  rw [hu]
  exact of_ite (fun _ => (settleLine v s hl).trans (hg _)) fun _ => settleLine v s hl

end LoadedFrame

/-! ### Command by command -/

section
variable {s t : State}

theorem execLineInitialSettle_loadedFrame (levels : PerLine Bool) (hb : 0 < s.tmb.boundary)
    (he : execLineInitialSettle levels s = .next t) : LoadedFrame s t := by
  rw [execLineInitialSettle, if_neg (by omega)] at he
  exact .of_next he (.refl s)

theorem execLineSampling_loadedFrame (levels : PerLine Bool) (he : execLineSampling levels s = .next t) :
    LoadedFrame s t := by
  unfold execLineSampling at he
  split at he
  · exact .of_next he (.refl s)
  · refine .of_next he ⟨rfl, rfl, rfl, rfl, ?_⟩
    have hactive (l : LineState) (v : Bool) := LineState.sample_active (s.tmb.boundary + 1) l v
    simp [State.selectCode, PerLine.zipWith, hactive, countBoundary]

theorem execLatch_loadedFrame (he : execLatch s = .next t) : LoadedFrame s t := by
  unfold execLatch at he
  split at he
  · exact .of_refuse he
  · exact .of_next he ⟨rfl, rfl, rfl, rfl, rfl⟩

theorem execReadSnapshot_loadedFrame (he : execReadSnapshot s = .next t) : LoadedFrame s t := by
  unfold execReadSnapshot at he
  split at he
  · exact .of_next he ⟨rfl, rfl, rfl, rfl, rfl⟩
  · exact .of_refuse he

theorem execReadPeer_loadedFrame (a : Nat) (he : execReadPeer a s = .next t) : LoadedFrame s t := by
  unfold execReadPeer at he
  split at he
  · exact .of_next he (.answer _ _ _ _)
  · exact .of_refuse he

theorem execClearTrip_loadedFrame (he : execClearTrip s = .next t) : LoadedFrame s t := by
  unfold execClearTrip at he
  split_ifs at he
  · exact .of_refuse he
  · exact .of_refuse he
  · exact .of_event he ((LoadedFrame.leaveTripped s).trans (.answer _ _ _ _))
  · exact .of_refuse he

theorem execForgetPeer_loadedFrame (a : Nat) (he : execForgetPeer a s = .next t) : LoadedFrame s t := by
  unfold execForgetPeer at he
  split at he
  · exact .of_refuse he
  · split at he
    · split at he
      · exact .of_event he ((LoadedFrame.putEntry _ _ _ s).trans (.answer _ _ _ _))
      · exact .of_refuse he
    · exact .of_refuse he

theorem execBerthHold_loadedFrame (v : Nat) (he : execBerthHold v s = .next t) : LoadedFrame s t := by
  unfold execBerthHold at he
  split at he
  · exact .of_refuse he
  · split at he
    · split at he
      · exact .of_refuse he
      · exact .of_event he ((LoadedFrame.answer _ _ _ _).after ((LoadedFrame.evaluateEntry _).after
          ⟨rfl, rfl, rfl, rfl, rfl⟩))
    · exact .of_refuse he

theorem execProbe_loadedFrame (w : Nat) (he : execProbe w s = .next t) : LoadedFrame s t := by
  unfold execProbe at he
  split_ifs at he
  · exact .of_refuse he
  · exact .of_next he (.answer _ _ _ _)
  · exact .of_refuse he

theorem execEdgeLineSettled_loadedFrame (l : EdgeLine) (he : execEdgeLineSettled l s = .next t) : LoadedFrame s t :=
  .of_if he (.settleLine _ s (by cases l <;> simp [edgeLineOf]))

theorem execShipStatusRecord_loadedFrame (levels : List Level) (he : execShipStatusRecord levels s = .next t) :
    LoadedFrame s t := by
  unfold execShipStatusRecord at he
  split at he
  · exact .of_eventIf he fun _ => .takeRecord _ s
  · exact .of_next he (.refl s)

theorem execAnnounceReceived_loadedFrame (he : execAnnounceReceived s = .next t) : LoadedFrame s t := by
  unfold execAnnounceReceived at he
  split at he
  · exact .of_event he (.of_ite (fun _ => (LoadedFrame.closeSlot s).trans (.putEntry _ _ _ _)) fun _ => .closeSlot s)
  · exact .of_next he (.refl s)

theorem execReserveReceived_loadedFrame (levels : SlotLevels) (he : execReserveReceived levels s = .next t) :
    LoadedFrame s t := by
  unfold execReserveReceived at he
  split at he
  · refine .of_event he (.of_ite (fun _ => (LoadedFrame.closeSlot s).trans ?_) fun _ => .closeSlot s)
    exact .of_ite (fun _ => .putEntry _ _ _ _) fun _ => .putEntry _ _ _ _
  · exact .of_next he (.refl s)

theorem execWithdrawReceived_loadedFrame (he : execWithdrawReceived s = .next t) : LoadedFrame s t := by
  unfold execWithdrawReceived at he
  split at he
  · exact .of_event he (.of_ite (fun _ => (LoadedFrame.closeSlot s).trans (.putEntry _ _ _ _)) fun _ => .closeSlot s)
  · exact .of_next he (.refl s)

theorem execCollidedTransmissionEnd_loadedFrame (he : execCollidedTransmissionEnd s = .next t) : LoadedFrame s t := by
  unfold execCollidedTransmissionEnd at he
  split at he
  · exact .of_eventIf he fun _ => .collidedEnd _ s
  · exact .of_next he (.refl s)

theorem execOwnSlotEnd_loadedFrame (levels : SlotLevels) (he : execOwnSlotEnd levels s = .next t) :
    LoadedFrame s t := by
  unfold execOwnSlotEnd at he
  split at he
  · exact .of_event he (.ownSlotEnd _ _ s)
  · exact .of_next he (.refl s)

theorem execReservedFieldAgeStep_loadedFrame (a : Address) (he : execReservedFieldAgeStep a s = .next t) :
    LoadedFrame s t := by
  unfold execReservedFieldAgeStep at he
  split at he
  · exact .of_eventIf he fun _ => .putEntry _ _ _ s
  · exact .of_next he (.refl s)

theorem execComputationComplete_loadedFrame (he : execComputationComplete s = .next t) : LoadedFrame s t := by
  unfold execComputationComplete at he
  split at he
  · exact .of_event he (.completeComputation _ s)
  · exact .of_next he (.refl s)

theorem execReferenceWordEnd_loadedFrame (he : execReferenceWordEnd s = .next t) : LoadedFrame s t := by
  unfold execReferenceWordEnd at he
  split at he
  · exact .of_next he (.refl s)
  · exact .of_next he (.of_ite (fun _ => ⟨rfl, rfl, rfl, rfl, rfl⟩) fun _ => ⟨rfl, rfl, rfl, rfl, rfl⟩)

theorem execStatusRecordGapEnd_loadedFrame (he : execStatusRecordGapEnd s = .next t) : LoadedFrame s t :=
  .of_if he (.of_ite (fun _ => ⟨rfl, rfl, rfl, rfl, rfl⟩) fun _ => ⟨rfl, rfl, rfl, rfl, rfl⟩)

/-- The listen timer is stopped in CONFIG, so that its expiry finds the station started. -/
theorem ConfigQuiet.started_of_listen_due (hq : ConfigQuiet s) (hdue : s.tmb.listen.due = true) : s.started = true := by
  by_contra hs
  have hc : InConfig s := (configQuiet_iff s).1 hq (by simpa [State.started] using hs)
  obtain ⟨-, hlisten, -⟩ := hc.timers_stopped
  simp [hlisten] at hdue

theorem execListenExpiry_loadedFrame (hq : ConfigQuiet s) (he : execListenExpiry s = .next t) : LoadedFrame s t := by
  refine .of_eventIf he fun hdue => (LoadedFrame.evaluateEntry _).after ?_
  exact ⟨rfl, rfl, rfl, (hq.started_of_listen_due hdue).symm, rfl⟩

theorem execRampTick_loadedFrame (he : execRampTick s = .next t) : LoadedFrame s t :=
  .of_eventIf he fun _ => .of_ite
    (fun _ => (rampUp_sequencerFrame _).loaded.after ⟨rfl, rfl, rfl, rfl, rfl⟩) fun _ => .of_ite
    (fun _ => (rampDown_sequencerFrame _).loaded.after ⟨rfl, rfl, rfl, rfl, rfl⟩) fun _ => ⟨rfl, rfl, rfl, rfl, rfl⟩

end

/-- Every other command leaves what is loaded, the schedule and the select code. -/
theorem exec_loadedFrame {c : Instr} {s t : State} (hc : reloads c = false) (hb : 0 < s.tmb.boundary)
    (hq : ConfigQuiet s) (he : exec c s = .next t) : LoadedFrame s t := by
  cases c with
  | reset | loadStation | loadProfile | loadPeriod | setScheduleMode | start => exact absurd hc nofun
  | tariffAdvance | tariffRestart | tariffSelectChange => exact absurd hc nofun
  | lineInitialSettle levels => exact execLineInitialSettle_loadedFrame levels hb he
  | readStatus => exact .of_next he ⟨rfl, rfl, rfl, rfl, rfl⟩
  | latch => exact execLatch_loadedFrame he
  | readSnapshot => exact execReadSnapshot_loadedFrame he
  | readPeer a => exact execReadPeer_loadedFrame a he
  | clearTrip => exact execClearTrip_loadedFrame he
  | forgetPeer a => exact execForgetPeer_loadedFrame a he
  | berthHold v => exact execBerthHold_loadedFrame v he
  | probe w => exact execProbe_loadedFrame w he
  | transactionNotTaken bytes => exact .of_next he (.refl s)
  | pilotProven => exact .of_line (by simp) he rfl .plugProven
  | pilotLost => exact .of_line (by simp) he rfl fun x => (LoadedFrame.linkIdle x).trans (.pilotGone _)
  | auxReadsClosed => exact .of_line (by simp) he rfl fun x => (auxClosure_sequencerFrame x).loaded
  | auxReadsOpen => exact .of_line (by simp) he rfl fun x => (auxOpening_sequencerFrame x).loaded
  | estopChange v => exact .of_eventIf he fun _ => .settleLine _ s (by simp)
  | feederWarningChange v => exact .of_line (by simp) he rfl fun x => (warningChange_sequencerFrame x v).loaded
  | plugCodeLineChange n v => exact .of_if he (.settleLine _ s (by simp))
  | edgeLineSettled l => exact execEdgeLineSettled_loadedFrame l he
  | shipStatusRecord levels => exact execShipStatusRecord_loadedFrame levels he
  | meterSample bits => exact .of_eventIf he fun _ => .takeSample _ s
  | receivedTransmissionEnd levels => exact .of_eventIf he fun _ => .takeTransmission _ s
  | announceReceived => exact execAnnounceReceived_loadedFrame he
  | reserveReceived levels => exact execReserveReceived_loadedFrame levels he
  | withdrawReceived => exact execWithdrawReceived_loadedFrame he
  | attemptStart => exact .of_eventIf he fun _ => .beginAttempt s
  | collision => exact .of_eventIf he fun _ => .collide s
  | collidedTransmissionEnd => exact execCollidedTransmissionEnd_loadedFrame he
  | ownSlotEnd levels => exact execOwnSlotEnd_loadedFrame levels he
  | announceTimerExpiry =>
    refine .of_eventIf he fun _ => (LoadedFrame.lowerSettleCount _).after ((LoadedFrame.silenceCheck _).after ?_)
    exact ⟨rfl, rfl, rfl, rfl, rfl⟩
  | listenExpiry => exact execListenExpiry_loadedFrame hq he
  | holdExpiry => exact .of_eventIf he fun _ => (settleHold_sequencerFrame _).loaded.after ⟨rfl, rfl, rfl, rfl, rfl⟩
  | reserveBackoffExpiry => exact .of_eventIf he fun _ => ⟨rfl, rfl, rfl, rfl, rfl⟩
  | breakerTimerExpiry =>
    exact .of_eventIf he fun _ => (breakerExpired_sequencerFrame _ _).loaded.after ⟨rfl, rfl, rfl, rfl, rfl⟩
  | inrushExpiry => exact .of_eventIf he fun _ => (LoadedFrame.setClaim _ _ _ _).after ⟨rfl, rfl, rfl, rfl, rfl⟩
  | syncWindowExpiry =>
    exact .of_eventIf he fun _ => .of_ite
      (fun _ => (enterDeEnergising_sequencerFrame _).loaded.after ⟨rfl, rfl, rfl, rfl, rfl⟩)
      fun _ => ⟨rfl, rfl, rfl, rfl, rfl⟩
  | parallelLimitExpiry =>
    exact .of_eventIf he fun _ => .of_ite
      (fun _ => (setPhase_sequencerFrame _ _).loaded.after ⟨rfl, rfl, rfl, rfl, rfl⟩)
      fun _ => ⟨rfl, rfl, rfl, rfl, rfl⟩
  | rampTick => exact execRampTick_loadedFrame he
  | vesselLinkTimeout => exact .of_eventIf he fun _ => .linkLost s
  | linkLossTripExpiry | overdrawExpiry =>
    exact .of_eventIf he fun _ => (LoadedFrame.takeCause _ _).after ⟨rfl, rfl, rfl, rfl, rfl⟩
  | meterStaleExpiry => exact .of_eventIf he fun _ => ⟨rfl, rfl, rfl, rfl, rfl⟩
  | silentAgeingStep a => exact .of_eventIf he fun _ => .putEntry _ _ _ s
  | reservedFieldAgeStep a => exact execReservedFieldAgeStep_loadedFrame a he
  | computationComplete => exact execComputationComplete_loadedFrame he
  | referenceWordEnd => exact execReferenceWordEnd_loadedFrame he
  | statusIntervalReached => exact .of_if he ⟨rfl, rfl, rfl, rfl, rfl⟩
  | statusRecordGapEnd => exact execStatusRecordGapEnd_loadedFrame he
  | lineSampling levels => exact execLineSampling_loadedFrame levels he
  | transmissionBegins => exact .of_next he ⟨rfl, rfl, rfl, rfl, rfl⟩
  | berthStatusRecordEnd => exact .of_if he ⟨rfl, rfl, rfl, rfl, rfl⟩

end Sys2Proof.Machine

/-! SUPPORT. What is loaded and where the schedule stands on it, through the commands that load, through START and the
tariff events; and the proof that every step keeps the profile and what is loaded. -/

namespace Sys2Proof.Machine

/-! ### The schedule on its list of records -/

/-- Up to sixteen records within their ranges (R108, R109). -/
def Csc.Listed (c : Csc) : Prop :=
  c.periods.length ≤ 16 ∧ ∀ p ∈ c.periods, p.capacity ≤ 60000 ∧ 1 ≤ p.executions ∧ p.executions ≤ 255

/-- In CONFIG the schedule waits at record 0 (R109). -/
def Csc.Waits (c : Csc) : Prop := c.index = 0 ∧ c.pc = c.capacityAt 0 ∧ c.selectRange = false

/-- A select code beyond the list gives the least capacity of all (R115). -/
def Csc.StandsBeyond (c : Csc) : Prop := (∀ p ∈ c.periods, c.pc ≤ p.capacity) ∧ c.selectRange = true

/-- In LISTEN and RUN the schedule stands on the record that its mode names (R111 to R115). -/
def Csc.Stands (code : Address) (c : Csc) : Prop :=
  (c.mode = .stepped →
    c.index < c.periods.length ∧ c.pc = c.capacityAt c.index ∧ 1 ≤ c.remaining ∧
      c.remaining ≤ c.executionsAt c.index) ∧
  (c.mode = .fixed → c.index = 0 ∧ c.pc = c.capacityAt 0) ∧
  (c.mode = .selected →
    c.index = code.val ∧
      (c.index < c.periods.length → c.pc = c.capacityAt c.index ∧ c.selectRange = false) ∧
      (c.periods.length ≤ c.index → c.StandsBeyond))

namespace Csc

variable {c : Csc} {i : Nat} {code : Address}

theorem Listed.of_periods {d : Csc} (h : c.Listed) (hp : d.periods = c.periods) : d.Listed := by
  unfold Listed
  rw [hp]
  exact h

theorem executionsAt_of_lt (hi : i < c.periods.length) : c.executionsAt i = c.periods[i].executions := by
  simp [executionsAt, hi]

/-- Every loaded record is executed at least once (R109). -/
theorem Listed.executionsAt_pos (h : c.Listed) (hi : i < c.periods.length) : 1 ≤ c.executionsAt i := by
  rw [executionsAt_of_lt hi]
  exact (h.2 _ (List.getElem_mem hi)).2.1

/-- Pc is at most every capacity of the list where the select code is beyond it (R115). -/
theorem lowest_le {p : Period} (hp : p ∈ c.periods) : c.lowest ≤ p.capacity := by
  unfold lowest
  cases hc : c.periods with
  | nil => simp [hc] at hp
  | cons q qs =>
    rw [hc] at hp
    obtain ⟨hhead, htail, -⟩ := foldl_min_spec (qs.map (·.capacity)) q.capacity
    rcases List.mem_cons.1 hp with rfl | hp
    · exact hhead
    · exact htail _ (List.mem_map_of_mem hp)

/-! ### The operations -/

@[simp] theorem goTo_periods (i : Nat) (c : Csc) : (c.goTo i).periods = c.periods := rfl

@[simp] theorem advance_periods (c : Csc) : c.advance.periods = c.periods := by
  unfold advance
  split <;> rfl

@[simp] theorem select_periods (code : Address) (c : Csc) : (c.select code).periods = c.periods := by
  unfold select
  split <;> rfl

@[simp] theorem begin_periods (code : Address) (c : Csc) : (c.begin code).periods = c.periods := by
  unfold begin
  split
  · rfl
  · exact select_periods code c
  · rfl

/-- In another mode than SELECTED the schedule does not stand on the select code. -/
theorem Stands.of_not_selected {code' : Address} (h : c.Stands code) (hm : c.mode ≠ .selected) : c.Stands code' := by
  obtain ⟨hstepped, hfixed, -⟩ := h
  exact ⟨hstepped, hfixed, fun hs => absurd hs hm⟩

theorem stands_of_stepped (hm : c.mode = .stepped) (hi : c.index < c.periods.length)
    (hpc : c.pc = c.capacityAt c.index) (hpos : 1 ≤ c.remaining) (hle : c.remaining ≤ c.executionsAt c.index) :
    c.Stands code := by
  refine ⟨fun _ => ⟨hi, hpc, hpos, hle⟩, fun h => ?_, fun h => ?_⟩ <;> exact absurd (hm.symm.trans h) nofun

/-- The start of a record in STEPPED mode (R113, R114). -/
theorem Listed.stands_goTo (h : c.Listed) (hm : c.mode = .stepped) (hi : i < c.periods.length) :
    (c.goTo i).Stands code :=
  stands_of_stepped hm hi rfl (h.executionsAt_pos hi) (Nat.le_refl _)

/-- An advance lowers the executions left while there are more than one, and else begins a record of the list (R113). -/
theorem Listed.stands_advance (h : c.Listed) (hm : c.mode = .stepped) (hs : c.Stands code) : c.advance.Stands code := by
  obtain ⟨hstepped, -, -⟩ := hs
  obtain ⟨hi, hpc, -, hle⟩ := hstepped hm
  by_cases hlast : c.remaining ≤ 1
  · rw [advance_last hlast]
    refine h.stands_goTo hm ?_
    split
    · assumption
    · omega
  · have hmore : 1 < c.remaining := by omega
    rw [advance_within hmore]
    exact stands_of_stepped hm hi hpc (by change 1 ≤ c.remaining - 1; omega)
      (by change c.remaining - 1 ≤ c.executionsAt c.index; omega)

/-- The select code names a record of the list, or gives the least capacity of all (R115). -/
theorem stands_select (hm : c.mode = .selected) : (c.select code).Stands code := by
  by_cases hin : code.val < c.periods.length
  · rw [select, if_pos hin]
    refine ⟨fun h => absurd (hm.symm.trans h) nofun, fun h => absurd (hm.symm.trans h) nofun, fun _ => ?_⟩
    exact ⟨rfl, fun _ => ⟨rfl, rfl⟩, fun hout => absurd hin (Nat.not_lt.2 hout)⟩
  · rw [select, if_neg hin]
    refine ⟨fun h => absurd (hm.symm.trans h) nofun, fun h => absurd (hm.symm.trans h) nofun, fun _ => ?_⟩
    exact ⟨rfl, fun h => absurd h hin, fun _ => ⟨fun _ hp => lowest_le hp, rfl⟩⟩

/-- START begins at the record that the mode names (R112). -/
theorem Listed.stands_begin (h : c.Listed) (hne : c.periods ≠ []) : (c.begin code).Stands code := by
  unfold begin
  split
  · exact h.stands_goTo ‹_› (List.length_pos_iff.2 hne)
  · exact stands_select ‹_›
  · rename_i hm
    refine ⟨fun hs => absurd (hm.symm.trans hs) nofun, fun _ => ⟨rfl, rfl⟩, fun hs => absurd (hm.symm.trans hs) nofun⟩

/-! ### A record loaded -/

/-- The record loaded lies in the list among those there were. -/
theorem mem_load_periods {p q : Period} (hq : q ∈ (c.load i p).periods) : q = p ∨ q ∈ c.periods := by
  unfold load at hq
  dsimp only at hq
  split at hq
  · exact (List.mem_or_eq_of_mem_set hq).symm
  · simpa [or_comm] using hq

theorem length_load_le (p : Period) (hi : i ≤ 15) (hc : c.periods.length ≤ 16) (hgap : i ≤ c.periods.length) :
    (c.load i p).periods.length ≤ 16 := by
  unfold load
  dsimp only
  split
  · simpa using hc
  · simp only [List.length_append, List.length_singleton]
    omega

theorem Listed.load {k x : Nat} (h : c.Listed) (hr : periodInRange c i k x = true) :
    (c.load i { capacity := k, executions := x }).Listed := by
  obtain ⟨hlength, hrange⟩ := h
  obtain ⟨hi, hgap, hk, hx⟩ := (periodInRange_iff c i k x).1 hr
  refine ⟨length_load_le _ hi hlength hgap, fun q hq => ?_⟩
  rcases mem_load_periods hq with rfl | hq
  · exact ⟨hk, hx⟩
  · exact hrange q hq

/-- A record loaded elsewhere than at 0 leaves record 0, and one loaded at 0 gives Pc (R109). -/
theorem Waits.load (p : Period) (h : c.Waits) (hgap : i ≤ c.periods.length) : (c.load i p).Waits := by
  obtain ⟨hindex, hpc, hselect⟩ := h
  refine ⟨hindex, ?_, hselect⟩
  by_cases hi : i = 0
  · subst hi
    by_cases hempty : c.periods = []
    · simp [Csc.load, capacityAt, hempty]
    · have hpos : 0 < c.periods.length := List.length_pos_iff.2 hempty
      simp [Csc.load, capacityAt, hpos]
  · rw [load_later_pc p c hi, hpc]
    have hpos : 0 < c.periods.length := by omega
    unfold capacityAt Csc.load
    dsimp only
    split
    · rw [List.getElem?_set_ne hi]
    · rw [List.getElem?_append_left hpos]

end Csc

/-! ### What is loaded -/

/-- The parts of `LoadedForm`. -/
structure Loaded (s : State) : Prop where
  station : ∀ r ∈ s.svp.station, StationRanges r
  complete : s.started = true → s.svp.station.isSome = true ∧ s.csc.periods ≠ []
  listed : s.csc.Listed
  waits : s.started = false → s.csc.Waits
  stands : s.started = true → s.csc.Stands s.selectCode

theorem loadedForm_iff (s : State) : LoadedForm s ↔ Loaded s :=
  ⟨fun ⟨hstation, hcomplete, hlength, hrange, hwaits, hstands⟩ =>
      ⟨hstation, hcomplete, ⟨hlength, hrange⟩, hwaits, hstands⟩,
    fun ⟨hstation, hcomplete, ⟨hlength, hrange⟩, hwaits, hstands⟩ =>
      ⟨hstation, hcomplete, hlength, hrange, hwaits, hstands⟩⟩

section
variable {s t l : State}

theorem LoadedFrame.loaded (h : LoadedFrame s t) (hl : Loaded s) : Loaded t where
  station := h.station ▸ hl.station
  complete := by rw [h.started, h.station, h.csc]; exact hl.complete
  listed := h.csc ▸ hl.listed
  waits := by rw [h.started, h.csc]; exact hl.waits
  stands := by rw [h.started, h.csc, h.selectCode]; exact hl.stands

theorem Loaded.of_next {u : State} (he : Host.Outcome.next u = (.next t : Host.Outcome State Fault Refusal))
    (h : Loaded u) : Loaded t := Host.Outcome.next.inj he ▸ h

/-- RESET leaves nothing loaded. -/
theorem reset_loaded (p : List Instr) (n : Nat) : Loaded { State.reset with pending := p, freeCount := n } where
  station := nofun
  complete := nofun
  listed := ⟨Nat.zero_le _, nofun⟩
  waits := fun _ => ⟨rfl, rfl, rfl⟩
  stands := nofun

/-- A state in CONFIG with the schedule waiting. -/
theorem loaded_of_config (hs : s.started = false) (hstation : ∀ r ∈ s.svp.station, StationRanges r)
    (hlisted : s.csc.Listed) (hwaits : s.csc.Waits) : Loaded s :=
  ⟨hstation, fun h => absurd (hs.symm.trans h) nofun, hlisted, fun _ => hwaits,
    fun h => absurd (hs.symm.trans h) nofun⟩

/-! ### The commands that load -/

/-- The ranges that LOAD_STATION checks are those of R181. -/
theorem stationInRange_iff (r : StationRecord) : stationInRange r = true ↔ StationRanges r := by
  simp only [stationInRange, lineArgsOk, levelArgOk, edgeArgOk, inRange, Bool.and_eq_true, decide_eq_true_eq,
    Nat.zero_le, true_and, and_assoc, StationRanges, LevelSetting, EdgeSetting]
  rfl

theorem execLoadStation_loaded (r : StationRecord) (h : Loaded s) (he : execLoadStation r s = .next t) : Loaded t := by
  unfold execLoadStation at he
  split_ifs at he with hs hr
  · exact (LoadedFrame.of_refuse he).loaded h
  · have hconfig : s.started = false := by simpa using hs
    refine .of_next he (loaded_of_config hconfig ?_ h.listed (h.waits hconfig))
    rintro _ ⟨⟩
    exact (stationInRange_iff r).1 hr
  · exact (LoadedFrame.of_refuse he).loaded h

theorem execLoadProfile_loaded (p : ProfileArgs) (h : Loaded s) (he : execLoadProfile p s = .next t) : Loaded t := by
  obtain ⟨hstation, hcomplete, hlisted, hwaits, hstands⟩ := id h
  unfold execLoadProfile at he
  split_ifs at he
  · exact (LoadedFrame.of_refuse he).loaded h
  · exact .of_next he ⟨hstation, hcomplete, hlisted, hwaits, hstands⟩
  · exact (LoadedFrame.of_refuse he).loaded h

theorem execLoadPeriod_loaded (i k x : Nat) (h : Loaded s) (he : execLoadPeriod i k x s = .next t) : Loaded t := by
  unfold execLoadPeriod at he
  split at he
  · exact (LoadedFrame.of_refuse he).loaded h
  · rename_i hs
    have hconfig : s.started = false := by simpa using hs
    split at he
    · rename_i hr
      obtain ⟨-, hgap, -⟩ := (periodInRange_iff _ _ _ _).1 hr
      refine .of_next he ((LoadedFrame.answer _ _ _ _).loaded ?_)
      have hloaded : Loaded (s.mapCsc (Csc.load i { capacity := k, executions := x })) :=
        loaded_of_config hconfig h.station (h.listed.load hr) ((h.waits hconfig).load _ hgap)
      exact (LoadedFrame.of_ite (fun _ => .refl _) fun _ => .requestRecompute _).loaded hloaded
    · exact (LoadedFrame.of_refuse he).loaded h

theorem execSetScheduleMode_loaded (m : Nat) (h : Loaded s) (he : execSetScheduleMode m s = .next t) : Loaded t := by
  unfold execSetScheduleMode at he
  split_ifs at he with hs
  · exact (LoadedFrame.of_refuse he).loaded h
  · have hconfig : s.started = false := by simpa using hs
    split at he
    · exact .of_next he (loaded_of_config hconfig h.station (h.listed.of_periods rfl) (h.waits hconfig))
    · exact (LoadedFrame.of_refuse he).loaded h

/-! ### START and the tariff events -/

/-- A station moved to LISTEN stands at the record that its mode names (R112). -/
theorem Loaded.listening (h : Loaded s) (hstation : s.svp.station.isSome = true) (hne : s.csc.periods ≠ []) :
    Loaded s.listening where
  station := h.station
  complete := fun _ => ⟨hstation, by change (s.csc.begin s.selectCode).periods ≠ []; simpa using hne⟩
  listed := h.listed.of_periods (Csc.begin_periods _ _)
  waits := nofun
  stands := fun _ => h.listed.stands_begin hne

theorem execStart_loaded (h : Loaded s) (he : execStart s = .next t) : Loaded t := by
  unfold execStart at he
  split_ifs at he with hs hincomplete
  · exact (LoadedFrame.of_refuse he).loaded h
  · exact (LoadedFrame.of_refuse he).loaded h
  · obtain ⟨hstation, hne⟩ : s.svp.station.isSome = true ∧ s.csc.periods ≠ [] := by
      simpa [← Option.isSome_iff_ne_none] using hincomplete
    refine .of_next he ((settle_loadedFrame _ _).loaded ((LoadedFrame.answer _ _ _ _).loaded ?_))
    exact (LoadedFrame.sequencerStart _).loaded (h.listening hstation hne)

/-- A tariff event moves the schedule in its own mode alone, which must stand there, and in another mode the schedule
must stand as it is. -/
theorem Loaded.tariffEvent {m : ScheduleMode} {g : Csc → Csc} (h : Loaded s) (hcsc : l.csc = s.csc)
    (hsvp : l.svp = s.svp) (hperiods : ∀ c, (g c).periods = c.periods)
    (hmoves : s.csc.mode = m → s.csc.Stands s.selectCode → (g s.csc).Stands l.selectCode)
    (hstays : s.csc.mode ≠ m → s.csc.Stands s.selectCode → s.csc.Stands l.selectCode) :
    Loaded (if l.takesTariff m then changeSchedule g l else l) := by
  have hstarted : l.started = s.started := by simp only [State.started, hsvp]
  have htakes : l.takesTariff m = true ↔ s.started = true ∧ s.csc.mode = m := by
    simp [State.takesTariff, hstarted, hcsc]
  split
  · rename_i ht
    obtain ⟨hs, hm⟩ := htakes.1 ht
    rw [changeSchedule_frame]
    have hgone : l.started ≠ false := by simp [hstarted, hs]
    exact {
      station := hsvp ▸ h.station
      complete := fun _ => ⟨hsvp ▸ (h.complete hs).1, by
        change (g l.csc).periods ≠ []
        rw [hperiods, hcsc]
        exact (h.complete hs).2⟩
      listed := h.listed.of_periods (by change (g l.csc).periods = _; rw [hperiods, hcsc])
      waits := fun hc => absurd hc hgone
      stands := fun _ => by
        change (g l.csc).Stands l.selectCode
        rw [hcsc]
        exact hmoves hm (h.stands hs) }
  · rename_i ht
    exact {
      station := hsvp ▸ h.station
      complete := by rw [hstarted, hsvp, hcsc]; exact h.complete
      listed := hcsc ▸ h.listed
      waits := by rw [hstarted, hcsc]; exact h.waits
      stands := fun hs => by
        rw [hstarted] at hs
        rw [hcsc]
        exact hstays (fun hm => ht (htakes.2 ⟨hs, hm⟩)) (h.stands hs) }

theorem Loaded.of_eventIf {c : Bool} {f : State → State} (h : Loaded s) (he : eventIf c f s = .next t)
    (hf : Loaded (f s)) : Loaded t := by
  rcases eventIf_cases he with ⟨-, rfl⟩ | ⟨-, rfl⟩
  · exact h
  · exact (settle_loadedFrame _ _).loaded hf

theorem execTariffAdvance_loaded (h : Loaded s) (he : execTariffAdvance s = .next t) : Loaded t := by
  refine h.of_eventIf he (h.tariffEvent (m := .stepped) (g := Csc.advance) rfl rfl Csc.advance_periods ?_ ?_)
  all_goals
    have hcode := settleLine_selectCode (l := .tadv) (s.nextLevel .tadv) s (by simp)
    rw [hcode]
  · exact h.listed.stands_advance
  · exact fun _ hs => hs

theorem execTariffRestart_loaded (h : Loaded s) (he : execTariffRestart s = .next t) : Loaded t := by
  refine h.of_eventIf he (h.tariffEvent (m := .stepped) (g := Csc.goTo 0) rfl rfl (Csc.goTo_periods 0) ?_ ?_)
  all_goals
    have hcode := settleLine_selectCode (l := .trst) (s.nextLevel .trst) s (by simp)
    rw [hcode]
  · intro hm hs
    obtain ⟨hstepped, -, -⟩ := hs
    obtain ⟨hi, -⟩ := hstepped hm
    exact h.listed.stands_goTo hm (Nat.zero_lt_of_lt hi)
  · exact fun _ hs => hs

theorem execTariffSelectChange_loaded (n : Fin 4) (v : Bool) (h : Loaded s)
    (he : execTariffSelectChange n v s = .next t) : Loaded t := by
  have hsvp : (qualifySelects (settleActive (.tsel n) v s)).svp = s.svp := by rw [qualifySelects_frame]; rfl
  exact h.of_eventIf he (h.tariffEvent (qualifySelects_csc _) hsvp (Csc.select_periods _)
    (fun hm _ => Csc.stands_select hm) fun hm hs => hs.of_not_selected hm)

/-- Every command keeps what is loaded in form. -/
theorem exec_loaded {c : Instr} (hb : 0 < s.tmb.boundary) (hq : ConfigQuiet s) (h : Loaded s)
    (he : exec c s = .next t) : Loaded t := by
  cases c with
  | reset => exact .of_next he (reset_loaded _ _)
  | loadStation r => exact execLoadStation_loaded r h he
  | loadProfile p => exact execLoadProfile_loaded p h he
  | loadPeriod i k x => exact execLoadPeriod_loaded i k x h he
  | setScheduleMode m => exact execSetScheduleMode_loaded m h he
  | start => exact execStart_loaded h he
  | tariffAdvance => exact execTariffAdvance_loaded h he
  | tariffRestart => exact execTariffRestart_loaded h he
  | tariffSelectChange n v => exact execTariffSelectChange_loaded n v h he
  | _ => exact (exec_loadedFrame rfl hb hq he).loaded h

/-! ### The slots -/

theorem State.SlotsInRange.of_slots (h : s.SlotsInRange) (hv : t.vlp.slots = s.vlp.slots) : t.SlotsInRange := by
  unfold State.SlotsInRange
  rw [hv]
  exact h

theorem State.SlotsInRange.of_next {u : State}
    (he : Host.Outcome.next u = (.next t : Host.Outcome State Fault Refusal)) (h : u.SlotsInRange) : t.SlotsInRange :=
  Host.Outcome.next.inj he ▸ h

theorem reset_slotsInRange (p : List Instr) (n : Nat) :
    State.SlotsInRange { State.reset with pending := p, freeCount := n } := by
  intro a p hp
  simp [State.reset] at hp

/-- The ranges that LOAD_PROFILE checks are those of R148 and R149. -/
theorem profileInRange_iff (p : ProfileArgs) : profileInRange p = true ↔ ProfileRanges p := by
  simp only [profileInRange, inRange, Bool.and_eq_true, Bool.or_eq_true, decide_eq_true_eq, beq_iff_eq, ProfileRanges]
  simp only [Config.maxClaim]
  omega

theorem inRange_iff (lo hi n : Nat) : inRange lo hi n = true ↔ lo ≤ n ∧ n ≤ hi := by simp [inRange]

/-- What LOAD_PROFILE leaves in a slot is in range (R148, R191). -/
theorem profileOfArgs_inRange {p : ProfileArgs} (h : profileInRange p = true) : (profileOfArgs p).inRange = true := by
  have hr : ProfileRanges p := (profileInRange_iff p).1 h
  have hid : ((profileOfArgs p).expectedId.all fun i => inRange 1 65535 i) = true := by
    unfold profileOfArgs
    dsimp only
    split
    · rename_i hpresent
      simp only [Option.all_some, inRange_iff]
      omega
    · rfl
  simp only [Profile.inRange, hid, Bool.and_eq_true, inRange_iff, decide_eq_true_eq, and_true]
  simp only [profileOfArgs]
  omega

theorem execLoadProfile_slotsInRange (p : ProfileArgs) (h : s.SlotsInRange) (he : execLoadProfile p s = .next t) :
    t.SlotsInRange := by
  unfold execLoadProfile at he
  split_ifs at he with hs hr
  · exact h.of_slots (LoadedFrame.of_refuse he).slots
  · refine .of_next he fun a q hq => ?_
    change q ∈ (s.vlp.slots.set (Fin.ofNat 16 p.slot) (some (profileOfArgs p)))[a] at hq
    by_cases ha : a = Fin.ofNat 16 p.slot
    · subst ha
      obtain rfl : profileOfArgs p = q := by simpa using hq
      exact profileOfArgs_inRange hr
    · have hne : (Fin.ofNat 16 p.slot).val ≠ a.val := fun hval => ha (Fin.ext hval.symm)
      exact h a q ((Vector.getElem_set_ne _ _ hne).symm.trans hq)
  · exact h.of_slots (LoadedFrame.of_refuse he).slots

/-- LOAD_PROFILE and RESET apart, a command leaves the slots as they are. -/
theorem exec_slots {c : Instr} (hb : 0 < s.tmb.boundary) (hq : ConfigQuiet s) (hr : c ≠ .reset)
    (hp : ∀ p, c ≠ .loadProfile p) (he : exec c s = .next t) : t.vlp.slots = s.vlp.slots := by
  have hevent {b : Bool} {f : State → State} (he : eventIf b f s = .next t) (hf : (f s).vlp.slots = s.vlp.slots) :
      t.vlp.slots = s.vlp.slots := by
    rcases eventIf_cases he with ⟨-, rfl⟩ | ⟨-, rfl⟩
    · rfl
    · exact (settle_loadedFrame _ _).slots.trans hf
  have htariff (m : ScheduleMode) (g : Csc → Csc) (l : State) (hl : l.vlp.slots = s.vlp.slots) :
      (if l.takesTariff m then changeSchedule g l else l).vlp.slots = s.vlp.slots := by
    split
    · rw [changeSchedule_frame]
      exact hl
    · exact hl
  cases c with
  | reset => exact absurd rfl hr
  | loadProfile p => exact absurd rfl (hp p)
  | loadStation r =>
    change execLoadStation r s = _ at he
    unfold execLoadStation at he
    split_ifs at he <;> exact Host.Outcome.next.inj he ▸ rfl
  | loadPeriod i k x =>
    change execLoadPeriod i k x s = _ at he
    unfold execLoadPeriod at he
    dsimp only at he
    split_ifs at he <;> exact Host.Outcome.next.inj he ▸ rfl
  | setScheduleMode m =>
    change execSetScheduleMode m s = _ at he
    unfold execSetScheduleMode at he
    split_ifs at he
    · exact Host.Outcome.next.inj he ▸ rfl
    · split at he <;> exact Host.Outcome.next.inj he ▸ rfl
  | start =>
    rcases execStart_cases he with ⟨code, rfl⟩ | ⟨-, -, rfl⟩
    · rfl
    · exact (settle_loadedFrame _ _).slots.trans (LoadedFrame.sequencerStart s.listening).slots
  | tariffAdvance => exact hevent he (htariff _ _ _ rfl)
  | tariffRestart => exact hevent he (htariff _ _ _ rfl)
  | tariffSelectChange n v => exact hevent he (htariff _ _ _ (by rw [qualifySelects_frame]; rfl))
  | _ => exact (exec_loadedFrame rfl hb hq he).slots

theorem exec_slotsInRange {c : Instr} (hb : 0 < s.tmb.boundary) (hq : ConfigQuiet s) (h : s.SlotsInRange)
    (he : exec c s = .next t) : t.SlotsInRange := by
  by_cases hr : c = .reset
  · subst hr
    exact .of_next he (reset_slotsInRange _ _)
  · by_cases hp : ∃ p, c = .loadProfile p
    · obtain ⟨p, rfl⟩ := hp
      exact execLoadProfile_slotsInRange p h he
    · exact h.of_slots (exec_slots hb hq hr (fun p h => hp ⟨p, h⟩) he)

theorem exec_keepsProfileAndLoaded {c : Instr} (hb : 0 < s.tmb.boundary) (hq : ConfigQuiet s) (hg : GrantBounds s)
    (hp : ProfileInUse s) (hl : LoadedForm s) (he : exec c s = .next t) : ProfileInUse t ∧ LoadedForm t :=
  ⟨(exec_leads hq he).profileInUse hg hp (exec_slotsInRange hb hq hp.slotted.inRange he),
    (loadedForm_iff t).2 (exec_loaded hb hq ((loadedForm_iff s).1 hl) he)⟩

end

/-- Settles O57: a command keeps the profile in use by what it leads to and keeps what is loaded case by case, and a bit
time moves the link alone; neither reads the queue of commands. -/
theorem everyStepKeepsTheProfileAndTheLoadedForm : Obligations.EveryStepKeepsTheProfileAndTheLoadedForm := by
  intro s t hb hq hg hp hl he
  unfold step at he
  split at he
  · have hbits : LoadedFrame s (bitTime s) := ⟨rfl, rfl, rfl, rfl, rfl⟩
    obtain rfl := Host.Outcome.next.inj he
    exact ⟨hp, (loadedForm_iff _).2 (hbits.loaded ((loadedForm_iff s).1 hl))⟩
  · rename_i c rest _
    exact exec_keepsProfileAndLoaded (s := { s with pending := rest }) hb hq hg hp hl he

end Sys2Proof.Machine

/-! SUPPORT. LOAD_PROFILE and SET_SCHEDULE_MODE in CONFIG, and the statement about them. -/

namespace Sys2Proof.Machine

section
variable {s : State} {p : ProfileArgs}

theorem State.not_started_of_config (hm : s.svp.mode = .config) : ¬s.started = true := by simp [State.started, hm]

/-- A profile that is taken reaches its slot and the answer alone (R149). -/
theorem execLoadProfile_taken (hm : s.svp.mode = .config) (hr : ProfileRanges p) :
    exec (.loadProfile p) s = .next
      { s with
        svp := s.svp.answered 2 .accepted []
        vlp := { s.vlp with slots := s.vlp.slots.set (Fin.ofNat 16 p.slot) (some (profileOfArgs p)) } } := by
  change execLoadProfile p s = _
  rw [execLoadProfile, if_neg (State.not_started_of_config hm), if_pos ((profileInRange_iff p).2 hr), answer_eq]
  rfl

theorem execLoadProfile_refused (hm : s.svp.mode = .config) (hr : ¬ProfileRanges p) :
    Refuses (.loadProfile p) s 2 .outOfRange := by
  change execLoadProfile p s = _
  rw [execLoadProfile, if_neg (State.not_started_of_config hm), if_neg (mt (profileInRange_iff p).1 hr), refuse_eq]

/-- A mode of its code reaches the schedule's mode and the answer alone (R110). -/
theorem execSetScheduleMode_taken {code : Nat} {m : ScheduleMode} (hm : s.svp.mode = .config)
    (hcode : scheduleModeOf code = some m) :
    exec (.setScheduleMode code) s = .next
      { s with svp := s.svp.answered 4 .accepted [], csc := { s.csc with mode := m } } := by
  change execSetScheduleMode code s = _
  rw [execSetScheduleMode, if_neg (State.not_started_of_config hm), hcode]
  rfl

theorem execSetScheduleMode_refused {code : Nat} (hm : s.svp.mode = .config) (hcode : scheduleModeOf code = none) :
    Refuses (.setScheduleMode code) s 4 .outOfRange := by
  change execSetScheduleMode code s = _
  rw [execSetScheduleMode, if_neg (State.not_started_of_config hm), hcode]
  rfl

/-- Three codes name a mode (R191). -/
theorem scheduleModeOf_beyond {code : Nat} (h : 3 ≤ code) : scheduleModeOf code = none := by
  unfold scheduleModeOf
  split
  · omega
  · omega
  · omega
  · rfl

end

/-- Settles O5: within its ranges LOAD_PROFILE is the load of its slot, a mode code its mode, and all else a refusal. -/
theorem loadProfileAndScheduleMode : Obligations.LoadProfileAndScheduleMode := by
  intro s hm
  refine ⟨fun p => ⟨execLoadProfile_taken hm, execLoadProfile_refused hm⟩, fun code m hcode => ?_,
    fun code hcode => execSetScheduleMode_refused hm (scheduleModeOf_beyond hcode)⟩
  rcases hcode with ⟨rfl, rfl⟩ | ⟨rfl, rfl⟩ | ⟨rfl, rfl⟩ <;> exact execSetScheduleMode_taken hm rfl

end Sys2Proof.Machine

/-! SUPPORT. The vessel link lost by phase, and the trips of its two timers; and the statement about them. -/

namespace Sys2Proof.Machine

section
variable {s : State}

/-- The berth as its link is found LOST, before its phase acts (R139). -/
def State.linkGone (s : State) : State :=
  { s with vlp := { s.vlp with link := .lost }, tmb := { s.tmb with linkTimeout := s.tmb.linkTimeout.stop } }

/-- A berth returned to PLUGGED with its link LOST stays there (R10). -/
theorem linkGone_entered (s : State) : (setPhase .plugged s.linkGone).entered = setPhase .plugged s.linkGone := by
  refine if_neg fun hcond => ?_
  obtain ⟨-, -, hlink, -⟩ := hcond
  rw [(setPhase_sequencerFrame s.linkGone _).vlp] at hlink
  exact hlink rfl

theorem linkLost_queued (h : s.bsq.phase = .queued) : linkLost s = enterPlugged s.linkGone := if_pos h

theorem linkLost_awaitSync (h : s.bsq.phase = .awaitSync) : linkLost s = enterDeEnergising s.linkGone :=
  have hq : ¬s.bsq.phase = .queued := by simp [h]
  (if_neg hq).trans (if_pos h)

/-- A connected berth gives up its flex and starts the link-loss timer (R141, R173). -/
def State.linkLossBegun (s : State) : State :=
  (requestAnnounce (setClaim s.bsq.firm 0 s.bsq.transient s.linkGone)).mapTmb
    fun b => { b with linkLoss := Timer.start (s.station.linkLossInterval * Config.second) }

theorem linkLost_connected (h : s.bsq.phase.connected = true) : linkLost s = s.linkLossBegun := by
  have hq : ¬s.bsq.phase = .queued := fun hq => by simp [hq, Phase.connected_iff] at h
  have ha : ¬s.bsq.phase = .awaitSync := fun ha => by simp [ha, Phase.connected_iff] at h
  exact (if_neg hq).trans ((if_neg ha).trans (if_pos h))

theorem linkLost_elsewhere (hq : s.bsq.phase ≠ .queued) (ha : s.bsq.phase ≠ .awaitSync)
    (hc : s.bsq.phase.connected = false) : linkLost s = s.linkGone :=
  (if_neg hq).trans ((if_neg ha).trans (if_neg (by simpa using hc)))

theorem linkLossBegun_takenAs (hs : s.started = true) (hc : s.calm = true) :
    TakenAs s.linkLossBegun s.linkLossBegun := by
  have hf := setClaim_sequencerFrame s.linkGone s.bsq.firm 0 s.bsq.transient
  refine .of_calm (hf.started.trans hs) (State.calm_congr hc hf.lib ?_ ?_ ?_)
  · change (setClaim s.bsq.firm 0 s.bsq.transient s.linkGone).bsq.phase = _
    rw [setClaim_bsq]
    rfl
  · exact congrArg Tru.estopHeld (setClaim_tru s.linkGone ..)
  · exact congrArg Tru.feederHeld (setClaim_tru s.linkGone ..)

/-- The timeout that expires with the link UP is an event that ends as what it leads to. -/
theorem vesselLinkTimeout_completes {u v : State} (hd : s.tmb.linkTimeout.left = some 0) (hl : s.vlp.link = .up)
    (hu : linkLost s = u) (h : TakenAs u v) : CompletesAs .vesselLinkTimeout s v :=
  TakenAs.completes_of_if rfl (by simp [(Timer.due_iff _).2 hd, hl]) hu h

theorem vesselLinkTimeout_skips (h : s.tmb.linkTimeout.left ≠ some 0 ∨ s.vlp.link ≠ .up) :
    exec .vesselLinkTimeout s = .next s := by
  refine eventIf_false s ?_ _
  rw [Bool.and_eq_false_iff, Bool.eq_false_iff, ne_eq, Timer.due_iff]
  exact h.imp_right (by simp)

/-- A cause taken outside VACANT by a timer that expires. -/
theorem timerTrip_completes {c : Instr} {t : Timer} {f : State → State} {o : TripCause} {k : State}
    (hx : exec c s = eventIf t.due f s) (hd : t.left = some 0) (hf : f s = takeCause o k) (hs : k.started = true)
    (hc : k.calm = true) (hp : k.bsq.phase ≠ .vacant) : CompletesAs c s (takeCause o k) :=
  TakenAs.completes_of_due hx hd hf
    (.of_calm ((takeCause_sequencerFrame k o).started.trans hs) (takeCause_calm hc hp o))

end

/-- Settles O40: the loss of the link is one passage for each phase, and each of the two timers takes its cause. -/
theorem vesselLinkLossAndTheTripsOfTimers : Obligations.VesselLinkLossAndTheTripsOfTimers := by
  intro s hs hc
  refine ⟨fun hd hl => ?_, vesselLinkTimeout_skips, fun hd hp => timerTrip_completes rfl hd rfl hs hc hp,
    fun hd => eventIf_of_not_due hd, fun hd hp => timerTrip_completes rfl hd rfl hs hc hp,
    fun hd => eventIf_of_not_due hd⟩
  intro k c n
  have hend {u v : State} := vesselLinkTimeout_completes (u := u) (v := v) hd hl
  refine ⟨fun hp => ?_, fun hp => ?_, fun hp => ?_, fun ⟨hq, ha, hn⟩ => ?_⟩
  · have hplugged : TakenAs (enterPlugged k) (setPhase .plugged k).entered :=
      enterPlugged_takenAs hs (setPhase_calm (s := k) (next := .plugged) hc (fun hv => nomatch hp.symm.trans hv) nofun)
    exact hend (linkLost_queued hp) (linkGone_entered s ▸ hplugged)
  · exact hend (linkLost_awaitSync hp) (enterDeEnergising_takenAs hs hc fun hv => nomatch hp.symm.trans hv)
  · exact hend (linkLost_connected hp) (linkLossBegun_takenAs hs hc)
  · exact hend (linkLost_elsewhere hq ha hn) (.of_calm hs hc)

end Sys2Proof.Machine

/-! SUPPORT. What a ship status record carries, byte by byte; the clamps that it forms; and the statement about what it
does in every phase. -/

namespace Sys2Proof.Machine

/-! ### The fields of a record by their places (R190) -/

section
variable {bs : List Byte} {rx : Reception} {levels : List Level}

/-- A field of a ship status record holds what no record may (R136). -/
abbrev OutsideShip (bs : List Byte) : Prop :=
  wordAt bs 0 = 0 ∨ 2 < byteAt bs 2 ∨ 1 < byteAt bs 3 % 4 ∨ 2 < byteAt bs 3 / 16 % 4

/-- The record with the fields of a ship status record. -/
def shipAt (bs : List Byte) : ShipRecord :=
  { vesselId := wordAt bs 0, request := if byteAt bs 2 = 0 then .none else if byteAt bs 2 = 1 then .shore else .back
    breakerClosed := decide (byteAt bs 3 % 4 = 1)
    generators := if byteAt bs 3 / 16 % 4 = 0 then .online else if byteAt bs 3 / 16 % 4 = 1 then .syncing else .off
    firmDemand := wordAt bs 4, flexDemand := wordAt bs 6, echo := wordAt bs 8 }

theorem requestOf_eq (n : Nat) :
    requestOf n = if 2 < n then none else some (if n = 0 then .none else if n = 1 then .shore else .back) := by
  match n with
  | 0 | 1 | 2 | _ + 3 => rfl

theorem generatorsOf_eq (n : Nat) :
    generatorsOf n = if 2 < n then none else some (if n = 0 then .online else if n = 1 then .syncing else .off) := by
  match n with
  | 0 | 1 | 2 | _ + 3 => rfl

/-- Twelve bytes carry a ship status record or nothing. -/
theorem parseShip_payload (h : bs.length = 12) :
    parseShip (payload bs) = if OutsideShip bs then none else some (shipAt bs) := by
  match bs, h with
  | [v0, v1, rq, bg, f0, f1, x0, x1, e0, e1, k0, k1], _ =>
    change parseShip [v0, v1, rq, bg, f0, f1, x0, x1, e0, e1] = _
    rw [parseShip, requestOf_eq, generatorsOf_eq]
    by_cases hrequest : 2 < rq.toNat
    · rw [if_pos hrequest]
      exact (if_pos (.inr (.inl hrequest))).symm
    by_cases hgenerators : 2 < bg.toNat / 16 % 4
    · rw [if_neg hrequest, if_pos hgenerators]
      exact (if_pos (.inr (.inr (.inr hgenerators)))).symm
    rw [if_neg hrequest, if_neg hgenerators]
    by_cases hfields : of16 v0 v1 ≠ 0 ∧ bg.toNat % 4 ≤ 1
    · obtain ⟨hid, hbreaker⟩ := hfields
      have hinside : ¬OutsideShip [v0, v1, rq, bg, f0, f1, x0, x1, e0, e1, k0, k1] := by
        rintro (h | h | h | h)
        · exact hid h
        · exact hrequest h
        · exact absurd hbreaker (Nat.not_le.2 h)
        · exact hgenerators h
      rw [if_neg hinside]
      exact if_pos ⟨hid, hbreaker⟩
    · have houtside : OutsideShip [v0, v1, rq, bg, f0, f1, x0, x1, e0, e1, k0, k1] := by
        by_contra hinside
        exact hfields ⟨fun h => hinside (.inl h), Nat.not_lt.1 fun h => hinside (.inr (.inr (.inl h)))⟩
      rw [if_pos houtside]
      exact if_neg hfields

/-- Levels that are not those of a record to its end, or a reception that fails (R135, R136). -/
abbrev FaultyShip (levels : List Level) (rx : Reception) : Prop :=
  wholeRecord levels = false ∨ rx.framingError = true ∨ rx.bytes.length ≠ 12 ∨ checkGood rx.bytes = false

theorem shipRecordIn_faulty (h : FaultyShip levels (assemble levels)) : shipRecordIn levels = none := by
  unfold shipRecordIn
  rcases h with h | h
  · rw [if_neg (by simp [h])]
  · split
    · exact if_pos (by simpa using h)
    · rfl

theorem shipRecordIn_whole (h : ¬FaultyShip levels (assemble levels)) :
    shipRecordIn levels =
      if OutsideShip (assemble levels).bytes then none else some (shipAt (assemble levels).bytes) := by
  simp only [FaultyShip, not_or, Bool.not_eq_false, Bool.not_eq_true, not_not] at h
  obtain ⟨hwhole, hframing, hlength, hcheck⟩ := h
  rw [shipRecordIn, if_pos hwhole, shipRecordOf, if_neg (by simp [hframing, hlength, hcheck]),
    parseShip_payload hlength]

end

/-! ### The clamps (R143) -/

section
variable (s : State)

/-- A recompute is asked for where a clamped demand changes. -/
theorem requestIfClampsChange (t : State) {firm flex a b : Nat} :
    (if firm = a ∧ flex = b then t else requestRecompute t) =
      { t with hre := { t.hre with request := t.hre.request || firm != a || flex != b } } := by
  by_cases hfirm : firm = a
  · by_cases hflex : flex = b
    · simp [hfirm, hflex]
    · simp [hfirm, hflex, requestRecompute_eq]
  · simp [hfirm, requestRecompute_eq]

theorem raiseIfClamped (t : State) (raised : Bool) :
    (if raised then raiseAttention .demandClamped t else t) =
      { t with svp := { t.svp with
          attention := { t.svp.attention with demandClamped := t.svp.attention.demandClamped || raised }
          attn := t.svp.attn || raised } } := by
  cases raised
  · simp
  · simp [raiseAttention, AttentionSet.add, State.mapSvp]

/-- The clamps of the held record, with their mark, their request and their reason. -/
theorem formClamps_fields {firm flex : Nat}
    (hfirm : (s.vlp.held.map fun r => clampFirm s.profile r.firmDemand).getD 0 = firm)
    (hflex : (s.vlp.held.map fun r => clampFlex s.profile r.flexDemand).getD 0 = flex) {clamped : Bool}
    (hclamped : (s.vlp.held.any fun r => r.firmDemand != firm || r.flexDemand != flex) = clamped) :
    formClamps s =
      { s with
        vlp := { s.vlp with clampedFirm := firm, clampedFlex := flex, demandClamped := clamped }
        hre := { s.hre with request := s.hre.request || firm != s.vlp.clampedFirm || flex != s.vlp.clampedFlex }
        svp := { s.svp with
          attention := { s.svp.attention with
            demandClamped := s.svp.attention.demandClamped || (clamped && !s.vlp.demandClamped) }
          attn := s.svp.attn || (clamped && !s.vlp.demandClamped) } } := by
  unfold formClamps
  dsimp only
  rw [hfirm, hflex, hclamped, raiseIfClamped, requestIfClampsChange]
  rfl

end

/-! ### A record taken, and one that changes nothing -/

section
variable {s : State} {r : ShipRecord} {levels : List Level}

/-- In four phases a record is heard and does no more (R142). -/
theorem takeRecord_heard (hp : s.bsq.phase = .vacant ∨ s.bsq.phase = .energising ∨ s.bsq.phase = .deEnergising ∨
    s.bsq.phase = .tripped) : takeRecord r s = s.heard r := by
  unfold takeRecord deliverRecord
  dsimp only
  rw [clearAbortFlags_heard, (s.heard_spec r).phase]
  rcases hp with hp | hp | hp | hp <;> rw [hp]

theorem execShipStatusRecord_none (h : shipRecordIn levels = none) : exec (.shipStatusRecord levels) s = .next s := by
  change execShipStatusRecord levels s = _
  rw [execShipStatusRecord, h]

/-- A record in CONFIG or with the combination of R137 changes nothing. -/
theorem execShipStatusRecord_ignored
    (h : s.started = false ∨ ∀ r ∈ shipRecordIn levels, s.invalidCombination r = true) :
    exec (.shipStatusRecord levels) s = .next s := by
  cases hr : shipRecordIn levels with
  | none => exact execShipStatusRecord_none hr
  | some r =>
    change execShipStatusRecord levels s = _
    rw [execShipStatusRecord, hr]
    refine eventIf_false s ?_ _
    rcases h with h | h
    · simp [h]
    · simp [h r hr]

end

/-- Settles O25: the record is judged by its bytes, the clamps are formed field by field, and in four phases hearing the
record is all there is. -/
theorem shipRecordsAreJudgedAndTaken : Obligations.ShipRecordsAreJudgedAndTaken := by
  intro levels s
  refine ⟨?_, fun hm => execShipStatusRecord_ignored (.inl (by simp [State.started, hm])), fun r hr hp hb hg => ?_, ?_,
    fun r hr hs hc hp => ?_⟩
  · intro rx b w faulty outside
    refine ⟨fun h => ?_, fun hf ho => (shipRecordIn_whole hf).trans (if_neg ho)⟩
    have hnone : shipRecordIn levels = none := by
      by_cases hf : faulty
      · exact shipRecordIn_faulty hf
      · exact (shipRecordIn_whole hf).trans (if_pos (h.resolve_left hf))
    exact ⟨hnone, execShipStatusRecord_none hnone⟩
  · refine execShipStatusRecord_ignored (.inr fun q hq => ?_)
    obtain rfl : r = q := Option.mem_unique hr hq
    simp [State.invalidCombination, hp, hb, hg]
  · intro firm flex clamped raised
    refine formClamps_fields s (firm := firm) (flex := flex) ?_ ?_ rfl
    · cases hheld : s.vlp.held <;> cases hprofile : s.profile <;> simp only [firm, hheld, hprofile] <;> rfl
    · cases hheld : s.vlp.held <;> cases hprofile : s.profile <;> simp only [flex, hheld, hprofile] <;> rfl
  · have hh := s.heard_spec r
    have hvalid : s.invalidCombination r = false := by
      rcases hp with hp | hp | hp | hp <;> simp [State.invalidCombination, hp]
    have hx := execShipStatusRecord_of hr hs hvalid
    rw [takeRecord_heard hp] at hx
    exact (TakenAs.of_calm (hh.started hs) (hh.calm hc)).completes hx

end Sys2Proof.Machine

/-! SUPPORT. The settings of the lines: RESET and LOAD_STATION alone change them; and the proof that every step keeps the
level kinds. -/

namespace Sys2Proof.Machine

/-! ### Operations that leave the lines -/

section
variable (s : State)

@[simp] theorem answer_lib (kind : Nat) (code : ResponseCode) (data : List Byte) :
    (answer kind code data s).lib = s.lib := rfl
@[simp] theorem requestRecompute_lib : (requestRecompute s).lib = s.lib := rfl
@[simp] theorem requestAnnounce_lib : (requestAnnounce s).lib = s.lib := rfl
@[simp] theorem clearReserve_lib : (clearReserve s).lib = s.lib := rfl
@[simp] theorem closeSlot_lib : (closeSlot s).lib = s.lib := rfl
@[simp] theorem openSlot_lib (d : Bool) (rx : Option RxFrame) : (openSlot d rx s).lib = s.lib := rfl
@[simp] theorem stopBreaker_lib : (stopBreaker s).lib = s.lib := rfl
@[simp] theorem selectProfile_lib : (selectProfile s).lib = s.lib := rfl
@[simp] theorem dropProfile_lib : (dropProfile s).lib = s.lib := rfl
@[simp] theorem raiseAttention_lib (r : Reason) : (raiseAttention r s).lib = s.lib := rfl

@[simp] theorem putEntry_lib (a : Address) (e : PeerEntry) (c : Bool) : (putEntry a e c s).lib = s.lib := by
  rw [putEntry_frame]

@[simp] theorem releaseRefused_lib : (releaseRefused s).lib = s.lib := by
  rw [releaseRefused_eq]

@[simp] theorem tableChanged_lib : (tableChanged s).lib = s.lib := by
  unfold tableChanged dropOnViewChange
  split <;> rfl

@[simp] theorem changeSchedule_lib (f : Csc → Csc) : (changeSchedule f s).lib = s.lib := by
  rw [changeSchedule_frame]

@[simp] theorem takeTransmission_lib (j : Judged) : (takeTransmission j s).lib = s.lib := by
  unfold takeTransmission
  split
  · rfl
  · rfl
  · dsimp only
    split_ifs
    · rfl
    · rw [conflictFound_frame, openSlot_lib]
    · rfl

@[simp] theorem beginAttempt_lib : (beginAttempt s).lib = s.lib := by
  unfold beginAttempt
  split
  · rfl
  · dsimp only
    split <;> rfl

@[simp] theorem collide_lib : (collide s).lib = s.lib := by
  unfold collide
  dsimp only
  split <;> rfl

@[simp] theorem dropFrame_lib (e : TxEntry) : (dropFrame e s).lib = s.lib := by
  unfold dropFrame
  cases e.content <;> simp

@[simp] theorem collidedEnd_lib (e : TxEntry) : (collidedEnd e s).lib = s.lib := by
  unfold collidedEnd
  dsimp only
  split_ifs <;> simp

@[simp] theorem reserveOutcome_lib (d : Bool) : (reserveOutcome d s).lib = s.lib := by
  cases d <;> rfl

@[simp] theorem ownSlotEnd_lib (d : Bool) (e : TxEntry) : (ownSlotEnd d e s).lib = s.lib := by
  unfold ownSlotEnd
  cases e.content with
  | announce | withdraw => rfl
  | reserve n c =>
    dsimp only
    split <;> simp

@[simp] theorem silenceCheck_lib : (silenceCheck s).lib = s.lib := by
  unfold silenceCheck
  dsimp only
  split <;> simp

@[simp] theorem lowerSettleCount_lib : (lowerSettleCount s).lib = s.lib := by
  unfold lowerSettleCount
  dsimp only
  split_ifs <;> rfl

@[simp] theorem takeSample_lib (d : Nat) : (takeSample d s).lib = s.lib := by
  unfold takeSample
  dsimp only
  split <;> rfl

@[simp] theorem linkHeard_lib : (linkHeard s).lib = s.lib := by
  unfold linkHeard
  dsimp only
  split <;> rfl

/-! ### The sequencer's events leave the lines -/

@[simp] theorem setPhase_lib (next : Phase) : (setPhase next s).lib = s.lib := (setPhase_sequencerFrame s next).lib

@[simp] theorem setClaim_lib (firm flex transient : Nat) : (setClaim firm flex transient s).lib = s.lib :=
  (setClaim_sequencerFrame s firm flex transient).lib

@[simp] theorem takeCause_lib (c : TripCause) : (takeCause c s).lib = s.lib := (takeCause_sequencerFrame s c).lib

@[simp] theorem addLater_lib (c : TripCause) : (addLater c s).lib = s.lib := (addLater_sequencerFrame s c).lib

@[simp] theorem evaluateEntry_lib : (evaluateEntry s).lib = s.lib := (evaluateEntry_sequencerFrame s).lib

@[simp] theorem enterPlugged_lib : (enterPlugged s).lib = s.lib := (enterPlugged_sequencerFrame s).lib

@[simp] theorem enterDeEnergising_lib : (enterDeEnergising s).lib = s.lib := (enterDeEnergising_sequencerFrame s).lib

@[simp] theorem plugProven_lib : (plugProven s).lib = s.lib := by
  simp [plugProven, formClamps_lib]

@[simp] theorem linkIdle_lib : (linkIdle s).lib = s.lib := by
  simp [linkIdle, formClamps_lib]

@[simp] theorem pilotGone_lib : (pilotGone s).lib = s.lib := by
  unfold pilotGone
  split_ifs <;> simp

@[simp] theorem leaveTripped_lib : (leaveTripped s).lib = s.lib := by
  have hcompare (r : ShipRecord) (t : State) : (compareVessel r t).lib = t.lib := (compareVessel_sequencerFrame t r).lib
  unfold leaveTripped
  dsimp only
  split
  · rw [enterPlugged_lib, formClamps_lib]
    split
    · exact hcompare _ _
    · rfl
  · rw [setPhase_lib, formClamps_lib]
    rfl

@[simp] theorem takeRecord_lib (r : ShipRecord) : (takeRecord r s).lib = s.lib := by
  unfold takeRecord
  dsimp only
  rw [(deliverRecord_sequencerFrame _ _ r).lib]
  simp [formClamps_lib]

@[simp] theorem linkLost_lib : (linkLost s).lib = s.lib := by
  unfold linkLost
  dsimp only
  split_ifs <;> simp

@[simp] theorem startStation_lib : (startStation s).lib = s.lib := by
  have hlistening : s.listening.lib = s.lib := rfl
  rw [startStation_eq, ← hlistening]
  rcases sequencerStart_cases s.listening with ⟨-, h⟩ | ⟨-, -, h⟩ | ⟨-, -, h⟩ <;> rw [h]
  · exact (uncommandedClose_sequencerFrame _).lib
  · exact plugProven_lib _

/-- The end of an event leaves the lines. -/
@[simp] theorem settle_lib (before : State) : (settle before s).lib = s.lib := by
  cases hs : s.started
  · rw [settle_config _ _ hs]
  · obtain ⟨-, -, -, -, -, -, -, -, -, -, -, hlib, -⟩ := settle_ends s before hs
    exact hlib.trans (tripsTaken_sequencerFrame s).lib

/-! ### Settling a line leaves the settings -/

@[simp] theorem settleLine_settings (l : Line) (v : Bool) : (settleLine l v s).lib.settings = s.lib.settings := rfl

@[simp] theorem settleActive_settings (l : Line) (v : Bool) : (settleActive l v s).lib.settings = s.lib.settings := rfl

@[simp] theorem qualifySelects_settings : (qualifySelects s).lib.settings = s.lib.settings := by
  rw [qualifySelects_frame]

end

/-! ### Outcomes that leave the settings -/

/-- The next state that the outcome gives, where it gives one, has the line settings of `s`. -/
def KeepsSettings (s : State) (o : Host.Outcome State Fault Refusal) : Prop :=
  ∀ t, o = .next t → t.lib.settings = s.lib.settings

namespace KeepsSettings

variable {s u : State}

theorem next (h : u.lib.settings = s.lib.settings) : KeepsSettings s (.next u) :=
  fun _ he => Host.Outcome.next.inj he ▸ h

theorem stay (s : State) : KeepsSettings s (.next s) := next rfl

theorem refuse (kind : Nat) (code : ResponseCode) (s : State) : KeepsSettings s (refuse kind code s) := next rfl

theorem ite {p : Prop} [Decidable p] {o o' : Host.Outcome State Fault Refusal} (h : KeepsSettings s o)
    (h' : KeepsSettings s o') : KeepsSettings s (if p then o else o') := by
  split
  · exact h
  · exact h'

theorem event {f : State → State} (h : (f s).lib.settings = s.lib.settings) : KeepsSettings s (event f s) :=
  next (by rw [settle_lib, h])

theorem eventIf {c : Bool} {f : State → State} (h : (f s).lib.settings = s.lib.settings) :
    KeepsSettings s (eventIf c f s) := ite (event h) (stay s)

/-- A line settles and, under a condition, another block follows and leaves the lines. -/
theorem line {c b : Bool} {f : State → State} {v : State} (hf : f s = if b then v else u)
    (hu : u.lib.settings = s.lib.settings) (hv : v.lib = u.lib) : KeepsSettings s (Machine.eventIf c f s) := by
  refine eventIf ?_
  rw [hf]
  split
  · rw [hv, hu]
  · exact hu

end KeepsSettings

/-! ### Every command -/

section
variable (s : State)

theorem execLoadPeriod_keepsSettings (i k e : Nat) : KeepsSettings s (execLoadPeriod i k e s) := by
  refine .ite (.refuse _ _ s) (.ite (.next ?_) (.refuse _ _ s))
  rw [answer_lib]
  split <;> rfl

theorem execSetScheduleMode_keepsSettings (m : Nat) : KeepsSettings s (execSetScheduleMode m s) := by
  refine .ite (.refuse _ _ s) ?_
  split
  · exact .next rfl
  · exact .refuse _ _ s

theorem execLatch_keepsSettings : KeepsSettings s (execLatch s) := by
  unfold execLatch
  split
  · exact .refuse _ _ s
  · exact .next rfl

theorem execReadSnapshot_keepsSettings : KeepsSettings s (execReadSnapshot s) := by
  unfold execReadSnapshot
  split
  · exact .next rfl
  · exact .refuse _ _ s

theorem execReadPeer_keepsSettings (a : Nat) : KeepsSettings s (execReadPeer a s) := by
  unfold execReadPeer
  split
  · exact .next rfl
  · exact .refuse _ _ s

theorem execForgetPeer_keepsSettings (a : Nat) : KeepsSettings s (execForgetPeer a s) := by
  refine .ite (.refuse _ _ s) ?_
  split
  · exact .ite (.event (by simp)) (.refuse _ _ s)
  · exact .refuse _ _ s

theorem execBerthHold_keepsSettings (v : Nat) : KeepsSettings s (execBerthHold v s) := by
  refine .ite (.refuse _ _ s) ?_
  split
  · exact .ite (.refuse _ _ s) (.event (by simp))
  · exact .refuse _ _ s

theorem execShipStatusRecord_keepsSettings (levels : List Level) : KeepsSettings s (execShipStatusRecord levels s) := by
  unfold execShipStatusRecord
  split
  · exact .eventIf (by simp)
  · exact .stay s

theorem execAnnounceReceived_keepsSettings : KeepsSettings s (execAnnounceReceived s) := by
  unfold execAnnounceReceived
  split
  · refine .event ?_
    split <;> simp [takeAnnounce]
  · exact .stay s

theorem execReserveReceived_keepsSettings (levels : SlotLevels) : KeepsSettings s (execReserveReceived levels s) := by
  unfold execReserveReceived
  split
  · refine .event ?_
    unfold takeReserve
    split_ifs <;> simp
  · exact .stay s

theorem execWithdrawReceived_keepsSettings : KeepsSettings s (execWithdrawReceived s) := by
  unfold execWithdrawReceived
  split
  · refine .event ?_
    split <;> simp [takeWithdraw]
  · exact .stay s

theorem execCollidedTransmissionEnd_keepsSettings : KeepsSettings s (execCollidedTransmissionEnd s) := by
  unfold execCollidedTransmissionEnd
  split
  · exact .eventIf (by simp)
  · exact .stay s

theorem execOwnSlotEnd_keepsSettings (levels : SlotLevels) : KeepsSettings s (execOwnSlotEnd levels s) := by
  unfold execOwnSlotEnd
  split
  · exact .event (by simp)
  · exact .stay s

theorem execReservedFieldAgeStep_keepsSettings (a : Address) : KeepsSettings s (execReservedFieldAgeStep a s) := by
  unfold execReservedFieldAgeStep
  split
  · exact .eventIf (by simp)
  · exact .stay s

theorem execComputationComplete_keepsSettings : KeepsSettings s (execComputationComplete s) := by
  unfold execComputationComplete
  split
  · exact .event (by rw [completeComputation_lib])
  · exact .stay s

theorem execReferenceWordEnd_keepsSettings : KeepsSettings s (execReferenceWordEnd s) := by
  unfold execReferenceWordEnd
  split
  · exact .stay s
  · refine .next ?_
    split <;> rfl

theorem execStatusRecordGapEnd_keepsSettings : KeepsSettings s (execStatusRecordGapEnd s) := by
  refine .ite (.next ?_) (.stay s)
  split <;> rfl

theorem execRampTick_keepsSettings : KeepsSettings s (execRampTick s) := by
  refine .eventIf ?_
  dsimp only
  split_ifs
  · rw [(rampUp_sequencerFrame _).lib]; rfl
  · rw [(rampDown_sequencerFrame _).lib]; rfl
  · rfl

theorem execSyncWindowExpiry_keepsSettings : KeepsSettings s (execSyncWindowExpiry s) := by
  refine .eventIf ?_
  dsimp only
  split <;> simp

theorem execParallelLimitExpiry_keepsSettings : KeepsSettings s (execParallelLimitExpiry s) := by
  refine .eventIf ?_
  dsimp only
  split <;> simp

/-- No command but RESET and LOAD_STATION changes the settings of a line (R158). -/
theorem exec_keepsSettings {c : Instr} (hreset : c ≠ .reset) (hload : ∀ r, c ≠ .loadStation r) :
    KeepsSettings s (exec c s) := by
  cases c with
  | reset => exact absurd rfl hreset
  | loadStation r => exact absurd rfl (hload r)
  | loadProfile p => exact .ite (.refuse _ _ s) (.ite (.next rfl) (.refuse _ _ s))
  | loadPeriod i k e => exact execLoadPeriod_keepsSettings s i k e
  | setScheduleMode m => exact execSetScheduleMode_keepsSettings s m
  | start => exact .ite (.refuse _ _ s) (.ite (.refuse _ _ s) (.event (by simp)))
  | readStatus => exact .next rfl
  | latch => exact execLatch_keepsSettings s
  | readSnapshot => exact execReadSnapshot_keepsSettings s
  | readPeer a => exact execReadPeer_keepsSettings s a
  | clearTrip => exact .ite (.refuse _ _ s) (.ite (.refuse _ _ s) (.ite (.event (by simp)) (.refuse _ _ s)))
  | forgetPeer a => exact execForgetPeer_keepsSettings s a
  | berthHold v => exact execBerthHold_keepsSettings s v
  | probe w => exact .ite (.refuse _ _ s) (.ite (.next rfl) (.refuse _ _ s))
  | transactionNotTaken bytes => exact .stay s
  | lineInitialSettle levels => exact .ite (.next rfl) (.stay s)
  | lineSampling levels => exact .ite (.stay s) (.next rfl)
  | pilotProven => exact .line rfl rfl (plugProven_lib _)
  | pilotLost => exact .line rfl rfl ((pilotGone_lib _).trans (linkIdle_lib _))
  | auxReadsClosed => exact .line rfl rfl (auxClosure_sequencerFrame _).lib
  | auxReadsOpen => exact .line rfl rfl (auxOpening_sequencerFrame _).lib
  | estopChange v => exact .eventIf rfl
  | feederWarningChange v => exact .line rfl rfl (warningChange_sequencerFrame _ v).lib
  | plugCodeLineChange n v => exact .ite (.next rfl) (.stay s)
  | tariffAdvance | tariffRestart => exact .line rfl rfl (changeSchedule_lib _ _)
  | tariffSelectChange n v => exact .line rfl (qualifySelects_settings _) (changeSchedule_lib _ _)
  | edgeLineSettled l => exact .ite (.next rfl) (.stay s)
  | shipStatusRecord levels => exact execShipStatusRecord_keepsSettings s levels
  | meterSample | receivedTransmissionEnd => exact .eventIf (by simp)
  | announceReceived => exact execAnnounceReceived_keepsSettings s
  | reserveReceived levels => exact execReserveReceived_keepsSettings s levels
  | withdrawReceived => exact execWithdrawReceived_keepsSettings s
  | attemptStart | collision => exact .eventIf (by simp)
  | collidedTransmissionEnd => exact execCollidedTransmissionEnd_keepsSettings s
  | ownSlotEnd levels => exact execOwnSlotEnd_keepsSettings s levels
  | announceTimerExpiry | listenExpiry => exact .eventIf (by simp)
  | holdExpiry => exact .eventIf (by rw [(settleHold_sequencerFrame _).lib, State.mapTmb_lib])
  | breakerTimerExpiry => exact .eventIf (by rw [(breakerExpired_sequencerFrame _ _).lib, stopBreaker_lib])
  | syncWindowExpiry => exact execSyncWindowExpiry_keepsSettings s
  | parallelLimitExpiry => exact execParallelLimitExpiry_keepsSettings s
  | rampTick => exact execRampTick_keepsSettings s
  | inrushExpiry | vesselLinkTimeout | linkLossTripExpiry | overdrawExpiry => exact .eventIf (by simp)
  | reserveBackoffExpiry | meterStaleExpiry => exact .eventIf rfl
  | silentAgeingStep a => exact .eventIf (by rw [putEntry_lib])
  | reservedFieldAgeStep a => exact execReservedFieldAgeStep_keepsSettings s a
  | computationComplete => exact execComputationComplete_keepsSettings s
  | referenceWordEnd => exact execReferenceWordEnd_keepsSettings s
  | statusIntervalReached => exact .ite (.next rfl) (.stay s)
  | statusRecordGapEnd => exact execStatusRecordGapEnd_keepsSettings s
  | transmissionBegins => exact .next rfl
  | berthStatusRecordEnd => exact .ite (.next rfl) (.stay s)

end

/-! ### The level kinds -/

theorem LevelKinds.of_settings {s t : State} (h : LevelKinds s) (ht : t.lib.settings = s.lib.settings) :
    LevelKinds t := by
  unfold LevelKinds
  rw [ht]
  exact h

/-- The settings that a station record gives have level kinds on the level lines (R191). -/
theorem levelKinds_of_settingsOf {t : State} {r : StationRecord} (ht : t.lib.settings = settingsOf r) :
    LevelKinds t := by
  intro c hc
  rw [ht] at hc
  simp only [settingsOf, List.mem_cons, List.not_mem_nil, or_false] at hc
  rcases hc with rfl | rfl | rfl | rfl | rfl | rfl | rfl | rfl | rfl | rfl | rfl | rfl <;> exact levelKindOf_level _

theorem execLoadStation_levelKinds {s t : State} (r : StationRecord) (h : LevelKinds s)
    (he : execLoadStation r s = .next t) : LevelKinds t := by
  unfold execLoadStation at he
  split_ifs at he
  · exact h.of_settings (KeepsSettings.refuse _ _ s t he)
  · exact levelKinds_of_settingsOf (r := r) (Host.Outcome.next.inj he ▸ rfl)
  · exact h.of_settings (KeepsSettings.refuse _ _ s t he)

/-- RESET gives the reset configuration, LOAD_STATION one of a station record, and every other command keeps the kinds. -/
theorem exec_levelKinds {c : Instr} {s t : State} (h : LevelKinds s) (he : exec c s = .next t) : LevelKinds t := by
  by_cases hreset : c = .reset
  · subst hreset
    have hlevel : LevelKinds State.reset := by decide
    exact Host.Outcome.next.inj he ▸ hlevel
  by_cases hload : ∃ r, c = .loadStation r
  · obtain ⟨r, rfl⟩ := hload
    exact execLoadStation_levelKinds r h he
  · exact h.of_settings (exec_keepsSettings s hreset (fun r hr => hload ⟨r, hr⟩) t he)

/-- Settles O55: a step is a command, which keeps the level kinds, or a bit time, which leaves the lines. -/
theorem everyStepKeepsTheLevelKinds : Obligations.EveryStepKeepsTheLevelKinds := by
  intro s t h he
  unfold step at he
  split at he
  · exact Host.Outcome.next.inj he ▸ h
  · rename_i c rest _
    exact exec_levelKinds (s := { s with pending := rest }) h he

end Sys2Proof.Machine

/-! SUPPORT. The Line Input Block line by line: the boundaries, the completion of a qualification and its event, and the
commands of the lines in CONFIG; and the statements about them. -/

namespace Sys2Proof.Machine

/-! ### Reading one line -/

/-- What is worked out for every line is, for one line, what is worked out from its own parts. -/
@[simp] theorem get_zipWith_line {α β γ : Type} (f : α → β → γ) (p : PerLine α) (q : PerLine β) (l : Line) :
    (PerLine.zipWith f p q).get l = f (p.get l) (q.get l) := by
  cases l with
  | pcode n | tsel n => fin_cases n <;> rfl
  | pilot | estop | bkaux | fdrwarn | tadv | trst => rfl

/-! ### Boundaries -/

/-- A boundary for one line, field by field (R154). -/
theorem LineState.sample_eq (boundary : Nat) (l : LineState) (level : Bool) :
    l.sample boundary level =
      { l with
        sampled := level
        qual := if level = l.settled then none
                else if ∃ q ∈ l.qual, q.level = level then l.qual
                else some { level := level, marked := boundary } } := by
  unfold LineState.sample
  split_ifs with hsettled hruns
  · rfl
  · obtain ⟨q, hq, hlevel⟩ := hruns
    simp_all
  · cases hq : l.qual <;> simp_all

/-- A boundary for one entry of the table (R47, R66). -/
theorem countBoundary_entry (s : State) (a : Address) : (countBoundary s).pvt[a] = s.pvt[a].tick := by
  rw [countBoundary_frame]
  simp

theorem execLineInitialSettle_first {levels : PerLine Bool} {s : State} (h : s.tmb.boundary = 0) :
    execLineInitialSettle levels s =
      .next ((countBoundary s).mapLib fun b =>
        { b with lines := PerLine.zipWith LineState.firstSample b.settings levels }) := if_pos h

theorem execLineInitialSettle_later {levels : PerLine Bool} {s : State} (h : s.tmb.boundary ≠ 0) :
    execLineInitialSettle levels s = .next s := if_neg h

theorem execLineSampling_first {levels : PerLine Bool} {s : State} (h : s.tmb.boundary = 0) :
    execLineSampling levels s = .next s := if_pos h

theorem execLineSampling_later {levels : PerLine Bool} {s : State} (h : s.tmb.boundary ≠ 0) :
    execLineSampling levels s =
      .next ((countBoundary s).mapLib fun b =>
        { b with lines := PerLine.zipWith (LineState.sample (s.tmb.boundary + 1)) b.lines levels }) := if_neg h

/-- Settles O16: each command acts at its own boundaries only, where it gives every line its sample beside the counts. -/
theorem boundarySamplesTheLinesAndCountsTheTimers : Obligations.BoundarySamplesTheLinesAndCountsTheTimers := by
  intro levels s
  refine ⟨fun h => ⟨_, execLineInitialSettle_first h, rfl, rfl, fun l => ?_⟩,
    fun h => ⟨s, execLineInitialSettle_later h, rfl⟩, fun h => ⟨s, execLineSampling_first h, rfl⟩,
    fun h => ⟨_, execLineSampling_later h, rfl, rfl, fun l => ?_⟩, ⟨rfl, rfl, rfl, fun a => ?_, rfl⟩,
    fun n i => ⟨rfl, rfl⟩⟩
  · exact get_zipWith_line _ _ _ l
  · exact (get_zipWith_line _ _ _ l).trans (LineState.sample_eq _ _ _)
  · exact countBoundary_entry s a

/-! ### The completion of a qualification -/

/-- A qualification completes at the boundary its delay after the marked one, and not before (R154). -/
theorem State.lineDue_iff (s : State) (l : Line) (v : Bool) :
    s.lineDue l v = true ↔
      ∃ q ∈ (s.lib.lines.get l).qual, q.level = v ∧ q.marked + (s.lib.settings.get l).delay ≤ s.tmb.boundary := by
  unfold State.lineDue LineState.completes
  cases (s.lib.lines.get l).qual <;> simp

/-- A line settles at its new level, and every other stays (R154, R155). -/
theorem settleLine_get (l m : Line) (v : Bool) (s : State) :
    (settleLine l v s).lib.lines.get m =
      if m = l then (s.lib.lines.get l).settleTo (s.lib.settings.get l) v else s.lib.lines.get m :=
  get_set_line _ _ _ _

/-- The level at which a level line has a qualified state (R153). -/
theorem LineKind.levelFor_eq (k : LineKind) (v : Bool) : k.levelFor v = if k = .levelLow then !v else v := by
  cases k <;> rfl

theorem LineKind.isEvent_iff (k : LineKind) (v : Bool) :
    k.isEvent v = true ↔ (k = .rising ∧ v = true) ∨ (k = .falling ∧ v = false) ∨ k = .anyEdge := by
  cases k <;> simp [LineKind.isEvent]

theorem LineKind.activeAt_iff (k : LineKind) (v : Bool) :
    k.activeAt v = true ↔ (k = .levelHigh ∧ v = true) ∨ (k = .levelLow ∧ v = false) := by
  cases k <;> simp [LineKind.activeAt]

/-- The event of an edge line is a completion that matches its kind (R156). -/
theorem State.edgeDue_iff (s : State) (l : Line) :
    s.edgeDue l = true ↔
      s.lineDue l (s.nextLevel l) = true ∧ (s.lib.settings.get l).kind.isEvent (s.nextLevel l) = true :=
  Bool.and_eq_true_iff

/-! ### The select lines qualified together -/

/-- A line after its qualification has completed at a boundary, and as it was where none has. -/
def LineState.qualified (c : LineSetting) (boundary : Nat) (l : LineState) : LineState :=
  if l.completes c boundary (!l.settled) then l.settleTo c (!l.settled) else l

section
variable (s : State)

@[simp] theorem qualifySelect_settings (n : Fin 4) : (qualifySelect n s).lib.settings = s.lib.settings := by
  rw [qualifySelect_frame]

@[simp] theorem qualifySelect_tmb (n : Fin 4) : (qualifySelect n s).tmb = s.tmb := by
  rw [qualifySelect_frame]

/-- One select line is qualified, and every other line stays. -/
theorem qualifySelect_get (n : Fin 4) (m : Line) :
    (qualifySelect n s).lib.lines.get m =
      if m = .tsel n then (s.lib.lines.get m).qualified (s.lib.settings.get m) s.tmb.boundary
      else s.lib.lines.get m := by
  unfold qualifySelect LineState.qualified State.lineDue State.nextLevel
  by_cases hm : m = .tsel n
  · subst hm
    split <;> simp [settleLine_get]
  · split <;> simp [settleLine_get, hm]

/-- Each of the four is qualified as it stood before the first of them was (R116). -/
theorem qualifySelects_get (m : Line) :
    (qualifySelects s).lib.lines.get m =
      if ∃ n, m = .tsel n then (s.lib.lines.get m).qualified (s.lib.settings.get m) s.tmb.boundary
      else s.lib.lines.get m := by
  unfold qualifySelects
  cases m with
  | tsel n => fin_cases n <;> simp [qualifySelect_get]
  | pilot | pcode | estop | bkaux | fdrwarn | tadv | trst => simp [qualifySelect_get]

end

/-! ### The commands of the lines -/

section
variable {s : State}

theorem execPlugCodeLineChange_due {n : Fin 4} {v : Bool} (h : s.changeDue (.pcode n) v = true) :
    execPlugCodeLineChange n v s = .next (settleActive (.pcode n) v s) := if_pos h

theorem execPlugCodeLineChange_notDue {n : Fin 4} {v : Bool} (h : s.changeDue (.pcode n) v = false) :
    execPlugCodeLineChange n v s = .next s := if_neg (by simp [h])

/-- A completion that does not match the kind settles its line. -/
theorem execEdgeLineSettled_due {e : EdgeLine} (hdue : s.lineDue (edgeLineOf e) (s.nextLevel (edgeLineOf e)) = true)
    (hevent : s.edgeDue (edgeLineOf e) = false) :
    execEdgeLineSettled e s = .next (settleLine (edgeLineOf e) (s.nextLevel (edgeLineOf e)) s) := by
  have hkind : (s.lib.settings.get (edgeLineOf e)).kind.isEvent (s.nextLevel (edgeLineOf e)) = false := by
    simpa [State.edgeDue, hdue] using hevent
  exact if_pos (by simp [hdue, hkind])

/-- A qualification that runs on, or completes in an event, is none of EDGE_LINE_SETTLED. -/
theorem execEdgeLineSettled_notDue {e : EdgeLine}
    (h : s.lineDue (edgeLineOf e) (s.nextLevel (edgeLineOf e)) = false ∨ s.edgeDue (edgeLineOf e) = true) :
    execEdgeLineSettled e s = .next s := by
  refine if_neg ?_
  rcases h with hdue | hevent
  · simp [hdue]
  · simp [((s.edgeDue_iff _).1 hevent).2]

/-- In CONFIG the event of a line does no more than settle it: the condition under which a block follows needs LISTEN or
RUN (R2, R118). -/
theorem eventIf_line_config {c b : Bool} {f : State → State} {u v : State} (hc : c = true)
    (hf : f s = if b then v else u) (hb : b = false) (hu : u.started = false) : eventIf c f s = .next u := by
  rw [eventIf_true s hc, hf, hb]
  exact congrArg _ (settle_config s u hu)

theorem State.takesTariff_config {m : ScheduleMode} (h : s.started = false) : s.takesTariff m = false := by
  simp [State.takesTariff, h]

end

/-- Settles O17: the completion and its reading by kind, what settling a line reaches, each command where its line is not
due, and each in CONFIG. -/
theorem qualifiedChangeSettlesItsLine : Obligations.QualifiedChangeSettlesItsLine := by
  intro s
  refine ⟨fun l v => ⟨s.lineDue_iff l v, ?_, ?_, rfl, ?_, LineKind.activeAt_iff _ v⟩,
    fun m => ⟨?_, qualifySelects_settings s, ?_⟩, fun l m v => ⟨rfl, rfl, ?_⟩,
    fun n v h => ⟨_, execPlugCodeLineChange_due h, rfl⟩, fun n v h => ⟨_, execPlugCodeLineChange_notDue h, rfl⟩,
    fun e hdue hevent => ⟨_, execEdgeLineSettled_due hdue hevent, rfl⟩,
    fun e h => ⟨_, execEdgeLineSettled_notDue h, rfl⟩,
    fun h => eventIf_false s h _, fun h => eventIf_false s h _, fun h => eventIf_false s h _,
    fun h => eventIf_false s h _, fun v h => eventIf_false s h _, fun v h => eventIf_false s h _,
    fun n v h => eventIf_false s h _, fun h => eventIf_false s h _, fun h => eventIf_false s h _, fun hconfig => ?_⟩
  · rw [State.changeDue, LineKind.levelFor_eq]
  · rw [settleActive, LineKind.levelFor_eq]
  · rw [s.edgeDue_iff, LineKind.isEvent_iff]
  · rw [qualifySelects_frame]
  · rw [qualifySelects_get, ite_and]
    rfl
  · exact settleLine_get l m v s
  · have hs : s.started = false := by simp [State.started, hconfig]
    have hline (l : Line) (v : Bool) : (settleLine l v s).started = false := hs
    have hlevel (l : Line) (v : Bool) : (settleActive l v s).started = false := hs
    have hselects (n : Fin 4) (v : Bool) : (qualifySelects (settleActive (.tsel n) v s)).started = false := by
      rw [qualifySelects_frame]
      exact hs
    exact ⟨fun h => eventIf_line_config h rfl (by simp [hlevel]) (hlevel _ _),
      fun h => eventIf_line_config h rfl (hlevel _ _) (hlevel _ _),
      fun h => eventIf_line_config h rfl (hlevel _ _) (hlevel _ _),
      fun h => eventIf_line_config h rfl (hlevel _ _) (hlevel _ _),
      fun v h => (eventIf_true s h _).trans (congrArg _ (settle_config s _ (hlevel _ _))),
      fun v h => eventIf_line_config h rfl (hlevel _ _) (hlevel _ _),
      fun n v h => eventIf_line_config h rfl (State.takesTariff_config (hselects n v)) (hselects n v),
      fun h => eventIf_line_config h rfl (State.takesTariff_config (hline _ _)) (hline _ _),
      fun h => eventIf_line_config h rfl (State.takesTariff_config (hline _ _)) (hline _ _)⟩

end Sys2Proof.Machine

/-! SUPPORT. The meter word as a number, a sample and the staleness of the meter; and the statement about them. -/

namespace Sys2Proof.Machine

/-! ### The meter word -/

/-- One bit more is the least significant one (R159). -/
theorem drawOf_append (bits : List Bool) (b : Bool) : drawOf (bits ++ [b]) = 2 * drawOf bits + b.toNat := by
  simp [drawOf]

/-- The bits of a number, the most significant first, read as a word give the number. -/
theorem drawOf_bits (n d : Nat) : drawOf ((List.range n).map fun i => d.testBit (n - 1 - i)) = d % 2 ^ n := by
  induction n generalizing d with
  | zero => simp [drawOf, Nat.mod_one]
  | succ n ih =>
    have hhigh : ((List.range n).map fun i => d.testBit (n + 1 - 1 - i)) =
        (List.range n).map fun i => (d / 2).testBit (n - 1 - i) := by
      refine List.map_congr_left fun i hi => ?_
      have hi : i < n := List.mem_range.1 hi
      rw [← Nat.testBit_succ]
      congr 1
      omega
    have hlow : (d.testBit (n + 1 - 1 - n)).toNat = d % 2 := by
      rw [Nat.add_sub_cancel, Nat.sub_self, Nat.toNat_testBit, Nat.pow_zero, Nat.div_one]
    rw [List.range_succ, List.map_append, List.map_singleton, drawOf_append, hhigh, ih, hlow, Nat.pow_succ',
      Nat.mod_mul, Nat.add_comm]

/-- Sixteen bits, bit 15 first, are the draw (R159). -/
theorem drawOf_word {d : Nat} (h : d < 65536) : drawOf ((List.range 16).map fun i => d.testBit (15 - i)) = d :=
  (drawOf_bits 16 d).trans (Nat.mod_eq_of_lt h)

/-! ### Samples and staleness -/

section
variable {s : State}

/-- In LISTEN and RUN a sample makes the meter fresh and runs the meter-stale timer whole (R160). -/
theorem takeSample_started (d : Nat) (h : s.started = true) :
    takeSample d s =
      { s with
        mtp := { s.mtp with draw := some d, stale := false }
        tmb := { s.tmb with meterStale := Timer.start s.station.meterStaleInterval } } := if_pos h

/-- In CONFIG a sample is the draw and nothing else. -/
theorem takeSample_config (d : Nat) (h : s.started = false) :
    takeSample d s = { s with mtp := { s.mtp with draw := some d } } :=
  if_neg (by simp [h])

/-- A word of sixteen bits is an event, in which the sample is the number that it spells. -/
theorem execMeterSample_word {d : Nat} (h : d < 65536) (s : State) :
    execMeterSample ((List.range 16).map fun i => d.testBit (15 - i)) s = event (takeSample d) s := by
  unfold execMeterSample
  rw [drawOf_word h]
  exact if_pos (by simp [Config.meterClocks])

theorem execMeterSample_other {bits : List Bool} (h : bits.length ≠ 16) (s : State) :
    execMeterSample bits s = .next s :=
  eventIf_false s (by simpa [Config.meterClocks] using h) _

end

/-- Settles O28: a word of sixteen bits is taken as the number it spells, and the expiry marks the meter stale; neither
moves a trip condition. -/
theorem meterSamplesAndTheirStaleness : Obligations.MeterSamplesAndTheirStaleness := by
  intro s
  refine ⟨fun d hs hc hd => ?_, fun d hs hd => ?_, fun bits h => execMeterSample_other h s, fun hs hc hdue => ?_,
    fun h => eventIf_of_not_due h, rfl⟩
  · have htaken := completesAs_of_event (c := .meterSample _) s (execMeterSample_word hd s)
    rw [takeSample_started d hs] at htaken
    exact htaken hs hc
  · have hconfig : (takeSample d s).started = false := by rw [takeSample_config d hs]; exact hs
    exact (execMeterSample_word hd s).trans
      (by rw [event_eq, settle_config _ _ hconfig, takeSample_config d hs])
  · exact TakenAs.completes_of_due rfl hdue rfl (.of_calm hs hc)

end Sys2Proof.Machine

/-! SUPPORT. A cause that is taken, in TRIPPED and outside it; and the statement about it. -/

namespace Sys2Proof.Machine

section
variable {s : State} {c : TripCause} {r : TripRecord}

/-- A cause that is there already changes nothing (R169). -/
theorem addLater_present (hr : s.tru.record = some r) (h : r.later.has c = true) : addLater c s = s := by
  simp [addLater, hr, h]

/-- A cause that is not there joins the later causes and raises the trip reason (R169, R174). -/
theorem addLater_absent (hr : s.tru.record = some r) (h : r.later.has c = false) :
    addLater c s =
      { s with
        tru := { s.tru with record := some { r with later := r.later.add c } }
        svp := { s.svp with attention := { s.svp.attention with trip := true }, attn := true } } := by
  simp only [addLater, hr, h]
  rfl

/-- The berth as a cause outside TRIPPED has filled its record and raised the trip reason (R169, R174). -/
def State.recorded (c : TripCause) (s : State) : State :=
  { s with
    tru := { s.tru with record := some (s.newRecord c) }
    svp := { s.svp with attention := { s.svp.attention with trip := true }, attn := true } }

/-- Outside TRIPPED a cause starts a trip, which is carried out in the same event (R26, R169). -/
theorem takeCause_untripped (h : s.bsq.phase ≠ .tripped) : takeCause c s = carryOutTrip false (s.recorded c) := if_neg h

/-- While a trip is carried out the breaker timer goes on serving what is not a close (R4, R26). -/
theorem tripping_serving_eq (s : State) :
    s.tripping.bsq.serving = if s.bsq.serving = some .close then none else s.bsq.serving := rfl

/-- With the aux closed and no open or pulse served the open is commanded (R3, R26). -/
theorem carryOutTrip_opens (ha : s.auxClosed = true) (h : s.bsq.serving = some .close ∨ s.bsq.serving = none) :
    carryOutTrip false s = commandOpen s.tripping := by
  have hidle : s.tripping.bsq.serving = none := by
    rw [tripping_serving_eq]
    rcases h with h | h <;> simp [h]
  rw [carryOutTrip_eq, if_pos ha, hidle]
  rfl

/-- With the aux closed an open or the reset pulse that is served runs on, with BKOPEN asserted (R4, R26). -/
theorem carryOutTrip_runs_on (ha : s.auxClosed = true) (hc : s.bsq.serving ≠ some .close) (hn : s.bsq.serving ≠ none) :
    carryOutTrip false s = s.tripping.mapBsq fun b => { b with bkOpen := true } := by
  have hserving : s.tripping.bsq.serving.isSome = true := by
    rw [tripping_serving_eq, if_neg hc]
    exact Option.isSome_iff_ne_none.2 hn
  rw [carryOutTrip_eq, if_pos ha, if_neg nofun, if_pos hserving]

/-- With the aux open the open is confirmed at once (R26, R27). -/
theorem carryOutTrip_confirms (ha : s.auxClosed = false) : carryOutTrip false s = confirmOpen s.tripping := by
  rw [carryOutTrip_eq, if_neg (by simp [ha])]

end

/-- Settles O15: in TRIPPED a cause is a later one, and outside it the aux and what the breaker timer serves decide how
the trip is carried out. -/
theorem tripIsCarriedOutInOneEvent : Obligations.TripIsCarriedOutInOneEvent := by
  intro c s
  refine ⟨fun r hr hp h => ?_, fun r hr hp h => ?_, fun hp => ?_⟩
  · rw [takeCause_of_tripped hp, addLater_present hr h]
  · rw [takeCause_of_tripped hp, addLater_absent hr h]
  · intro record p stopped q
    have hq : (s.recorded c).tripping = q := by
      have hserving : p.bsq.serving = s.bsq.serving :=  by
        change (setPhase .tripped (s.recorded c)).bsq.serving = _
        rw [setPhase_bsq]
        rfl
      have hbreaker : p.tmb.breaker = s.tmb.breaker := setPhase_breaker (s.recorded c) .tripped
      unfold q
      rw [hserving, hbreaker]
      rfl
    have hstation : q.station = s.station := (setPhase_sequencerFrame (s.recorded c) .tripped).station_eq
    rw [takeCause_untripped hp, ← hstation, ← hq]
    exact ⟨fun ha h => carryOutTrip_opens (s := s.recorded c) ha h,
      fun ha hc hn => carryOutTrip_runs_on (s := s.recorded c) ha hc hn,
      fun ha => carryOutTrip_confirms (s := s.recorded c) ha⟩

end Sys2Proof.Machine

/-! SUPPORT. The e-stop and the feeder warning changed: the statement about them. -/

namespace Sys2Proof.Machine

section
variable {s : State}

theorem settleActive_estop (h : LevelKinds s) (v : Bool) : (settleActive .estop v s).estopActive = v :=
  activeAt_levelFor (h s.lib.settings.estop (by simp)) v

/-- ESTOP settled inactive leaves no condition that did not stand before (R168). -/
theorem settleActive_estop_false_calm (hc : s.calm = true) (hk : LevelKinds s) :
    (settleActive .estop false s).calm = true := by
  refine State.calm_mono hc (fun he => ?_) id rfl rfl
  simp [State.estopCondition, settleActive_estop hk] at he

/-- In VACANT no e-stop is a trip condition (R168). -/
theorem settleActive_estop_vacant_calm (hc : s.calm = true) (hp : s.bsq.phase = .vacant) (v : Bool) :
    (settleActive .estop v s).calm = true :=
  State.calm_mono hc (fun he => absurd hp ((State.estopCondition_iff _).1 he).2) id rfl rfl

/-- A feeder warning settled inactive leaves no condition that did not stand before (R168). -/
theorem settleActive_fdrwarn_false_calm (hc : s.calm = true) (hk : LevelKinds s) :
    (settleActive .fdrwarn false s).calm = true := by
  refine State.calm_mono hc id (fun hf => ?_) rfl rfl
  simp [State.feederCondition, settleActive_fdrwarn hk] at hf

/-- With the aux open a feeder warning is a trip condition in ENERGISING alone (R168). -/
theorem settleActive_fdrwarn_open_calm (hc : s.calm = true) (ha : s.auxClosed = false) (hp : s.bsq.phase ≠ .energising)
    (v : Bool) : (settleActive .fdrwarn v s).calm = true := by
  refine State.calm_mono hc id (fun hf => ?_) rfl rfl
  exact absurd ((State.feederCondition_iff _).1 hf).2 (not_or.2 ⟨hp, Bool.not_eq_true _ ▸ ha⟩)

/-- A warning returns a queued berth to PLUGGED (R11). -/
theorem warningChange_queued (h : s.bsq.phase = .queued) : warningChange true s = enterPlugged s := if_pos h

/-- In every other phase the sequencer does nothing with a warning of its own. -/
theorem warningChange_not_queued (h : s.bsq.phase ≠ .queued) : warningChange true s = s := if_neg h

/-- A berth in PLUGGED under a warning stays there (R10). -/
theorem State.entered_of_warning (h : s.warningActive = true) : s.entered = s := by
  refine if_neg fun hcond => ?_
  obtain ⟨-, -, -, -, -, -, -, -, -, hw⟩ := hcond
  exact absurd (h.symm.trans hw) nofun

/-- A queued berth with the aux open is back in PLUGGED under the warning and stays there (R10, R11). -/
theorem enterPlugged_takenAs_of_warning (hs : s.started = true) (hc : s.calm = true) (hp : s.bsq.phase ≠ .vacant)
    (hw : s.warningActive = true) : TakenAs (enterPlugged s) (setPhase .plugged s) := by
  have h := enterPlugged_takenAs hs (setPhase_calm hc hp (next := .plugged) nofun)
  rwa [State.entered_of_warning ((setPhase_sequencerFrame s _).warningActive.trans hw)] at h

/-- The e-stop is held wherever it stands active, but in VACANT. -/
theorem State.estopHeld_of_calm (hc : s.calm = true) (hv : s.bsq.phase = .vacant → s.estopActive = false)
    (he : s.estopActive = true) : s.tru.estopHeld = true :=
  (s.calm_iff.1 hc).1 (s.estopCondition_iff.2 ⟨he, fun hp => absurd (he.symm.trans (hv hp)) nofun⟩)

end

/-- Settles O21: the line settles, the sequencer takes a warning by its phase, and the conditions behind trips are judged
after it. -/
theorem estopAndFeederWarningTripOrHoldBack : Obligations.EstopAndFeederWarningTripOrHoldBack := by
  intro s hs hc hk
  have hestop {v : Bool} {w : State} (hd : s.changeDue .estop v = true) (h : TakenAs (settleActive .estop v s) w) :
      CompletesAs (.estopChange v) s w := TakenAs.completes_of_if rfl hd rfl h
  have hwarning {v : Bool} {u w : State} (hd : s.changeDue .fdrwarn v = true)
      (hu : warningChange v (settleActive .fdrwarn v s) = u) (h : TakenAs u w) :
      CompletesAs (.feederWarningChange v) s w := TakenAs.completes_of_if rfl hd ((if_pos hs).trans hu) h
  refine ⟨fun hd => hestop hd (.of_calm hs (settleActive_estop_false_calm hc hk)),
    fun hd hp => hestop hd (.of_calm hs (settleActive_estop_vacant_calm hc hp true)), fun hd hp hh => ?_,
    fun hd => ⟨fun hp => ?_, fun hp => ?_⟩, fun hd => ⟨fun ⟨hp, ha⟩ => ?_, fun hp hh hv => ?_, fun ⟨hq, he, ha⟩ => ?_⟩⟩
  · have hfeeder (hw : s.warningActive = true) (ha : s.auxClosed = true) : s.tru.feederHeld = true :=
      (s.calm_iff.1 hc).2 (s.feederCondition_iff.2 ⟨hw, .inr ha⟩)
    exact hestop hd ⟨hs, _, _, tripsTaken_estop (settleActive_estop hk true) hp hh hfeeder⟩
  · exact hwarning hd (evaluateEntry_eq_entered hp) (entered_takenAs hs (settleActive_fdrwarn_false_calm hc hk) hp)
  · exact hwarning hd (evaluateEntry_of_not_plugged hp) (.of_calm hs (settleActive_fdrwarn_false_calm hc hk))
  · have hcalm := settleActive_fdrwarn_open_calm hc ha (by simp [hp]) true
    exact hwarning hd (warningChange_queued hp)
      (enterPlugged_takenAs_of_warning hs hcalm (fun hv => nomatch hp.symm.trans hv) (settleActive_fdrwarn hk true))
  · have hnq : s.bsq.phase ≠ .queued := hp.elim (fun h => by simp [h]) And.left
    have hstands : (settleActive .fdrwarn true s).feederCondition = true :=
      (State.feederCondition_iff _).2 ⟨settleActive_fdrwarn hk true, hp.imp_right And.right⟩
    exact hwarning hd (warningChange_not_queued hnq)
      ⟨hs, _, _, tripsTaken_feeder hstands hh (State.estopHeld_of_calm (s := s) hc hv)⟩
  · exact hwarning hd (warningChange_not_queued hq) (.of_calm hs (settleActive_fdrwarn_open_calm hc ha he true))

end Sys2Proof.Machine

/-! SUPPORT. CLEAR_TRIP and BERTH_HOLD where they are accepted; and the statement about them. -/

namespace Sys2Proof.Machine

section
variable {s u : State}

/-! ### Where no condition stands -/

/-- With the e-stop and the feeder warning inactive no trip condition stands in any phase (R168). -/
theorem State.calm_of_inactive (hl : u.lib = s.lib) (he : s.estopActive = false) (hw : s.warningActive = false) :
    u.calm = true := by
  have hue : u.estopActive = false := by rwa [State.estopActive, hl]
  have huw : u.warningActive = false := by rwa [State.warningActive, hl]
  simp [State.calm, State.estopCondition, State.feederCondition, hue, huw]

/-- An answer after a calm effect ends as the answer alone, whatever has been remembered of the conditions. -/
theorem TakenAs.answered {e f : Bool} (hs : s.started = true) (hc : (s.remember e f).calm = true) (kind : Nat)
    (code : ResponseCode) (data : List Byte) :
    TakenAs (answer kind code data (s.remember e f)) (answer kind code data s) :=
  ⟨hs, e, f, State.tripsTaken_of_calm (answer kind code data (s.remember e f)) hc⟩

/-- PLUGGED entered with no condition newly true, the entry conditions evaluated and the conditions remembered. -/
theorem enterPlugged_of_calm (hc : (setPhase .plugged s).calm = true) :
    enterPlugged s =
      (setPhase .plugged s).entered.remember (setPhase .plugged s).estopCondition
        (setPhase .plugged s).feederCondition := by
  unfold enterPlugged
  rw [checkConditions_eq, State.tripsTaken_of_calm _ hc, evaluateEntry_remember,
    evaluateEntry_eq_entered (setPhase_phase s .plugged)]

/-! ### CLEAR_TRIP -/

theorem State.mayClear_iff (s : State) :
    s.mayClear = true ↔ s.auxClosed = false ∧ s.openConfirmed = true ∧ s.estopActive = false ∧ s.warningActive = false ∧
      ∀ d ∈ s.currentDraw, d ≤ s.figures.overdrawTolerance := by
  have hdraw : s.drawAllowsClear = true ↔ ∀ d ∈ s.currentDraw, d ≤ s.figures.overdrawTolerance := by
    unfold State.drawAllowsClear
    cases s.currentDraw <;> simp
  simp [State.mayClear, hdraw, and_assoc]

/-- A held record and conditions that allow it make CLEAR_TRIP an event (R176). -/
theorem execClearTrip_accepted (hs : s.started = true) (hr : s.tru.record.isSome = true) (h : s.mayClear = true) :
    exec .clearTrip s = .next (settle s (answer 10 .accepted [] (leaveTripped s))) := by
  have hnone : ¬s.tru.record.isNone = true := by simpa [Option.isSome_iff_ne_none] using hr
  change execClearTrip s = _
  rw [execClearTrip, if_neg (by simp [hs]), if_neg hnone, if_pos h, event_eq]

/-- The berth with its record emptied, no profile selected and the flags of a plug clear (R7, R29; log entry 9). -/
def State.cleared (s : State) : State :=
  { s with
    tru := { s.tru with record := none }
    bsq := { s.bsq with profileCode := none, noProfile := false, vesselMismatch := false, syncAbort := false,
                        parallelForced := false } }

/-- A held record that names another vessel than the slot of the plug code expects (R151). -/
def State.plugMismatch (s : State) : Bool :=
  s.vlp.held.any fun r => s.vlp.slots[s.plugCode].any fun p => p.expectedId.any (· != r.vesselId)

/-- The cleared berth with its plug read anew: the slot selected and a held record compared with it (R6, R151). -/
def State.replugged (s : State) : State :=
  { s.cleared with
    bsq := { s.cleared.bsq with
      profileCode := some s.plugCode, noProfile := s.vlp.slots[s.plugCode].isNone, vesselMismatch := s.plugMismatch } }

/-- The figures after a selection are those of the slot that the plug code names. -/
theorem selectProfile_figures (s : State) : (selectProfile s).figures = s.vlp.slots[s.plugCode].getD profileBlank := rfl

/-- Where the mismatch flag is clear, comparing a record sets it by the expected id of the slot (R151). -/
theorem compareVessel_selectProfile (r : ShipRecord) (h : s.bsq.vesselMismatch = false) :
    compareVessel r (selectProfile s) =
      (selectProfile s).mapBsq fun b =>
        { b with vesselMismatch := s.vlp.slots[s.plugCode].any fun p => p.expectedId.any (· != r.vesselId) } := by
  have hf := selectProfile_figures s
  have hself : (selectProfile s).mapBsq (fun b => { b with vesselMismatch := false }) = selectProfile s := by
    rw [← h]
    rfl
  cases hslot : s.vlp.slots[s.plugCode] with
  | none =>
    rw [hslot] at hf
    rw [compareVessel_of_none (by rw [hf]; rfl)]
    exact hself.symm
  | some p =>
    rw [hslot, Option.getD_some] at hf
    cases hid : p.expectedId with
    | none =>
      rw [compareVessel_of_none (by rw [hf, hid]), Option.any_some, hid]
      exact hself.symm
    | some id =>
      rw [compareVessel_of_some (by rw [hf, hid]), Option.any_some, hid, Option.any_some, bne_comm]
      rfl

/-- With no pilot an accepted clear leaves TRIPPED for VACANT (R29). -/
theorem leaveTripped_vacant (h : s.pilotActive = false) : leaveTripped s = setPhase .vacant (formClamps s.cleared) :=
  if_neg (by simp [h])

/-- With the pilot it reads the plug anew and enters PLUGGED (R29, R144). -/
theorem leaveTripped_plugged (h : s.pilotActive = true) : leaveTripped s = enterPlugged (formClamps s.replugged) := by
  have hheld : (selectProfile s.cleared).vlp.held = s.vlp.held := rfl
  have hcompared : (match (selectProfile s.cleared).vlp.held with
      | some r => compareVessel r (selectProfile s.cleared)
      | none => selectProfile s.cleared) = s.replugged := by
    rw [hheld]
    unfold State.replugged State.plugMismatch
    cases s.vlp.held with
    | none => rfl
    | some r => exact compareVessel_selectProfile r rfl
  rw [← hcompared]
  exact if_pos h

/-- The clamps formed and a phase entered leave the lines as they were, and a started station so. -/
theorem setPhase_formClamps_frame (next : Phase) (u : State) :
    (setPhase next (formClamps u)).lib = u.lib ∧ (setPhase next (formClamps u)).started = u.started := by
  have hf := setPhase_sequencerFrame (formClamps u) next
  refine ⟨hf.lib.trans (formClamps_lib u), hf.started.trans ?_⟩
  rw [State.started, formClamps_mode]
  rfl

/-! ### BERTH_HOLD -/

theorem holdSettingOf_eq {code : Nat} (h : code ≤ 1) : holdSettingOf code = some (decide (code = 1)) := by
  interval_cases code <;> rfl

/-- The setting in force is answered, and nothing else happens (R9, R180). -/
theorem execBerthHold_same {code : Nat} (hs : s.started = true) (h : code ≤ 1)
    (hh : s.bsq.hostHold = decide (code = 1)) : exec (.berthHold code) s = refuse 12 .accepted s := by
  change execBerthHold code s = _
  rw [execBerthHold, if_neg (by simp [hs]), holdSettingOf_eq h]
  exact if_pos hh.symm

/-- A new setting is stored, and the entry conditions are evaluated (R9, R10). -/
theorem execBerthHold_new {code : Nat} (hs : s.started = true) (h : code ≤ 1)
    (hh : s.bsq.hostHold ≠ decide (code = 1)) :
    exec (.berthHold code) s =
      .next (settle s (answer 12 .accepted []
        (evaluateEntry { s with bsq := { s.bsq with hostHold := decide (code = 1) } }))) := by
  change execBerthHold code s = _
  rw [execBerthHold, if_neg (by simp [hs]), holdSettingOf_eq h]
  exact if_neg (Ne.symm hh)

/-- Evaluating the entry conditions makes no trip condition newly true. -/
theorem evaluateEntry_calm (hc : s.calm = true) : (evaluateEntry s).calm = true := by
  by_cases hp : s.bsq.phase = .plugged
  · rw [evaluateEntry_eq_entered hp]
    exact State.entered_calm hc hp
  · rwa [evaluateEntry_of_not_plugged hp]

theorem evaluateEntry_eq_ite : evaluateEntry s = if s.bsq.phase = .plugged then s.entered else s := by
  split
  · exact evaluateEntry_eq_entered ‹_›
  · exact evaluateEntry_of_not_plugged ‹_›

end

/-- Settles O23: an accepted clear leaves TRIPPED by the pilot with no trip condition standing, and a new hold setting is
followed by the entry conditions. -/
theorem clearTripAndBerthHoldAccepted : Obligations.ClearTripAndBerthHoldAccepted := by
  intro s hs hc
  refine ⟨fun hr ha ho he hw hdraw => ?_, fun code h hh => execBerthHold_same hs h hh, fun code h hh => ?_⟩
  · intro d v q p
    have hx := execClearTrip_accepted hs hr (s.mayClear_iff.2 ⟨ha, ho, he, hw, hdraw⟩)
    have hcalm {t : State} (hl : t.lib = s.lib) : t.calm = true := State.calm_of_inactive hl he hw
    refine ⟨fun hp => ?_, fun hp => ?_⟩
    · have hleft : leaveTripped s = v := leaveTripped_vacant hp
      obtain ⟨hlib, hstarted⟩ := setPhase_formClamps_frame .vacant d
      exact TakenAs.completes (u := answer 10 .accepted [] v) (.of_calm (hstarted.trans hs) (hcalm hlib))
        (hx.trans (by rw [hleft]))
    · obtain ⟨hlib, hstarted⟩ := setPhase_formClamps_frame .plugged q
      obtain ⟨hframe, -, -⟩ := State.entered_frame (setPhase_phase (formClamps q) .plugged)
      obtain ⟨e, f, hleft⟩ : ∃ e f, leaveTripped s = p.remember e f :=
        ⟨_, _, (leaveTripped_plugged hp).trans (enterPlugged_of_calm (hcalm hlib))⟩
      have hpstarted : p.started = true := hframe.started.trans (hstarted.trans hs)
      have hpcalm : (p.remember e f).calm = true := hcalm (hframe.lib.trans hlib)
      exact (TakenAs.answered hpstarted hpcalm 10 .accepted []).completes (hx.trans (by rw [hleft]))
  · intro k e
    have hentered : evaluateEntry k = e := evaluateEntry_eq_ite
    have hstarted : e.started = true := hentered ▸ (evaluateEntry_sequencerFrame k).started.trans hs
    have hcalm : e.calm = true := hentered ▸ evaluateEntry_calm hc
    refine TakenAs.completes (u := answer 12 .accepted [] e) (.of_calm hstarted hcalm) ?_
    exact (execBerthHold_new hs h hh).trans (by rw [← hentered])

end Sys2Proof.Machine

/-! SUPPORT. The attention set and ATTN, operation by operation and command by command, in every station mode; and the
proof that ATTN follows the set through every step. A reason is raised by one operation, which asserts ATTN, and every
other operation but READ_STATUS and RESET leaves both. -/

namespace Sys2Proof.Machine

/-! ### What ATTN reads -/

/-- ATTN and the set are read in the service port alone. -/
theorem AttnFollows.of_svp {s t : State} (h : AttnFollows s) (ht : t.svp = s.svp) : AttnFollows t := by
  unfold AttnFollows
  rw [ht]
  exact h

/-- A reason raised asserts ATTN over a set that holds it, whatever both were before (R185, R187). -/
theorem raiseAttention_attnFollows (r : Reason) (s : State) : AttnFollows (raiseAttention r s) :=
  (AttentionSet.add_nonempty s.svp.attention r).symm

theorem ite_attnFollows {p : Prop} [Decidable p] {u v : State} (hu : AttnFollows u) (hv : AttnFollows v) :
    AttnFollows (if p then u else v) := by
  split
  · exact hu
  · exact hv

section
variable {s : State}

/-! ### The claim, the phase and the trips -/

theorem setPhase_attnFollows (next : Phase) (h : AttnFollows s) : AttnFollows (setPhase next s) :=
  h.of_svp (setPhase_svp s next)

theorem setClaim_attnFollows (firm flex transient : Nat) (h : AttnFollows s) :
    AttnFollows (setClaim firm flex transient s) := h.of_svp (setClaim_svp s firm flex transient)

theorem zeroClaim_attnFollows (h : AttnFollows s) : AttnFollows (zeroClaim s) :=
  setClaim_attnFollows (s := s.mapTmb fun t => { t with inrush := t.inrush.stop }) 0 0 0 h

theorem confirmOpen_attnFollows (h : AttnFollows s) : AttnFollows (confirmOpen s) :=
  zeroClaim_attnFollows (s := setConfirmed true s) h

theorem addLater_attnFollows (c : TripCause) (h : AttnFollows s) : AttnFollows (addLater c s) := by
  unfold addLater
  split
  · exact h
  · exact ite_attnFollows h (raiseAttention_attnFollows _ _)

theorem carryOutTrip_attnFollows (b : Bool) (h : AttnFollows s) : AttnFollows (carryOutTrip b s) := by
  have htrip : AttnFollows s.tripping := setPhase_attnFollows .tripped h
  rw [carryOutTrip_eq]
  exact ite_attnFollows (ite_attnFollows htrip (ite_attnFollows htrip htrip)) (confirmOpen_attnFollows htrip)

theorem startTrip_attnFollows (b : Bool) (c : TripCause) : AttnFollows (startTrip b c s) :=
  carryOutTrip_attnFollows b (raiseAttention_attnFollows _ _)

theorem takeCause_attnFollows (c : TripCause) (h : AttnFollows s) : AttnFollows (takeCause c s) :=
  ite_attnFollows (addLater_attnFollows c h) (startTrip_attnFollows false c)

theorem checkEstop_attnFollows (h : AttnFollows s) : AttnFollows (checkEstop s) :=
  ite_attnFollows (takeCause_attnFollows (s := s.mapTru fun t => { t with estopHeld := true }) _ h) h

theorem checkFeeder_attnFollows (h : AttnFollows s) : AttnFollows (checkFeeder s) :=
  ite_attnFollows (takeCause_attnFollows (s := s.mapTru fun t => { t with feederHeld := true }) _ h) h

theorem tripsTaken_attnFollows (h : AttnFollows s) : AttnFollows s.tripsTaken :=
  checkEstop_attnFollows (checkFeeder_attnFollows (checkEstop_attnFollows h))

/-- The end of an event raises a reason only by its trips. -/
theorem settle_attnFollows (before : State) (h : AttnFollows s) : AttnFollows (settle before s) := by
  cases hs : s.started
  · rwa [settle_config _ _ hs]
  · obtain ⟨-, -, -, -, -, -, -, -, -, -, -, -, hsvp, -⟩ := settle_ends s before hs
    exact (tripsTaken_attnFollows h).of_svp hsvp

theorem uncommandedClose_attnFollows (h : AttnFollows s) : AttnFollows (uncommandedClose s) :=
  have hclaim := setClaim_attnFollows s.station.stuckBreakerClaim 0 0 h
  ite_attnFollows (addLater_attnFollows .breakerUncommanded hclaim) (startTrip_attnFollows _ _)

/-! ### Passages between phases -/

theorem evaluateEntry_attnFollows (h : AttnFollows s) : AttnFollows (evaluateEntry s) :=
  ite_attnFollows (setPhase_attnFollows .queued h) h

theorem enterPlugged_attnFollows (h : AttnFollows s) : AttnFollows (enterPlugged s) :=
  evaluateEntry_attnFollows (s := checkConditions _) (tripsTaken_attnFollows (setPhase_attnFollows .plugged h))

theorem completeDeEnergise_attnFollows (h : AttnFollows s) : AttnFollows (completeDeEnergise s) :=
  enterPlugged_attnFollows (zeroClaim_attnFollows (s := releaseOpen s) h)

theorem enterDeEnergising_attnFollows (h : AttnFollows s) : AttnFollows (enterDeEnergising s) :=
  have hopening := setPhase_attnFollows .deEnergising h
  ite_attnFollows hopening (completeDeEnergise_attnFollows hopening)

theorem enterParallel_attnFollows (h : AttnFollows s) : AttnFollows (enterParallel s) :=
  have hparallel := setPhase_attnFollows .parallel h
  ite_attnFollows (setPhase_attnFollows .onShore hparallel) hparallel

theorem startInrush_attnFollows (h : AttnFollows s) : AttnFollows (startInrush s) := by
  rcases startInrush_cases s with ⟨-, h'⟩ | ⟨p, -, -, h'⟩ | ⟨p, -, -, h'⟩ <;> rw [h']
  · exact h
  · exact setClaim_attnFollows _ _ _ h
  · exact h

theorem enterAwaitSync_attnFollows (h : AttnFollows s) : AttnFollows (enterAwaitSync s) :=
  have hawait := setPhase_attnFollows .awaitSync
    (startInrush_attnFollows (s := stopBreaker (s.mapBsq fun b => { b with bkClose := false })) h)
  ite_attnFollows (enterDeEnergising_attnFollows hawait)
    (ite_attnFollows (enterParallel_attnFollows hawait) hawait)

/-- Demands that become clamped raise their reason (R144). -/
theorem formClamps_attnFollows (h : AttnFollows s) : AttnFollows (formClamps s) := by
  unfold formClamps
  exact ite_attnFollows (raiseAttention_attnFollows _ _) (ite_attnFollows h h)

theorem compareVessel_attnFollows (r : ShipRecord) (h : AttnFollows s) : AttnFollows (compareVessel r s) := by
  unfold compareVessel
  split <;> exact h

theorem plugProven_attnFollows (h : AttnFollows s) : AttnFollows (plugProven s) :=
  enterPlugged_attnFollows (formClamps_attnFollows (s := selectProfile s) h)

theorem leaveTripped_attnFollows (h : AttnFollows s) : AttnFollows (leaveTripped s) := by
  have hdrop : AttnFollows (dropProfile (s.mapTru fun u => { u with record := none })) := h
  unfold leaveTripped
  dsimp only
  split
  · refine enterPlugged_attnFollows (formClamps_attnFollows ?_)
    split
    · exact compareVessel_attnFollows _ hdrop
    · exact hdrop
  · exact setPhase_attnFollows .vacant (formClamps_attnFollows hdrop)

theorem linkIdle_attnFollows (h : AttnFollows s) : AttnFollows (linkIdle s) := formClamps_attnFollows h

theorem pilotGone_attnFollows (h : AttnFollows s) : AttnFollows (pilotGone s) :=
  ite_attnFollows (setPhase_attnFollows .vacant h)
    (ite_attnFollows (takeCause_attnFollows _ h) (ite_attnFollows (addLater_attnFollows _ h) h))

/-! ### The ship's record and the lines -/

theorem takeRequest_attnFollows (m : Marks) (r : ShipRecord) (h : AttnFollows s) : AttnFollows (takeRequest m r s) :=
  ite_attnFollows
    (ite_attnFollows (enterDeEnergising_attnFollows h) (ite_attnFollows (setPhase_attnFollows .transferBack h) h)) h

theorem takeBreaker_attnFollows (m : Marks) (r : ShipRecord) (h : AttnFollows s) : AttnFollows (takeBreaker m r s) :=
  ite_attnFollows
    (ite_attnFollows (enterParallel_attnFollows h) (ite_attnFollows (enterDeEnergising_attnFollows h) h)) h

theorem takeGenerators_attnFollows (m : Marks) (r : ShipRecord) (h : AttnFollows s) :
    AttnFollows (takeGenerators m r s) :=
  ite_attnFollows h (ite_attnFollows (setPhase_attnFollows .onShore h) h)

theorem deliverRecord_attnFollows (m : Marks) (r : ShipRecord) (h : AttnFollows s) :
    AttnFollows (deliverRecord m r s) := by
  have hclear : AttnFollows (clearAbortFlags r s) := ite_attnFollows h h
  unfold deliverRecord
  generalize clearAbortFlags r s = t at hclear
  have hmove := takeGenerators_attnFollows m r (takeBreaker_attnFollows m r (takeRequest_attnFollows m r hclear))
  have hcompare := compareVessel_attnFollows r hclear
  dsimp only
  cases t.bsq.phase
  case plugged => exact evaluateEntry_attnFollows hcompare
  case queued => exact ite_attnFollows (enterPlugged_attnFollows hcompare) hcompare
  case awaitSync | parallel | onShore | transferBack => exact hmove
  all_goals exact hclear

theorem takeRecord_attnFollows (r : ShipRecord) (h : AttnFollows s) : AttnFollows (takeRecord r s) := by
  have hheard : AttnFollows (linkHeard s) := ite_attnFollows h h
  refine deliverRecord_attnFollows _ r ?_
  exact formClamps_attnFollows (s := (linkHeard s).mapVlp fun v => { v with held := some r }) hheard

theorem linkLost_attnFollows (h : AttnFollows s) : AttnFollows (linkLost s) :=
  have hlost : AttnFollows ((s.mapVlp fun v => { v with link := .lost }).mapTmb
      fun b => { b with linkTimeout := b.linkTimeout.stop }) := h
  ite_attnFollows (enterPlugged_attnFollows hlost) (ite_attnFollows (enterDeEnergising_attnFollows hlost)
    (ite_attnFollows (setClaim_attnFollows _ 0 _ hlost) hlost))

theorem auxClosure_attnFollows (h : AttnFollows s) : AttnFollows (auxClosure s) := by
  unfold auxClosure
  split
  · exact enterAwaitSync_attnFollows h
  · exact uncommandedClose_attnFollows h
  · exact uncommandedClose_attnFollows h
  · exact uncommandedClose_attnFollows h
  · exact ite_attnFollows (uncommandedClose_attnFollows h) h
  · exact h

theorem auxOpening_attnFollows (h : AttnFollows s) : AttnFollows (auxOpening s) := by
  have hr : AttnFollows (if s.bsq.serving = some .resetPulse then releaseOpen s else s) := ite_attnFollows h h
  unfold auxOpening
  generalize (if s.bsq.serving = some .resetPulse then releaseOpen s else s) = t at hr
  dsimp only
  split
  case h_5 => exact completeDeEnergise_attnFollows hr
  case h_6 => exact confirmOpen_attnFollows (s := releaseOpen t) hr
  case h_7 => exact hr
  all_goals exact enterDeEnergising_attnFollows hr

theorem warningChange_attnFollows (v : Bool) (h : AttnFollows s) : AttnFollows (warningChange v s) :=
  ite_attnFollows (ite_attnFollows (enterPlugged_attnFollows h) h) (evaluateEntry_attnFollows h)

/-! ### Timers and the engine -/

theorem breakerExpired_attnFollows (c : Option BreakerCommand) (h : AttnFollows s) :
    AttnFollows (breakerExpired c s) := by
  have hopen : AttnFollows (s.mapBsq fun b => { b with bkOpen := false }) := h
  unfold breakerExpired
  split
  · exact takeCause_attnFollows _ h
  · exact ite_attnFollows (addLater_attnFollows _ hopen) hopen
  · exact ite_attnFollows (startTrip_attnFollows _ _) (ite_attnFollows (addLater_attnFollows _ hopen) hopen)
  · exact h

theorem settleHold_attnFollows (h : AttnFollows s) : AttnFollows (settleHold s) := by
  have hclear : AttnFollows (clearReserve s) := h
  unfold settleHold
  split
  · exact setClaim_attnFollows _ _ _ hclear
  · exact ite_attnFollows (setClaim_attnFollows _ _ _ (setPhase_attnFollows .energising hclear)) hclear
  · exact h

/-- A ramp that becomes suspended raises its reason (R98). -/
theorem rampUp_attnFollows (h : AttnFollows s) : AttnFollows (rampUp s) :=
  ite_attnFollows (raiseAttention_attnFollows _ _) h

theorem rampDown_attnFollows (h : AttnFollows s) : AttnFollows (rampDown s) :=
  ite_attnFollows h (setClaim_attnFollows (s := s.mapGos (Gos.downTick s.figures.downrampStep)) _ _ _ h)

theorem handOn_attnFollows (v : Bool) (a : Action) (h : AttnFollows s) : AttnFollows (handOn v a s) := by
  have hwant (c : ReserveClass) (n : Nat) : AttnFollows (wantReserve c n s) := by
    rw [wantReserve_frame]
    exact h
  unfold handOn
  cases a with
  | release want => exact setClaim_attnFollows _ want _ h
  | cut n => exact setClaim_attnFollows _ _ _ h
  | raise n => exact ite_attnFollows h (hwant _ _)
  | energise n => exact ite_attnFollows h (hwant _ _)
  | none | cutWithheld n | energiseWait n => exact h

/-- A flag of the engine that becomes set raises its reason (R85, R91). -/
theorem completeComputation_attnFollows (w : Working) (h : AttnFollows s) :
    AttnFollows (completeComputation w s) := by
  have hfigures (g : Figures) {t : State} (ht : AttnFollows t) : AttnFollows (storeFigures g t) :=
    ite_attnFollows (raiseAttention_attnFollows _ _) ht
  have hoverload (g : Figures) {t : State} (ht : AttnFollows t) : AttnFollows (storeOverload g t) :=
    ite_attnFollows ht (ite_attnFollows (raiseAttention_attnFollows _ _) ht)
  unfold completeComputation
  refine ite_attnFollows h (handOn_attnFollows _ _ (hoverload _ (hfigures _ ?_)))
  exact h

theorem silenceCheck_attnFollows (h : AttnFollows s) : AttnFollows (silenceCheck s) :=
  ite_attnFollows (h.of_svp (by unfold tableChanged dropOnViewChange; split <;> rfl)) h

theorem lowerSettleCount_attnFollows (h : AttnFollows s) : AttnFollows (lowerSettleCount s) :=
  ite_attnFollows h (ite_attnFollows h h)

/-! ### The table, the link and the schedule -/

theorem putEntry_attnFollows (a : Address) (e : PeerEntry) (c : Bool) (h : AttnFollows s) :
    AttnFollows (putEntry a e c s) := by
  rw [putEntry_frame]
  exact h

/-- A frame of the own address raises the conflict's reason (R132). -/
theorem takeTransmission_attnFollows (j : Judged) (h : AttnFollows s) : AttnFollows (takeTransmission j s) := by
  unfold takeTransmission
  split
  · exact h
  · exact h
  · refine ite_attnFollows (ite_attnFollows h ?_) h
    rw [conflictFound_frame]
    exact raiseAttention_attnFollows .addressConflict s

theorem takeReserve_attnFollows (a : Address) (n : Nat) (k : ReserveClass) (d : Bool) (h : AttnFollows s) :
    AttnFollows (takeReserve a n k d s) :=
  ite_attnFollows (putEntry_attnFollows _ _ _ h) (putEntry_attnFollows _ _ _ h)

theorem beginAttempt_attnFollows (h : AttnFollows s) : AttnFollows (beginAttempt s) := by
  unfold beginAttempt
  split
  · exact h
  · exact ite_attnFollows h h

theorem releaseRefused_attnFollows (h : AttnFollows s) : AttnFollows (releaseRefused s) := ite_attnFollows h h

/-- A frame dropped at its sixteenth collision raises its reason (R127). -/
theorem dropFrame_attnFollows (e : TxEntry) : AttnFollows (dropFrame e s) := by
  have hraised := raiseAttention_attnFollows .linkCongested s
  unfold dropFrame
  dsimp only
  split
  · exact hraised
  · exact releaseRefused_attnFollows hraised
  · exact hraised

theorem collidedEnd_attnFollows (e : TxEntry) (h : AttnFollows s) : AttnFollows (collidedEnd e s) :=
  ite_attnFollows (releaseRefused_attnFollows h) (ite_attnFollows (dropFrame_attnFollows e) h)

theorem ownSlotEnd_attnFollows (d : Bool) (e : TxEntry) (h : AttnFollows s) : AttnFollows (ownSlotEnd d e s) := by
  unfold ownSlotEnd
  dsimp only
  split
  · exact h
  · refine releaseRefused_attnFollows (ite_attnFollows ?_ h)
    exact ite_attnFollows h h
  · exact h

theorem changeSchedule_attnFollows (f : Csc → Csc) (h : AttnFollows s) : AttnFollows (changeSchedule f s) :=
  ite_attnFollows h h

theorem startStation_attnFollows (h : AttnFollows s) : AttnFollows (startStation s) := by
  have hlistening : AttnFollows s.listening := h
  rw [startStation_eq]
  rcases sequencerStart_cases s.listening with ⟨-, h'⟩ | ⟨-, -, h'⟩ | ⟨-, -, h'⟩ <;> rw [h']
  · exact uncommandedClose_attnFollows hlistening
  · exact plugProven_attnFollows hlistening
  · exact hlistening

end

/-! ### Outcomes -/

/-- In the next state that the outcome gives, where it gives one, ATTN follows the set. -/
def OutcomeAttn (o : Host.Outcome State Fault Refusal) : Prop := ∀ t, o = .next t → AttnFollows t

namespace OutcomeAttn

variable {s u : State}

theorem next (h : AttnFollows u) : OutcomeAttn (.next u) := fun _ he => Host.Outcome.next.inj he ▸ h

theorem refuse (h : AttnFollows s) {kind : Nat} {code : ResponseCode} : OutcomeAttn (refuse kind code s) :=
  next (u := answer kind code [] s) h

theorem ite {p : Prop} [Decidable p] {o o' : Host.Outcome State Fault Refusal} (h : OutcomeAttn o)
    (h' : OutcomeAttn o') : OutcomeAttn (if p then o else o') := by
  split
  · exact h
  · exact h'

theorem event {f : State → State} (h : AttnFollows (f s)) : OutcomeAttn (event f s) :=
  next (settle_attnFollows s h)

theorem eventIf {c : Bool} {f : State → State} (h : AttnFollows s) (hf : AttnFollows (f s)) :
    OutcomeAttn (eventIf c f s) := ite (event hf) (next h)

end OutcomeAttn

/-! ### Every command -/

section
variable {s : State} (h : AttnFollows s)
include h

theorem execLoadPeriod_attn (i k e : Nat) : OutcomeAttn (execLoadPeriod i k e s) := by
  refine .ite (.refuse h) (.ite (.next ?_) (.refuse h))
  split <;> exact h

theorem execSetScheduleMode_attn (m : Nat) : OutcomeAttn (execSetScheduleMode m s) := by
  refine .ite (.refuse h) ?_
  split
  · exact .next h
  · exact .refuse h

theorem execLatch_attn : OutcomeAttn (execLatch s) := by
  unfold execLatch
  split
  · exact .refuse h
  · exact .next h

theorem execReadSnapshot_attn : OutcomeAttn (execReadSnapshot s) := by
  unfold execReadSnapshot
  split
  · exact .next h
  · exact .refuse h

theorem execReadPeer_attn (a : Nat) : OutcomeAttn (execReadPeer a s) := by
  unfold execReadPeer
  split
  · exact .next h
  · exact .refuse h

theorem execForgetPeer_attn (a : Nat) : OutcomeAttn (execForgetPeer a s) := by
  refine .ite (.refuse h) ?_
  split
  · exact .ite (.event (putEntry_attnFollows _ _ _ h)) (.refuse h)
  · exact .refuse h

theorem execBerthHold_attn (v : Nat) : OutcomeAttn (execBerthHold v s) := by
  refine .ite (.refuse h) ?_
  split
  · rename_i b _
    exact .ite (.refuse h) (.event (evaluateEntry_attnFollows (s := s.mapBsq fun q => { q with hostHold := b }) h))
  · exact .refuse h

theorem execShipStatusRecord_attn (levels : List Level) : OutcomeAttn (execShipStatusRecord levels s) := by
  unfold execShipStatusRecord
  split
  · exact .eventIf h (takeRecord_attnFollows _ h)
  · exact .next h

theorem execAnnounceReceived_attn : OutcomeAttn (execAnnounceReceived s) := by
  unfold execAnnounceReceived
  split
  · exact .event (ite_attnFollows (putEntry_attnFollows (s := closeSlot s) _ _ _ h) h)
  · exact .next h

theorem execReserveReceived_attn (levels : SlotLevels) : OutcomeAttn (execReserveReceived levels s) := by
  unfold execReserveReceived
  split
  · exact .event (ite_attnFollows (takeReserve_attnFollows (s := closeSlot s) _ _ _ _ h) h)
  · exact .next h

theorem execWithdrawReceived_attn : OutcomeAttn (execWithdrawReceived s) := by
  unfold execWithdrawReceived
  split
  · exact .event (ite_attnFollows (putEntry_attnFollows (s := closeSlot s) _ _ _ h) h)
  · exact .next h

theorem execCollidedTransmissionEnd_attn : OutcomeAttn (execCollidedTransmissionEnd s) := by
  unfold execCollidedTransmissionEnd
  split
  · exact .eventIf h (collidedEnd_attnFollows _ h)
  · exact .next h

theorem execOwnSlotEnd_attn (levels : SlotLevels) : OutcomeAttn (execOwnSlotEnd levels s) := by
  unfold execOwnSlotEnd
  split
  · exact .event (ownSlotEnd_attnFollows _ _ h)
  · exact .next h

theorem execReservedFieldAgeStep_attn (a : Address) : OutcomeAttn (execReservedFieldAgeStep a s) := by
  unfold execReservedFieldAgeStep
  split
  · exact .eventIf h (putEntry_attnFollows _ _ _ h)
  · exact .next h

theorem execComputationComplete_attn : OutcomeAttn (execComputationComplete s) := by
  unfold execComputationComplete
  split
  · exact .event (completeComputation_attnFollows _ h)
  · exact .next h

theorem execReferenceWordEnd_attn : OutcomeAttn (execReferenceWordEnd s) := by
  unfold execReferenceWordEnd
  split
  · exact .next h
  · exact .next (ite_attnFollows h h)

theorem execTariffSelectChange_attn (n : Fin 4) (v : Bool) : OutcomeAttn (execTariffSelectChange n v s) := by
  have hq : AttnFollows (qualifySelects (settleActive (.tsel n) v s)) := by
    rw [qualifySelects_frame]
    exact h
  exact .eventIf h (ite_attnFollows (changeSchedule_attnFollows _ hq) hq)

theorem execRampTick_attn : OutcomeAttn (execRampTick s) := by
  have hr : AttnFollows (s.mapTmb fun t => { t with ramp := Timer.start s.figures.rampInterval }) := h
  exact .eventIf h (ite_attnFollows (rampUp_attnFollows hr) (ite_attnFollows (rampDown_attnFollows hr) hr))

/-- A line settles and, in LISTEN and RUN, something follows that keeps ATTN with the set. -/
theorem OutcomeAttn.line {c b : Bool} {f g : State → State} {l : Line} {v : Bool}
    (hf : f s = if b then g (settleLine l v s) else settleLine l v s)
    (hg : ∀ {x : State}, AttnFollows x → AttnFollows (g x)) : OutcomeAttn (Machine.eventIf c f s) := by
  refine .eventIf h ?_
  rw [hf]
  exact ite_attnFollows (hg (x := settleLine l v s) h) h

/-- Every command keeps ATTN with the set: RESET and READ_STATUS empty the set and deassert ATTN, and every other leaves
both or raises a reason. -/
theorem exec_attn (c : Instr) : OutcomeAttn (exec c s) := by
  cases c with
  | reset | readStatus => exact .next rfl
  | loadStation | loadProfile => exact .ite (.refuse h) (.ite (.next h) (.refuse h))
  | loadPeriod i k e => exact execLoadPeriod_attn h i k e
  | setScheduleMode m => exact execSetScheduleMode_attn h m
  | start => exact .ite (.refuse h) (.ite (.refuse h) (.event (startStation_attnFollows h)))
  | latch => exact execLatch_attn h
  | readSnapshot => exact execReadSnapshot_attn h
  | readPeer a => exact execReadPeer_attn h a
  | clearTrip => exact .ite (.refuse h) (.ite (.refuse h) (.ite (.event (leaveTripped_attnFollows h)) (.refuse h)))
  | forgetPeer a => exact execForgetPeer_attn h a
  | berthHold v => exact execBerthHold_attn h v
  | probe w => exact .ite (.refuse h) (.ite (.next h) (.refuse h))
  | transactionNotTaken | transmissionBegins => exact .next h
  | lineInitialSettle | lineSampling | plugCodeLineChange | edgeLineSettled => exact .ite (.next h) (.next h)
  | pilotProven => exact .line h rfl plugProven_attnFollows
  | pilotLost => exact .line h rfl fun hx => pilotGone_attnFollows (linkIdle_attnFollows hx)
  | auxReadsClosed => exact .line h rfl auxClosure_attnFollows
  | auxReadsOpen => exact .line h rfl auxOpening_attnFollows
  | estopChange v => exact .eventIf h h
  | feederWarningChange v => exact .line h rfl (warningChange_attnFollows v)
  | tariffAdvance | tariffRestart => exact .line h rfl (changeSchedule_attnFollows _)
  | tariffSelectChange n v => exact execTariffSelectChange_attn h n v
  | shipStatusRecord levels => exact execShipStatusRecord_attn h levels
  | meterSample bits => exact .eventIf h (ite_attnFollows h h)
  | receivedTransmissionEnd levels => exact .eventIf h (takeTransmission_attnFollows _ h)
  | announceReceived => exact execAnnounceReceived_attn h
  | reserveReceived levels => exact execReserveReceived_attn h levels
  | withdrawReceived => exact execWithdrawReceived_attn h
  | attemptStart => exact .eventIf h (beginAttempt_attnFollows h)
  | collision => exact .eventIf h (ite_attnFollows h h)
  | collidedTransmissionEnd => exact execCollidedTransmissionEnd_attn h
  | ownSlotEnd levels => exact execOwnSlotEnd_attn h levels
  | announceTimerExpiry => exact .eventIf h (lowerSettleCount_attnFollows (silenceCheck_attnFollows h))
  | listenExpiry => exact .eventIf h (evaluateEntry_attnFollows h)
  | holdExpiry =>
    exact .eventIf h (settleHold_attnFollows (s := s.mapTmb fun t => { t with hold := t.hold.stop }) h)
  | reserveBackoffExpiry => exact .eventIf h h
  | breakerTimerExpiry => exact .eventIf h (breakerExpired_attnFollows (s := stopBreaker s) _ h)
  | inrushExpiry => exact .eventIf h (setClaim_attnFollows _ _ _ h)
  | syncWindowExpiry => exact .eventIf h (ite_attnFollows (enterDeEnergising_attnFollows h) h)
  | parallelLimitExpiry => exact .eventIf h (ite_attnFollows (setPhase_attnFollows _ h) h)
  | rampTick => exact execRampTick_attn h
  | vesselLinkTimeout => exact .eventIf h (linkLost_attnFollows h)
  | linkLossTripExpiry =>
    exact .eventIf h (takeCause_attnFollows (s := s.mapTmb fun t => { t with linkLoss := t.linkLoss.stop }) _ h)
  | overdrawExpiry =>
    exact .eventIf h (takeCause_attnFollows (s := s.mapTmb fun t => { t with overdraw := t.overdraw.stop }) _ h)
  | meterStaleExpiry => exact .eventIf h (raiseAttention_attnFollows _ _)
  | silentAgeingStep a => exact .eventIf h (putEntry_attnFollows _ _ _ h)
  | reservedFieldAgeStep a => exact execReservedFieldAgeStep_attn h a
  | computationComplete => exact execComputationComplete_attn h
  | referenceWordEnd => exact execReferenceWordEnd_attn h
  | statusIntervalReached | berthStatusRecordEnd => exact .ite (.next h) (.next h)
  | statusRecordGapEnd => exact .ite (.next (ite_attnFollows h h)) (.next h)

end

/-- Settles O52: a step is a command, which keeps ATTN with the set, or a bit time, which leaves the service port. -/
theorem attnIsAssertedWhileAReasonIsHeld : Obligations.AttnIsAssertedWhileAReasonIsHeld := by
  refine ⟨fun s t h he => ?_, ⟨rfl, rfl⟩, fun s hq hm => ?_, fun r s => rfl, fun s t he => ?_⟩
  · unfold step at he
    split at he
    · exact Host.Outcome.next.inj he ▸ h
    · rename_i c rest _
      exact exec_attn (s := { s with pending := rest }) h c t he
  · have hc := (configQuiet_iff s).1 hq hm
    exact ⟨hc.attention, hc.attn⟩
  · exact Host.Outcome.next.inj he ▸ ⟨rfl, rfl⟩

end Sys2Proof.Machine

/-! SUPPORT. RESET, READ_STATUS, LOAD_STATION and the refusals of the service port, each command's refusal said once with
its ground; and the statements about them. -/

namespace Sys2Proof.Machine

/-! ### RESET -/

/-- What the reset state gives but for the two fields that the model keeps, block by block. -/
theorem execReset_eq (s : State) :
    exec .reset s = .next { State.reset with pending := s.pending, freeCount := s.freeCount } := rfl

theorem reset_entry (a : Address) : State.reset.pvt[a] = PeerEntry.blank := by
  simp [State.reset]

theorem reset_slot (a : Address) : State.reset.vlp.slots[a] = none := by
  simp [State.reset]

/-- The reset configuration of a line: the edge lines rising, the level lines high, with no delay and no qualification
(R157). -/
theorem reset_line (l : Line) :
    State.reset.lib.settings.get l =
      { kind := if l = .tadv ∨ l = .trst then .rising else .levelHigh, delay := 0 } ∧
    (State.reset.lib.lines.get l).qual = none := by
  rcases l with _ | n | _ | _ | _ | _ | _ | n
  case pcode | tsel => fin_cases n <;> exact ⟨rfl, rfl⟩
  all_goals exact ⟨rfl, rfl⟩

/-- Settles O3: each block of the reset state holds what its chapter gives. -/
theorem resetReturnsEveryBlock : Obligations.ResetReturnsEveryBlock := by
  intro s
  refine ⟨_, execReset_eq s, rfl, rfl, rfl, reset_entry, ⟨rfl, rfl, rfl⟩,
    ⟨rfl, rfl, rfl, rfl, rfl, rfl, rfl, rfl, rfl, rfl, rfl⟩, rfl, rfl, ⟨rfl, rfl, rfl, rfl, rfl⟩,
    ⟨rfl, rfl, rfl, rfl, rfl, rfl, Vlp.vtx_idle State.reset.vlp rfl, rfl, rfl, reset_slot⟩, rfl, ⟨rfl, rfl⟩,
    ⟨rfl, rfl, rfl, rfl, rfl, rfl, rfl, rfl, rfl, rfl, rfl, rfl, rfl, rfl⟩, reset_line,
    ⟨rfl, rfl, rfl, rfl, rfl, rfl, rfl⟩⟩

/-- The table after reset: no entry is there, and no frame received. -/
theorem reset_tableForm : TableForm State.reset := by
  refine ⟨fun a => ?_, fun a => ?_, nofun⟩
  · rw [reset_entry]
    exact ⟨nofun, nofun⟩
  · rw [reset_entry]
    exact ⟨fun _ => rfl, nofun, nofun, nofun, nofun⟩

/-- No slot is loaded and none in use. -/
theorem reset_profileInUse : ProfileInUse State.reset := by
  refine ⟨fun a p hp => ?_, fun _ => nofun, fun h => ?_, fun h => ?_⟩
  · rw [reset_slot] at hp
    exact nomatch hp
  · have hplugged : State.reset.bsq.phase.pastPlugged = false := rfl
    simp [hplugged] at h
  · have hpair : State.reset.bsq.phase.pair = false := rfl
    simp [hpair] at h

/-- No reserve and no frame is there. -/
theorem reset_reserveForm : ReserveForm State.reset :=
  ⟨fun _ => ⟨rfl, rfl⟩, nofun, nofun, nofun, nofun, nofun, ⟨nofun, nofun⟩, ⟨nofun, nofun⟩, nofun, nofun,
    fun h => absurd rfl h, nofun⟩

/-- Nothing is claimed, reserved or demanded. -/
theorem reset_claimForm : ClaimForm State.reset :=
  ⟨⟨Nat.zero_le _, Nat.zero_le _, Nat.zero_le _⟩, fun _ => ⟨rfl, rfl, rfl⟩, fun _ => rfl, nofun,
    fun r hr => absurd hr (Option.not_mem_none r), nofun, nofun, ⟨rfl, rfl⟩, ⟨fun _ => rfl, fun _ => rfl⟩, nofun⟩

/-- Settles O60: in CONFIG nothing follows the lines yet, and every block is empty. -/
theorem resetHasTheInvariants : Obligations.ResetHasTheInvariants := by
  have hquiet : ConfigQuiet State.reset := (configQuiet_iff _).2 fun _ => reset_inConfig [] 0
  have houtputs : Outputs State.reset := by decide
  have hgrant : GrantBounds State.reset := by decide
  have hqueue : QueueForm State.reset := by decide
  have hkinds : LevelKinds State.reset := by decide
  have hconfig {P : Prop} (h : State.reset.started = true) : P := nomatch h
  exact ⟨hquiet, houtputs, hgrant, hqueue, rfl, reset_tableForm, hconfig, hkinds, hconfig, reset_profileInUse,
    reset_reserveForm, (loadedForm_iff _).2 (reset_loaded [] 0), reset_claimForm⟩

/-! ### READ_STATUS -/

/-- Settles O9: the answer carries the status as it stands, and the set empties after it. -/
theorem readStatusReportsAndEmptiesAttention : Obligations.ReadStatusReportsAndEmptiesAttention := by
  intro s
  change execReadStatus s = _
  rw [execReadStatus, answer_eq]
  rfl

/-! ### Refusals -/

section
variable {s : State}

theorem State.started_of_not_config (hm : s.svp.mode ≠ .config) : s.started = true := by
  simpa [State.started] using hm

/-- The loads and START are refused in LISTEN and RUN (R180). -/
theorem loads_refused (hs : s.started = true) :
    (∀ r, Refuses (.loadStation r) s 1 .wrongMode) ∧ (∀ p, Refuses (.loadProfile p) s 2 .wrongMode) ∧
    (∀ i c x, Refuses (.loadPeriod i c x) s 3 .wrongMode) ∧ (∀ m, Refuses (.setScheduleMode m) s 4 .wrongMode) ∧
    Refuses .start s 5 .wrongMode :=
  ⟨fun _ => if_pos hs, fun _ => if_pos hs, fun _ _ _ => if_pos hs, fun _ => if_pos hs, if_pos hs⟩

/-- The commands to the berth and the table are refused in CONFIG (R180). -/
theorem operations_refused (hs : s.started = false) :
    Refuses .clearTrip s 10 .wrongMode ∧ (∀ a, Refuses (.forgetPeer a) s 11 .wrongMode) ∧
    (∀ c, Refuses (.berthHold c) s 12 .wrongMode) ∧ (∀ w, Refuses (.probe w) s 13 .wrongMode) :=
  have h : (!s.started) = true := by rw [hs]; rfl
  ⟨if_pos h, fun _ => if_pos h, fun _ => if_pos h, fun _ => if_pos h⟩

/-- START needs a station record and a period (R182). -/
theorem execStart_incomplete (hs : s.started = false) (h : s.svp.station = none ∨ s.csc.periods = []) :
    Refuses .start s 5 .incomplete := by
  have hincomplete : (s.svp.station.isNone || s.csc.periods.isEmpty) = true := by simpa using h
  change execStart s = _
  rw [execStart, if_neg (by simp [hs]), if_pos hincomplete, refuse_eq]

/-- There is no record to clear (R176). -/
theorem execClearTrip_noRecord (hs : s.started = true) (hr : s.tru.record = none) :
    Refuses .clearTrip s 10 .outOfRange := by
  change execClearTrip s = _
  rw [execClearTrip, if_neg (by simp [hs]), if_pos (by simp [hr]), refuse_eq]

/-- A condition for the clear fails (R176). -/
theorem execClearTrip_present (hs : s.started = true) (hr : s.tru.record.isSome = true) (h : ¬s.mayClear = true) :
    Refuses .clearTrip s 10 .causePresent := by
  have hnone : ¬s.tru.record.isNone = true := by simpa [Option.isSome_iff_ne_none] using hr
  change execClearTrip s = _
  rw [execClearTrip, if_neg (by simp [hs]), if_neg hnone, if_neg h, refuse_eq]

/-- Each of the five grounds keeps a trip from being cleared (R176). -/
theorem State.not_mayClear (h : s.auxClosed = true ∨ s.openConfirmed = false ∨ s.estopActive = true ∨
    s.warningActive = true ∨ ∃ d, s.currentDraw = some d ∧ s.figures.overdrawTolerance < d) : ¬s.mayClear = true := by
  intro hm
  obtain ⟨haux, hopen, hestop, hwarning, hdraw⟩ := s.mayClear_iff.1 hm
  rcases h with h | h | h | h | ⟨d, hd, hover⟩
  · simp [haux] at h
  · simp [hopen] at h
  · simp [hestop] at h
  · simp [hwarning] at h
  · exact absurd (hdraw d hd) (Nat.not_le.2 hover)

/-- No entry has an address of 16 or more (R50, R51). -/
theorem addressOperand_beyond {a : Nat} (h : 16 ≤ a) : addressOperand a = none := dif_neg (by omega)

theorem addressOperand_address (a : Address) : addressOperand a.val = some a := dif_pos a.isLt

theorem execForgetPeer_beyond {a : Nat} (hs : s.started = true) (h : 16 ≤ a) :
    Refuses (.forgetPeer a) s 11 .outOfRange := by
  change execForgetPeer a s = _
  rw [execForgetPeer, if_neg (by simp [hs]), addressOperand_beyond h]
  rfl

/-- An entry that is OWN or EMPTY is no peer's to forget (R50). -/
theorem execForgetPeer_noPeer {a : Address} (hs : s.started = true)
    (h : s.pvt[a].standing = .own ∨ s.pvt[a].standing = .empty) : Refuses (.forgetPeer a.val) s 11 .outOfRange := by
  have hunknown : ¬s.pvt[a].known = true := by
    rcases h with h | h <;> simp only [PeerEntry.known, h] <;> decide
  change execForgetPeer a.val s = _
  rw [execForgetPeer, if_neg (by simp [hs]), addressOperand_address]
  exact if_neg hunknown

theorem execReadPeer_beyond {a : Nat} (h : 16 ≤ a) : Refuses (.readPeer a) s 9 .outOfRange := by
  change execReadPeer a s = _
  rw [execReadPeer, addressOperand_beyond h]
  rfl

/-- Two codes name a setting of the hold (R191). -/
theorem holdSettingOf_beyond {c : Nat} (h : 2 ≤ c) : holdSettingOf c = none := by
  unfold holdSettingOf
  split
  · omega
  · omega
  · rfl

theorem execBerthHold_beyond {c : Nat} (hs : s.started = true) (h : 2 ≤ c) :
    Refuses (.berthHold c) s 12 .outOfRange := by
  change execBerthHold c s = _
  rw [execBerthHold, if_neg (by simp [hs]), holdSettingOf_beyond h]
  rfl

theorem execProbe_beyond {w : Nat} (hs : s.started = true) (h : 16383 < w) :
    Refuses (.probe w) s 13 .outOfRange := by
  change execProbe w s = _
  rw [execProbe, if_neg (by simp [hs])]
  exact if_neg (Nat.not_le.2 h)

/-- A snapshot is held until it is read (R184). -/
theorem execLatch_held (h : s.svp.snapshot.isSome = true) : Refuses .latch s 7 .held := by
  obtain ⟨n, hn⟩ := Option.isSome_iff_exists.1 h
  change execLatch s = _
  rw [execLatch, hn]
  rfl

theorem execReadSnapshot_notLatched (h : s.svp.snapshot = none) : Refuses .readSnapshot s 8 .notLatched := by
  change execReadSnapshot s = _
  rw [execReadSnapshot, h]
  rfl

end

/-- Settles O7: each refusal with its ground, by the mode in which it is given. -/
theorem refusedCommandsChangeNothing : Obligations.RefusedCommandsChangeNothing := by
  intro s
  refine ⟨fun hm => ?_, fun hm => ?_, fun a => execReadPeer_beyond, execLatch_held, execReadSnapshot_notLatched⟩
  · have hs := State.started_of_not_config hm
    obtain ⟨hstation, hprofile, hperiod, hmode, hstart⟩ := loads_refused hs
    exact ⟨hstation, hprofile, hperiod, hmode, hstart, execClearTrip_noRecord hs,
      fun hr hground => execClearTrip_present hs hr (State.not_mayClear hground), fun a => execForgetPeer_beyond hs,
      fun a => execForgetPeer_noPeer hs, fun c => execBerthHold_beyond hs, fun w => execProbe_beyond hs⟩
  · have hs : s.started = false := by simpa using State.not_started_of_config hm
    obtain ⟨hclear, hforget, hhold, hprobe⟩ := operations_refused hs
    exact ⟨hclear, hforget, hhold, hprobe, execStart_incomplete hs⟩

/-! ### LOAD_STATION -/

section
variable {s : State}

/-- A record in range is held, and its line settings are in force at once (R157, R181). -/
theorem execLoadStation_taken {r : StationRecord} (hm : s.svp.mode = .config) (hr : StationRanges r) :
    exec (.loadStation r) s = .next
      { s with
        svp := { s.svp.answered 1 .accepted [] with station := some r }
        lib := (applySettings (settingsOf r) s).lib } := by
  change execLoadStation r s = _
  rw [execLoadStation, if_neg (State.not_started_of_config hm), if_pos ((stationInRange_iff r).2 hr), answer_eq]
  rfl

theorem execLoadStation_refused {r : StationRecord} (hm : s.svp.mode = .config) (hr : ¬StationRanges r) :
    Refuses (.loadStation r) s 1 .outOfRange := by
  change execLoadStation r s = _
  rw [execLoadStation, if_neg (State.not_started_of_config hm), if_neg (mt (stationInRange_iff r).1 hr), refuse_eq]

/-- What two parts of a line give is worked out line by line. -/
theorem PerLine.get_zipWith {α β γ : Type} (f : α → β → γ) (p : PerLine α) (q : PerLine β) (l : Line) :
    (PerLine.zipWith f p q).get l = f (p.get l) (q.get l) := by
  rcases l with _ | n | _ | _ | _ | _ | _ | n
  case pcode | tsel => fin_cases n <;> rfl
  all_goals rfl

/-- Under new settings a line settles at its latest sample, with its qualification abandoned (R157). -/
theorem applySettings_line (c : PerLine LineSetting) (l : Line) :
    (applySettings c s).lib.lines.get l =
      { sampled := (s.lib.lines.get l).sampled, settled := (s.lib.lines.get l).sampled, qual := none,
        active := (c.get l).kind.activeAt (s.lib.lines.get l).sampled } :=
  PerLine.get_zipWith _ c s.lib.lines l

/-- The plug-coding and the select lines each share a setting of the record (R158). -/
theorem settingsOf_codeLines (r : StationRecord) (n : Fin 4) :
    (settingsOf r).get (.pcode n) = { kind := levelKindOf r.pcode.kind, delay := r.pcode.delay } ∧
    (settingsOf r).get (.tsel n) = { kind := levelKindOf r.tsel.kind, delay := r.tsel.delay } := by
  fin_cases n <;> exact ⟨rfl, rfl⟩

end

/-- Settles O4: within the ranges the load of the record and of its line settings, and outside them a refusal. -/
theorem loadStationTakesTheWholeRecord : Obligations.LoadStationTakesTheWholeRecord := by
  intro r s hm
  refine ⟨fun hr => ⟨_, execLoadStation_taken hm hr, rfl, rfl, rfl, rfl, rfl, rfl, fun n => ?_, fun n => ?_, rfl, rfl,
    fun l => applySettings_line (settingsOf r) l⟩, execLoadStation_refused hm⟩
  · exact (settingsOf_codeLines r n).1
  · exact (settingsOf_codeLines r n).2

end Sys2Proof.Machine

/-! SUPPORT. The snapshot: what LATCH copies, the pieces of READ_SNAPSHOT's layout with their lengths; and the statement
about them. -/

namespace Sys2Proof.Machine

/-! ### The copy -/

section
variable {s : State}

/-- With no snapshot held LATCH holds the copy (R184). -/
theorem execLatch_copies (h : s.svp.snapshot = none) :
    exec .latch s = .next { s with svp := { s.svp.answered 7 .accepted [] with snapshot := some s.snapshotNow } } := by
  change execLatch s = _
  rw [execLatch, h, answer_eq]
  rfl

/-- With one held READ_SNAPSHOT answers it and frees it (R184). -/
theorem execReadSnapshot_frees {n : Snapshot} (h : s.svp.snapshot = some n) :
    exec .readSnapshot s = .next
      { s with svp := { s.svp.answered 8 .accepted (snapshotData n) with snapshot := none } } := by
  change execReadSnapshot s = _
  rw [execReadSnapshot, h]
  rfl

/-- The collision backoff runs from a collision but the sixteenth until the head's next attempt (R126; log entry 20). -/
theorem Blc.collisionBackoff_eq (a : Address) (b : Blc) :
    b.collisionBackoff a =
      if (∃ e ∈ b.queue.head?, 1 ≤ e.collisions ∧ e.collisions < 16) ∧ b.link.attempting = false then
        some ((a.val + 1) * 64 + 48 - b.idleCount) else none := by
  unfold Blc.collisionBackoff
  cases hq : b.queue with
  | nil => simp
  | cons e rest =>
    simp only [List.head?_cons, Option.mem_some_iff, exists_eq_left', and_assoc, ← Nat.pos_iff_ne_zero]
    rfl

end

/-! ### The layout -/

/-- A flag counts 1 where it is set. -/
theorem flag_eq_ite (b : Bool) : flag b = if b = true then 1 else 0 := by
  cases b <;> rfl

@[simp] theorem le16_length (n : Nat) : (le16 n).length = 2 := rfl
@[simp] theorem le32_length (n : Nat) : (le32 n).length = 4 := rfl
@[simp] theorem absent_length (n : Nat) : (absent n).length = n := List.length_replicate
@[simp] theorem signedData_length (h : Int) : (signedData h).length = 4 := rfl
@[simp] theorem queueData_length (q : QueueReadout) : (queueData q).length = 5 := rfl
@[simp] theorem slotsData_length (t : Table Bool) : (slotsData t).length = 2 := rfl

@[simp] theorem timeData_length (o : Option Nat) : (timeData o).length = 4 := by
  cases o <;> simp [timeData]

@[simp] theorem timersData_length (t : TimerReadout) : (timersData t).length = 56 := by
  simp [timersData]

@[simp] theorem recordData_length (o : Option TripRecord) : (recordData o).length = 7 := by
  cases o <;> simp [recordData]

/-- An item that may be absent is as long either way. -/
theorem getD_length {α : Type} {f : α → List Byte} {k : Nat} (h : ∀ x, (f x).length = k) (o : Option α) :
    ((o.map f).getD (absent k)).length = k := by
  cases o <;> simp [h]

@[simp] theorem stationData_length (r : StationRecord) : (stationData r).length = 44 := by
  simp [stationData]

@[simp] theorem ShipRecord.body_length (r : ShipRecord) : r.body.length = 10 := rfl
@[simp] theorem BerthStatus.body_length (b : BerthStatus) : b.body.length = 6 := rfl

/-- R192 lists 199 bytes. -/
theorem snapshotData_length (n : Snapshot) : (snapshotData n).length = 199 := by
  unfold snapshotData
  simp only [List.length_append, List.length_cons, List.length_nil, le16_length, le32_length,
    signedData_length, queueData_length, slotsData_length, timersData_length, recordData_length,
    getD_length stationData_length, getD_length ShipRecord.body_length, getD_length BerthStatus.body_length,
    getD_length le16_length]

/-- H goes out in two's complement (R191). -/
theorem signedData_eq (h : Int) : signedData h = le32 (h % 4294967296).toNat := by
  rw [signedData, BitVec.toNat_ofInt]
  rfl

/-- The sixteen slots are summed over every address (R192). -/
theorem slotsData_eq (t : Table Bool) :
    slotsData t = le16 (∑ a : Address, if t[a] = true then 2 ^ a.val else 0) := by
  rw [slotsData, Fin.sum_univ_def]
  rfl


/-- Settles O10: the copy field by field, and the layout piece by piece. -/
theorem latchCopiesAndReadSnapshotFrees : Obligations.LatchCopiesAndReadSnapshotFrees := by
  intro s
  refine ⟨fun h => ?_, fun n h => ⟨execReadSnapshot_frees h, snapshotData_length n, ?_⟩, rfl, rfl, rfl, rfl, rfl, rfl,
    rfl, rfl, rfl⟩
  · refine ⟨_, execLatch_copies h, _, rfl, rfl, ?_⟩
    have hbackoff := s.blc.collisionBackoff_eq s.ownAddress
    simp [State.snapshotNow, State.queueReadout, State.timerReadout, hbackoff, Config.maxCollisions, and_comm]
  · intro two four bit none' time set station held sent draw trip last
    have hflag (b : Bool) : flag b = bit b := flag_eq_ite b
    have hstation : (n.station.map stationData).getD (absent 44) = station := by
      simp only [station]
      cases n.station <;> rfl
    have hheld : (n.held.map ShipRecord.body).getD (absent 10) = held := by
      simp only [held]
      cases n.held with
      | none => rfl
      | some r => exact congrArg (fun k => _ ++ [_, byte (k + _)] ++ _ ++ _ ++ _) (hflag r.breakerClosed)
    have hsent : (n.lastSent.map BerthStatus.body).getD (absent 6) = sent := by
      simp only [sent]
      cases n.lastSent with
      | none => rfl
      | some b =>
        simp only [Option.map_some, Option.getD_some, BerthStatus.body, hflag]
        cases b.cause <;> rfl
    have hdraw : byte (flag n.draw.isSome) :: (n.draw.map le16).getD (absent 2) = draw := by
      simp only [draw]
      cases n.draw <;> rfl
    have htrip : recordData n.record = trip := by
      simp only [trip]
      cases n.record with
      | none => rfl
      | some r =>
        simp only [recordData, CauseSet.code, hflag]
        rfl
    have hlast : n.last.codes = last := by
      simp only [last]
      cases n.last <;> rfl
    have htime (o : Option Nat) : timeData o = time o := by cases o <;> rfl
    have hcode : byte ((n.profileCode.map (·.val)).getD 255) =
        byte (match n.profileCode with | some c => c.val | none => 255) := by
      cases n.profileCode <;> rfl
    have hclass : byte ((n.reserveClass.map (·.code)).getD 0) =
        byte (match n.reserveClass with | some c => c.code | none => 0) := by
      cases n.reserveClass <;> rfl
    unfold snapshotData
    simp only [hstation, hheld, hsent, htrip, hlast, hflag, signedData_eq, slotsData_eq, timersData, htime,
      AttentionSet.code, queueData, hcode, hclass, ← hdraw, List.flatMap_cons, List.flatMap_nil, List.append_nil,
      List.append_assoc, List.cons_append, List.nil_append]
    rfl

end Sys2Proof.Machine
/-! SUPPORT. START: what the sequencer's START event and the trips behind it carry over from the station that has moved
to LISTEN, how a tripped berth takes further causes, and the statement about START. -/

namespace Sys2Proof.Machine

/-! ### What START leaves behind it -/

/-- `t` carries over from `s` what an accepted START has set or left: the table, the schedule, the vessel link, the
draw, the lines, the service port but for its attention, the station's three timers, a computation in progress, a
recompute asked for and an ANNOUNCE queued. -/
structure Carried (s t : State) : Prop where
  pvt : t.pvt = s.pvt
  csc : t.csc = s.csc
  vlp : t.vlp = s.vlp
  mtp : t.mtp = s.mtp
  lib : t.lib = s.lib
  svp : t.svp = { s.svp with attention := t.svp.attention, attn := t.svp.attn }
  listen : t.tmb.listen = s.tmb.listen
  announce : t.tmb.announce = s.tmb.announce
  meterStale : t.tmb.meterStale = s.tmb.meterStale
  computing : t.hre.computing = s.hre.computing
  request : s.hre.request = true → t.hre.request = true
  announced : s.blc.holds 1 = true → t.blc.holds 1 = true

namespace Carried

variable {s t u : State}

theorem refl (s : State) : Carried s s := ⟨rfl, rfl, rfl, rfl, rfl, rfl, rfl, rfl, rfl, rfl, id, id⟩

theorem trans (h : Carried s t) (k : Carried t u) : Carried s u where
  pvt := k.pvt.trans h.pvt
  csc := k.csc.trans h.csc
  vlp := k.vlp.trans h.vlp
  mtp := k.mtp.trans h.mtp
  lib := k.lib.trans h.lib
  svp := by rw [k.svp, h.svp]
  listen := k.listen.trans h.listen
  announce := k.announce.trans h.announce
  meterStale := k.meterStale.trans h.meterStale
  computing := k.computing.trans h.computing
  request := k.request ∘ h.request
  announced := k.announced ∘ h.announced

theorem station (h : Carried s t) : t.station = s.station := by
  rw [State.station, h.svp]
  rfl

theorem ownAddress (h : Carried s t) : t.ownAddress = s.ownAddress := by simp only [State.ownAddress, h.station]

theorem started (h : Carried s t) : t.started = s.started := by
  rw [State.started, h.svp]
  rfl

/-- Both sides answered in the same way. -/
theorem answered (h : Carried s t) (kind : Nat) (code : ResponseCode) (data : List Byte) :
    Carried (answer kind code data s) (answer kind code data t) := by
  have hsvp : (answer kind code data t).svp =
      { (answer kind code data s).svp with attention := t.svp.attention, attn := t.svp.attn } := by
    rw [answer_eq, answer_eq, h.svp]
    rfl
  exact ⟨h.pvt, h.csc, h.vlp, h.mtp, h.lib, hsvp, h.listen, h.announce, h.meterStale, h.computing, h.request,
    h.announced⟩

end Carried

section
variable (s : State)

theorem setClaim_carried (firm flex transient : Nat) : Carried s (setClaim firm flex transient s) := by
  by_cases h : firm = s.bsq.firm ∧ flex = s.bsq.flex ∧ transient = s.bsq.transient
  · obtain ⟨rfl, rfl, rfl⟩ := h
    rw [setClaim_same]
    exact .refl s
  · rw [setClaim_of_ne _ _ _ s h]
    exact ⟨rfl, rfl, rfl, rfl, rfl, rfl, rfl, rfl, rfl, rfl, fun _ => rfl, fun _ => Blc.requestAnnounce_holds _⟩

theorem phaseLeft_request (next : Phase) (h : s.hre.request = true) : (phaseLeft next s).hre.request = true := by
  rcases phaseLeft_cases s next with hl | hl <;> rw [hl]
  · unfold abandonReserve
    split
    case h_1 | h_2 | h_5 => exact h
    case h_3 | h_4 => rfl
  · exact h

theorem setPhase_carried (next : Phase) : Carried s (setPhase next s) := by
  by_cases hne : next = s.bsq.phase
  · rw [setPhase, if_pos hne]
    exact .refl s
  · have hleft := phaseLeft_frame next s
    have hsq := setPhase_sequencerFrame s next
    refine ⟨hsq.pvt, hsq.csc, hsq.vlp, hsq.mtp, hsq.lib, ?_, ?_, ?_, ?_, ?_, fun h => ?_, fun _ => ?_⟩
    · rw [setPhase_svp]
    · rw [setPhase_eq next s hne, hleft]
      rfl
    · rw [setPhase_eq next s hne, hleft]
      rfl
    · rw [setPhase_eq next s hne, hleft]
      rfl
    · rw [setPhase_frame]
    · rw [setPhase_eq next s hne]
      simp [phaseLeft_request s next h]
    · rw [setPhase_eq next s hne]
      exact Blc.requestAnnounce_holds _

theorem remember_carried (e f : Bool) : Carried s (s.remember e f) :=
  ⟨rfl, rfl, rfl, rfl, rfl, rfl, rfl, rfl, rfl, rfl, id, id⟩

theorem addLater_carried (c : TripCause) : Carried s (addLater c s) := by
  unfold addLater
  split
  · exact .refl s
  · split <;> exact ⟨rfl, rfl, rfl, rfl, rfl, rfl, rfl, rfl, rfl, rfl, id, id⟩

theorem tripping_carried : Carried s s.tripping :=
  (setPhase_carried s .tripped).trans ⟨rfl, rfl, rfl, rfl, rfl, rfl, rfl, rfl, rfl, rfl, id, id⟩

theorem zeroClaim_carried : Carried s (zeroClaim s) :=
  Carried.trans (t := s.mapTmb fun t => { t with inrush := t.inrush.stop })
    ⟨rfl, rfl, rfl, rfl, rfl, rfl, rfl, rfl, rfl, rfl, id, id⟩ (setClaim_carried _ 0 0 0)

theorem confirmOpen_carried : Carried s (confirmOpen s) :=
  Carried.trans (t := setConfirmed true s) ⟨rfl, rfl, rfl, rfl, rfl, rfl, rfl, rfl, rfl, rfl, id, id⟩
    (zeroClaim_carried _)

theorem carryOutTrip_carried (b : Bool) : Carried s (carryOutTrip b s) := by
  refine (tripping_carried s).trans ?_
  rw [carryOutTrip_eq]
  split_ifs
  · exact .refl _
  · exact ⟨rfl, rfl, rfl, rfl, rfl, rfl, rfl, rfl, rfl, rfl, id, id⟩
  · exact ⟨rfl, rfl, rfl, rfl, rfl, rfl, rfl, rfl, rfl, rfl, id, id⟩
  · exact confirmOpen_carried _

theorem takeCause_carried (c : TripCause) : Carried s (takeCause c s) := by
  by_cases h : s.bsq.phase = .tripped
  · rw [takeCause_of_tripped h]
    exact addLater_carried s c
  · rw [takeCause_untripped h]
    exact Carried.trans (t := s.recorded c) ⟨rfl, rfl, rfl, rfl, rfl, rfl, rfl, rfl, rfl, rfl, id, id⟩
      (carryOutTrip_carried _ false)

theorem checkEstop_carried : Carried s (checkEstop s) := by
  rcases checkEstop_cases s with ⟨-, -, h⟩ | ⟨-, h⟩ <;> rw [h]
  · exact (takeCause_carried s _).trans (remember_carried _ _ _)
  · exact .refl s

theorem checkFeeder_carried : Carried s (checkFeeder s) := by
  rcases checkFeeder_cases s with ⟨-, -, h⟩ | ⟨-, h⟩ <;> rw [h]
  · exact (takeCause_carried s _).trans (remember_carried _ _ _)
  · exact .refl s

theorem tripsTaken_carried : Carried s s.tripsTaken :=
  ((checkEstop_carried s).trans (checkFeeder_carried _)).trans (checkEstop_carried _)

theorem evaluateEntry_carried : Carried s (evaluateEntry s) := by
  rcases evaluateEntry_cases s with ⟨-, h⟩ | ⟨-, h⟩ <;> rw [h]
  · exact setPhase_carried s .queued
  · exact .refl s

theorem enterPlugged_carried : Carried s (enterPlugged s) :=
  (((setPhase_carried s .plugged).trans (tripsTaken_carried _)).trans (remember_carried _ _ _)).trans
    (evaluateEntry_carried _)

theorem selectProfile_carried : Carried s (selectProfile s) :=
  ⟨rfl, rfl, rfl, rfl, rfl, rfl, rfl, rfl, rfl, rfl, id, id⟩

end

/-! ### Further causes of a tripped berth -/

/-- `t` differs from `s` in the sequencer and the record at most in later causes. -/
structure LaterOnly (s t : State) : Prop where
  bsq : t.bsq = s.bsq
  record : ∀ r, s.tru.record = some r → ∃ c, t.tru.record = some { r with later := c }

namespace LaterOnly

variable {s t u : State}

theorem of_same (hb : t.bsq = s.bsq) (hr : t.tru.record = s.tru.record) : LaterOnly s t :=
  ⟨hb, fun r h => ⟨r.later, hr.trans h⟩⟩

theorem trans (h : LaterOnly s t) (k : LaterOnly t u) : LaterOnly s u := by
  refine ⟨k.bsq.trans h.bsq, fun r hr => ?_⟩
  obtain ⟨c, hc⟩ := h.record r hr
  obtain ⟨d, hd⟩ := k.record _ hc
  exact ⟨d, hd⟩

theorem remember (e f : Bool) (s : State) : LaterOnly s (s.remember e f) := .of_same rfl rfl

theorem phase (h : LaterOnly s t) (hp : s.bsq.phase = .tripped) : t.bsq.phase = .tripped := by rw [h.bsq, hp]

theorem takeCause (c : TripCause) (hp : s.bsq.phase = .tripped) : LaterOnly s (takeCause c s) := by
  rw [takeCause_of_tripped hp]
  refine ⟨by rw [addLater_frame], fun r hr => ?_⟩
  cases hc : r.later.has c with
  | true => exact ⟨r.later, by rw [addLater_present hr hc, hr]⟩
  | false => exact ⟨r.later.add c, by rw [addLater_absent hr hc]⟩

theorem checkEstop (hp : s.bsq.phase = .tripped) : LaterOnly s (checkEstop s) := by
  rcases checkEstop_cases s with ⟨-, -, h⟩ | ⟨-, h⟩ <;> rw [h]
  · exact (takeCause .estop hp).trans (.remember _ _ _)
  · exact .of_same rfl rfl

theorem checkFeeder (hp : s.bsq.phase = .tripped) : LaterOnly s (checkFeeder s) := by
  rcases checkFeeder_cases s with ⟨-, -, h⟩ | ⟨-, h⟩ <;> rw [h]
  · exact (takeCause .feederLost hp).trans (.remember _ _ _)
  · exact .of_same rfl rfl

/-- The conditions newly true at the end of an event join a tripped berth's later causes (R169). -/
theorem tripsTaken (hp : s.bsq.phase = .tripped) : LaterOnly s s.tripsTaken :=
  have h1 := checkEstop hp
  have h2 := h1.trans (checkFeeder (h1.phase hp))
  h2.trans (checkEstop (h2.phase hp))

end LaterOnly

/-! ### A first cause -/

section
variable {s : State} {c : TripCause}

/-- A trip with the aux open ends with the open confirmed and no claim (R26, R27, R169). -/
theorem takeCause_open (hp : s.bsq.phase ≠ .tripped) (ha : s.auxClosed = false) :
    (takeCause c s).bsq.firm = 0 ∧
      (takeCause c s).tru.record = some { s.newRecord c with openConfirmed := true } := by
  have htru : (s.recorded c).tripping.tru = (s.recorded c).tru := setPhase_tru _ .tripped
  rw [takeCause_untripped hp, carryOutTrip_confirms (s := s.recorded c) ha, confirmOpen_bsq, confirmOpen_tru,
    setConfirmed_eq, htru]
  exact ⟨rfl, rfl⟩

/-- A trip with the aux closed keeps the claim and has BKOPEN asserted and BKCLOSE deasserted (R3, R26, R169). -/
theorem takeCause_closed (hp : s.bsq.phase ≠ .tripped) (ha : s.auxClosed = true) :
    (takeCause c s).bsq.firm = s.bsq.firm ∧ (takeCause c s).bsq.flex = s.bsq.flex ∧
      (takeCause c s).bsq.transient = s.bsq.transient ∧ (takeCause c s).bsq.bkOpen = true ∧
      (takeCause c s).bsq.bkClose = false ∧ (takeCause c s).tru.record = some (s.newRecord c) := by
  have htru : (s.recorded c).tripping.tru = (s.recorded c).tru := setPhase_tru _ .tripped
  have hbsq : (s.recorded c).tripping.bsq =
      { s.bsq with
        phase := .tripped, bkClose := false
        serving := if s.bsq.serving = some .close then none else s.bsq.serving } := by
    dsimp only [State.tripping]
    rw [setPhase_bsq]
    rfl
  have hrecord : (s.recorded c).tripping.tru.record = some (s.newRecord c) := by rw [htru]; rfl
  rw [takeCause_untripped hp]
  by_cases h : s.bsq.serving = some .close ∨ s.bsq.serving = none
  · rw [carryOutTrip_opens (s := s.recorded c) ha h, commandOpen_eq, hbsq]
    exact ⟨rfl, rfl, rfl, rfl, rfl, hrecord⟩
  · obtain ⟨hclose, hnone⟩ := not_or.1 h
    rw [carryOutTrip_runs_on (s := s.recorded c) ha hclose hnone, State.mapBsq_bsq, hbsq]
    exact ⟨rfl, rfl, rfl, rfl, rfl, hrecord⟩

end

/-! ### The sequencer's START event -/

/-- The vessel link as reset leaves it, but for the slots loaded. -/
def Vlp.Idle (v : Vlp) : Prop := v = { State.reset.vlp with slots := v.slots }

section
variable {s : State}

/-- Over an idle vessel link the clamps stand at 0 already. -/
theorem formClamps_idle (h : s.vlp.Idle) : formClamps s = s := by
  have hheld : s.vlp.held = none := by rw [h]; rfl
  have hfirm : s.vlp.clampedFirm = 0 := by rw [h]; rfl
  have hflex : s.vlp.clampedFlex = 0 := by rw [h]; rfl
  have hvlp : { s.vlp with clampedFirm := 0, clampedFlex := 0, demandClamped := false } = s.vlp := by rw [h]; rfl
  rw [formClamps_of_none hheld, hvlp, hfirm, hflex]
  simp

theorem plugProven_idle (h : s.vlp.Idle) : plugProven s = enterPlugged (selectProfile s) := by
  rw [plugProven, formClamps_idle (s := selectProfile s) h]

/-- The sequencer's START event carries over what START has set. -/
theorem sequencerStart_carried (h : s.vlp.Idle) : Carried s (sequencerStart s) := by
  rcases sequencerStart_cases s with ⟨-, hu⟩ | ⟨-, -, hu⟩ | ⟨-, -, hu⟩ <;> rw [hu]
  · have hclaim := setClaim_carried s s.station.stuckBreakerClaim 0 0
    by_cases hp : s.bsq.phase = .tripped
    · rw [uncommandedClose_tripped hp]
      exact (hclaim.trans (takeCause_carried _ _)).trans
        ⟨rfl, rfl, rfl, rfl, rfl, rfl, rfl, rfl, rfl, rfl, id, id⟩
    · rw [uncommandedClose_untripped hp]
      exact hclaim.trans (takeCause_carried _ _)
  · rw [plugProven_idle h]
    exact (selectProfile_carried s).trans (enterPlugged_carried _)
  · exact .refl s

/-- The berth in PLUGGED with its plug read, before the trip conditions are judged. -/
def State.plugRead (s : State) : State := setPhase .plugged (selectProfile s)

theorem plugRead_bsq (s : State) :
    s.plugRead.bsq =
      { s.bsq with
        phase := .plugged, profileCode := some s.plugCode, noProfile := s.vlp.slots[s.plugCode].isNone } := by
  rw [State.plugRead, setPhase_bsq]
  rfl

theorem enterPlugged_selectProfile (s : State) :
    enterPlugged (selectProfile s) = evaluateEntry (checkConditions s.plugRead) := rfl

theorem plugRead_tru (s : State) : s.plugRead.tru = s.tru := setPhase_tru _ .plugged

theorem plugRead_carried (s : State) : Carried s s.plugRead :=
  (selectProfile_carried s).trans (setPhase_carried _ .plugged)

/-- With the aux open and the e-stop inactive no condition stands in PLUGGED (R168). -/
theorem plugRead_conditions (ha : s.auxClosed = false) (he : s.estopActive = false) :
    s.plugRead.estopCondition = false ∧ s.plugRead.feederCondition = false := by
  have hlib := (plugRead_carried s).lib
  have hactive : s.plugRead.estopActive = false := by rwa [State.estopActive, hlib]
  have haux : s.plugRead.auxClosed = false := by rwa [State.auxClosed, hlib]
  simp [State.estopCondition, State.feederCondition, hactive, haux, plugRead_bsq]

/-- So whatever is remembered of the conditions, none is newly true. -/
theorem plugRead_calm (ha : s.auxClosed = false) (he : s.estopActive = false) (e f : Bool) :
    (s.plugRead.remember e f).calm = true := by
  obtain ⟨hestop, hfeeder⟩ := plugRead_conditions ha he
  simp [State.calm, hestop, hfeeder]

/-- In LISTEN a berth in PLUGGED does not queue (R10). -/
theorem State.entered_of_listen (h : s.svp.mode = .listen) : s.entered = s := by
  refine if_neg fun hcond => ?_
  obtain ⟨hrun, -⟩ := hcond
  exact absurd (h.symm.trans hrun) nofun

/-- At START the proven pilot plugs the berth, where no condition stands (R2, R6). -/
theorem plugProven_calm (hv : s.vlp.Idle) (hm : s.svp.mode = .listen) (ha : s.auxClosed = false)
    (he : s.estopActive = false) : ∃ e f, plugProven s = s.plugRead.remember e f := by
  have hmode : s.plugRead.svp.mode = .listen := by
    rw [(plugRead_carried s).svp]
    exact hm
  have hplug := enterPlugged_of_calm (s := selectProfile s) (plugRead_calm ha he _ _)
  rw [← State.plugRead, State.entered_of_listen hmode] at hplug
  exact ⟨_, _, (plugProven_idle hv).trans hplug⟩

/-- At START the proven pilot under an active e-stop trips the berth from PLUGGED, with ESTOP first (log entry 8). -/
theorem plugProven_estop (hv : s.vlp.Idle) (hh : s.tru.estopHeld = false) (he : s.estopActive = true) :
    LaterOnly (takeCause .estop s.plugRead) (plugProven s) := by
  have hstands : s.plugRead.estopCondition = true := by
    refine (State.estopCondition_iff _).2 ⟨?_, by simp [plugRead_bsq]⟩
    rwa [State.estopActive, (plugRead_carried s).lib]
  have htaken := tripsTaken_of_estop hstands (by rwa [plugRead_tru])
  have hlater : LaterOnly (takeCause .estop s.plugRead) (checkConditions s.plugRead) := by
    have hremembered := LaterOnly.remember true s.plugRead.tru.feederHeld (takeCause .estop s.plugRead)
    have hmore := LaterOnly.tripsTaken (hremembered.phase (takeCause_phase _ _))
    rw [checkConditions_eq, htaken]
    exact (hremembered.trans hmore).trans (.remember _ _ _)
  have hphase := hlater.phase (takeCause_phase _ _)
  have hentry : evaluateEntry (checkConditions s.plugRead) = checkConditions s.plugRead :=
    evaluateEntry_of_not_plugged (by simp [hphase])
  rw [plugProven_idle hv, enterPlugged_selectProfile, hentry]
  exact hlater

end

/-! ### The period at START -/

namespace Csc

variable {c : Csc} {p : Period} {ps : List Period} {code : Address}

theorem begin_mode (code : Address) (c : Csc) : (c.begin code).mode = c.mode := by
  unfold begin
  split
  · rfl
  · unfold select
    split <;> rfl
  · rfl

/-- In STEPPED mode the first record is in force with all its executions left (R112). -/
theorem begin_stepped (h : c.periods = p :: ps) (hm : c.mode = .stepped) :
    (c.begin code).index = 0 ∧ (c.begin code).pc = p.capacity ∧ (c.begin code).remaining = p.executions := by
  have hrecord : c.record 0 = p := by rw [record, h]; rfl
  rw [begin, hm]
  dsimp only
  rw [goTo_eq, hrecord]
  exact ⟨rfl, rfl, rfl⟩

/-- In FIXED mode the first record is in force (R112). -/
theorem begin_fixed (h : c.periods = p :: ps) (hm : c.mode = .fixed) :
    (c.begin code).index = 0 ∧ (c.begin code).pc = p.capacity := by
  have hrecord : c.record 0 = p := by rw [record, h]; rfl
  rw [begin, hm]
  dsimp only
  rw [c.capacityAt_eq, hrecord]
  exact ⟨rfl, rfl⟩

/-- Of a list with a record in it the lowest capacity is one of the list (R115). -/
theorem lowest_mem (h : c.periods = p :: ps) : ∃ q ∈ c.periods, c.lowest = q.capacity := by
  obtain ⟨-, -, hone⟩ := foldl_min_spec (ps.map (·.capacity)) p.capacity
  rw [lowest, h]
  rcases hone with hhead | htail
  · exact ⟨p, List.mem_cons_self, hhead⟩
  · obtain ⟨q, hq, hcap⟩ := List.mem_map.1 htail
    exact ⟨q, List.mem_cons_of_mem _ hq, hcap.symm⟩

/-- In SELECTED mode the record of the select code is in force, or beyond the list the lowest capacity (R112, R115). -/
theorem begin_selected (h : c.periods = p :: ps) (hm : c.mode = .selected) :
    (c.begin code).index = code.val ∧
      (∀ q, c.periods[code.val]? = some q → (c.begin code).pc = q.capacity ∧ (c.begin code).selectRange = false) ∧
      (c.periods.length ≤ code.val →
        (c.begin code).selectRange = true ∧ (∀ q ∈ c.periods, (c.begin code).pc ≤ q.capacity) ∧
          ∃ q ∈ c.periods, (c.begin code).pc = q.capacity) := by
  have hbegin : c.begin code = c.select code := by rw [begin, hm]
  rw [hbegin]
  by_cases hcode : code.val < c.periods.length
  · rw [select_loaded hcode]
    refine ⟨rfl, fun q hq => ⟨?_, rfl⟩, fun hbeyond => absurd hbeyond (Nat.not_le.2 hcode)⟩
    dsimp only
    rw [record, List.getD_eq_getElem?_getD, hq, Option.getD_some]
  · have hbeyond := Nat.not_lt.1 hcode
    rw [select_beyond hbeyond]
    refine ⟨rfl, fun q hq => ?_, fun _ => ⟨rfl, fun q => lowest_le, lowest_mem h⟩⟩
    rw [List.getElem?_eq_none hbeyond] at hq
    exact nomatch hq

end Csc

/-! ### An accepted START -/

/-- The station that START has moved to LISTEN, with the command answered (R182). -/
def State.begun (s : State) : State := answer 5 .accepted [] s.listening

/-- What START leads to once the trip conditions at the end of its event are taken. -/
def State.startTaken (s : State) : State := (answer 5 .accepted [] (startStation s)).tripsTaken

section
variable {s t : State} {r : StationRecord} {p : Period} {ps : List Period}

theorem execStart_accepted (hc : InConfig s) (hr : s.svp.station = some r) (hp : s.csc.periods = p :: ps) :
    exec .start s = .next (settle s (answer 5 .accepted [] (startStation s))) := by
  change execStart s = _
  rw [execStart, if_neg (by simp [hc.started]), if_neg (by simp [hr, hp]), event_eq]

theorem InConfig.idle (hc : InConfig s) : s.listening.vlp.Idle := hc.vlp

theorem begun_carried (hc : InConfig s) : Carried s.begun s.startTaken :=
  ((sequencerStart_carried hc.idle).answered 5 .accepted []).trans (tripsTaken_carried _)

/-- An accepted START ends as every event does. -/
theorem start_ends (hc : InConfig s) :
    EndsAs s s.startTaken (settle s (answer 5 .accepted [] (startStation s))) := by
  have h := ((sequencerStart_carried hc.idle).answered 5 .accepted []).started
  exact settle_ends _ s h

theorem EndsAs.start_service (hc : InConfig s) (h : EndsAs s s.startTaken t) :
    t.svp = { s.begun.svp with attention := t.svp.attention, attn := t.svp.attn } := by
  obtain ⟨-, -, -, -, -, -, -, -, -, -, -, -, hsvp, -⟩ := h
  rw [hsvp]
  exact (begun_carried hc).svp

theorem EndsAs.start_timers (hc : InConfig s) (hr : s.svp.station = some r) (h : EndsAs s s.startTaken t) :
    t.tmb.listen = { interval := 3 * r.announceInterval, left := some (3 * r.announceInterval) } ∧
      t.tmb.announce = { interval := r.announceInterval, left := some r.announceInterval } ∧
      t.tmb.meterStale = { interval := r.meterStaleInterval, left := some r.meterStaleInterval } := by
  obtain ⟨-, -, -, -, -, -, -, -, -, -, htmb, -⟩ := h
  have hcarried := begun_carried hc
  have hstation : s.station = r := by rw [State.station, hr]; rfl
  rw [htmb, ← hstation]
  exact ⟨hcarried.listen, hcarried.announce, hcarried.meterStale⟩

/-- The table after START: the own entry mirrors the station in LISTEN, and every other is as it was (R34, R35). -/
theorem EndsAs.start_table (hc : InConfig s) (h : EndsAs s s.startTaken t) :
    t.ownEntry.standing = .own ∧ t.ownEntry.listening = true ∧ t.ownEntry = t.mirrored t.ownEntry ∧
      ∀ a : Address, a ≠ s.ownAddress → t.pvt[a] = s.pvt[a] := by
  have hcarried := begun_carried hc
  have hpvt : s.startTaken.pvt = s.pvt.set s.ownAddress { s.ownEntry with standing := .own } := hcarried.pvt
  have haddress : s.startTaken.ownAddress = s.ownAddress := hcarried.ownAddress
  have hown : s.startTaken.ownEntry.standing = .own := by
    simp only [State.ownEntry, haddress, hpvt, getElem_set_self]
  have hmirrored := h.ownEntry_mirrored hown
  have hmode : t.svp.mode = .listen := by rw [h.start_service hc]; rfl
  have htable : ∀ a : Address, t.pvt[a] = s.startTaken.entryAfter t a := h.2.1
  refine ⟨?_, ?_, hmirrored, fun a ha => ?_⟩
  · have hentry : t.ownEntry = s.startTaken.entryAfter t s.startTaken.ownAddress := by
      simp only [State.ownEntry, h.alike.ownAddress]
      exact htable _
    have hstanding : s.startTaken.pvt[s.startTaken.ownAddress].standing = .own := hown
    rw [hentry, State.entryAfter]
    rw [if_pos (c := s.startTaken.ownAddress = s.startTaken.ownAddress ∧ _) ⟨rfl, hstanding⟩]
    split <;> exact hstanding
  · rw [hmirrored, State.mirrored, hmode]
    rfl
  · have hother : ¬(a = s.startTaken.ownAddress ∧ s.startTaken.pvt[a].standing = .own) :=
      fun hcond => ha (hcond.1.trans haddress)
    have hblank : s.startTaken.pvt[a] = PeerEntry.blank := by
      rw [hpvt, getElem_set_ne ha, hc.entry a]
    rw [htable, State.entryAfter]
    rw [if_neg hother, hblank, hc.entry a]
    split <;> rfl

/-- A computation begins, an ANNOUNCE is queued and a berth status record is sent (R71, R123, R147). -/
theorem EndsAs.start_begins (hc : InConfig s) (h : EndsAs s s.startTaken t) :
    t.hre.computing.isSome = true ∧ t.blc.holds 1 = true ∧ t.vlp.sender = .sending ∧
      t.vlp.lastSent = some t.statusNow ∧ t.vlp.slots = s.vlp.slots ∧ t.vlp.held = none ∧ t.vlp.link = .idle := by
  have hcarried := begun_carried hc
  obtain ⟨-, -, -, ⟨-, -, hbegins, -⟩, -, -, hblc, hvlp, -⟩ := h
  have hcomputing : s.startTaken.hre.computing = none := by
    rw [hcarried.computing]
    change s.hre.computing = none
    rw [hc.hre]
    rfl
  have hrequest : s.startTaken.hre.request = true := hcarried.request rfl
  have hannounced : s.startTaken.blc.holds 1 = true := hcarried.announced (Blc.requestAnnounce_holds _)
  have hlink : s.startTaken.vlp = { State.reset.vlp with slots := s.vlp.slots } := hcarried.vlp.trans hc.vlp
  obtain ⟨-, hcomputes⟩ := hbegins (by simp [State.begins, hcomputing, hrequest])
  rw [hlink, if_pos ⟨rfl, nofun⟩] at hvlp
  refine ⟨by rw [hcomputes]; rfl, ?_, ?_⟩
  · rw [hblc]
    split <;> exact hannounced
  · rw [hvlp]
    exact ⟨rfl, rfl, rfl, rfl, rfl⟩

/-! ### The berth after START -/

/-- The end of START's event leaves the sequencer and the record but for the voltage-present indication (R5). -/
theorem EndsAs.start_sequencer (hc : InConfig s) (h : EndsAs s s.startTaken t) :
    t.bsq = { s.startTaken.bsq with voltagePresent := s.auxClosed } ∧ t.tru.record = s.startTaken.tru.record := by
  obtain ⟨hbsq, -, -, -, -, -, -, -, -, htru, -⟩ := h
  have hcarried := begun_carried hc
  have hvoltage : s.startTaken.voltageNow = s.auxClosed := by
    rw [State.voltageNow, hcarried.started, State.auxClosed, hcarried.lib]
    exact Bool.true_and _
  exact ⟨by rw [hbsq, hvoltage], by rw [htru]⟩

/-- With the aux open and no pilot the berth stays as CONFIG left it. -/
theorem startTaken_vacant (hc : InConfig s) (ha : s.auxClosed = false) (hp : s.pilotActive = false) :
    s.startTaken = s.begun := by
  have hstart : startStation s = s.listening := by
    rw [startStation_eq, sequencerStart, if_neg, if_neg]
    · exact fun h => absurd (h.symm.trans hp) nofun
    · exact fun h => absurd (h.symm.trans ha) nofun
  have hphase : s.begun.bsq.phase = .vacant := by
    change s.bsq.phase = _
    rw [hc.bsq]
    rfl
  have haux : s.begun.auxClosed = false := ha
  have hcalm : s.begun.calm = true := by simp [State.calm, State.estopCondition, State.feederCondition, hphase, haux]
  rw [State.startTaken, hstart]
  exact State.tripsTaken_of_calm _ hcalm

/-- With the aux open and the pilot proven START is the proof of the pilot (R2). -/
theorem startStation_plug (ha : s.auxClosed = false) (hp : s.pilotActive = true) :
    startStation s = plugProven s.listening := by
  rw [startStation_eq, sequencerStart, if_neg]
  · exact if_pos hp
  · exact fun h => absurd (h.symm.trans ha) nofun

/-- Where no condition stands the berth is PLUGGED. -/
theorem startTaken_plugged (hc : InConfig s) (ha : s.auxClosed = false) (hp : s.pilotActive = true)
    (he : s.estopActive = false) :
    s.startTaken.bsq = s.listening.plugRead.bsq ∧ s.startTaken.tru.record = s.listening.tru.record := by
  obtain ⟨e, f, hplug⟩ := plugProven_calm (s := s.listening) hc.idle rfl ha he
  have hcalm : (answer 5 .accepted [] (s.listening.plugRead.remember e f)).calm = true :=
    plugRead_calm (s := s.listening) ha he e f
  rw [State.startTaken, startStation_plug ha hp, hplug, State.tripsTaken_of_calm _ hcalm]
  have hrecord : s.listening.plugRead.tru.record = s.listening.tru.record := congrArg Tru.record (plugRead_tru _)
  exact ⟨rfl, hrecord⟩

/-- Under an active e-stop it is tripped from PLUGGED. -/
theorem startTaken_estop (hc : InConfig s) (ha : s.auxClosed = false) (hp : s.pilotActive = true)
    (he : s.estopActive = true) : LaterOnly (takeCause .estop s.listening.plugRead) s.startTaken := by
  have hheld : s.listening.tru.estopHeld = false := by
    change s.tru.estopHeld = _
    rw [hc.tru]
    rfl
  have hlater := plugProven_estop (s := s.listening) hc.idle hheld he
  have hanswered := hlater.trans (.of_same (t := answer 5 .accepted [] (plugProven s.listening)) rfl rfl)
  rw [State.startTaken, startStation_plug ha hp]
  exact hanswered.trans (.tripsTaken (hanswered.phase (takeCause_phase _ _)))

/-- With the aux closed it is tripped with the uncommanded close (R2, R28). -/
theorem startTaken_closed (hc : InConfig s) (ha : s.auxClosed = true) :
    LaterOnly (takeCause .breakerUncommanded (setClaim s.station.stuckBreakerClaim 0 0 s.listening)) s.startTaken := by
  have hphase : s.listening.bsq.phase ≠ .tripped := by
    change s.bsq.phase ≠ _
    rw [hc.bsq]
    exact nofun
  have hstart : startStation s =
      takeCause .breakerUncommanded (setClaim s.station.stuckBreakerClaim 0 0 s.listening) := by
    rw [startStation_eq, sequencerStart]
    exact (if_pos ha).trans (uncommandedClose_untripped hphase)
  rw [State.startTaken, hstart]
  generalize htrip : takeCause .breakerUncommanded (setClaim s.station.stuckBreakerClaim 0 0 s.listening) = u
  have hu : u.bsq.phase = .tripped := by rw [← htrip, takeCause_phase]
  have hanswered : LaterOnly u (answer 5 .accepted [] u) := .of_same rfl rfl
  exact hanswered.trans (.tripsTaken (hanswered.phase hu))

theorem InConfig.record (hc : InConfig s) : s.tru.record = none := by
  rw [hc.tru]
  rfl

/-- A berth that stays VACANT is as CONFIG left it. -/
theorem EndsAs.start_vacant (hc : InConfig s) (h : EndsAs s s.startTaken t) (ha : s.auxClosed = false)
    (hp : s.pilotActive = false) : t.bsq = s.bsq ∧ t.tru.record = none := by
  obtain ⟨hbsq, hrecord⟩ := h.start_sequencer hc
  have hvoltage : s.bsq.voltagePresent = false := by rw [hc.bsq]; rfl
  rw [startTaken_vacant hc ha hp] at hbsq hrecord
  refine ⟨?_, hrecord.trans hc.record⟩
  rw [hbsq, ha, ← hvoltage]
  rfl

theorem EndsAs.start_plugged (hc : InConfig s) (h : EndsAs s s.startTaken t) (ha : s.auxClosed = false)
    (hp : s.pilotActive = true) (he : s.estopActive = false) :
    t.bsq = { s.bsq with
      phase := .plugged, profileCode := some s.plugCode, noProfile := s.vlp.slots[s.plugCode].isNone } ∧
      t.tru.record = none := by
  obtain ⟨hbsq, hrecord⟩ := h.start_sequencer hc
  obtain ⟨hplug, htru⟩ := startTaken_plugged hc ha hp he
  have hvoltage : s.bsq.voltagePresent = false := by rw [hc.bsq]; rfl
  refine ⟨?_, hrecord.trans (htru.trans hc.record)⟩
  rw [hbsq, hplug, plugRead_bsq, ha, ← hvoltage]
  rfl

theorem EndsAs.start_estop (hc : InConfig s) (h : EndsAs s s.startTaken t) (ha : s.auxClosed = false)
    (hp : s.pilotActive = true) (he : s.estopActive = true) :
    t.bsq.phase = .tripped ∧ t.bsq.profileCode = some s.plugCode ∧ t.bsq.firm = 0 ∧
      ∃ k, t.tru.record = some k ∧ k.first = .estop ∧ k.phaseAtTrip = .plugged ∧ k.openConfirmed = true := by
  obtain ⟨hbsq, hrecord⟩ := h.start_sequencer hc
  obtain ⟨hlater, hmore⟩ := startTaken_estop hc ha hp he
  have hphase : s.listening.plugRead.bsq.phase = .plugged := by rw [plugRead_bsq]
  have haux : s.listening.plugRead.auxClosed = false := by
    rw [State.auxClosed, (plugRead_carried _).lib]
    exact ha
  obtain ⟨hfirm, hrec⟩ := takeCause_open (c := .estop) (by simp [hphase]) haux
  have hcode := (takeCause_sequencerFrame s.listening.plugRead .estop).profileCode
  rw [plugRead_bsq] at hcode
  obtain ⟨later, hheld⟩ := hmore _ hrec
  rw [hbsq, hlater]
  exact ⟨takeCause_phase _ _, hcode, hfirm, _, hrecord.trans hheld, rfl, hphase, rfl⟩

theorem EndsAs.start_closed (hc : InConfig s) (hr : s.svp.station = some r) (h : EndsAs s s.startTaken t)
    (ha : s.auxClosed = true) :
    t.bsq.phase = .tripped ∧ t.bsq.firm = r.stuckBreakerClaim ∧ t.bsq.flex = 0 ∧ t.bsq.transient = 0 ∧
      t.bsq.bkOpen = true ∧ t.bsq.bkClose = false ∧ t.bsq.voltagePresent = true ∧
      ∃ k, t.tru.record = some k ∧ k.first = .breakerUncommanded ∧ k.phaseAtTrip = .vacant ∧
        k.openConfirmed = false := by
  obtain ⟨hbsq, hrecord⟩ := h.start_sequencer hc
  obtain ⟨hlater, hmore⟩ := startTaken_closed hc ha
  have hstation : s.station = r := by rw [State.station, hr]; rfl
  rw [hstation] at hlater hmore
  have hclaim := setClaim_bsq s.listening r.stuckBreakerClaim 0 0
  have hphase : (setClaim r.stuckBreakerClaim 0 0 s.listening).bsq.phase = .vacant := by
    rw [hclaim]
    change s.bsq.phase = _
    rw [hc.bsq]
    rfl
  have haux : (setClaim r.stuckBreakerClaim 0 0 s.listening).auxClosed = true := by
    rw [State.auxClosed, (setClaim_carried s.listening _ _ _).lib]
    exact ha
  obtain ⟨hfirm, hflex, htransient, hopen, hclose, hrec⟩ :=
    takeCause_closed (c := .breakerUncommanded) (fun h => nomatch hphase.symm.trans h) haux
  rw [hclaim] at hfirm hflex htransient
  obtain ⟨later, hheld⟩ := hmore _ hrec
  rw [hbsq, hlater, ha]
  exact ⟨takeCause_phase _ _, hfirm, hflex, htransient, hopen, hclose, rfl, _, hrecord.trans hheld, rfl, hphase, rfl⟩

end

/-- Settles O8: the station moves to LISTEN, the sequencer's START event and the trips behind it carry over what START
has set, and the event ends as every event does. -/
theorem startAcceptedMovesToListen : Obligations.StartAcceptedMovesToListen := by
  intro s r p ps hq hm hr hp
  have hc := (configQuiet_iff s).1 hq hm
  refine ⟨_, execStart_accepted hc hr hp, ?_⟩
  have h := start_ends hc
  generalize settle s (answer 5 .accepted [] (startStation s)) = t at h
  have hsvp := h.start_service hc
  obtain ⟨hlisten, hannounce, hstale⟩ := h.start_timers hc hr
  obtain ⟨hown, hlistening, hmirrored, hothers⟩ := h.start_table hc
  obtain ⟨hcomputing, hqueued, hsender, hsent, hslots, hheld, hlink⟩ := h.start_begins hc
  have hcsc : t.csc = s.csc.begin s.selectCode := h.alike.csc.trans (begun_carried hc).csc
  have hmtp : t.mtp = s.mtp := h.alike.mtp.trans (begun_carried hc).mtp
  have hlib : t.lib = s.lib := by
    obtain ⟨-, -, -, -, -, -, -, -, -, -, -, hlib, -⟩ := h
    exact hlib.trans (begun_carried hc).lib
  refine ⟨by rw [hsvp]; rfl, by rw [hsvp]; exact hr, by rw [hsvp]; rfl, by rw [hsvp]; rfl, by rw [hsvp]; rfl, hlisten,
    hannounce, hstale, hown, hlistening, hmirrored, hothers, ?_, ?_, ?_, ?_, ?_, hcomputing, hqueued, hsender, hsent,
    hslots, hheld, hlink, hmtp, hlib, fun ⟨ha, hpilot⟩ => h.start_vacant hc ha hpilot,
    fun ⟨ha, hpilot, he⟩ => h.start_plugged hc ha hpilot he, fun ⟨ha, hpilot, he⟩ => h.start_estop hc ha hpilot he,
    h.start_closed hc hr⟩ <;> rw [hcsc]
  · exact Csc.begin_periods _ _
  · exact Csc.begin_mode _ _
  · exact Csc.begin_stepped hp
  · exact Csc.begin_fixed hp
  · exact Csc.begin_selected hp

end Sys2Proof.Machine

/-! SUPPORT. Figures in one byte and in two, the check register bit by bit, and the check of a record; and the statement
about the check value. -/

namespace Sys2Proof.Machine

/-! ### Figures in bytes (R188) -/

theorem byte_toNat {n : Nat} (h : n < 256) : (byte n).toNat = n := by
  rw [byte, BitVec.toNat_ofNat]
  exact Nat.mod_eq_of_lt h

/-- A figure that two bytes hold is the one they carry. -/
theorem of16_bytes {n : Nat} (h : n < 65536) : of16 (byte n) (byte (n / 256)) = n := by
  simp only [of16, byte, BitVec.toNat_ofNat]
  omega

/-- Two bytes are those of the figure they carry. -/
theorem le16_of16 (lo hi : Byte) : le16 (of16 lo hi) = [lo, hi] := by
  have hlo := lo.isLt
  have hhi := hi.isLt
  simp only [le16, byte, of16, List.cons.injEq, and_true]
  constructor <;> (apply BitVec.eq_of_toNat_eq; rw [BitVec.toNat_ofNat]; omega)

/-! ### The check register (R193) -/

/-- The check register after the first `i` bits of a byte. -/
def registerAfter (r : Check) (b : Byte) (i : Nat) : Check :=
  (List.range i).foldl (fun r i => checkBit r (b.getLsbD i)) r

@[simp] theorem registerAfter_zero (r : Check) (b : Byte) : registerAfter r b 0 = r := rfl

theorem registerAfter_succ (r : Check) (b : Byte) (i : Nat) :
    registerAfter r b (i + 1) = checkBit (registerAfter r b i) (b.getLsbD i) := by
  simp [registerAfter, List.range_succ]

theorem checkByte_eq (r : Check) (b : Byte) : checkByte r b = registerAfter r b 8 := rfl

theorem checkOf_append (xs ys : List Byte) : checkOf (xs ++ ys) = ys.foldl checkByte (checkOf xs) :=
  List.foldl_append

/-- The pattern's bits are 15, 10 and 3. -/
theorem pattern_getLsbD : ∀ j, j < 16 → (0x8408#16).getLsbD j = (j == 15 || j == 10 || j == 3) := by decide

/-- A data bit shifts the register by one place, and enters at the pattern's bits with the bit shifted out. -/
theorem checkBit_getLsbD (r : Check) (bit : Bool) {j : Nat} (hj : j < 16) :
    (checkBit r bit).getLsbD j =
      (r.getLsbD (j + 1) ^^ ((r.getLsbD 0 ^^ bit) && (j == 15 || j == 10 || j == 3))) := by
  unfold checkBit
  split
  next h => rw [BitVec.getLsbD_xor, BitVec.getLsbD_ushiftRight, pattern_getLsbD j hj, h, Bool.true_and, Nat.add_comm]
  next h => rw [BitVec.getLsbD_ushiftRight, eq_false_of_ne_true h, Bool.false_and, Bool.xor_false, Nat.add_comm]

/-- A data bit equal to the bit shifted out is a shift alone. -/
theorem checkBit_self (r : Check) : checkBit r (r.getLsbD 0) = r >>> 1 := by simp [checkBit]

/-- The register's own low byte shifts it out bit by bit. -/
theorem registerAfter_self (r : Check) {i : Nat} (hi : i ≤ 8) : registerAfter r (r.setWidth 8) i = r >>> i := by
  induction i with
  | zero => rfl
  | succ i ih =>
    have hbit : (r.setWidth 8).getLsbD i = (r >>> i).getLsbD 0 := by
      simp [show i < 8 from hi]
    rw [registerAfter_succ, ih (Nat.le_of_lt hi), hbit, checkBit_self, BitVec.shiftRight_add]

theorem checkByte_self (r : Check) : checkByte r (r.setWidth 8) = r >>> 8 := registerAfter_self r le_rfl

/-! ### Records with their check (R188, R193) -/

theorem le16_check (r : Check) : le16 r.toNat = [r.setWidth 8, (r >>> 8).setWidth 8] := by
  simp only [le16, byte, List.cons.injEq, and_true]
  constructor <;> apply BitVec.eq_of_toNat_eq <;> simp [Nat.shiftRight_eq_div_pow]

/-- Its own two bytes, low byte first, bring the register to 0. -/
theorem checkOf_withCheck (bs : List Byte) : checkOf (withCheck bs) = 0 := by
  rw [withCheck, le16_check, checkOf_append, List.foldl_cons, List.foldl_cons, List.foldl_nil, checkByte_self,
    checkByte_self, ← BitVec.shiftRight_add]
  exact BitVec.ushiftRight_eq_zero le_rfl

@[simp] theorem withCheck_length (bs : List Byte) : (withCheck bs).length = bs.length + 2 := by simp [withCheck]

@[simp] theorem payload_withCheck (bs : List Byte) : payload (withCheck bs) = bs := by simp [payload, withCheck]

/-- Two bytes that carry the check value are the check. -/
theorem withCheck_eq {bs : List Byte} {lo hi : Byte} (h : (checkOf bs).toNat = of16 lo hi) :
    withCheck bs = bs ++ [lo, hi] := by
  rw [withCheck, h, le16_of16]

/-- A received record passes just where it is one with its check after it. -/
theorem checkGood_iff (bs : List Byte) : checkGood bs = true ↔ ∃ m, bs = withCheck m := by
  simp only [checkGood, Bool.and_eq_true, beq_iff_eq]
  refine ⟨fun ⟨_, h⟩ => ⟨payload bs, h.symm⟩, ?_⟩
  rintro ⟨m, rfl⟩
  simp

@[simp] theorem checkGood_withCheck (bs : List Byte) : checkGood (withCheck bs) = true := (checkGood_iff _).2 ⟨bs, rfl⟩

/-- Settles O45: the register bit by bit, and a record with its check as the two bytes that carry it. -/
theorem checkValueIsTheShiftRegister : Obligations.CheckValueIsTheShiftRegister := by
  refine ⟨rfl, fun bs b => ⟨registerAfter (checkOf bs) b, rfl, checkOf_append bs [b], fun i _ j hj => ?_⟩, fun bs => ?_,
    fun bs => ?_, fun bs => ⟨checkOf_withCheck bs, fun h => ?_⟩⟩
  · rw [registerAfter_succ, checkBit_getLsbD _ _ hj]
  · exact ⟨_, _, rfl, (of16_bytes (checkOf bs).isLt).symm⟩
  · rw [checkGood_iff]
    constructor
    · rintro ⟨m, rfl⟩
      exact ⟨m, _, _, rfl, (of16_bytes (checkOf m).isLt).symm⟩
    · rintro ⟨m, lo, hi, rfl, h⟩
      exact ⟨m, (withCheck_eq h).symm⟩
  · obtain ⟨m, rfl⟩ := (checkGood_iff bs).1 h
    exact checkOf_withCheck m

end Sys2Proof.Machine

/-! SUPPORT. The fields of a command record read back at their places; and the statement about the thirteen service
commands. -/

namespace Sys2Proof.Machine

/-! ### Fields at their places (R191) -/

section
variable {d : List Byte} {i : Nat}

theorem field8_eq {n : Nat} (hn : fits8 n = true) (h : d.getD i 0 = byte n) : field8 d i = n := by
  rw [field8, h, byte_toNat (of_decide_eq_true hn)]

theorem field16_eq {n : Nat} (hn : fits16 n = true) (hlo : d.getD i 0 = byte n)
    (hhi : d.getD (i + 1) 0 = byte (n / 256)) : field16 d i = n := by
  rw [field16, hlo, hhi, of16_bytes (of_decide_eq_true hn)]

theorem lineField_eq {a : LineArg} (ha : a.wf = true) (hkind : d.getD i 0 = byte a.kind)
    (hlo : d.getD (i + 1) 0 = byte a.delay) (hhi : d.getD (i + 1 + 1) 0 = byte (a.delay / 256)) :
    lineField d i = a := by
  obtain ⟨hk, hd⟩ := Bool.and_eq_true_iff.1 ha
  rw [lineField, field8_eq hk hkind, field16_eq hd hlo hhi]

end

/-- The 44 bytes of a station record are read back. -/
theorem stationOf_stationData {r : StationRecord} (h : r.wf = true) : stationOf (stationData r) = some r := by
  simp only [StationRecord.wf, Bool.and_eq_true, and_assoc] at h
  obtain ⟨haddress, hmargin, hannounce, hhold, hbackoff, hforget, hbreaker, htimeout, hloss, hstale, hstuck, hpilot,
    hestop, hbkaux, hfdrwarn, htadv, htrst, hpcode, htsel⟩ := h
  rw [stationOf, if_pos (stationData_length r), Option.some_inj, StationRecord.mk.injEq]
  simp only [stationData, le16, List.cons_append, List.nil_append]
  exact ⟨field8_eq haddress rfl, field16_eq hmargin rfl rfl, field16_eq hannounce rfl rfl, field16_eq hhold rfl rfl,
    field16_eq hbackoff rfl rfl, field16_eq hforget rfl rfl, field16_eq hbreaker rfl rfl, field16_eq htimeout rfl rfl,
    field8_eq hloss rfl, field16_eq hstale rfl rfl, field16_eq hstuck rfl rfl, lineField_eq hpilot rfl rfl rfl,
    lineField_eq hestop rfl rfl rfl, lineField_eq hbkaux rfl rfl rfl, lineField_eq hfdrwarn rfl rfl rfl,
    lineField_eq htadv rfl rfl rfl, lineField_eq htrst rfl rfl rfl, lineField_eq hpcode rfl rfl rfl,
    lineField_eq htsel rfl rfl rfl⟩

@[simp] theorem profileData_length (p : ProfileArgs) : (profileData p).length = 33 := by
  simp [profileData]

/-- The 33 bytes of LOAD_PROFILE are read back. -/
theorem profileOf_profileData {p : ProfileArgs} (h : p.wf = true) : profileOf (profileData p) = some p := by
  simp only [ProfileArgs.wf, Bool.and_eq_true, and_assoc] at h
  obtain ⟨hslot, hmaxFirm, hminFirm, hmaxFlex, hquantum, hraise, hstep, hinterval, hdownramp, hinrush, hwindow, hsync,
    hparallel, htolerance, hdwell, hstall, hpresence, hid⟩ := h
  rw [profileOf, if_pos (profileData_length p), Option.some_inj, ProfileArgs.mk.injEq]
  simp only [profileData, le16, List.cons_append, List.nil_append]
  exact ⟨field8_eq hslot rfl, field16_eq hmaxFirm rfl rfl, field16_eq hminFirm rfl rfl, field16_eq hmaxFlex rfl rfl,
    field16_eq hquantum rfl rfl, field16_eq hraise rfl rfl, field16_eq hstep rfl rfl, field16_eq hinterval rfl rfl,
    field16_eq hdownramp rfl rfl, field16_eq hinrush rfl rfl, field16_eq hwindow rfl rfl, field16_eq hsync rfl rfl,
    field16_eq hparallel rfl rfl, field16_eq htolerance rfl rfl, field16_eq hdwell rfl rfl, field8_eq hstall rfl,
    field8_eq hpresence rfl, field16_eq hid rfl rfl⟩

/-! ### Commands and transactions (R179, R191) -/

section
variable {i : Instr} {k : Nat}

/-- The kind bytes run from 1 to 13. -/
theorem commandKind_range (h : commandKind i = some k) : 1 ≤ k ∧ k ≤ 13 := by
  cases i <;> cases h <;> decide

/-- The kind and the data fields of a command are read back. -/
theorem commandOf_commandData (hw : i.wf = true) (hk : commandKind i = some k) :
    commandOf k (commandData i) = some i := by
  cases i <;> cases hk
  case loadStation r => simp only [commandOf, commandData, stationOf_stationData hw, Option.map_some]
  case loadProfile p => simp only [commandOf, commandData, profileOf_profileData hw, Option.map_some]
  case loadPeriod index capacity executions =>
    simp only [Instr.wf, Bool.and_eq_true, fits8, fits16, decide_eq_true_eq] at hw
    obtain ⟨⟨hindex, hcapacity⟩, hexecutions⟩ := hw
    change some (Instr.loadPeriod (byte index).toNat _ (byte executions).toNat) = _
    rw [byte_toNat hindex, of16_bytes hcapacity, byte_toNat hexecutions]
  case setScheduleMode n | readPeer n | forgetPeer n | berthHold n =>
    simp [commandOf, commandData, byte_toNat (of_decide_eq_true hw)]
  case probe want => exact congrArg (fun n => some (Instr.probe n)) (of16_bytes (of_decide_eq_true hw))
  all_goals rfl

end

/-- A transaction that is a record with its check is what its kind byte and its data fields carry. -/
theorem decodeTransaction_withCheck (b : Byte) (d : List Byte) :
    decodeTransaction (withCheck (b :: d)) = commandOf b.toNat d := by
  simp [decodeTransaction]

theorem decodeTransaction_commandBytes {i : Instr} {bs : List Byte} (hw : i.wf = true)
    (h : commandBytes i = some bs) : decodeTransaction bs = some i := by
  obtain ⟨k, hk, rfl⟩ := Option.map_eq_some_iff.1 h
  obtain ⟨-, hmax⟩ := commandKind_range hk
  rw [decodeTransaction_withCheck, byte_toNat (by omega), commandOf_commandData hw hk]

/-- Settles O46: a command record is read back field by field, and the thirteen rows that have one are counted out. -/
theorem serviceRecordsDecodeToTheirCommands : Obligations.ServiceRecordsDecodeToTheirCommands := by
  refine fun i => ⟨fun bs hw h => decodeTransaction_commandBytes hw h, ?_⟩
  rw [commandBytes, Option.isSome_map]
  cases i <;> simp [commandKind]

end Sys2Proof.Machine

/-! SUPPORT. The ends of transmissions and records level by level, what a receiver assembles of characters, and the
frames, records and words of chapter 12 with their fields; and the statement about them. -/

namespace Sys2Proof.Machine

/-! ### The end of a transmission or record (R121, R135) -/

section
variable {limit run : Nat} {ls : List Level}

/-- Levels end where their run of released ones first reaches the limit. -/
theorem endsAfter_iff (hrun : run < limit) :
    endsAfter limit run ls = true ↔
      limit ≤ releasedRun run ls ∧ ∀ p q, ls = p ++ q → limit ≤ releasedRun run p → q = [] := by
  induction ls generalizing run with
  | nil => simpa [endsAfter, releasedRun] using hrun
  | cons l ls ih =>
    generalize hnext : (if l then 0 else run + 1) = next
    have hstep (p : List Level) : releasedRun run (l :: p) = releasedRun next p := hnext ▸ rfl
    have hcut : (∀ p q, l :: ls = p ++ q → limit ≤ releasedRun run p → q = []) ↔
        ∀ p q, ls = p ++ q → limit ≤ releasedRun next p → q = [] := by
      refine ⟨fun h p q hpq hp => h (l :: p) q (congrArg _ hpq) (hstep p ▸ hp), fun h p q hpq hp => ?_⟩
      cases p with
      | nil => exact absurd hrun (Nat.not_lt.2 hp)
      | cons l' p =>
        obtain ⟨rfl, rfl⟩ := List.cons.inj hpq
        exact h p q rfl (hstep p ▸ hp)
    rw [hcut, hstep]
    simp only [endsAfter, hnext]
    have hle : next ≤ limit := by subst hnext; split_ifs <;> omega
    by_cases hreached : next = limit
    · rw [if_pos hreached, List.isEmpty_iff]
      constructor
      · rintro rfl
        exact ⟨hreached.ge, fun p q hpq _ => (List.append_eq_nil_iff.1 hpq.symm).2⟩
      · exact fun ⟨_, h⟩ => h [] ls rfl hreached.ge
    · rw [if_neg hreached, ih (by omega)]

@[simp] theorem releasedRun_replicate (run n : Nat) : releasedRun run (List.replicate n false) = run + n := by
  induction n generalizing run with
  | zero => rfl
  | succ n ih => exact (ih (run + 1)).trans (by omega)

/-- The count has come to the limit just where that many released levels stand at the end. -/
theorem le_releasedRun_iff : limit ≤ releasedRun 0 ls ↔ ∃ m, ls = m ++ List.replicate limit false := by
  refine ⟨fun h => ?_, ?_⟩
  · induction ls using List.reverseRecOn generalizing limit with
    | nil => exact ⟨[], by rw [Nat.le_zero.1 h]; rfl⟩
    | append_singleton ls l ih =>
      rw [releasedRun_append] at h
      match limit, l with
      | 0, _ => exact ⟨_, (List.append_nil _).symm⟩
      | _ + 1, true => exact absurd h (Nat.not_succ_le_zero _)
      | limit + 1, false =>
        obtain ⟨m, rfl⟩ := ih (Nat.le_of_succ_le_succ h)
        exact ⟨m, by rw [List.replicate_succ', List.append_assoc]⟩
  · rintro ⟨m, rfl⟩
    rw [releasedRun_append, releasedRun_replicate]
    exact Nat.le_add_left _ _

theorem endsAfter_zero_iff (hlimit : 1 ≤ limit) :
    endsAfter limit 0 ls = true ↔ (∃ m, ls = m ++ List.replicate limit false) ∧
      ∀ m n, ls = m ++ List.replicate limit false ++ n → n = [] := by
  rw [endsAfter_iff hlimit, le_releasedRun_iff]
  refine and_congr_right fun _ => ⟨fun h m n hmn => h _ n hmn (le_releasedRun_iff.2 ⟨m, rfl⟩), fun h p q hpq hp => ?_⟩
  obtain ⟨m, rfl⟩ := le_releasedRun_iff.1 hp
  exact h m q hpq

/-- Too few levels to reach the limit are counted on. -/
theorem endsAfter_append (h : run + ls.length < limit) (rest : List Level) :
    endsAfter limit run (ls ++ rest) = endsAfter limit (releasedRun run ls) rest := by
  induction ls generalizing run with
  | nil => rfl
  | cons l ls ih =>
    rw [List.length_cons] at h
    have hnext : (if l then 0 else run + 1) + ls.length < limit := by split_ifs <;> omega
    rw [List.cons_append, endsAfter, if_neg (by omega), ih hnext]
    rfl

/-- A character starts driven, and the nine levels after that bring nothing to an end (R120). -/
theorem endsAfter_charLevels (h : 10 ≤ limit) (b : Byte) (rest : List Level) :
    endsAfter limit run (charLevels b ++ rest) = endsAfter limit (releasedRun run (charLevels b)) rest := by
  change endsAfter limit run (true :: ((charLevels b).tail ++ rest)) = _
  rw [endsAfter, if_neg (by rw [if_pos rfl]; omega), endsAfter_append (by simp; omega)]
  rfl

theorem endsAfter_characters (h : 10 ≤ limit) (bs : List Byte) (rest : List Level) :
    endsAfter limit run (bs.flatMap charLevels ++ rest) =
      endsAfter limit (releasedRun run (bs.flatMap charLevels)) rest := by
  induction bs generalizing run with
  | nil => rfl
  | cons b bs ih => rw [List.flatMap_cons, List.append_assoc, endsAfter_charLevels h, ih, releasedRun_append]

/-- What is missing of the limit in released levels brings them to their end. -/
theorem endsAfter_replicate {n : Nat} (hn : 1 ≤ n) (h : run + n = limit) :
    endsAfter limit run (List.replicate n false) = true := by
  rw [endsAfter_iff (by omega), releasedRun_replicate]
  refine ⟨h.ge, fun p q hpq hp => ?_⟩
  obtain ⟨hlen, hreleased, -⟩ := List.replicate_eq_append_iff.1 hpq
  rw [hreleased, releasedRun_replicate] at hp
  exact List.eq_nil_of_length_eq_zero (by omega)

/-- Characters back to back come to their end with 1 to `limit` released bit times after them. -/
theorem characters_end (h : 10 ≤ limit) (bs : List Byte) :
    ∃ n, 1 ≤ n ∧ n ≤ limit ∧ endsAfter limit 0 (bs.flatMap charLevels ++ List.replicate n false) = true := by
  have hrun := releasedRun_flatMap_lt bs
  refine ⟨limit - releasedRun 0 (bs.flatMap charLevels), by omega, by omega, ?_⟩
  rw [endsAfter_characters h, endsAfter_replicate (by omega) (by omega)]

end

/-! ### What a receiver assembles (R120, R130, R135) -/

/-- A receiver that holds something between characters. -/
def Assembly.holding (x : Reception) : Assembly := { held := x, data := none }

/-- One reception after another. -/
def joined (x y : Reception) : Reception :=
  { bytes := x.bytes ++ y.bytes, framingError := x.framingError || y.framingError }

section
variable (x y : Reception) (o : Option (List Level)) (ls later : List Level) (bs : List Byte)

/-- What was held before has no part in what a bit time adds. -/
theorem take_joined (l : Level) :
    Assembly.take { held := joined x y, data := o } l =
      { held := joined x (Assembly.take { held := y, data := o } l).held
        data := (Assembly.take { held := y, data := o } l).data } := by
  cases o with
  | none => rfl
  | some d =>
    by_cases hd : d.length < Config.dataBits <;>
      simp [Assembly.take, hd, joined, List.append_assoc, Bool.or_assoc]

theorem foldl_take_joined :
    ls.foldl Assembly.take { held := joined x y, data := o } =
      { held := joined x (ls.foldl Assembly.take { held := y, data := o }).held
        data := (ls.foldl Assembly.take { held := y, data := o }).data } := by
  induction ls generalizing y o with
  | nil => rfl
  | cons l ls ih => rw [List.foldl_cons, take_joined, ih]; rfl

variable {x ls} in
/-- Levels that end between characters leave the later ones to be assembled on their own. -/
theorem assemble_append (h : ls.foldl Assembly.take (.holding { bytes := [], framingError := false }) = .holding x) :
    assemble (ls ++ later) = joined x (assemble later) := by
  have hx : x = joined x { bytes := [], framingError := false } := by simp [joined]
  have hlater := foldl_take_joined x { bytes := [], framingError := false } none later
  rw [← hx] at hlater
  exact congrArg Assembly.held (((List.foldl_append ..).trans (congrArg (later.foldl _) h)).trans hlater)

theorem foldl_take_characters :
    (bs.flatMap charLevels).foldl Assembly.take (.holding x) = .holding { x with bytes := x.bytes ++ bs } := by
  induction bs generalizing x with
  | nil => simp
  | cons b bs ih =>
    rw [List.flatMap_cons, List.foldl_append, Assembly.holding, foldl_take_charLevels]
    exact (ih _).trans (by simp)

/-- Data bits are held until the character has its eight. -/
theorem foldl_take_data {d : List Level} (h : d.length + ls.length ≤ 8) :
    ls.foldl Assembly.take { held := x, data := some d } = { held := x, data := some (d ++ ls) } := by
  induction ls generalizing d with
  | nil => simp
  | cons l ls ih =>
    rw [List.length_cons] at h
    have htake : Assembly.take { held := x, data := some d } l = { held := x, data := some (d ++ [l]) } :=
      if_pos (show d.length < 8 by omega)
    rw [List.foldl_cons, htake, ih (by simp; omega), List.append_assoc]
    rfl

/-- A character whose stop bit is driven is held with a framing error. -/
theorem foldl_take_drivenStop {data : List Level} (h : data.length = 8) :
    (true :: data ++ [true]).foldl Assembly.take (.holding x) =
      .holding { bytes := x.bytes ++ [byteOf data], framingError := true } := by
  have hstart : Assembly.take (.holding x) true = { held := x, data := some [] } := rfl
  rw [List.cons_append, List.foldl_cons, List.foldl_append, hstart, foldl_take_data x data (by simp [h])]
  simp [Assembly.take, h, Config.dataBits, Assembly.holding]

/-- Characters are assembled to their bytes, and released bit times after them are passed over. -/
theorem assemble_characters (n : Nat) :
    assemble (bs.flatMap charLevels ++ List.replicate n false ++ later) =
      { bytes := bs ++ (assemble later).bytes, framingError := (assemble later).framingError } := by
  refine (assemble_append (x := { bytes := bs, framingError := false }) later ?_).trans ?_
  · rw [List.foldl_append, foldl_take_characters]
    exact foldl_take_released _ n
  · rw [joined, Bool.false_or]

theorem assemble_drivenStop {data : List Level} (h : data.length = 8) :
    (assemble (bs.flatMap charLevels ++ [true] ++ data ++ [true] ++ later)).framingError = true := by
  rw [assemble_append (x := { bytes := bs ++ [byteOf data], framingError := true })]
  · rfl
  · rw [List.append_assoc, List.append_assoc, List.foldl_append, foldl_take_characters]
    exact foldl_take_drivenStop _ h

theorem assemble_whole (n : Nat) :
    assemble (bs.flatMap charLevels ++ List.replicate n false) = { bytes := bs, framingError := false } := by
  have h := assemble_characters [] bs n
  rwa [List.append_nil, show assemble [] = { bytes := [], framingError := false } from rfl, List.append_nil] at h

end

/-- What starts with a character starts driven. -/
theorem head_characters (b : Byte) (bs : List Byte) (rest : List Level) :
    ((b :: bs).flatMap charLevels ++ rest).head? = some true := rfl

theorem withCheck_ne_nil (bs : List Byte) : withCheck bs ≠ [] := by simp [withCheck, le16]

/-- A record or frame sent level by level is whole with 1 to `limit` released bit times after it. -/
theorem withCheck_ends {limit : Nat} (h : 10 ≤ limit) (bs : List Byte) :
    ∃ n, 1 ≤ n ∧ n ≤ limit ∧
      (((withCheck bs).flatMap charLevels ++ List.replicate n false).head? == some true &&
        endsAfter limit 0 ((withCheck bs).flatMap charLevels ++ List.replicate n false)) = true := by
  obtain ⟨n, hpos, hle, hend⟩ := characters_end h (withCheck bs)
  obtain ⟨b, rest, hcons⟩ := List.exists_cons_of_ne_nil (withCheck_ne_nil bs)
  refine ⟨n, hpos, hle, Bool.and_eq_true_iff.2 ⟨?_, hend⟩⟩
  rw [hcons, head_characters]
  rfl

/-! ### Frames (R189) -/

/-- The first byte of a frame carries the address beside the kind. -/
theorem header_toNat (a : Address) {k : Nat} (hk : k ≤ 240) : (byte (a.val + k)).toNat = a.val + k :=
  byte_toNat (by have := a.isLt; omega)

theorem addressOf_header (a : Address) {k : Nat} (hk : k ≤ 240) (hkind : 16 ∣ k) :
    addressOf (byte (a.val + k)) = a := by
  apply Fin.ext
  rw [addressOf, header_toNat a hk]
  change (a.val + k) % 16 = a.val
  omega

/-- The three flags of an ANNOUNCE are read back. -/
theorem flags_getLsbD (t f l : Bool) :
    (byte (flag t + 2 * flag f + 4 * flag l)).getLsbD 0 = t ∧
      (byte (flag t + 2 * flag f + 4 * flag l)).getLsbD 1 = f ∧
      (byte (flag t + 2 * flag f + 4 * flag l)).getLsbD 2 = l := by
  revert t f l
  decide

/-- A frame in its ranges is parsed from its bytes. -/
theorem parseBody_body {f : Frame} (h : f.inRange = true) : parseBody f.body = some f := by
  cases f with
  | announce a f =>
    simp only [Frame.inRange, Bool.and_eq_true, decide_eq_true_eq] at h
    obtain ⟨⟨⟨⟨⟨hphase, hindex⟩, hfirm⟩, hflex⟩, htransient⟩, hcapacity⟩ := h
    have ha := a.isLt
    obtain ⟨ht, hf, hl⟩ := flags_getLsbD f.tripped f.firmOverload f.listening
    have hcodes : (byte (f.phaseCode + 16 * f.periodIndex)).toNat = f.phaseCode + 16 * f.periodIndex :=
      byte_toNat (by omega)
    have hphaseCode : (f.phaseCode + 16 * f.periodIndex) % 16 = f.phaseCode := by omega
    have hperiodIndex : (f.phaseCode + 16 * f.periodIndex) / 16 = f.periodIndex := by omega
    simp only [Frame.body, le16, List.cons_append, List.nil_append, parseBody, header_toNat a (k := 16) (by decide),
      addressOf_header a (k := 16) (by decide) (by decide), hcodes, hphaseCode, hperiodIndex,
      of16_bytes (show f.firm < 65536 by omega), of16_bytes (show f.flex < 65536 by omega),
      of16_bytes (show f.transient < 65536 by omega), of16_bytes (show f.capacity < 65536 by omega), ht, hf, hl]
    exact if_pos ⟨by omega, hphase, hfirm, hflex, htransient, hcapacity⟩
  | reserve a amount cls =>
    have hamount : amount ≤ 16383 := of_decide_eq_true h
    have ha := a.isLt
    simp only [Frame.body, le16, List.cons_append, List.nil_append, parseBody, header_toNat a (k := 32) (by decide),
      addressOf_header a (k := 32) (by decide) (by decide), of16_bytes (show amount < 65536 by omega)]
    rw [if_pos ⟨by omega, hamount⟩]
    cases cls <;> rfl
  | withdraw a =>
    have ha := a.isLt
    simp only [Frame.body, parseBody, header_toNat a (k := 48) (by decide),
      addressOf_header a (k := 48) (by decide) (by decide)]
    exact if_pos (by omega)

theorem Frame.body_pos (f : Frame) : 1 ≤ f.body.length := by
  cases f <;> simp [Frame.body]

/-- A frame in its ranges, received without a framing error, is judged good (R130). -/
theorem judge_bytes {f : Frame} (h : f.inRange = true) :
    judge { bytes := f.bytes, framingError := false } = .good f := by
  have hlen := f.body_pos
  rw [judge, if_neg (by simp [Frame.bytes]; omega)]
  simp [Frame.bytes, parseBody_body h]

theorem Frame.levels_length_eq (f : Frame) :
    f.levels.length = match f with | .announce _ _ => 130 | .reserve _ _ _ => 60 | .withdraw _ => 30 := by
  rw [Frame.levels_length, Frame.bytes, withCheck_length]
  cases f <;> rfl

/-! ### Vessel link records (R190) -/

theorem requestOf_code (r : ShipRequest) : requestOf (byte r.code).toNat = some r := by
  cases r <;> rfl

/-- The breaker and the generators, which share a byte, are read back. -/
theorem breakerAndGenerators (b : Bool) (g : Generators) :
    (byte (flag b + 16 * g.code)).toNat % 4 = flag b ∧
      generatorsOf ((byte (flag b + 16 * g.code)).toNat / 16 % 4) = some g := by
  cases b <;> cases g <;> decide

/-- A ship status record with its figures in two bytes is parsed from its bytes. -/
theorem parseShip_body {r : ShipRecord} (hid : 1 ≤ r.vesselId) (hid' : r.vesselId < 65536)
    (hfirm : r.firmDemand < 65536) (hflex : r.flexDemand < 65536) (hecho : r.echo < 65536) :
    parseShip r.body = some r := by
  obtain ⟨hbreaker, hgenerators⟩ := breakerAndGenerators r.breakerClosed r.generators
  simp only [ShipRecord.body, le16, List.cons_append, List.nil_append, parseShip, requestOf_code, hgenerators, hbreaker,
    of16_bytes hid', of16_bytes hfirm, of16_bytes hflex, of16_bytes hecho]
  have hclosed : (flag r.breakerClosed == 1) = r.breakerClosed := by cases r.breakerClosed <;> rfl
  rw [if_pos ⟨by omega, Bool.toNat_le _⟩, hclosed]

/-- A record sent on VRX is taken as what its bytes carry. -/
theorem shipRecordIn_sent (r : ShipRecord) :
    ∃ n, 1 ≤ n ∧ n ≤ 20 ∧
      shipRecordIn ((withCheck r.body).flatMap charLevels ++ List.replicate n false) = parseShip r.body := by
  obtain ⟨n, hpos, hle, hwhole⟩ := withCheck_ends (limit := Config.recordRun) (by decide) r.body
  refine ⟨n, hpos, hle, ?_⟩
  rw [shipRecordIn, wholeRecord, if_pos hwhole, assemble_whole, shipRecordOf, if_neg (by simp), payload_withCheck]

/-! ### Port words and responses (R191, R194) -/

section
variable {grant count : Nat}

theorem refWord_toNat (hgrant : grant < 32768) (hcount : count < 256) :
    (refWord grant count).toNat = count * 2 ^ 24 + grant := by
  rw [refWord, BitVec.toNat_ofNat]
  omega

/-- The grant is in the low half, the count in the highest byte. -/
theorem refWord_fields (hgrant : grant < 32768) (hcount : count < 256) :
    (refWord grant count).extractLsb' 0 16 = BitVec.ofNat 16 grant ∧
      (refWord grant count).extractLsb' 24 8 = BitVec.ofNat 8 count := by
  constructor <;> apply BitVec.eq_of_toNat_eq <;>
    rw [BitVec.extractLsb'_toNat, refWord_toNat hgrant hcount, Nat.shiftRight_eq_div_pow, BitVec.toNat_ofNat] <;> omega

end

theorem refBits_getElem? (w : RefWord) {i : Nat} (hi : i < 32) : (refBits w)[i]? = some (w.getLsbD (31 - i)) := by
  simp [refBits, hi]

section
variable (s : State) {n i : Nat}

@[simp] theorem sdoBytes_length (n : Nat) : (sdoBytes s n).length = n := by simp [sdoBytes]

theorem sdoBytes_getElem? (hi : i < n) :
    (sdoBytes s n)[i]? = some ((s.svp.response.map Response.bytes).getD [])[i]? := by
  simp [sdoBytes, hi]

/-- SDO idles while the response buffer is empty (R179). -/
theorem sdoBytes_empty (hi : i < n) (h : s.svp.response = none) : (sdoBytes s n)[i]? = some none := by
  rw [sdoBytes_getElem? s hi, h]
  rfl

theorem sdoBytes_response (hi : i < n) {r : Response} (h : s.svp.response = some r) :
    (sdoBytes s n)[i]? = some r.bytes[i]? := by
  rw [sdoBytes_getElem? s hi, h]
  rfl

end

/-- Settles O47: levels and their ends, what is assembled of them, and each layout by its fields. -/
theorem framesAndRecordsDecodeToTheirFields : Obligations.FramesAndRecordsDecodeToTheirFields := by
  refine ⟨fun _ => rfl, fun f => ⟨rfl, f.levels_length_eq⟩, fun levels => ⟨fun _ => endsAfter_zero_iff, ?_, ?_⟩,
    fun f => ?_, fun bs n later => assemble_characters later bs n, fun bs _ later => assemble_drivenStop later bs,
    fun _ => judge_bytes, fun r hid hid' hfirm hflex hecho => ?_,
    fun grant count hgrant hcount => ⟨refWord_toNat hgrant hcount, (refWord_fields hgrant hcount).1,
      (refWord_fields hgrant hcount).2, refBits_length _, fun i => refBits_getElem? _⟩,
    fun r => ?_, rfl, fun s n => ⟨sdoBytes_length s n, fun i hi => ⟨sdoBytes_empty s hi, fun r hr => ?_⟩⟩,
    fun b => ⟨rfl, rfl, b.levels_length, withCheck_ends (by decide) b.body⟩, rfl⟩
  · simp [wholeTransmission, Config.endRun]
  · simp [wholeRecord, Config.recordRun]
  · obtain ⟨n, hpos, hle, hwhole⟩ := withCheck_ends (limit := 10) le_rfl f.body
    exact ⟨n, hpos, hle, hwhole, assemble_whole f.bytes n⟩
  · obtain ⟨n, hpos, hle, hsent⟩ := shipRecordIn_sent r
    exact ⟨n, hpos, hle, hsent.trans (parseShip_body hid hid' hfirm hflex hecho)⟩
  · exact congrArg withCheck (List.append_assoc ..)
  · have hsent := sdoBytes_response s hi hr
    exact ⟨fun b hb => hsent.trans (congrArg some hb),
      fun hlen => hsent.trans (congrArg some (List.getElem?_eq_none hlen))⟩

end Sys2Proof.Machine
